-- ==== Sys2Proof/Word.lean ====
section
/-! DEFINITION. The byte, the register word and byte strings (00_scope.md R6, R10; 20_memory.md R50). -/

namespace Sys2Proof

/-- A byte of buffer memory (20_memory.md R50). -/
abbrev Byte := BitVec 8

/-- A register (10_state.md R23: every register is 32 bits wide). -/
abbrev Word := BitVec 32

/-- A byte string (00_scope.md R10). -/
abbrev Bytes := List Byte

end Sys2Proof
end

