-- ==== Sys2Proof/Config.lean ====
section
/-! DEFINITION. What an implementation fixes (00_scope.md R6) and the free values, which the spec leaves
open. A free value is a constant with no body: nothing can be proved about what it is. -/

namespace Sys2Proof

/-- A CoAP header as a codec's `Encode` takes it (45_flatten.md R226). -/
structure CoapHeader where
  ver    : Nat
  typ    : Nat
  tkl    : Nat
  code   : Byte
  mid    : Bytes
  token  : Bytes
  /-- (option number, value) in wire order -/
  opts   : List (Nat × Bytes)
  marker : Bool
deriving DecidableEq, Repr

/-- What a CoAP codec's `Parse` returns for a message it accepts (45_flatten.md R226). -/
structure CoapMessage where
  header : CoapHeader
  /-- length of the header, the marker included -/
  hlen   : Nat
deriving DecidableEq, Repr

/-- The parameter `COAP_CODEC` (00_scope.md R6): the reference codec of 45_flatten.md R227, R228 and R236,
or any other pair of functions (log 3). -/
inductive Codec
  | reference
  | external
deriving DecidableEq, Repr

/-- The parameters of 00_scope.md R6 and 10_state.md R23 that the spec leaves OPEN. They are held in State,
so that a statement about every state holds for every value of them; no step changes them. -/
structure Params where
  /-- `MEM_SIZE`, bytes of buffer memory (R6, R50), log 1 -/
  memSize     : Nat
  /-- `REG_BASE`, the base of the register window in the host's address space (R23), log 2 -/
  regBase     : Nat
  /-- `COAP_CODEC` (R226), log 3 -/
  codec       : Codec
  /-- `COAP_OPTION_TABLE` (R230), log 4 -/
  optionTable : List Nat
deriving DecidableEq, Repr

/-- `ID` reads 0x53434843 (10_state.md R38). -/
def Config.idValue : Word := 0x53434843#32

/-- `VERSION` reads 1 (10_state.md R38). -/
def Config.versionValue : Word := 0x00000001#32

/-- The 19 option numbers of 45_flatten.md R230. -/
def Config.defaultOptionTable : List Nat :=
  [1, 3, 4, 5, 6, 7, 8, 11, 12, 14, 15, 17, 20, 23, 27, 28, 35, 39, 60]

/-- The parameters `State.reset` takes: DESIGN CHOICE where the spec has them OPEN (log 1, 2), else the
spec's defaults (log 3, 4). -/
def Config.defaultParams : Params :=
  { memSize := 0x10000, regBase := 0, codec := .reference, optionTable := Config.defaultOptionTable }

/-- What a byte of memory that nothing has written reads as (70_reset_and_hazards.md R300 leaves it
unspecified). DESIGN CHOICE, unsafe: log 5. -/
def Config.unwritten : Byte := 0#8

/-- FREE VALUE: the `k`-th byte that "holds any value" (46_pipeline.md R254, R255; R300; R60), log 9. -/
opaque Config.freeByte : Nat → Byte

/-- FREE VALUE: whether the `k`-th "mix of old and new bytes" takes back the host's `j`-th write, the newest the
first (20_memory.md R60), log 9, 11. -/
opaque Config.freePick : Nat → Nat → Bool

/-- FREE VALUE: `Parse` of a codec that is not the reference codec (45_flatten.md R226), log 3. -/
opaque Config.externalParse : Bytes → Option CoapMessage

/-- FREE VALUE: `Encode` of a codec that is not the reference codec (45_flatten.md R226), log 3. -/
opaque Config.externalEncode : CoapHeader → Bytes

end Sys2Proof
end

