-- ==== Sys2Proof/Machine/State.lean ====
section
/-! DEFINITION. The state of the engine as plain data (10_state.md), the events of the host, the error codes
and the reasons a step can stop. -/

namespace Sys2Proof.Machine

/-- The command state `FSM` (10_state.md R21). -/
inductive Fsm
  | idle
  | busy
deriving DecidableEq, Repr

/-- The 19 registers at offsets 0x10 to 0x58 (10_state.md R23 to R28), the ones an issue snapshots (R30). -/
structure Regs where
  aAddr      : Word
  aPos       : Word
  bAddr      : Word
  bPos       : Word
  dAddr      : Word
  dPos       : Word
  len        : Word
  aux        : Word
  dir        : Word
  devId      : Word
  devtabAddr : Word
  devtabN    : Word
  ctxAddr    : Word
  ctxSize    : Word
  outCap     : Word
  node0      : Word
  node1      : Word
  node2      : Word
  node3      : Word
deriving DecidableEq, Repr

/-- The names of the registers of `Regs`. -/
inductive OpReg
  | aAddr | aPos | bAddr | bPos | dAddr | dPos | len | aux | dir | devId | devtabAddr | devtabN
  | ctxAddr | ctxSize | outCap | node0 | node1 | node2 | node3
deriving DecidableEq, Repr

/-- What an offset of the register window names (10_state.md R23, R36). -/
inductive RegName
  | cmd | status | result | result2
  | op (r : OpReg)
  | id | version
  | unmapped
deriving DecidableEq, Repr

/-- What an accepted issue keeps: the word and every register at 0x10 to 0x58 (10_state.md R30). -/
structure Snapshot where
  word : Word
  regs : Regs
deriving DecidableEq, Repr

/-- The buffer memory (20_memory.md R50). `cells` lists the bytes that differ from `Config.unwritten`;
`free` lists the addresses whose byte "holds any value", each with the number of its free value. Both are
sorted by address; no address is in both (`Memory.wf`). -/
structure Memory where
  cells : List Host.Cell
  free  : List (Nat × Nat)
deriving DecidableEq, Repr

/-- One thing that happens next at the engine's ports (log 6). -/
inductive Event
  /-- a host write of `size` bytes at host address `addr` (10_state.md R29, R35 to R37) -/
  | regWrite (addr size : Nat) (value : Word)
  /-- a host read of `size` bytes at host address `addr` (10_state.md R29, R33 to R38) -/
  | regRead (addr size : Nat)
  /-- a host write of one byte of buffer memory (20_memory.md R59, R60) -/
  | memWrite (addr : Nat) (value : Byte)
  /-- a host read of one byte of buffer memory (20_memory.md R59, R60) -/
  | memRead (addr : Nat)
  /-- reset (70_reset_and_hazards.md R300) -/
  | reset
  /-- the engine's turn: a running command completes (10_state.md R32), an idle engine waits (R301) -/
  | engine
deriving DecidableEq, Repr

/-- The error codes of 60_exceptions.md R280, without NONE. -/
inductive Err
  | illegalCmd | busFault | operand | ruleFormat | invalidPacket | insufficientBuffer | ruleNotFound
  | cursorOverrun | noDevice | fieldLength | noMatch | unsupported | indexRange | ctxOverflow
deriving DecidableEq, Repr

/-- Why the machine stops. A command never does: it completes, normally or with an error (R280, R287). -/
inductive Fault
  /-- Raised by a host access to a byte of buffer memory at or above `MEM_SIZE`, which does not exist
  (20_memory.md R50). Safe: the spec says nothing of it (log 17). -/
  | noSuchByte (addr : Nat)
deriving DecidableEq, Repr

/-- What the model refuses. -/
inductive Refusal
  /-- Raised by an arm of `exec` whose instruction has no meaning yet. Safe. -/
  | notModelled (mnemonic : String)
  /-- Raised by a command other than the bit commands whose output range, context region and input
  overlap: the outcome is unspecified and "a model refuses" it (20_memory.md R65). Safe (log 14). -/
  | regionOverlap
  /-- Raised by a register access that is not an aligned 32-bit one: its effect is unspecified and "a model
  refuses it" (10_state.md R37). Safe (log 15). -/
  | registerAccessShape
deriving DecidableEq, Repr

/-- The machine. `status`, `result`, `result2`, `regs`, `fsm`, `snap` and `mem` are the spec's;
`params` are its parameters; `events`, `readData`, `raced` and `freeIdx` are the model's own. -/
structure State where
  params   : Params
  /-- `FSM` (R21) -/
  fsm      : Fsm
  /-- `STATUS` (R33) -/
  status   : Word
  /-- `RESULT` (R34) -/
  result   : Word
  /-- `RESULT2` (R34) -/
  result2  : Word
  /-- the registers at 0x10 to 0x58 (R23) -/
  regs     : Regs
  /-- the snapshot of the last accepted issue (R30), log 8 -/
  snap     : Snapshot
  mem      : Memory
  /-- what happens next, first event first, log 6 -/
  events   : List Event
  /-- what the host's last read returned, log 7 -/
  readData : Word
  /-- the bytes the host has written since the accepted issue, newest first, each with the value it held before
  the write, log 11 -/
  raced    : List (Nat × Byte)
  /-- the number of the next free value, log 9 -/
  freeIdx  : Nat
deriving DecidableEq, Repr

/-- Every register of `Regs` at 0 (10_state.md R23, R43). -/
def Regs.zero : Regs :=
  { aAddr := 0, aPos := 0, bAddr := 0, bPos := 0, dAddr := 0, dPos := 0, len := 0, aux := 0, dir := 0,
    devId := 0, devtabAddr := 0, devtabN := 0, ctxAddr := 0, ctxSize := 0, outCap := 0,
    node0 := 0, node1 := 0, node2 := 0, node3 := 0 }

/-- Memory with nothing listed. -/
def Memory.empty : Memory := { cells := [], free := [] }

/-- The machine right after reset (10_state.md R43, 70_reset_and_hazards.md R300). The snapshot, the memory
contents, the parameters and the model's own fields are the model's choice (log 1 to 9). -/
def State.reset : State :=
  { params := Config.defaultParams, fsm := .idle, status := 0, result := 0, result2 := 0,
    regs := Regs.zero, snap := { word := 0, regs := Regs.zero }, mem := Memory.empty,
    events := [], readData := 0, raced := [], freeIdx := 0 }

end Sys2Proof.Machine
end

