-- ==== Sys2Proof/Machine/Flags.lean ====
section
/-! DEFINITION. The `STATUS` register: its fields and every value the engine gives it (10_state.md R30 to
R33, 60_exceptions.md R280, R283). There are no other flags (R39). -/

namespace Sys2Proof.Machine

/-- The number of an error code (60_exceptions.md R280). -/
def Err.code : Err → Nat
  | .illegalCmd => 0x1 | .busFault => 0x2 | .operand => 0x3 | .ruleFormat => 0x4 | .invalidPacket => 0x5
  | .insufficientBuffer => 0x6 | .ruleNotFound => 0x7 | .cursorOverrun => 0x8 | .noDevice => 0x9
  | .fieldLength => 0xA | .noMatch => 0xB | .unsupported => 0xC | .indexRange => 0xD | .ctxOverflow => 0xE

/-- `STATUS.BUSY`, bit 0 (R33). -/
def statusBusy (w : Word) : Bool := w.getLsbD 0
/-- `STATUS.DONE`, bit 1 (R33). -/
def statusDone (w : Word) : Bool := w.getLsbD 1
/-- `STATUS.ERR`, bit 2 (R33). -/
def statusErr (w : Word) : Bool := w.getLsbD 2
/-- `STATUS.OVR`, bit 3 (R33). -/
def statusOvr (w : Word) : Bool := w.getLsbD 3
/-- `STATUS.ERRCODE`, bits 15:8 (R33). -/
def statusErrCode (w : Word) : Nat := w.toNat / 256 % 256
/-- The reserved bits 7:4 and 31:16 (R33). -/
def statusReserved (w : Word) : Word := w &&& 0xFFFF00F0#32

/-- An accepted issue: BUSY = 1, everything else cleared (R30). -/
def statusIssued : Word := 0x00000001#32

/-- A dropped issue: OVR set, the rest unchanged (R31). -/
def statusDropped (old : Word) : Word := old ||| 0x8#32

/-- A normal completion: BUSY 0, DONE 1, ERR 0, ERRCODE 0, OVR unchanged (R32). -/
def statusOk (old : Word) : Word := (old &&& 0x8#32) ||| 0x2#32

/-- An error completion: `0x00000006 + E * 0x100`, plus 0x8 if OVR is set (R283). -/
def statusError (old : Word) (code : Nat) : Word :=
  (old &&& 0x8#32) ||| 0x6#32 ||| BitVec.ofNat 32 (code * 0x100)

/-- A completion whose ERRCODE is `code`, 0 for none (R32, R283). -/
def statusOfCode (old : Word) (code : Nat) : Word :=
  if code = 0 then statusOk old else statusError old code

end Sys2Proof.Machine
end

