-- ==== Sys2Proof/Syntax.lean ====
section
/-! DEFINITION. The command set: one constructor per row of the opcode map (30_encoding.md R73). A command
word carries no operand field (R72), so no constructor has an argument. -/

namespace Sys2Proof

/-- The 42 commands of 30_encoding.md R73. -/
inductive Instr
  | getb | setb | clrb | cpyb | cmpb | shlb | shrb | xorb | andb
  | meq | mign | mmsb | mmap | mdisp
  | cOmit | cVal | cMap | cLsb | cDlen | cDchk | cDeviid | cAppiid
  | dOmit | dVal | dMap | dLsb | dDlen | dDchk | dDeviid | dAppiid
  | rsel | clayer | dlayer
  | flat6 | flatu | flatc
  | ridpk | ridunpk | comp | decomp | plen | pchk
deriving DecidableEq, Repr

end Sys2Proof
end

