-- ==== Sys2Proof/WellFormed.lean ====
section
/-! DEFINITION. What is well-formed: an instruction (it has no fields, so each is), a command word, the
parameters, and the shape of a register access. -/

namespace Sys2Proof

/-- 30_encoding.md R70, R72: a command carries no operand field, so nothing in one can be ill-formed. -/
def Instr.wellFormed (_ : Instr) : Bool := true

/-- The opcode values of 30_encoding.md R73, as ranges: 0x10 to 0x18, 0x20 to 0x24, 0x30 to 0x37, 0x40 to
0x47, 0x50 to 0x52, 0x58 to 0x5A, 0x60 to 0x65. R75 lists the rest as reserved. -/
def opcodeListed (n : Nat) : Bool :=
  (0x10 ≤ n && n ≤ 0x18) || (0x20 ≤ n && n ≤ 0x24) || (0x30 ≤ n && n ≤ 0x37) || (0x40 ≤ n && n ≤ 0x47) ||
  (0x50 ≤ n && n ≤ 0x52) || (0x58 ≤ n && n ≤ 0x5A) || (0x60 ≤ n && n ≤ 0x65)

/-- 30_encoding.md R70, R75: a legal command word has bits 31:8 zero and a listed opcode. -/
def wordWellFormed (w : Word) : Bool := w.toNat / 256 == 0 && opcodeListed (w.toNat % 256)

/-- 00_scope.md R6: `1 ≤ MEM_SIZE ≤ 2^32`. -/
def Params.wellFormed (p : Params) : Bool := 1 ≤ p.memSize && p.memSize ≤ 2 ^ 32

/-- 10_state.md R37: only aligned 32-bit register accesses; `offset` counts bytes from `REG_BASE`. -/
def accessWellFormed (offset size : Nat) : Bool := size == 4 && offset % 4 == 0

end Sys2Proof
end

