-- ==== Sys2Proof/Machine/Ops.lean ====
section
/-! DEFINITION. The shared operations: byte order, buffer memory and its range checks, the register file,
command issue, and completion, normal or with an error. -/

namespace Sys2Proof.Machine

/-! ## Byte strings (00_scope.md R10) -/

/-- `BE(s)`: the unsigned integer whose big-endian representation is `s`. -/
def be (s : Bytes) : Nat := s.foldl (fun v b => v * 256 + b.toNat) 0

/-- `BYTES_n(v)`: the `n`-byte big-endian representation of `v mod 2^(8n)`. -/
def bytesBE : Nat → Nat → Bytes
  | 0, _ => []
  | n + 1, v => BitVec.ofNat 8 (v / 256 ^ n) :: bytesBE n v

/-- `nb(L) = ceil(L / 8)`. -/
def nb (bits : Nat) : Nat := (bits + 7) / 8

/-- `Z(n)`: `n` zero bytes. -/
def zeros (n : Nat) : Bytes := List.replicate n 0#8

/-- `s[i .. i+n)`. -/
def slice (s : Bytes) (i n : Nat) : Bytes := (s.drop i).take n

/-- The integer in the `n` bytes of `s` from `i`, most significant first (20_memory.md R51). -/
def fieldAt (s : Bytes) (i n : Nat) : Nat := be (slice s i n)

/-- Apply `f 0`, `f 1`, ..., `f (n-1)` in this order. -/
def stepsUp {σ : Type} (f : Nat → σ → σ) : Nat → σ → σ
  | 0, x => x
  | n + 1, x => f n (stepsUp f n x)

/-! ## Buffer memory (20_memory.md) -/

/-- The entry of `a` in a list of (address, value) pairs. -/
def assoc {α : Type} (a : Nat) : List (Nat × α) → Option α
  | [] => none
  | (k, v) :: rest => if k = a then some v else assoc a rest

/-- Addresses strictly rising. -/
def rising {α : Type} : List (Nat × α) → Bool
  | [] => true
  | [_] => true
  | x :: y :: rest => x.1 < y.1 && rising (y :: rest)

/-- The canonical form: both lists strictly rising, no listed byte equal to what an unlisted address reads
as, and no address in both lists. -/
def Memory.wf (m : Memory) : Bool :=
  rising m.cells && rising m.free && m.cells.all (fun c => c.2 != Config.unwritten) &&
  m.cells.all (fun c => (assoc c.1 m.free).isNone)

/-- Every listed address exists (20_memory.md R50). -/
def Memory.within (m : Memory) (size : Nat) : Bool :=
  m.cells.all (fun c => c.1 < size) && m.free.all (fun c => c.1 < size)

/-- The byte at an address. -/
def Memory.get (m : Memory) (a : Nat) : Byte :=
  match assoc a m.free with
  | some k => Config.freeByte k
  | none => (assoc a m.cells).getD Config.unwritten

/-- The `n` bytes from `a`. -/
def Memory.read (m : Memory) (a : Nat) : Nat → Bytes
  | 0 => []
  | n + 1 => m.get a :: m.read (a + 1) n

/-- The entries below `a`. -/
def below {α : Type} (a : Nat) (l : List (Nat × α)) : List (Nat × α) := l.filter (fun c => c.1 < a)

/-- The entries at or above `a`. -/
def above {α : Type} (a : Nat) (l : List (Nat × α)) : List (Nat × α) := l.filter (fun c => a ≤ c.1)

/-- The entries of bytes stored from `a`: none for a byte equal to what an unlisted address reads as. -/
def cellsOf : Nat → Bytes → List Host.Cell
  | _, [] => []
  | a, b :: rest => if b = Config.unwritten then cellsOf (a + 1) rest else (a, b) :: cellsOf (a + 1) rest

/-- The entries of `n` free bytes from `a`, numbered from `k`. -/
def freeOf (a : Nat) : Nat → Nat → List (Nat × Nat)
  | 0, _ => []
  | n + 1, k => (a, k) :: freeOf (a + 1) n (k + 1)

/-- Store the bytes `s` from address `a`. -/
def Memory.put (m : Memory) (a : Nat) (s : Bytes) : Memory :=
  { cells := below a m.cells ++ (cellsOf a s ++ above (a + s.length) m.cells),
    free := below a m.free ++ above (a + s.length) m.free }

/-- Let the `n` bytes from `a` hold any value: free values numbered from `k` (log 9). -/
def Memory.clobber (m : Memory) (a n k : Nat) : Memory :=
  { cells := below a m.cells ++ above (a + n) m.cells,
    free := below a m.free ++ (freeOf a n k ++ above (a + n) m.free) }

/-- `Bit(base, p)`: bit `7 - (p mod 8)` of the byte at `base + floor(p / 8)` (00_scope.md R8). -/
def Memory.bit (m : Memory) (base p : Nat) : Bool := (m.get (base + p / 8)).getLsbD (7 - p % 8)

/-- `v` with bit `7 - (p mod 8)` set to `b`, the other seven bits unchanged. -/
def setBitOf (v : Byte) (p : Nat) (b : Bool) : Byte :=
  if b then v ||| (0x80#8 >>> (p % 8)) else v &&& ~~~(0x80#8 >>> (p % 8))

/-- `PutBit(base, p, b)` (00_scope.md R10, 20_memory.md R56). -/
def Memory.putBit (m : Memory) (base p : Nat) (b : Bool) : Memory :=
  m.put (base + p / 8) [setBitOf (m.get (base + p / 8)) p b]

/-! ## Ranges of bytes -/

/-- The bytes `base .. base+len-1`. Sums do not wrap (20_memory.md R53). -/
structure Range where
  base : Nat
  len  : Nat
deriving DecidableEq, Repr

/-- Whether an address lies in the range. -/
def Range.has (r : Range) (a : Nat) : Bool := r.base ≤ a && a < r.base + r.len

/-- Whether two ranges share a byte. -/
def Range.meets (r q : Range) : Bool :=
  r.len != 0 && q.len != 0 && r.base < q.base + q.len && q.base < r.base + r.len

/-- Whether two of the ranges share a byte. -/
def rangesMeet : List Range → Bool
  | [] => false
  | r :: rest => rest.any r.meets || rangesMeet rest

/-- Whether one of the addresses lies in one of the ranges. -/
def anyIn (addrs : List Nat) (rs : List Range) : Bool := addrs.any (fun a => rs.any (fun r => r.has a))

/-- The bytes a bit range touches: none if it is empty, else `base + floor(pos/8)` to
`base + floor((pos+len-1)/8)` (20_memory.md R54). -/
def bitRange (base pos len : Nat) : Range :=
  if len = 0 then ⟨base + pos / 8, 0⟩
  else ⟨base + pos / 8, (pos + len - 1) / 8 - pos / 8 + 1⟩

/-! ## Reading memory in a command (00_scope.md R10) -/

/-- Why a command's computation ends early. -/
inductive Stop
  /-- `raise E` -/
  | err (e : Err)
  /-- it reads a byte of its own output range or context region (20_memory.md R65) -/
  | overlap
  /-- it reads a byte the host wrote while it was running (20_memory.md R60) -/
  | raced
deriving DecidableEq, Repr

/-- The result of a command's computation. -/
abbrev Comp := Except Stop

/-- `raise E` (00_scope.md R10). -/
def raise {α : Type} (e : Err) : Comp α := .error (.err e)

/-- What a command sees of the machine beside its snapshot. -/
structure View where
  mem    : Memory
  /-- `MEM_SIZE` -/
  size   : Nat
  codec  : Codec
  table  : List Nat
  /-- the ranges that the command must not read (20_memory.md R65) -/
  guard  : List Range
  /-- the bytes the host wrote since the issue (20_memory.md R60) -/
  raced  : List Nat

/-- The range check of 20_memory.md R52: `BUS_FAULT` unless `a + n ≤ MEM_SIZE`; 0 bytes never fault. -/
def checkRange (v : View) (a n : Nat) : Comp Unit :=
  if n ≠ 0 ∧ v.size < a + n then raise .busFault else .ok ()

/-- Reading bytes whose range is checked stops where the host wrote one of them (R60). -/
def sense (v : View) (rg : Range) : Comp Unit :=
  if anyIn v.raced [rg] then .error .raced else .ok ()

/-- The checks of an access that reads the bytes `a .. a+n-1`: the range check, then R65 and R60. -/
def touch (v : View) (a n : Nat) : Comp Unit :=
  if n ≠ 0 ∧ v.size < a + n then raise .busFault
  else if v.guard.any (Range.meets ⟨a, n⟩) then .error .overlap
  else sense v ⟨a, n⟩

/-- `MemRead(a, n)` (00_scope.md R10). -/
def readBytes (v : View) (a n : Nat) : Comp Bytes := do
  touch v a n
  return v.mem.read a n

/-- The unsigned integer in the `n` bytes at `a`: `u8`, `u16` and `u32` (00_scope.md R10). -/
def readNat (v : View) (a n : Nat) : Comp Nat := do
  let s ← readBytes v a n
  return be s

/-- `CheckBits(base, pos, len)`, which reads nothing (20_memory.md R54). -/
def checkBits (v : View) (base pos len : Nat) : Comp Unit :=
  checkRange v (bitRange base pos len).base (bitRange base pos len).len

/-! ## The register file (10_state.md R23 to R28, R36, R38) -/

/-- Read a register of `Regs`. -/
def Regs.get (r : Regs) : OpReg → Word
  | .aAddr => r.aAddr | .aPos => r.aPos | .bAddr => r.bAddr | .bPos => r.bPos | .dAddr => r.dAddr
  | .dPos => r.dPos | .len => r.len | .aux => r.aux | .dir => r.dir | .devId => r.devId
  | .devtabAddr => r.devtabAddr | .devtabN => r.devtabN | .ctxAddr => r.ctxAddr | .ctxSize => r.ctxSize
  | .outCap => r.outCap | .node0 => r.node0 | .node1 => r.node1 | .node2 => r.node2 | .node3 => r.node3

/-- Write a register of `Regs`: all 32 bits are writable (R24 to R28). -/
def Regs.set (r : Regs) (w : Word) : OpReg → Regs
  | .aAddr => { r with aAddr := w } | .aPos => { r with aPos := w } | .bAddr => { r with bAddr := w }
  | .bPos => { r with bPos := w } | .dAddr => { r with dAddr := w } | .dPos => { r with dPos := w }
  | .len => { r with len := w } | .aux => { r with aux := w } | .dir => { r with dir := w }
  | .devId => { r with devId := w } | .devtabAddr => { r with devtabAddr := w }
  | .devtabN => { r with devtabN := w } | .ctxAddr => { r with ctxAddr := w }
  | .ctxSize => { r with ctxSize := w } | .outCap => { r with outCap := w } | .node0 => { r with node0 := w }
  | .node1 => { r with node1 := w } | .node2 => { r with node2 := w } | .node3 => { r with node3 := w }

/-- The register map (10_state.md R23). -/
def regAt : Nat → RegName
  | 0x00 => .cmd | 0x04 => .status | 0x08 => .result | 0x0C => .result2
  | 0x10 => .op .aAddr | 0x14 => .op .aPos | 0x18 => .op .bAddr | 0x1C => .op .bPos
  | 0x20 => .op .dAddr | 0x24 => .op .dPos | 0x28 => .op .len | 0x2C => .op .aux
  | 0x30 => .op .dir | 0x34 => .op .devId | 0x38 => .op .devtabAddr | 0x3C => .op .devtabN
  | 0x40 => .op .ctxAddr | 0x44 => .op .ctxSize | 0x48 => .op .outCap
  | 0x4C => .op .node0 | 0x50 => .op .node1 | 0x54 => .op .node2 | 0x58 => .op .node3
  | 0x5C => .id | 0x60 => .version
  | _ => .unmapped

/-- What a read of the register at an offset returns (10_state.md R23, R29, R33, R34, R36, R38). -/
def readRegister (s : State) (offset : Nat) : Word :=
  match regAt offset with
  | .cmd => 0
  | .status => s.status
  | .result => s.result
  | .result2 => s.result2
  | .op r => s.regs.get r
  | .id => Config.idValue
  | .version => Config.versionValue
  | .unmapped => 0

/-- An issue while IDLE is accepted (10_state.md R30). -/
def State.acceptIssue (s : State) (w : Word) : State :=
  { s with status := statusIssued, snap := { word := w, regs := s.regs }, fsm := .busy, raced := [] }

/-- An issue while BUSY is dropped; its only effect is OVR (10_state.md R31). -/
def State.dropIssue (s : State) : State := { s with status := statusDropped s.status }

/-- A host write of `w` to `CMD` (10_state.md R29 to R31). -/
def State.issue (s : State) (w : Word) : State :=
  match s.fsm with
  | .idle => s.acceptIssue w
  | .busy => s.dropIssue

/-- A host write to the register at an offset (10_state.md R24 to R29, R33 to R36). -/
def writeRegister (s : State) (offset : Nat) (w : Word) : State :=
  match regAt offset with
  | .cmd => s.issue w
  | .op r => { s with regs := s.regs.set w r }
  | .status => s
  | .result => s
  | .result2 => s
  | .id => s
  | .version => s
  | .unmapped => s

/-! ## Completion (10_state.md R32, 60_exceptions.md R283) -/

/-- What a command that succeeds does: memory writes, in order, and its two results. -/
structure Effect where
  writes  : List (Nat × Bytes)
  result  : Nat
  result2 : Nat
deriving DecidableEq, Repr

/-- The ranges the writes cover. -/
def Effect.ranges (e : Effect) : List Range := e.writes.map (fun w => ⟨w.1, w.2.length⟩)

/-- Apply the writes in order. -/
def storeAll (m : Memory) : List (Nat × Bytes) → Memory
  | [] => m
  | (a, s) :: rest => storeAll (m.put a s) rest

/-- Let every byte of the ranges that exists hold any value, a fresh free value each. -/
def State.clobber (s : State) : List Range → State
  | [] => s
  | r :: rest =>
    let n := min r.len (s.params.memSize - r.base)
    State.clobber { s with mem := s.mem.clobber r.base n s.freeIdx, freeIdx := s.freeIdx + n } rest

/-- Normal completion (10_state.md R32). -/
def State.completeOk (s : State) (e : Effect) : State :=
  { s with
    fsm := .idle, status := statusOk s.status, result := BitVec.ofNat 32 e.result,
    result2 := BitVec.ofNat 32 e.result2, mem := storeAll s.mem e.writes, raced := [] }

/-- Error completion (60_exceptions.md R283), which is all that taking an error does (R286). There is no
return operation: after any completion the engine is IDLE (R287). -/
def State.completeError (s : State) (e : Err) : State :=
  { s with
    fsm := .idle, status := statusError s.status e.code, result := 0xFFFFFFFF#32, result2 := 0, raced := [] }

/-- Completion of a command whose host broke the duty of 20_memory.md R60, with the results and the ERRCODE `code`
(0 for none) that it then has (log 11). -/
def State.completeRaced (s : State) (result result2 : Word) (code : Nat) : State :=
  { s with
    fsm := .idle, status := statusOfCode s.status code, result := result, result2 := result2, raced := [] }

/-- A command: the function of 00_scope.md R12, and what its completion needs to know beside it. -/
structure Command where
  /-- the bytes it may write, from its registers alone -/
  regions : Regs → List Range
  /-- whether 20_memory.md R65 asks for a refusal when `apart` overlap each other or `regions` what it reads -/
  guarded : Bool
  /-- the bytes that hold any value after it (46_pipeline.md R254, R255), before its writes are applied -/
  scratch : Regs → List Range
  /-- its function of memory and the snapshot -/
  run     : View → Regs → Comp Effect
  /-- the output range and the context region, where it uses them: no two may overlap (R65, 70_reset_and_hazards.md
  R310). They are the regions it writes, but for a context region that it only reads -/
  apart   : Regs → List Range := regions

/-- What the command sees in a state. -/
def Command.view (c : Command) (s : State) : View :=
  { mem := s.mem, size := s.params.memSize, codec := s.params.codec, table := s.params.optionTable,
    guard := if c.guarded then c.regions s.snap.regs else [], raced := s.raced.map Prod.fst }

/-- The command's computation in a state, on the snapshot (10_state.md R30). -/
def Command.compute (c : Command) (s : State) : Comp Effect :=
  if c.guarded && rangesMeet (c.apart s.snap.regs) then .error .overlap
  else c.run (c.view s) s.snap.regs

/-- Memory with the host's writes of `raced` from the `j`-th on taken back where the `k`-th mix does so. -/
def mixOf (k : Nat) : Nat → List (Nat × Byte) → Memory → Memory
  | _, [], m => m
  | j, (a, old) :: rest, m => mixOf k (j + 1) rest (if Config.freePick k j then m.put a [old] else m)

/-- The state on the `k`-th mix of old and new bytes (20_memory.md R60), with no race left in it. -/
def State.mixed (s : State) (k : Nat) : State := { s with mem := mixOf k 0 s.raced s.mem, raced := [] }

/-- The bytes a command writes that computes `x` on the snapshot `r`, those left holding any value included; where
R65 leaves it open, every byte it may write. -/
def Command.writtenBy (c : Command) (r : Regs) (x : Comp Effect) : List Range :=
  match x with
  | .ok e => c.scratch r ++ e.ranges
  | .error (.err _) => c.scratch r
  | .error .overlap => c.regions r
  | .error .raced => c.regions r

/-- The bytes the command writes in a state. Where they depend on bytes that the host wrote while it was running, the
next mix tells (R60). -/
def Command.written (c : Command) (s : State) : List Range :=
  match c.compute s with
  | .error .raced => c.writtenBy s.snap.regs (c.compute (s.mixed s.freeIdx))
  | x => c.writtenBy s.snap.regs x

/-- What a completion reports: `RESULT`, `RESULT2` and `ERRCODE`. -/
structure Report where
  result  : Word
  result2 : Word
  code    : Nat
deriving DecidableEq, Repr

/-- What the completion of a computation reports (10_state.md R32, 60_exceptions.md R283); none for one that does not
complete. -/
def reportOf : Comp Effect → Option Report
  | .ok e => some ⟨BitVec.ofNat 32 e.result, BitVec.ofNat 32 e.result2, 0⟩
  | .error (.err e) => some ⟨0xFFFFFFFF#32, 0, e.code⟩
  | .error .overlap => none
  | .error .raced => none

/-- The completion of a command that reads a byte the host wrote while it was running (R60): `RESULT`, `RESULT2`,
`ERRCODE` and the bytes written each come from a mix of their own, and the bytes written hold any value. A mix in which
the command meets its own regions is refused (R65). -/
def performRaced (c : Command) (s : State) : Host.Outcome State Fault Refusal :=
  match reportOf (c.compute (s.mixed s.freeIdx)), reportOf (c.compute (s.mixed (s.freeIdx + 1))),
      reportOf (c.compute (s.mixed (s.freeIdx + 2))), reportOf (c.compute (s.mixed (s.freeIdx + 3))) with
  | some x, some y, some z, some _ =>
    .next ((State.clobber { s with freeIdx := s.freeIdx + 4 } (c.written (s.mixed (s.freeIdx + 3)))).completeRaced
      x.result y.result2 z.code)
  | _, _, _, _ => .refused .regionOverlap

/-- Run a command to its completion, in one atomic step (10_state.md R32). Where the host wrote none of the bytes it
reads but one that it writes, its results stand and the bytes it writes hold any value (R60). -/
def perform (c : Command) (s : State) : Host.Outcome State Fault Refusal :=
  match c.compute s with
  | .ok e =>
    if anyIn (s.raced.map Prod.fst) (c.written s) then
      .next ((s.clobber (c.written s)).completeOk { e with writes := [] })
    else .next ((s.clobber (c.scratch s.snap.regs)).completeOk e)
  | .error (.err e) => .next ((s.clobber (c.scratch s.snap.regs)).completeError e)
  | .error .overlap => .refused .regionOverlap
  | .error .raced => performRaced c s

end Sys2Proof.Machine
end

