-- ==== Sys2Proof/Machine/Operands.lean ====
section
/-! DEFINITION. Every operand form: the register operands, and the records in memory that commands read
(30_encoding.md sections 5 to 9, 44_rule_selection.md R200, R210). -/

namespace Sys2Proof.Machine

/-! ## Register operands -/

/-- A packet direction: the legal values of `DIR` (10_state.md R25). -/
inductive PacketDir
  | up
  | down
deriving DecidableEq, Repr

/-- A layer: the legal values of `AUX` for `RSEL`, `CLAYER` and `DLAYER` (44_rule_selection.md R203). -/
inductive Layer
  | ip6
  | udp
  | coap
deriving DecidableEq, Repr

/-- 0 = IPv6, 1 = UDP, 2 = CoAP (30_encoding.md R86). -/
def Layer.number : Layer → Nat
  | .ip6 => 0 | .udp => 1 | .coap => 2

/-- `CheckDir()` (44_rule_selection.md R210). -/
def checkDir (r : Regs) : Comp PacketDir :=
  if r.dir = 1#32 then .ok .up else if r.dir = 2#32 then .ok .down else raise .operand

/-- `if x[AUX] > 2: raise OPERAND` (44_rule_selection.md R203, R205, R207). -/
def checkLayer (r : Regs) : Comp Layer :=
  if r.aux = 0#32 then .ok .ip6 else if r.aux = 1#32 then .ok .udp else if r.aux = 2#32 then .ok .coap
  else raise .operand

/-- `NodeIID`: bytes 8 to 15 of the node address (10_state.md R28). -/
def nodeIid (r : Regs) : Bytes := bytesBE 4 r.node2.toNat ++ bytesBE 4 r.node3.toNat

/-! ## Field descriptors (30_encoding.md R84) -/

/-- A descriptor's `dir`: 1 = UP, 2 = DOWN, 3 = BI. -/
inductive FieldDir
  | up
  | down
  | bi
deriving DecidableEq, Repr

/-- A descriptor's `mo`, 0 to 3. -/
inductive Mo
  | equal
  | ignore
  | msb
  | map
deriving DecidableEq, Repr

/-- A descriptor's `cda`, 0 to 7. -/
inductive Cda
  | omit
  | sendValue
  | sendIndex
  | sendLsb
  | deferLength
  | deferChecksum
  | deriveDevIid
  | deriveAppIid
deriving DecidableEq, Repr

/-- A descriptor's `form`: 0 = single bytes, 1 = length-prefixed list. -/
inductive Form
  | single
  | prefixed
deriving DecidableEq, Repr

/-- A field descriptor; `bits` is its `L`, `par` its `M` or `K`. -/
structure Desc where
  fid   : Nat
  dir   : FieldDir
  mo    : Mo
  bits  : Nat
  par   : Nat
  cda   : Cda
  form  : Form
  tlen  : Nat
  taddr : Nat
deriving DecidableEq, Repr

/-- Legal values of `dir`. -/
def fieldDirOf : Nat → Option FieldDir
  | 1 => some .up | 2 => some .down | 3 => some .bi | _ => none

/-- Legal values of `mo`. -/
def moOf : Nat → Option Mo
  | 0 => some .equal | 1 => some .ignore | 2 => some .msb | 3 => some .map | _ => none

/-- Legal values of `cda`. -/
def cdaOf : Nat → Option Cda
  | 0 => some .omit | 1 => some .sendValue | 2 => some .sendIndex | 3 => some .sendLsb
  | 4 => some .deferLength | 5 => some .deferChecksum | 6 => some .deriveDevIid | 7 => some .deriveAppIid
  | _ => none

/-- Legal values of `form`. -/
def formOf : Nat → Option Form
  | 0 => some .single | 1 => some .prefixed | _ => none

/-- The fields of a 16-byte descriptor; `RULE_FORMAT` if `dir`, `mo`, `cda` or `form` is illegal. -/
def parseDesc (s : Bytes) : Comp Desc :=
  match fieldDirOf (fieldAt s 2 1), moOf (fieldAt s 3 1), cdaOf (fieldAt s 8 1), formOf (fieldAt s 9 1) with
  | some dir, some mo, some cda, some form =>
    .ok { fid := fieldAt s 0 2, dir := dir, mo := mo, bits := fieldAt s 4 2, par := fieldAt s 6 2, cda := cda,
          form := form, tlen := fieldAt s 10 2, taddr := fieldAt s 12 4 }
  | _, _, _, _ => raise .ruleFormat

/-- `ReadDesc(a)` (30_encoding.md R84). -/
def readDesc (v : View) (a : Nat) : Comp Desc := do
  let s ← readBytes v a 16
  parseDesc s

/-! ## Targets (30_encoding.md R85) -/

/-- `TargetValue(d)`. -/
def targetValue (v : View) (d : Desc) : Comp Bytes :=
  if d.tlen ≠ nb d.bits then raise .ruleFormat else readBytes v d.taddr d.tlen

/-- Form 0 candidates: `K` single bytes that fill the target. -/
def singleCandidates (k : Nat) (t : Bytes) : Comp (List Bytes) :=
  if t.length ≠ k then raise .ruleFormat else .ok (t.map (fun b => [b]))

/-- Form 1 candidates: `k` entries, each a length byte and that many bytes, that fill the target. -/
def prefixedCandidates : Nat → Bytes → Comp (List Bytes)
  | 0, [] => .ok []
  | 0, _ :: _ => raise .ruleFormat
  | _ + 1, [] => raise .ruleFormat
  | k + 1, n :: rest =>
    if rest.length < n.toNat then raise .ruleFormat
    else do
      let others ← prefixedCandidates k (rest.drop n.toNat)
      return rest.take n.toNat :: others

/-- `Candidates(d)`. -/
def candidates (v : View) (d : Desc) : Comp (List Bytes) :=
  if d.par > 256 then raise .ruleFormat
  else do
    let t ← readBytes v d.taddr d.tlen
    match d.form with
    | .single => singleCandidates d.par t
    | .prefixed => prefixedCandidates d.par t

/-- The smallest index, from `i` on, of the candidate equal to `c` (41_predicates.md R144,
42_compress_actions.md R163). -/
def indexOfCandidate (c : Bytes) : Nat → List Bytes → Option Nat
  | _, [] => none
  | i, x :: rest => if c = x then some i else indexOfCandidate c (i + 1) rest

/-! ## Rule records (30_encoding.md R86, R87) -/

/-- What `ReadRule` returns. -/
structure Rule where
  ruleId : Nat
  fields : List Desc
deriving DecidableEq, Repr

/-- `n` descriptors from `a`, each passing `ReadDesc`, in order. -/
def readDescs (v : View) : Nat → Nat → Comp (List Desc)
  | _, 0 => .ok []
  | a, n + 1 => do
    let d ← readDesc v a
    let rest ← readDescs v (a + 16) n
    return d :: rest

/-- Whether a descriptor applies in a packet direction (44_rule_selection.md R200). -/
def Desc.applies (dir : PacketDir) (d : Desc) : Bool :=
  match d.dir, dir with
  | .bi, _ => true
  | .up, .up => true
  | .up, .down => false
  | .down, .up => false
  | .down, .down => true

/-- `Applicable(rule, dir)` (44_rule_selection.md R200). -/
def applicable (fields : List Desc) (dir : PacketDir) : List Desc := fields.filter (Desc.applies dir)

/-- The largest rule id of a layer (30_encoding.md R81, R87). -/
def Layer.maxRuleId : Layer → Nat
  | .ip6 => 3 | .udp => 3 | .coap => 7

/-- `ReadRule(r, layer)` (30_encoding.md R87). The 8 header bytes are one read (log 19). -/
def readRule (v : View) (a : Nat) (layer : Layer) : Comp Rule := do
  let h ← readBytes v a 8
  if fieldAt h 1 1 ≠ layer.number then raise .ruleFormat
  else if fieldAt h 0 1 < 1 ∨ layer.maxRuleId < fieldAt h 0 1 then raise .ruleFormat
  else do
    let fields ← readDescs v (a + 8) (fieldAt h 2 2)
    if fieldAt h 4 2 ≠ (applicable fields .up).length ∨ fieldAt h 6 2 ≠ (applicable fields .down).length then
      raise .ruleFormat
    else return { ruleId := fieldAt h 0 1, fields := fields }

/-! ## The device table (30_encoding.md R88, R89) -/

/-- The first of `n` 32-byte records from `a` whose `dev_id` is `id`. -/
def findDevice (v : View) (id : Nat) : Nat → Nat → Comp Nat
  | _, 0 => raise .noDevice
  | a, n + 1 => do
    let k ← readNat v a 4
    if k = id then return a else findDevice v id (a + 32) n

/-- `LookupDevice()`: the address of the device's record (R89). -/
def lookupDevice (v : View) (r : Regs) : Comp Nat :=
  findDevice v r.devId.toNat r.devtabAddr.toNat r.devtabN.toNat

/-- The layer's rule list in the device record at `dev`: its address and its count (R88, log 20). -/
def ruleList (v : View) (dev : Nat) (layer : Layer) : Comp (Nat × Nat) := do
  let list ← readNat v (dev + 4 + 4 * layer.number) 4
  let cnt ← readNat v (dev + 16 + layer.number) 1
  return (list, cnt)

/-! ## Columns and the context region (30_encoding.md R83, R90 to R93) -/

/-- A column: field id and value. -/
structure Col where
  fid : Nat
  val : Bytes
deriving DecidableEq, Repr

/-- Whether R82 assigns a field id; 0x0100 + n is assigned for an option number n of the table (45_flatten.md R230). -/
def assignedFid (table : List Nat) (fid : Nat) : Bool :=
  (0x01 ≤ fid && fid ≤ 0x0A) || (0x11 ≤ fid && fid ≤ 0x14) || (0x21 ≤ fid && fid ≤ 0x27) ||
  (0x100 ≤ fid && table.contains (fid - 0x100))

/-- Whether a descriptor pairs with a column: the same id, which an unassigned id never is (R82, 44_rule_selection.md
R201). -/
def Desc.pairs (v : View) (f : Desc) (c : Col) : Bool := f.fid == c.fid && assignedFid v.table f.fid

/-- `Σ len(v_i)`. -/
def valuesLen : List Col → Nat
  | [] => 0
  | c :: rest => c.val.length + valuesLen rest

/-- `CtxNeed(cols) = U = 8 + 8n + Σ len(v_i)` (R90, R93). -/
def ctxNeed (cols : List Col) : Nat := 8 + 8 * cols.length + valuesLen cols

/-- The entries of the columns, the first value at address `a` (R90). What does not fit its entry is stored modulo the
entry's size (log 22): a length, the field id 0x0100 + n of an option number n from 0xFF00 on, the address 2^32 of an
empty last value. -/
def colEntries : Nat → List Col → Bytes
  | _, [] => []
  | a, c :: rest =>
    bytesBE 2 c.fid ++ bytesBE 2 c.val.length ++ bytesBE 4 a ++ colEntries (a + c.val.length) rest

/-- `v_0 || ... || v_{n-1}`. -/
def colValues : List Col → Bytes
  | [] => []
  | c :: rest => c.val ++ colValues rest

/-- The `U` bytes of R90 for a region at `base`. A count or size that does not fit is stored modulo its size
(log 22). -/
def colImage (base : Nat) (cols : List Col) : Bytes :=
  bytesBE 2 cols.length ++ bytesBE 2 0 ++ bytesBE 4 (ctxNeed cols) ++
  colEntries (base + 8 + 8 * cols.length) cols ++ colValues cols

/-- The checks of `WriteColumns(cols)` and the write it makes (R91, R52). -/
def writeColumns (v : View) (r : Regs) (cols : List Col) : Comp (Nat × Bytes) :=
  if r.ctxSize.toNat < ctxNeed cols then raise .ctxOverflow
  else do
    checkRange v r.ctxAddr.toNat (ctxNeed cols)
    return (r.ctxAddr.toNat, colImage r.ctxAddr.toNat cols)

/-- The columns whose `n` entries stand from `a` (R92). -/
def readEntries (v : View) : Nat → Nat → Comp (List Col)
  | _, 0 => .ok []
  | a, n + 1 => do
    let e ← readBytes v a 8
    let s ← readBytes v (fieldAt e 4 4) (fieldAt e 2 2)
    let rest ← readEntries v (a + 8) n
    return ⟨fieldAt e 0 2, s⟩ :: rest

/-- `ReadColumns()` (R92). -/
def readColumns (v : View) (r : Regs) : Comp (List Col) := do
  let n ← readNat v r.ctxAddr.toNat 2
  if r.ctxSize.toNat < 8 + 8 * n then raise .ctxOverflow
  else readEntries v (r.ctxAddr.toNat + 8) n

/-! ## Regions of registers -/

/-- The output range `[D_ADDR, D_ADDR + OUT_CAP)` (20_memory.md R65). -/
def outRange (r : Regs) : Range := ⟨r.dAddr.toNat, r.outCap.toNat⟩

/-- The context region `[CTX_ADDR, CTX_ADDR + CTX_SIZE)` (30_encoding.md R90). -/
def ctxRange (r : Regs) : Range := ⟨r.ctxAddr.toNat, r.ctxSize.toNat⟩

/-- `if len(out) > x[OUT_CAP]: raise INSUFFICIENT_BUFFER`, then the range check of the write
(42_compress_actions.md R160, 43_decompress_actions.md R180). -/
def writeOut (v : View) (r : Regs) (out : Bytes) : Comp (Nat × Bytes) :=
  if r.outCap.toNat < out.length then raise .insufficientBuffer
  else do
    checkRange v r.dAddr.toNat out.length
    return (r.dAddr.toNat, out)

end Sys2Proof.Machine
end

