-- ==== Sys2Proof/Machine/Bitbuf.lean ====
section
/-! DEFINITION. The bit-buffer primitives (40_bitbuf.md R110 to R122): GETB SETB CLRB CPYB CMPB SHLB SHRB
XORB ANDB. -/

namespace Sys2Proof.Machine

/-- The unsigned integer of the `n` bits from `pos`, the first bit the most significant (R113). -/
def Memory.bits (m : Memory) (base pos n : Nat) : Nat :=
  stepsUp (fun i v => 2 * v + (m.bit base (pos + i)).toNat) n 0

/-- The bytes of operand A. -/
def rangeA (r : Regs) : Range := bitRange r.aAddr.toNat r.aPos.toNat r.len.toNat
/-- The bytes of operand B. -/
def rangeB (r : Regs) : Range := bitRange r.bAddr.toNat r.bPos.toNat r.len.toNat
/-- The bytes of the destination. -/
def rangeD (r : Regs) : Range := bitRange r.dAddr.toNat r.dPos.toNat r.len.toNat

/-- The write that stores the bytes of `rg` as they stand in `m` (R110: after every check). -/
def writeBack (m : Memory) (rg : Range) : List (Nat × Bytes) := [(rg.base, m.read rg.base rg.len)]

/-- A command of this family that writes the destination bit range (R111: both results 0). `checks` are its range
checks, then its reads (R110). -/
def bitWriter (checks : View → Regs → Comp Unit) (result : Memory → Regs → Memory) : Command :=
  { regions := fun r => [rangeD r]
    guarded := false
    scratch := fun _ => []
    run := fun v r => do
      checks v r
      return { writes := writeBack (result v.mem r) (rangeD r), result := 0, result2 := 0 } }

/-- `CheckBits` of operand A. -/
def checkA (v : View) (r : Regs) : Comp Unit := checkBits v r.aAddr.toNat r.aPos.toNat r.len.toNat
/-- `CheckBits` of operand B. -/
def checkB (v : View) (r : Regs) : Comp Unit := checkBits v r.bAddr.toNat r.bPos.toNat r.len.toNat
/-- `CheckBits` of operand D. -/
def checkD (v : View) (r : Regs) : Comp Unit := checkBits v r.dAddr.toNat r.dPos.toNat r.len.toNat

/-- `GETB` (R113). -/
def cmdGetb : Command :=
  { regions := fun _ => []
    guarded := false
    scratch := fun _ => []
    run := fun v r =>
      if 32 < r.len.toNat then raise .operand
      else do
        checkA v r
        sense v (rangeA r)
        return { writes := [], result := v.mem.bits r.aAddr.toNat r.aPos.toNat r.len.toNat, result2 := 0 } }

/-- Write `b` to every bit of the destination (R114, R115). -/
def fillBits (b : Bool) (m : Memory) (r : Regs) : Memory :=
  stepsUp (fun i m => m.putBit r.dAddr.toNat (r.dPos.toNat + i) b) r.len.toNat m

/-- `SETB` (R114). -/
def cmdSetb : Command := bitWriter checkD (fillBits true)

/-- `CLRB` (R115). -/
def cmdClrb : Command := bitWriter checkD (fillBits false)

/-- In ascending bit order, set each destination bit whose source bit, read from memory as it is at that
moment, is 1 (R112, R116, R120, R121). -/
def orBits (src : Memory → Regs → Nat → Bool) (m : Memory) (r : Regs) : Memory :=
  stepsUp (fun i m => if src m r i then m.putBit r.dAddr.toNat (r.dPos.toNat + i) true else m) r.len.toNat m

/-- Bit `i` of operand A. -/
def bitA (m : Memory) (r : Regs) (i : Nat) : Bool := m.bit r.aAddr.toNat (r.aPos.toNat + i)
/-- Bit `i` of operand B. -/
def bitB (m : Memory) (r : Regs) (i : Nat) : Bool := m.bit r.bAddr.toNat (r.bPos.toNat + i)

/-- `CPYB` (R116). -/
def cmdCpyb : Command :=
  bitWriter (fun v r => do checkA v r; checkD v r; sense v (rangeA r)) (orBits bitA)

/-- `CMPB` (R117). -/
def cmdCmpb : Command :=
  { regions := fun _ => []
    guarded := false
    scratch := fun _ => []
    run := fun v r => do
      checkA v r
      checkB v r
      sense v (rangeA r)
      sense v (rangeB r)
      let eq := (List.range r.len.toNat).all (fun i => bitA v.mem r i == bitB v.mem r i)
      return { writes := [], result := eq.toNat, result2 := 0 } }

/-- `V' = (V * 2^k) mod 2^(8N)` (R118); a count of `8N` or more zeroes the window. -/
def shiftLeft (n k value : Nat) : Nat := if 8 * n ≤ k then 0 else value * 2 ^ k % 2 ^ (8 * n)

/-- `V' = floor(V / 2^k)` (R119); a count of `8N` or more zeroes the window. -/
def shiftRight (n k value : Nat) : Nat := if 8 * n ≤ k then 0 else value / 2 ^ k

/-- A shift of the window of `LEN` bytes at `D_ADDR` by `AUX` bits (R118, R119). -/
def shifter (f : Nat → Nat → Nat → Nat) : Command :=
  { regions := fun r => [⟨r.dAddr.toNat, r.len.toNat⟩]
    guarded := false
    scratch := fun _ => []
    run := fun v r => do
      let s ← readBytes v r.dAddr.toNat r.len.toNat
      return { writes := [(r.dAddr.toNat, bytesBE r.len.toNat (f r.len.toNat r.aux.toNat (be s)))],
               result := 0, result2 := 0 } }

/-- `SHLB` (R118). -/
def cmdShlb : Command := shifter shiftLeft

/-- `SHRB` (R119). -/
def cmdShrb : Command := shifter shiftRight

/-- The checks and reads of `XORB` and `ANDB` (R120, R121). -/
def checkABD (v : View) (r : Regs) : Comp Unit := do
  checkA v r
  checkB v r
  checkD v r
  sense v (rangeA r)
  sense v (rangeB r)

/-- `XORB` (R120). -/
def cmdXorb : Command := bitWriter checkABD (orBits (fun m r i => bitA m r i ^^ bitB m r i))

/-- `ANDB` (R121). -/
def cmdAndb : Command := bitWriter checkABD (orBits (fun m r i => bitA m r i && bitB m r i))

/-- `GETB` (R113). -/
def execGetb (s : State) : Host.Outcome State Fault Refusal := perform cmdGetb s
/-- `SETB` (R114). -/
def execSetb (s : State) : Host.Outcome State Fault Refusal := perform cmdSetb s
/-- `CLRB` (R115). -/
def execClrb (s : State) : Host.Outcome State Fault Refusal := perform cmdClrb s
/-- `CPYB` (R116). -/
def execCpyb (s : State) : Host.Outcome State Fault Refusal := perform cmdCpyb s
/-- `CMPB` (R117). -/
def execCmpb (s : State) : Host.Outcome State Fault Refusal := perform cmdCmpb s
/-- `SHLB` (R118). -/
def execShlb (s : State) : Host.Outcome State Fault Refusal := perform cmdShlb s
/-- `SHRB` (R119). -/
def execShrb (s : State) : Host.Outcome State Fault Refusal := perform cmdShrb s
/-- `XORB` (R120). -/
def execXorb (s : State) : Host.Outcome State Fault Refusal := perform cmdXorb s
/-- `ANDB` (R121). -/
def execAndb (s : State) : Host.Outcome State Fault Refusal := perform cmdAndb s

end Sys2Proof.Machine
end

