-- ==== Sys2Proof/Machine/Compress.lean ====
section
/-! DEFINITION. The compression actions (42_compress_actions.md R160 to R170): C_OMIT C_VAL C_MAP C_LSB
C_DLEN C_DCHK C_DEVIID C_APPIID. Each maps a column value and a descriptor to a residue; `iid` is
`NodeIID`. -/

namespace Sys2Proof.Machine

/-- `CAct_0` (R161). -/
def cactOmit (_ : Bytes) (_ : Desc) : Comp Bytes := .ok []

/-- `CAct_1` (R162). -/
def cactValue (c : Bytes) (d : Desc) : Comp Bytes :=
  if c.length ≠ nb d.bits then raise .fieldLength else .ok c

/-- `CAct_2` (R163). -/
def cactIndex (v : View) (c : Bytes) (d : Desc) : Comp Bytes := do
  let k ← candidates v d
  match indexOfCandidate c 0 k with
  | some i => return [BitVec.ofNat 8 i]
  | none => raise .noMatch

/-- `s = 8*N - L + M`, the buffer position of the first LSB bit (R164). -/
def lsbStart (d : Desc) : Nat := 8 * nb d.bits - d.bits + d.par

/-- `0xFF >> (s mod 8)` (R164). -/
def lsbMask (d : Desc) : Byte := 0xFF#8 >>> (lsbStart d % 8)

/-- `r[0] <- r[0] AND mask` (R164). -/
def maskFirst (mask : Byte) : Bytes → Bytes
  | [] => []
  | b :: rest => (b &&& mask) :: rest

/-- `CAct_3` (R164). -/
def cactLsb (c : Bytes) (d : Desc) : Comp Bytes :=
  if d.bits < d.par then raise .ruleFormat
  else if c.length ≠ nb d.bits then raise .fieldLength
  else if d.par = d.bits then .ok []
  else .ok (maskFirst (lsbMask d) (c.drop (lsbStart d / 8)))

/-- `CAct_4` (R165). -/
def cactDeferLength (_ : Bytes) (_ : Desc) : Comp Bytes := .ok []

/-- `CAct_5` (R166). -/
def cactDeferChecksum (_ : Bytes) (_ : Desc) : Comp Bytes := .ok []

/-- `CAct_6` (R167). -/
def cactDevIid (iid c : Bytes) (d : Desc) : Comp Bytes :=
  if d.bits ≠ 64 then raise .ruleFormat
  else if c.length ≠ 8 then raise .fieldLength
  else if c ≠ iid then raise .noMatch
  else .ok []

/-- `CAct_7` (R168). -/
def cactAppIid (_ : Bytes) (_ : Desc) : Comp Bytes := raise .unsupported

/-- `CAct(cda, c, d)` (R169), with `cda` the descriptor's own. -/
def compressField (v : View) (iid c : Bytes) (d : Desc) : Comp Bytes :=
  match d.cda with
  | .omit => cactOmit c d
  | .sendValue => cactValue c d
  | .sendIndex => cactIndex v c d
  | .sendLsb => cactLsb c d
  | .deferLength => cactDeferLength c d
  | .deferChecksum => cactDeferChecksum c d
  | .deriveDevIid => cactDevIid iid c d
  | .deriveAppIid => cactAppIid c d

/-- `ResidueSize(d)` (R170). -/
def residueSize (d : Desc) : Comp Nat :=
  match d.cda with
  | .sendValue => .ok (nb d.bits)
  | .sendIndex => .ok 1
  | .sendLsb =>
    if d.bits < d.par then raise .ruleFormat
    else if d.par = d.bits then .ok 0
    else .ok (nb d.bits - lsbStart d / 8)
  | .omit => .ok 0
  | .deferLength => .ok 0
  | .deferChecksum => .ok 0
  | .deriveDevIid => .ok 0
  | .deriveAppIid => .ok 0

/-- The command of a compression action (R160). -/
def compressCommand (act : View → Regs → Bytes → Desc → Comp Bytes) : Command :=
  { regions := fun r => [outRange r]
    guarded := true
    scratch := fun _ => []
    run := fun v r => do
      let d ← readDesc v r.bAddr.toNat
      let c ← readBytes v r.aAddr.toNat r.len.toNat
      let res ← act v r c d
      let w ← writeOut v r res
      return { writes := [w], result := res.length, result2 := 0 } }

/-- `C_OMIT` (R161). -/
def cmdCOmit : Command := compressCommand (fun _ _ => cactOmit)
/-- `C_VAL` (R162). -/
def cmdCVal : Command := compressCommand (fun _ _ => cactValue)
/-- `C_MAP` (R163). -/
def cmdCMap : Command := compressCommand (fun v _ => cactIndex v)
/-- `C_LSB` (R164). -/
def cmdCLsb : Command := compressCommand (fun _ _ => cactLsb)
/-- `C_DLEN` (R165). -/
def cmdCDlen : Command := compressCommand (fun _ _ => cactDeferLength)
/-- `C_DCHK` (R166). -/
def cmdCDchk : Command := compressCommand (fun _ _ => cactDeferChecksum)
/-- `C_DEVIID` (R167). -/
def cmdCDeviid : Command := compressCommand (fun _ r => cactDevIid (nodeIid r))
/-- `C_APPIID` (R168). -/
def cmdCAppiid : Command := compressCommand (fun _ _ => cactAppIid)

/-- `C_OMIT` (R161). -/
def execCOmit (s : State) : Host.Outcome State Fault Refusal := perform cmdCOmit s
/-- `C_VAL` (R162). -/
def execCVal (s : State) : Host.Outcome State Fault Refusal := perform cmdCVal s
/-- `C_MAP` (R163). -/
def execCMap (s : State) : Host.Outcome State Fault Refusal := perform cmdCMap s
/-- `C_LSB` (R164). -/
def execCLsb (s : State) : Host.Outcome State Fault Refusal := perform cmdCLsb s
/-- `C_DLEN` (R165). -/
def execCDlen (s : State) : Host.Outcome State Fault Refusal := perform cmdCDlen s
/-- `C_DCHK` (R166). -/
def execCDchk (s : State) : Host.Outcome State Fault Refusal := perform cmdCDchk s
/-- `C_DEVIID` (R167). -/
def execCDeviid (s : State) : Host.Outcome State Fault Refusal := perform cmdCDeviid s
/-- `C_APPIID` (R168). -/
def execCAppiid (s : State) : Host.Outcome State Fault Refusal := perform cmdCAppiid s

end Sys2Proof.Machine
end

