-- ==== Sys2Proof/Machine/Decompress.lean ====
section
/-! DEFINITION. The decompression actions (43_decompress_actions.md R180 to R189): D_OMIT D_VAL D_MAP D_LSB
D_DLEN D_DCHK D_DEVIID D_APPIID. Each maps the bytes available at the cursor and a descriptor to the number
of bytes consumed and the field value. -/

namespace Sys2Proof.Machine

/-- `DAct_0` (R181). -/
def dactOmit (v : View) (_ : Bytes) (d : Desc) : Comp (Nat × Bytes) := do
  let t ← targetValue v d
  return (0, t)

/-- `DAct_1` (R182). -/
def dactValue (src : Bytes) (d : Desc) : Comp (Nat × Bytes) :=
  if src.length < nb d.bits then raise .cursorOverrun else .ok (nb d.bits, src.take (nb d.bits))

/-- `DAct_2` (R183). -/
def dactIndex (v : View) (src : Bytes) (d : Desc) : Comp (Nat × Bytes) := do
  let k ← candidates v d
  match src with
  | [] => raise .cursorOverrun
  | i :: _ =>
    match k[i.toNat]? with
    | some c => return (1, c)
    | none => raise .indexRange

/-- `DAct_3` (R184): the target up to the boundary, its low bits cleared, ORed with the received bytes, the
bits of the first above the boundary dropped. -/
def dactLsb (v : View) (src : Bytes) (d : Desc) : Comp (Nat × Bytes) :=
  if d.bits < d.par then raise .ruleFormat
  else do
    let t ← targetValue v d
    if d.par = d.bits then return (0, t)
    else
      let j := lsbStart d / 8
      let k := nb d.bits - j
      if src.length < k then raise .cursorOverrun
      else
        let fixed := maskFirst (~~~ lsbMask d) (slice t j 1) ++ zeros (k - 1)
        let received := maskFirst (lsbMask d) (src.take k)
        return (k, t.take j ++ List.zipWith (· ||| ·) fixed received)

/-- `DAct_4` (R185). -/
def dactDeferLength (_ : Bytes) (d : Desc) : Comp (Nat × Bytes) := .ok (0, zeros (nb d.bits))

/-- `DAct_5` (R186). -/
def dactDeferChecksum (_ : Bytes) (d : Desc) : Comp (Nat × Bytes) := .ok (0, zeros (nb d.bits))

/-- `DAct_6` (R187). -/
def dactDevIid (iid : Bytes) (_ : Bytes) (d : Desc) : Comp (Nat × Bytes) :=
  if d.bits ≠ 64 then raise .ruleFormat else .ok (0, iid)

/-- `DAct_7` (R188). -/
def dactAppIid (_ : Bytes) (_ : Desc) : Comp (Nat × Bytes) := raise .unsupported

/-- `DAct(cda, src, d)` (R189), with `cda` the descriptor's own. -/
def decompressField (v : View) (iid src : Bytes) (d : Desc) : Comp (Nat × Bytes) :=
  match d.cda with
  | .omit => dactOmit v src d
  | .sendValue => dactValue src d
  | .sendIndex => dactIndex v src d
  | .sendLsb => dactLsb v src d
  | .deferLength => dactDeferLength src d
  | .deferChecksum => dactDeferChecksum src d
  | .deriveDevIid => dactDevIid iid src d
  | .deriveAppIid => dactAppIid src d

/-- The command of a decompression action (R180). -/
def decompressCommand (act : View → Regs → Bytes → Desc → Comp (Nat × Bytes)) : Command :=
  { regions := fun r => [outRange r]
    guarded := true
    scratch := fun _ => []
    run := fun v r => do
      let d ← readDesc v r.bAddr.toNat
      let src ← readBytes v r.aAddr.toNat r.len.toNat
      let (k, val) ← act v r src d
      let w ← writeOut v r val
      return { writes := [w], result := k, result2 := val.length } }

/-- `D_OMIT` (R181). -/
def cmdDOmit : Command := decompressCommand (fun v _ => dactOmit v)
/-- `D_VAL` (R182). -/
def cmdDVal : Command := decompressCommand (fun _ _ => dactValue)
/-- `D_MAP` (R183). -/
def cmdDMap : Command := decompressCommand (fun v _ => dactIndex v)
/-- `D_LSB` (R184). -/
def cmdDLsb : Command := decompressCommand (fun v _ => dactLsb v)
/-- `D_DLEN` (R185). -/
def cmdDDlen : Command := decompressCommand (fun _ _ => dactDeferLength)
/-- `D_DCHK` (R186). -/
def cmdDDchk : Command := decompressCommand (fun _ _ => dactDeferChecksum)
/-- `D_DEVIID` (R187). -/
def cmdDDeviid : Command := decompressCommand (fun _ r => dactDevIid (nodeIid r))
/-- `D_APPIID` (R188). -/
def cmdDAppiid : Command := decompressCommand (fun _ _ => dactAppIid)

/-- `D_OMIT` (R181). -/
def execDOmit (s : State) : Host.Outcome State Fault Refusal := perform cmdDOmit s
/-- `D_VAL` (R182). -/
def execDVal (s : State) : Host.Outcome State Fault Refusal := perform cmdDVal s
/-- `D_MAP` (R183). -/
def execDMap (s : State) : Host.Outcome State Fault Refusal := perform cmdDMap s
/-- `D_LSB` (R184). -/
def execDLsb (s : State) : Host.Outcome State Fault Refusal := perform cmdDLsb s
/-- `D_DLEN` (R185). -/
def execDDlen (s : State) : Host.Outcome State Fault Refusal := perform cmdDDlen s
/-- `D_DCHK` (R186). -/
def execDDchk (s : State) : Host.Outcome State Fault Refusal := perform cmdDDchk s
/-- `D_DEVIID` (R187). -/
def execDDeviid (s : State) : Host.Outcome State Fault Refusal := perform cmdDDeviid s
/-- `D_APPIID` (R188). -/
def execDAppiid (s : State) : Host.Outcome State Fault Refusal := perform cmdDAppiid s

end Sys2Proof.Machine
end

