-- ==== Sys2Proof/Machine/Codec.lean ====
section
/-! DEFINITION. The CoAP codec (45_flatten.md R226): the reference `Parse` (R227, R228) and `Encode` (R236),
and the codec a machine's parameter selects. -/

namespace Sys2Proof.Machine

/-- A nibble's value after extension, with the bytes it takes: 13 adds one byte, 14 adds two (R228). The
two forms exclude each other (log 21). `none` is INVALID. -/
def extendNibble (x : Nat) (rest : Bytes) : Option (Nat × Bytes) :=
  if x = 13 then
    match rest with
    | b :: r => some (b.toNat + 13, r)
    | [] => none
  else if x = 14 then
    match rest with
    | b0 :: b1 :: r => some (be [b0, b1] + 269, r)
    | _ => none
  else some (x, rest)

/-- The option chain `rest`, with `num` the last option number (R228): the options, whether a marker ends
it, and the bytes that remain after it. `fuel` bounds the number of options. -/
def parseOptions (table : List Nat) : Nat → Nat → Bytes → Option (List (Nat × Bytes) × Bool × Bytes)
  | _, _, [] => some ([], false, [])
  | 0, _, _ :: _ => none
  | fuel + 1, num, b :: rest =>
    if b = 0xFF#8 then
      if rest = [] then none else some ([], true, rest)
    else if b.toNat / 16 = 15 ∨ b.toNat % 16 = 15 then none
    else
      match extendNibble (b.toNat / 16) rest with
      | none => none
      | some (dl, rest1) =>
        match extendNibble (b.toNat % 16) rest1 with
        | none => none
        | some (ll, rest2) =>
          if rest2.length < ll ∨ 0xFFFF < ll then none
          else if table.contains (num + dl) then
            match parseOptions table fuel (num + dl) (rest2.drop ll) with
            | none => none
            | some (opts, marker, payload) => some ((num + dl, rest2.take ll) :: opts, marker, payload)
          else none

/-- The reference `Parse(m)` (R227, R228); `none` is INVALID. -/
def refParse (table : List Nat) (m : Bytes) : Option CoapMessage :=
  match m with
  | b0 :: code :: m2 :: m3 :: rest =>
    let tkl := b0.toNat % 16
    if b0.toNat / 64 ≠ 1 then none
    else if 8 < tkl then none
    else if rest.length < tkl then none
    else
      match parseOptions table rest.length 0 (rest.drop tkl) with
      | none => none
      | some (opts, marker, payload) =>
        some { header := { ver := b0.toNat / 64, typ := b0.toNat / 16 % 4, tkl := tkl, code := code,
                           mid := [m2, m3], token := rest.take tkl, opts := opts, marker := marker },
               hlen := m.length - payload.length }
  | _ => none

/-- `Nib(x)` (R236). -/
def nib (x : Nat) : Nat × Bytes :=
  if x < 13 then (x, [])
  else if x < 269 then (13, [BitVec.ofNat 8 (x - 13)])
  else (14, bytesBE 2 (x - 269))

/-- The options in order, `prev` the last option number (R236). -/
def encodeOptions : Nat → List (Nat × Bytes) → Bytes
  | _, [] => []
  | prev, (n, val) :: rest =>
    let dn := nib (n - prev)
    let ln := nib val.length
    BitVec.ofNat 8 (dn.1 * 16 + ln.1) :: (dn.2 ++ ln.2 ++ val ++ encodeOptions n rest)

/-- The reference `Encode` (R236). -/
def refEncode (h : CoapHeader) : Bytes :=
  BitVec.ofNat 8 (h.ver * 64 + h.typ * 16 + h.tkl) :: h.code :: (h.mid ++ h.token ++ encodeOptions 0 h.opts) ++
    (if h.marker then [0xFF#8] else [])

/-- `Parse` of the machine's codec (R226). -/
def coapParse (v : View) (m : Bytes) : Option CoapMessage :=
  match v.codec with
  | .reference => refParse v.table m
  | .external => Config.externalParse m

/-- `Encode` of the machine's codec (R226). -/
def coapEncode (v : View) (h : CoapHeader) : Bytes :=
  match v.codec with
  | .reference => refEncode h
  | .external => Config.externalEncode h

end Sys2Proof.Machine
end

