-- ==== Sys2Proof/Machine/Flatten.lean ====
section
/-! DEFINITION. The header flatteners and assemblers (45_flatten.md R220 to R225, R231 to R235): FLAT6 FLATU
FLATC. -/

namespace Sys2Proof.Machine

/-- (Dev, App) from (source, destination), or back: UP keeps the pair, DOWN swaps it (R221). -/
def orient (dir : PacketDir) (p : Bytes × Bytes) : Bytes × Bytes :=
  match dir with
  | .up => p
  | .down => (p.2, p.1)

/-- `Flatten6(h, dir)` (R222). -/
def flatten6 (h : Bytes) (dir : PacketDir) : List Col :=
  let w := fieldAt h 0 4
  let (dev, app) := orient dir (slice h 8 16, slice h 24 16)
  [ ⟨0x01, bytesBE 1 (w / 2 ^ 28 % 2 ^ 4)⟩, ⟨0x02, bytesBE 1 (w / 2 ^ 20 % 2 ^ 8)⟩,
    ⟨0x03, bytesBE 3 (w % 2 ^ 20)⟩, ⟨0x04, slice h 4 2⟩, ⟨0x05, slice h 6 1⟩, ⟨0x06, slice h 7 1⟩,
    ⟨0x07, slice dev 0 8⟩, ⟨0x08, slice dev 8 8⟩, ⟨0x09, slice app 0 8⟩, ⟨0x0A, slice app 8 8⟩ ]

/-- `FlattenU(h, dir)` (R223). -/
def flattenU (h : Bytes) (dir : PacketDir) : List Col :=
  let (dev, app) := orient dir (slice h 0 2, slice h 2 2)
  [ ⟨0x11, dev⟩, ⟨0x12, app⟩, ⟨0x13, slice h 4 2⟩, ⟨0x14, slice h 6 2⟩ ]

/-- `FlattenC(P)` (R231). -/
def flattenC (h : CoapHeader) : List Col :=
  [ ⟨0x21, bytesBE 1 h.ver⟩, ⟨0x22, bytesBE 1 h.typ⟩, ⟨0x23, bytesBE 1 h.tkl⟩, ⟨0x24, [h.code]⟩,
    ⟨0x25, h.mid⟩, ⟨0x26, h.token⟩ ] ++
  (h.opts.map (fun o => ⟨0x100 + o.1, o.2⟩) ++ (if h.marker then [⟨0x27, [0xFF#8]⟩] else []))

/-- `Assemble6(cols, dir)` (R233). -/
def assemble6 (cols : List Col) (dir : PacketDir) : Comp Bytes :=
  if cols.map Col.fid ≠ [0x01, 0x02, 0x03, 0x04, 0x05, 0x06, 0x07, 0x08, 0x09, 0x0A] ∨
      cols.map (fun c => c.val.length) ≠ [1, 1, 3, 2, 1, 1, 8, 8, 8, 8] then raise .ruleFormat
  else
    match cols.map Col.val with
    | [ver, tc, fl, len, nh, hl, devPre, devIid, appPre, appIid] =>
      let w := be ver % 2 ^ 4 * 2 ^ 28 + be tc % 2 ^ 8 * 2 ^ 20 + be fl % 2 ^ 20
      let (src, dst) := orient dir (devPre ++ devIid, appPre ++ appIid)
      .ok (bytesBE 4 w ++ len ++ nh ++ hl ++ src ++ dst)
    | _ => raise .ruleFormat

/-- `AssembleU(cols, dir)` (R234). -/
def assembleU (cols : List Col) (dir : PacketDir) : Comp Bytes :=
  if cols.map Col.fid ≠ [0x11, 0x12, 0x13, 0x14] ∨
      cols.map (fun c => c.val.length) ≠ [2, 2, 2, 2] then raise .ruleFormat
  else
    match cols.map Col.val with
    | [devPort, appPort, len, cksum] =>
      let (sp, dp) := orient dir (devPort, appPort)
      .ok (sp ++ dp ++ len ++ cksum)
    | _ => raise .ruleFormat

/-- `rest` of R235 without its marker column, and whether it had one; a marker's value must be `FF`. -/
def splitMarker (rest : List Col) : Comp (List Col × Bool) :=
  match rest.getLast? with
  | some c =>
    if c.fid = 0x27 then
      if c.val = [0xFF#8] then .ok (rest.dropLast, true) else raise .ruleFormat
    else .ok (rest, false)
  | none => .ok (rest, false)

/-- The option columns of R235: known numbers that never decrease. -/
def columnOptions (table : List Nat) : Nat → List Col → Comp (List (Nat × Bytes))
  | _, [] => .ok []
  | prev, c :: rest =>
    if 0x100 ≤ c.fid ∧ table.contains (c.fid - 0x100) ∧ prev ≤ c.fid - 0x100 then do
      let others ← columnOptions table (c.fid - 0x100) rest
      return (c.fid - 0x100, c.val) :: others
    else raise .ruleFormat

/-- `AssembleC(cols)` (R235). -/
def assembleC (v : View) (cols : List Col) : Comp Bytes :=
  match cols with
  | ver :: typ :: tkl :: code :: mid :: token :: rest =>
    if [ver, typ, tkl, code, mid, token].map Col.fid ≠ [0x21, 0x22, 0x23, 0x24, 0x25, 0x26] then
      raise .ruleFormat
    else if [ver, typ, tkl, code, mid].map (fun c => c.val.length) ≠ [1, 1, 1, 1, 2] then raise .ruleFormat
    else if token.val.length ≠ be tkl.val % 16 ∨ 8 < be tkl.val % 16 then raise .ruleFormat
    else do
      let (options, marker) ← splitMarker rest
      let opts ← columnOptions v.table 0 options
      return coapEncode v
        { ver := be ver.val % 4, typ := be typ.val % 4, tkl := be tkl.val % 16, code := code.val.headD 0,
          mid := mid.val, token := token.val, opts := opts, marker := marker }
  | _ => raise .ruleFormat

/-- `Assemble(layer, cols, dir)` (R233). -/
def assemble (v : View) (layer : Layer) (cols : List Col) (dir : PacketDir) : Comp Bytes :=
  match layer with
  | .ip6 => assemble6 cols dir
  | .udp => assembleU cols dir
  | .coap => assembleC v cols

/-- The command of a flattener with a header of `n` bytes (R224, R225). -/
def flattenCommand (n : Nat) (f : Bytes → PacketDir → List Col) : Command :=
  { regions := fun r => [ctxRange r]
    guarded := true
    scratch := fun _ => []
    run := fun v r => do
      let dir ← checkDir r
      let h ← readBytes v r.aAddr.toNat n
      let w ← writeColumns v r (f h dir)
      return { writes := [w], result := (f h dir).length, result2 := ctxNeed (f h dir) } }

/-- `FLAT6` (R224). -/
def cmdFlat6 : Command := flattenCommand 40 flatten6

/-- `FLATU` (R225). -/
def cmdFlatu : Command := flattenCommand 8 flattenU

/-- `FLATC` (R232). -/
def cmdFlatc : Command :=
  { regions := fun r => [ctxRange r]
    guarded := true
    scratch := fun _ => []
    run := fun v r => do
      let m ← readBytes v r.aAddr.toNat r.len.toNat
      match coapParse v m with
      | none => raise .invalidPacket
      | some p => do
        let w ← writeColumns v r (flattenC p.header)
        return { writes := [w], result := (flattenC p.header).length, result2 := p.hlen } }

/-- `FLAT6` (R224). -/
def execFlat6 (s : State) : Host.Outcome State Fault Refusal := perform cmdFlat6 s
/-- `FLATU` (R225). -/
def execFlatu (s : State) : Host.Outcome State Fault Refusal := perform cmdFlatu s
/-- `FLATC` (R232). -/
def execFlatc (s : State) : Host.Outcome State Fault Refusal := perform cmdFlatc s

end Sys2Proof.Machine
end

