-- ==== Sys2Proof/Machine/Predicates.lean ====
section
/-! DEFINITION. The matching predicates (41_predicates.md R140 to R145): MEQ MIGN MMSB MMAP MDISP. -/

namespace Sys2Proof.Machine

/-- `PEq(c, d)` (R141). -/
def predEqual (v : View) (c : Bytes) (d : Desc) : Comp (Bool × Nat) := do
  let t ← targetValue v d
  return (c.length == nb d.bits && c == t, 0)

/-- `PIgn(c, d)` (R142). -/
def predIgnore (_ : View) (_ : Bytes) (_ : Desc) : Comp (Bool × Nat) := .ok (true, 0)

/-- `x[L-1 : L-M]`, the top `m` bits of an `l`-bit integer (00_scope.md R9). -/
def topBits (x l m : Nat) : Nat := x / 2 ^ (l - m) % 2 ^ m

/-- `PMsb(c, d)` (R143). -/
def predMsb (v : View) (c : Bytes) (d : Desc) : Comp (Bool × Nat) :=
  if d.bits < d.par then raise .ruleFormat
  else if d.par = d.bits then predEqual v c d
  else do
    let t ← targetValue v d
    return (c.length == nb d.bits && topBits (be c) d.bits d.par == topBits (be t) d.bits d.par, 0)

/-- `PMap(c, d)` (R144). -/
def predMap (v : View) (c : Bytes) (d : Desc) : Comp (Bool × Nat) := do
  let k ← candidates v d
  match indexOfCandidate c 0 k with
  | some i => return (true, i)
  | none => return (false, 0)

/-- `Pred(c, d)`: the descriptor's own operator (R145). -/
def predDispatch (v : View) (c : Bytes) (d : Desc) : Comp (Bool × Nat) :=
  match d.mo with
  | .equal => predEqual v c d
  | .ignore => predIgnore v c d
  | .msb => predMsb v c d
  | .map => predMap v c d

/-- The command of a predicate (R140). -/
def predicateCommand (p : View → Bytes → Desc → Comp (Bool × Nat)) : Command :=
  { regions := fun _ => []
    guarded := false
    scratch := fun _ => []
    run := fun v r => do
      let d ← readDesc v r.bAddr.toNat
      let c ← readBytes v r.aAddr.toNat r.len.toNat
      let (m, idx) ← p v c d
      return { writes := [], result := m.toNat, result2 := idx } }

/-- `MEQ` (R141). -/
def cmdMeq : Command := predicateCommand predEqual
/-- `MIGN` (R142). -/
def cmdMign : Command := predicateCommand predIgnore
/-- `MMSB` (R143). -/
def cmdMmsb : Command := predicateCommand predMsb
/-- `MMAP` (R144). -/
def cmdMmap : Command := predicateCommand predMap
/-- `MDISP` (R145). -/
def cmdMdisp : Command := predicateCommand predDispatch

/-- `MEQ` (R141). -/
def execMeq (s : State) : Host.Outcome State Fault Refusal := perform cmdMeq s
/-- `MIGN` (R142). -/
def execMign (s : State) : Host.Outcome State Fault Refusal := perform cmdMign s
/-- `MMSB` (R143). -/
def execMmsb (s : State) : Host.Outcome State Fault Refusal := perform cmdMmsb s
/-- `MMAP` (R144). -/
def execMmap (s : State) : Host.Outcome State Fault Refusal := perform cmdMmap s
/-- `MDISP` (R145). -/
def execMdisp (s : State) : Host.Outcome State Fault Refusal := perform cmdMdisp s

end Sys2Proof.Machine
end

