-- ==== Sys2Proof/Machine/Layers.lean ====
section
/-! DEFINITION. Rule selection and per-layer compression (44_rule_selection.md R201 to R208): RSEL CLAYER
DLAYER. -/

namespace Sys2Proof.Machine

/-- Whether the descriptors match the columns, pair by pair, stopping at the first mismatch (R201, R202). A descriptor
that does not pair is a mismatch. -/
def fieldsMatch (v : View) : List Desc → List Col → Comp Bool
  | [], [] => .ok true
  | [], _ :: _ => .ok false
  | _ :: _, [] => .ok false
  | f :: fs, c :: cs =>
    if f.pairs v c = false then .ok false
    else do
      let (m, _) ← predDispatch v c.val f
      if m then fieldsMatch v fs cs else return false

/-- Whether a rule matches the columns: equal counts first (R202). -/
def ruleMatches (v : View) (rule : Rule) (cols : List Col) (dir : PacketDir) : Comp Bool :=
  if (applicable rule.fields dir).length ≠ cols.length then .ok false
  else fieldsMatch v (applicable rule.fields dir) cols

/-- The first of the `n` rules listed from `list` that fully matches, with the address of its record (R202). -/
def selectFrom (v : View) (layer : Layer) (cols : List Col) (dir : PacketDir) :
    Nat → Nat → Comp (Option (Nat × Rule))
  | _, 0 => .ok none
  | list, n + 1 => do
    let a ← readNat v list 4
    let rule ← readRule v a layer
    let ok ← ruleMatches v rule cols dir
    if ok then return some (a, rule) else selectFrom v layer cols dir (list + 4) n

/-- `Select(dev, layer, cols, dir)` (R202). -/
def selectRule (v : View) (dev : Nat) (layer : Layer) (cols : List Col) (dir : PacketDir) :
    Comp (Option (Nat × Rule)) := do
  let (list, cnt) ← ruleList v dev layer
  selectFrom v layer cols dir list cnt

/-- The actions of paired descriptors and columns, in rule order; `NO_MATCH` at a descriptor that does not pair
(R201, R204). -/
def compressFields (v : View) (iid : Bytes) : List Desc → List Col → Comp Bytes
  | f :: fs, c :: cs =>
    if f.pairs v c = false then raise .noMatch
    else do
      let r ← compressField v iid c.val f
      let rest ← compressFields v iid fs cs
      return r ++ rest
  | _, _ => .ok []

/-- `CompressLayer(rule, cols, dir)` (R204). -/
def compressLayer (v : View) (iid : Bytes) (rule : Rule) (cols : List Col) (dir : PacketDir) : Comp Bytes :=
  if (applicable rule.fields dir).length ≠ cols.length then raise .noMatch
  else compressFields v iid (applicable rule.fields dir) cols

/-- The decompression actions along the cursor: the bytes consumed and the columns (R206). -/
def decompressFields (v : View) (iid : Bytes) : List Desc → Bytes → Comp (Nat × List Col)
  | [], _ => .ok (0, [])
  | f :: fs, src => do
    let (k, val) ← decompressField v iid src f
    let (p, cols) ← decompressFields v iid fs (src.drop k)
    return (k + p, ⟨f.fid, val⟩ :: cols)

/-- `DecompressLayer(rule, src, dir)` (R206). -/
def decompressLayer (v : View) (iid : Bytes) (rule : Rule) (src : Bytes) (dir : PacketDir) :
    Comp (Nat × List Col) :=
  decompressFields v iid (applicable rule.fields dir) src

/-- A field value as the engine writes it into a column: the pad bits above the descriptor's `L` bits are zero
(30_encoding.md R83, log 28). -/
def clearPad (d : Desc) (val : Bytes) : Bytes :=
  if val.length = nb d.bits then maskFirst (0xFF#8 >>> (8 * nb d.bits - d.bits)) val else val

/-- The columns of decompressed fields as the engine writes them (30_encoding.md R83, log 28). -/
def writtenColumns (fields : List Desc) (cols : List Col) : List Col :=
  List.zipWith (fun d c => ⟨c.fid, clearPad d c.val⟩) fields cols

/-- The first of the `n` rules listed from `list` with id `id` (R208). -/
def findRuleFrom (v : View) (layer : Layer) (id : Nat) : Nat → Nat → Comp Rule
  | _, 0 => raise .ruleNotFound
  | list, n + 1 => do
    let a ← readNat v list 4
    let rule ← readRule v a layer
    if rule.ruleId = id then return rule else findRuleFrom v layer id (list + 4) n

/-- `FindRule(dev, layer, id)` (R208). -/
def findRule (v : View) (dev : Nat) (layer : Layer) (id : Nat) : Comp Rule := do
  let (list, cnt) ← ruleList v dev layer
  findRuleFrom v layer id list cnt

/-- `RSEL` (R203). -/
def cmdRsel : Command :=
  { regions := fun _ => []
    guarded := false
    scratch := fun _ => []
    run := fun v r => do
      let layer ← checkLayer r
      let dir ← checkDir r
      let dev ← lookupDevice v r
      let cols ← readColumns v r
      let found ← selectRule v dev layer cols dir
      match found with
      | none => return { writes := [], result := 0, result2 := 0 }
      | some (a, rule) => return { writes := [], result := rule.ruleId, result2 := a } }

/-- `CLAYER` (R205). It reads the context region, and its output range may not overlap it
(70_reset_and_hazards.md R310). -/
def cmdClayer : Command :=
  { regions := fun r => [outRange r]
    apart := fun r => [outRange r, ctxRange r]
    guarded := true
    scratch := fun _ => []
    run := fun v r => do
      let layer ← checkLayer r
      let dir ← checkDir r
      let rule ← readRule v r.bAddr.toNat layer
      let cols ← readColumns v r
      let res ← compressLayer v (nodeIid r) rule cols dir
      let w ← writeOut v r res
      return { writes := [w], result := res.length, result2 := 0 } }

/-- `DLAYER` (R207): every check comes before the two writes. The header is assembled from the values as they are
(43_decompress_actions.md R182), and the columns are written with their pad bits cleared (log 28). -/
def cmdDlayer : Command :=
  { regions := fun r => [outRange r, ctxRange r]
    guarded := true
    scratch := fun _ => []
    run := fun v r => do
      let layer ← checkLayer r
      let dir ← checkDir r
      let rule ← readRule v r.bAddr.toNat layer
      let src ← readBytes v r.aAddr.toNat r.len.toNat
      let (k, cols) ← decompressLayer v (nodeIid r) rule src dir
      let h ← assemble v layer cols dir
      if r.ctxSize.toNat < ctxNeed cols then raise .ctxOverflow
      else do
        let out ← writeOut v r h
        let ctx ← writeColumns v r (writtenColumns (applicable rule.fields dir) cols)
        return { writes := [ctx, out], result := k, result2 := h.length } }

/-- `RSEL` (R203). -/
def execRsel (s : State) : Host.Outcome State Fault Refusal := perform cmdRsel s
/-- `CLAYER` (R205). -/
def execClayer (s : State) : Host.Outcome State Fault Refusal := perform cmdClayer s
/-- `DLAYER` (R207). -/
def execDlayer (s : State) : Host.Outcome State Fault Refusal := perform cmdDlayer s

end Sys2Proof.Machine
end

