-- ==== Sys2Proof/Machine/Pipeline.lean ====
section
/-! DEFINITION. The Layered Rule ID, the packet pipeline and the patchers (30_encoding.md R80, R97,
46_pipeline.md R250 to R258): RIDPK RIDUNPK COMP DECOMP PLEN PCHK. -/

namespace Sys2Proof.Machine

/-! ## Layered Rule ID (30_encoding.md R80) -/

/-- `id = FRAG*128 + APL*16 + TPL*4 + NWL` (R80). -/
def packRuleId (frag apl tpl nwl : Nat) : Nat := frag * 128 + apl * 16 + tpl * 4 + nwl

/-- A layer's sub-field of a Layered Rule ID (R80). -/
def ruleIdField (id : Nat) : Layer → Nat
  | .ip6 => id % 4
  | .udp => id / 4 % 4
  | .coap => id / 16 % 8

/-- `RIDPK` (R250). -/
def cmdRidpk : Command :=
  { regions := fun _ => []
    guarded := false
    scratch := fun _ => []
    run := fun _ r =>
      let nwl := r.aux.toNat % 256
      let tpl := r.aux.toNat / 2 ^ 8 % 256
      let apl := r.aux.toNat / 2 ^ 16 % 256
      let frag := r.aux.toNat / 2 ^ 24 % 256
      if 3 < nwl ∨ 3 < tpl ∨ 7 < apl ∨ 1 < frag then raise .operand
      else .ok { writes := [], result := packRuleId frag apl tpl nwl, result2 := 0 } }

/-- `RIDUNPK` (R251). -/
def cmdRidunpk : Command :=
  { regions := fun _ => []
    guarded := false
    scratch := fun _ => []
    run := fun _ r =>
      let b := r.aux.toNat
      if 0xFF < b then raise .operand
      else .ok
        { writes := [],
          result := ruleIdField b .ip6 + ruleIdField b .udp * 2 ^ 8 + ruleIdField b .coap * 2 ^ 16 +
            b / 128 * 2 ^ 24,
          result2 := 0 } }

/-! ## Patchers (R256 to R258) -/

/-- `buf[i .. i+len(s)) <- s`. -/
def patchAt (buf : Bytes) (i : Nat) (s : Bytes) : Bytes := buf.take i ++ s ++ buf.drop (i + s.length)

/-- `if n < 48 or n - 40 > 0xFFFF: raise OPERAND` (R256, R257). -/
def checkPatchLength (n : Nat) : Comp Unit :=
  if n < 48 ∨ 0xFFFF < n - 40 then raise .operand else .ok ()

/-- A length field at `i`: patched if it is zero (R256). -/
def patchLenAt (buf : Bytes) (i : Nat) : Bytes × Bool :=
  if slice buf i 2 = [0#8, 0#8] then (patchAt buf i (bytesBE 2 (buf.length - 40)), true) else (buf, false)

/-- `PatchLen(buf)`: the buffer and the mask of the patched fields (R256). -/
def patchLen (buf : Bytes) : Comp (Bytes × Nat) := do
  checkPatchLength buf.length
  let (b1, p1) := patchLenAt buf 4
  let (b2, p2) := patchLenAt b1 44
  return (b2, p1.toNat + 2 * p2.toNat)

/-- `Σ BE(data[2i .. 2i+2))`, an odd last byte padded with a zero (R258). -/
def sum16 : Bytes → Nat
  | [] => 0
  | [b] => b.toNat * 256
  | b0 :: b1 :: rest => b0.toNat * 256 + b1.toNat + sum16 rest

/-- `while s ≥ 2^16: s <- (s mod 2^16) + floor(s / 2^16)` (R258); `fuel = s` is enough. -/
def foldCarry : Nat → Nat → Nat
  | 0, s => s
  | fuel + 1, s => if s < 2 ^ 16 then s else foldCarry fuel (s % 2 ^ 16 + s / 2 ^ 16)

/-- The data that R258 sums: pseudo-header, UDP header and data. -/
def checksumData (buf : Bytes) : Bytes :=
  slice buf 8 16 ++ slice buf 24 16 ++ [0#8, 0#8] ++ slice buf 44 2 ++ [0#8, 0#8, 0#8, 17#8] ++ buf.drop 40

/-- `Checksum(buf, n)` (R258). -/
def checksum (buf : Bytes) : Nat :=
  let s := sum16 (checksumData buf)
  let c := 0xFFFF - foldCarry s s
  if c = 0 then 0xFFFF else c

/-- `PatchChk(buf)`: the buffer and the two results (R257). -/
def patchChk (buf : Bytes) : Comp (Bytes × Nat × Nat) := do
  checkPatchLength buf.length
  if slice buf 46 2 ≠ [0#8, 0#8] then return (buf, 0, fieldAt buf 46 2)
  else return (patchAt buf 46 (bytesBE 2 (checksum buf)), 1, checksum buf)

/-- The bytes at packet offset `i` that a patcher writes, if the packet is long enough. -/
def patchRegion (r : Regs) (i : Nat) : Range := ⟨r.aAddr.toNat + i, if r.len.toNat < 48 then 0 else 2⟩

/-- `PLEN` (R256). Only bytes 4, 5, 44 and 45 can differ, so the write is of those. -/
def cmdPlen : Command :=
  { regions := fun r => [patchRegion r 4, patchRegion r 44]
    guarded := false
    scratch := fun _ => []
    run := fun v r => do
      let buf ← readBytes v r.aAddr.toNat r.len.toNat
      let (out, mask) ← patchLen buf
      return { writes := [(r.aAddr.toNat + 4, slice out 4 2), (r.aAddr.toNat + 44, slice out 44 2)],
               result := mask, result2 := 0 } }

/-- `PCHK` (R257). Only bytes 46 and 47 can differ, so the write is of those. -/
def cmdPchk : Command :=
  { regions := fun r => [patchRegion r 46]
    guarded := false
    scratch := fun _ => []
    run := fun v r => do
      let buf ← readBytes v r.aAddr.toNat r.len.toNat
      let (out, patched, value) ← patchChk buf
      return { writes := [(r.aAddr.toNat + 46, slice out 46 2)], result := patched, result2 := value } }

/-! ## Compression (R252, R253) -/

/-- The errors that send a layer verbatim (R252, R284). -/
def Err.recoverable : Err → Bool
  | .fieldLength => true
  | .noMatch => true
  | .unsupported => true
  | .illegalCmd => false
  | .busFault => false
  | .operand => false
  | .ruleFormat => false
  | .invalidPacket => false
  | .insufficientBuffer => false
  | .ruleNotFound => false
  | .cursorOverrun => false
  | .noDevice => false
  | .indexRange => false
  | .ctxOverflow => false

/-- One layer of `COMP` (R253): its rule id and residue, or `none` for verbatim. -/
def packLayer (v : View) (r : Regs) (dev : Nat) (layer : Layer) (cols : List Col) (dir : PacketDir) :
    Comp (Option (Nat × Bytes)) :=
  if r.ctxSize.toNat < ctxNeed cols then raise .ctxOverflow
  else do
    let found ← selectRule v dev layer cols dir
    match found with
    | none => return none
    | some (_, rule) =>
      match compressLayer v (nodeIid r) rule cols dir with
      | .ok res => return some (rule.ruleId, res)
      | .error (.err e) => if e.recoverable then return none else raise e
      | .error stop => .error stop

/-- The rule id of a layer of `COMP`: 0 for verbatim (R81). -/
def packedId : Option (Nat × Bytes) → Nat
  | some (id, _) => id
  | none => 0

/-- The part of a layer in the compressed packet: its residue, or the bytes verbatim (R97). -/
def packedPart (verbatim : Bytes) : Option (Nat × Bytes) → Bytes
  | some (_, res) => res
  | none => verbatim

/-- The range checks that `COMP` and `DECOMP` make before they read the packet (R253, R255). -/
def checkRegions (v : View) (r : Regs) : Comp Unit := do
  checkRange v r.dAddr.toNat r.outCap.toNat
  checkRange v r.ctxAddr.toNat r.ctxSize.toNat

/-- The layer work of `COMP`, CoAP, UDP, IPv6 in this order (R252, R253): the id byte and the output. -/
def compressPacket (v : View) (r : Regs) (dev : Nat) (pkt : Bytes) (dir : PacketDir) : Comp (Nat × Bytes) := do
  let tail := pkt.drop 48
  let parsed := coapParse v tail
  let p2 ← match parsed with
    | none => (.ok none : Comp (Option (Nat × Bytes)))
    | some p => packLayer v r dev .coap (flattenC p.header) dir
  let p1 ← packLayer v r dev .udp (flattenU (slice pkt 40 8) dir) dir
  let p0 ← packLayer v r dev .ip6 (flatten6 (slice pkt 0 40) dir) dir
  let b0 := packRuleId (r.aux.toNat % 2) (packedId p2) (packedId p1) (packedId p0)
  let coapPart := match p2, parsed with
    | some (_, res), some p => res ++ tail.drop p.hlen
    | _, _ => tail
  return (b0, BitVec.ofNat 8 b0 ::
    (packedPart (slice pkt 0 40) p0 ++ packedPart (slice pkt 40 8) p1 ++ coapPart))

/-- `COMP` (R253), with the regions it leaves holding any value (R254). -/
def cmdComp : Command :=
  { regions := fun r => [outRange r, ctxRange r]
    guarded := true
    scratch := fun r => [outRange r, ctxRange r]
    run := fun v r => do
      let dir ← checkDir r
      if r.aux.toNat / 2 ≠ 0 then raise .operand
      else if r.len.toNat < 48 then raise .operand
      else do
        checkRegions v r
        let pkt ← readBytes v r.aAddr.toNat r.len.toNat
        let dev ← lookupDevice v r
        let (b0, out) ← compressPacket v r dev pkt dir
        let w ← writeOut v r out
        return { writes := [w], result := out.length, result2 := b0 } }

/-! ## Decompression (R255) -/

/-- `FindRule(dev, layer, id) if id ≠ 0 else NONE` (R255). -/
def namedRule (v : View) (dev : Nat) (layer : Layer) (id : Nat) : Comp (Option Rule) :=
  if id = 0 then .ok none
  else do
    let rule ← findRule v dev layer id
    return some rule

/-- `Σ ResidueSize(f)` (R255). -/
def residueSum : List Desc → Comp Nat
  | [] => .ok 0
  | f :: fs => do
    let n ← residueSize f
    let rest ← residueSum fs
    return n + rest

/-- The size of a layer's part: `verbatim` bytes without a rule, else the rule's residues (R255). -/
def partSize (verbatim : Nat) (rule : Option Rule) (dir : PacketDir) : Comp Nat :=
  match rule with
  | none => .ok verbatim
  | some rl => residueSum (applicable rl.fields dir)

/-- A layer's part decompressed: the bytes consumed and the header, verbatim without a rule (R255). -/
def unpackLayer (v : View) (r : Regs) (layer : Layer) (rule : Option Rule) (src : Bytes) (dir : PacketDir) :
    Comp (Nat × Bytes) :=
  match rule with
  | none => .ok (src.length, src)
  | some rl => do
    let (k, cols) ← decompressLayer v (nodeIid r) rl src dir
    if r.ctxSize.toNat < ctxNeed cols then raise .ctxOverflow
    else do
      let h ← assemble v layer cols dir
      return (k, h)

/-- The packet that `DECOMP` rebuilds, before the patch: CoAP first, then UDP, then IPv6 (R252, R255). -/
def decompressPacket (v : View) (r : Regs) (dev : Nat) (src : Bytes) (dir : PacketDir) : Comp Bytes := do
  let b0 := fieldAt src 0 1
  let rule2 ← namedRule v dev .coap (ruleIdField b0 .coap)
  let rule1 ← namedRule v dev .udp (ruleIdField b0 .udp)
  let rule0 ← namedRule v dev .ip6 (ruleIdField b0 .ip6)
  let s0 ← partSize 40 rule0 dir
  let s1 ← partSize 8 rule1 dir
  if r.len.toNat < 1 + s0 + s1 then raise .cursorOverrun
  else do
    let coapSrc := src.drop (1 + s0 + s1)
    let (k, h2) ← unpackLayer v r .coap rule2 coapSrc dir
    let (_, h1) ← unpackLayer v r .udp rule1 (slice src (1 + s0) s1) dir
    let (_, h0) ← unpackLayer v r .ip6 rule0 (slice src 1 s0) dir
    return h0 ++ h1 ++ h2 ++ coapSrc.drop k

/-- `DECOMP` (R255), with the regions it leaves holding any value (R254). -/
def cmdDecomp : Command :=
  { regions := fun r => [outRange r, ctxRange r]
    guarded := true
    scratch := fun r => [outRange r, ctxRange r]
    run := fun v r => do
      let dir ← checkDir r
      if r.len.toNat < 1 then raise .cursorOverrun
      else do
        checkRegions v r
        let src ← readBytes v r.aAddr.toNat r.len.toNat
        let dev ← lookupDevice v r
        let out ← decompressPacket v r dev src dir
        if r.outCap.toNat < out.length then raise .insufficientBuffer
        else do
          let (out1, _) ← patchLen out
          let (out2, _, _) ← patchChk out1
          let w ← writeOut v r out2
          return { writes := [w], result := out2.length, result2 := fieldAt src 0 1 } }

/-- `RIDPK` (R250). -/
def execRidpk (s : State) : Host.Outcome State Fault Refusal := perform cmdRidpk s
/-- `RIDUNPK` (R251). -/
def execRidunpk (s : State) : Host.Outcome State Fault Refusal := perform cmdRidunpk s
/-- `COMP` (R253). -/
def execComp (s : State) : Host.Outcome State Fault Refusal := perform cmdComp s
/-- `DECOMP` (R255). -/
def execDecomp (s : State) : Host.Outcome State Fault Refusal := perform cmdDecomp s
/-- `PLEN` (R256). -/
def execPlen (s : State) : Host.Outcome State Fault Refusal := perform cmdPlen s
/-- `PCHK` (R257). -/
def execPchk (s : State) : Host.Outcome State Fault Refusal := perform cmdPchk s

end Sys2Proof.Machine
end

