-- ==== Sys2Proof/Machine/Dispatch.lean ====
section
/-! DEFINITION. The meaning of every instruction, one arm each. -/

namespace Sys2Proof.Machine

def exec (i : Instr) (s : State) : Host.Outcome State Fault Refusal :=
  match i with
  | .getb => Sys2Proof.Machine.execGetb s
  | .setb => Sys2Proof.Machine.execSetb s
  | .clrb => Sys2Proof.Machine.execClrb s
  | .cpyb => Sys2Proof.Machine.execCpyb s
  | .cmpb => Sys2Proof.Machine.execCmpb s
  | .shlb => Sys2Proof.Machine.execShlb s
  | .shrb => Sys2Proof.Machine.execShrb s
  | .xorb => Sys2Proof.Machine.execXorb s
  | .andb => Sys2Proof.Machine.execAndb s
  | .meq => Sys2Proof.Machine.execMeq s
  | .mign => Sys2Proof.Machine.execMign s
  | .mmsb => Sys2Proof.Machine.execMmsb s
  | .mmap => Sys2Proof.Machine.execMmap s
  | .mdisp => Sys2Proof.Machine.execMdisp s
  | .cOmit => Sys2Proof.Machine.execCOmit s
  | .cVal => Sys2Proof.Machine.execCVal s
  | .cMap => Sys2Proof.Machine.execCMap s
  | .cLsb => Sys2Proof.Machine.execCLsb s
  | .cDlen => Sys2Proof.Machine.execCDlen s
  | .cDchk => Sys2Proof.Machine.execCDchk s
  | .cDeviid => Sys2Proof.Machine.execCDeviid s
  | .cAppiid => Sys2Proof.Machine.execCAppiid s
  | .dOmit => Sys2Proof.Machine.execDOmit s
  | .dVal => Sys2Proof.Machine.execDVal s
  | .dMap => Sys2Proof.Machine.execDMap s
  | .dLsb => Sys2Proof.Machine.execDLsb s
  | .dDlen => Sys2Proof.Machine.execDDlen s
  | .dDchk => Sys2Proof.Machine.execDDchk s
  | .dDeviid => Sys2Proof.Machine.execDDeviid s
  | .dAppiid => Sys2Proof.Machine.execDAppiid s
  | .rsel => Sys2Proof.Machine.execRsel s
  | .clayer => Sys2Proof.Machine.execClayer s
  | .dlayer => Sys2Proof.Machine.execDlayer s
  | .flat6 => Sys2Proof.Machine.execFlat6 s
  | .flatu => Sys2Proof.Machine.execFlatu s
  | .flatc => Sys2Proof.Machine.execFlatc s
  | .ridpk => Sys2Proof.Machine.execRidpk s
  | .ridunpk => Sys2Proof.Machine.execRidunpk s
  | .comp => Sys2Proof.Machine.execComp s
  | .decomp => Sys2Proof.Machine.execDecomp s
  | .plen => Sys2Proof.Machine.execPlen s
  | .pchk => Sys2Proof.Machine.execPchk s

end Sys2Proof.Machine
end

