-- ==== Sys2Proof/Decode.lean ====
section
/-! DEFINITION. The decoder and, after it, the encoder (30_encoding.md R70, R71, R73, R75). -/

namespace Sys2Proof

/-- Why a command word is refused (30_encoding.md R75): both kinds complete with `ILLEGAL_CMD`. -/
inductive DecodeError
  | zeroFieldSet       -- bits 31:8 are not zero
  | reservedOpcode     -- bits 7:0 are not in R73
deriving DecidableEq, Repr

/-- 30_encoding.md R73: the bit-buffer primitives. -/
def rowsBitbuf : List (Nat × Instr) :=
  [(0x10, .getb), (0x11, .setb), (0x12, .clrb), (0x13, .cpyb), (0x14, .cmpb), (0x15, .shlb), (0x16, .shrb),
   (0x17, .xorb), (0x18, .andb)]

/-- 30_encoding.md R73: the predicates. -/
def rowsPredicates : List (Nat × Instr) :=
  [(0x20, .meq), (0x21, .mign), (0x22, .mmsb), (0x23, .mmap), (0x24, .mdisp)]

/-- 30_encoding.md R73: the compression actions. -/
def rowsCompress : List (Nat × Instr) :=
  [(0x30, .cOmit), (0x31, .cVal), (0x32, .cMap), (0x33, .cLsb), (0x34, .cDlen), (0x35, .cDchk),
   (0x36, .cDeviid), (0x37, .cAppiid)]

/-- 30_encoding.md R73: the decompression actions. -/
def rowsDecompress : List (Nat × Instr) :=
  [(0x40, .dOmit), (0x41, .dVal), (0x42, .dMap), (0x43, .dLsb), (0x44, .dDlen), (0x45, .dDchk),
   (0x46, .dDeviid), (0x47, .dAppiid)]

/-- 30_encoding.md R73: layers, flatteners and the pipeline. -/
def rowsPipeline : List (Nat × Instr) :=
  [(0x50, .rsel), (0x51, .clayer), (0x52, .dlayer), (0x58, .flat6), (0x59, .flatu), (0x5A, .flatc),
   (0x60, .ridpk), (0x61, .ridunpk), (0x62, .comp), (0x63, .decomp), (0x64, .plen), (0x65, .pchk)]

/-- The opcode map (30_encoding.md R73). -/
def opcodeRows : List (Nat × Instr) :=
  rowsBitbuf ++ (rowsPredicates ++ (rowsCompress ++ (rowsDecompress ++ rowsPipeline)))

/-- The instruction with opcode `n` in a list of rows. -/
def findOpcode (n : Nat) : List (Nat × Instr) → Option Instr
  | [] => none
  | (k, i) :: rest => if k = n then some i else findOpcode n rest

/-- 30_encoding.md R70, R71: bits 31:8 must be zero, and bits 7:0 alone tell the command. -/
def decode (w : Word) : Except DecodeError Instr :=
  if w.toNat / 256 ≠ 0 then .error .zeroFieldSet
  else match findOpcode (w.toNat % 256) opcodeRows with
    | some i => .ok i
    | none => .error .reservedOpcode

/-- The opcode of an instruction (30_encoding.md R73). -/
def opcodeOf : Instr → Nat
  | .getb => 0x10 | .setb => 0x11 | .clrb => 0x12 | .cpyb => 0x13 | .cmpb => 0x14
  | .shlb => 0x15 | .shrb => 0x16 | .xorb => 0x17 | .andb => 0x18
  | .meq => 0x20 | .mign => 0x21 | .mmsb => 0x22 | .mmap => 0x23 | .mdisp => 0x24
  | .cOmit => 0x30 | .cVal => 0x31 | .cMap => 0x32 | .cLsb => 0x33
  | .cDlen => 0x34 | .cDchk => 0x35 | .cDeviid => 0x36 | .cAppiid => 0x37
  | .dOmit => 0x40 | .dVal => 0x41 | .dMap => 0x42 | .dLsb => 0x43
  | .dDlen => 0x44 | .dDchk => 0x45 | .dDeviid => 0x46 | .dAppiid => 0x47
  | .rsel => 0x50 | .clayer => 0x51 | .dlayer => 0x52
  | .flat6 => 0x58 | .flatu => 0x59 | .flatc => 0x5A
  | .ridpk => 0x60 | .ridunpk => 0x61 | .comp => 0x62 | .decomp => 0x63 | .plen => 0x64 | .pchk => 0x65

/-- The word of an instruction: the opcode in bits 7:0, zero above (30_encoding.md R70). -/
def encode (i : Instr) : Word := BitVec.ofNat 32 (opcodeOf i)

/-- The word that stands for the bits `w` of a table row of `nbits` bits: the bits above are zero. -/
def tableWord (nbits w : Nat) : Word := BitVec.ofNat 32 (w % 2 ^ nbits)

/-- What the decoder reads from a table row's word. -/
def decodeTableWord (nbits w : Nat) : Option Instr :=
  match decode (tableWord nbits w) with
  | .ok i => some i
  | .error _ => none

end Sys2Proof
end

