-- ==== Sys2Proof/Machine/Commands.lean ====
section
/-! DEFINITION. The command of each instruction, for what must be known of a command that is still running:
the bytes it would write (70_reset_and_hazards.md R300, 20_memory.md R60). -/

namespace Sys2Proof.Machine

/-- The command of an instruction (30_encoding.md R73). -/
def commandOf : Instr → Command
  | .getb => cmdGetb
  | .setb => cmdSetb
  | .clrb => cmdClrb
  | .cpyb => cmdCpyb
  | .cmpb => cmdCmpb
  | .shlb => cmdShlb
  | .shrb => cmdShrb
  | .xorb => cmdXorb
  | .andb => cmdAndb
  | .meq => cmdMeq
  | .mign => cmdMign
  | .mmsb => cmdMmsb
  | .mmap => cmdMmap
  | .mdisp => cmdMdisp
  | .cOmit => cmdCOmit
  | .cVal => cmdCVal
  | .cMap => cmdCMap
  | .cLsb => cmdCLsb
  | .cDlen => cmdCDlen
  | .cDchk => cmdCDchk
  | .cDeviid => cmdCDeviid
  | .cAppiid => cmdCAppiid
  | .dOmit => cmdDOmit
  | .dVal => cmdDVal
  | .dMap => cmdDMap
  | .dLsb => cmdDLsb
  | .dDlen => cmdDDlen
  | .dDchk => cmdDDchk
  | .dDeviid => cmdDDeviid
  | .dAppiid => cmdDAppiid
  | .rsel => cmdRsel
  | .clayer => cmdClayer
  | .dlayer => cmdDlayer
  | .flat6 => cmdFlat6
  | .flatu => cmdFlatu
  | .flatc => cmdFlatc
  | .ridpk => cmdRidpk
  | .ridunpk => cmdRidunpk
  | .comp => cmdComp
  | .decomp => cmdDecomp
  | .plen => cmdPlen
  | .pchk => cmdPchk

end Sys2Proof.Machine
end

