-- ==== Sys2Proof/Machine/HostPort.lean ====
section
/-! DEFINITION. What the host can do to the engine: the register window (10_state.md R23 to R38), the buffer
memory (20_memory.md R59, R60) and reset (70_reset_and_hazards.md R300). -/

namespace Sys2Proof.Machine

/-- The bytes the running command writes (R60, R300): none while IDLE or for an illegal word (30_encoding.md
R70). -/
def runningWrites (s : State) : List Range :=
  match s.fsm with
  | .idle => []
  | .busy =>
    match decode s.snap.word with
    | .error _ => []
    | .ok i => (commandOf i).written s

/-- Reset (10_state.md R43, R300): every register to its reset value, no memory written; a running command is
abandoned, and every byte it would have written, on the next mix if the host wrote what it reads, holds any value
(log 12). The parameters and the host's side stay. -/
def State.hostReset (s : State) : State :=
  let t := State.clobber { s with freeIdx := s.freeIdx + 1 } (runningWrites s)
  { State.reset with
    params := s.params, mem := t.mem, events := s.events, readData := s.readData, freeIdx := t.freeIdx }

/-- Whether an access of `size` bytes at host address `addr` touches the register window (R23). -/
def inWindow (s : State) (addr size : Nat) : Bool :=
  addr < s.params.regBase + 256 && s.params.regBase < addr + size

/-- Whether it is an aligned 32-bit access (R37). -/
def accessOk (s : State) (addr size : Nat) : Bool :=
  s.params.regBase ≤ addr && accessWellFormed (addr - s.params.regBase) size

/-- A host write at host address `addr` (R29, R35 to R37). One outside the window is not the engine's (log 16). -/
def hostRegWrite (s : State) (addr size : Nat) (w : Word) : Host.Outcome State Fault Refusal :=
  if inWindow s addr size then
    if accessOk s addr size then .next (writeRegister s (addr - s.params.regBase) w)
    else .refused .registerAccessShape
  else .next s

/-- A host read at host address `addr` (R29, R33 to R38). One outside the window is not the engine's (log 16). -/
def hostRegRead (s : State) (addr size : Nat) : Host.Outcome State Fault Refusal :=
  if inWindow s addr size then
    if accessOk s addr size then .next { s with readData := readRegister s (addr - s.params.regBase) }
    else .refused .registerAccessShape
  else .next s

/-- A host write of one byte of buffer memory. While a command runs, the address is kept, with the byte it held
(R60, log 11). -/
def hostMemWrite (s : State) (addr : Nat) (b : Byte) : Host.Outcome State Fault Refusal :=
  if addr < s.params.memSize then
    .next
      { s with
        mem := s.mem.put addr [b],
        raced := match s.fsm with
          | .idle => s.raced
          | .busy => (addr, s.mem.get addr) :: s.raced }
  else .fault (.noSuchByte addr)

/-- A host read of one byte of buffer memory. A byte that the running command writes cannot be relied on: a
free value (R60, log 13). -/
def hostMemRead (s : State) (addr : Nat) : Host.Outcome State Fault Refusal :=
  if addr < s.params.memSize then
    match s.fsm with
    | .idle => .next { s with readData := (s.mem.get addr).setWidth 32 }
    | .busy =>
      .next
        { s with
          readData :=
            (if anyIn [addr] (runningWrites s) then Config.freeByte s.freeIdx else s.mem.get addr).setWidth 32,
          freeIdx := s.freeIdx + 1 }
  else .fault (.noSuchByte addr)

end Sys2Proof.Machine
end

