-- ==== Sys2Proof/Machine/Engine.lean ====
section
/-! DEFINITION. The engine's turn and one event. -/

namespace Sys2Proof.Machine

/-- The engine's turn: a running command runs to its completion, an illegal word completes with `ILLEGAL_CMD`
(10_state.md R32, 30_encoding.md R75); an idle engine waits for a `CMD` write (70_reset_and_hazards.md R301,
log 23). -/
def engineTurn (s : State) : Host.Outcome State Fault Refusal :=
  match s.fsm with
  | .idle => .next s
  | .busy =>
    match decode s.snap.word with
    | .ok i => exec i s
    | .error _ => .next (s.completeError .illegalCmd)

/-- One event (log 6). -/
def doEvent (e : Event) (s : State) : Host.Outcome State Fault Refusal :=
  match e with
  | .regWrite addr size w => hostRegWrite s addr size w
  | .regRead addr size => hostRegRead s addr size
  | .memWrite addr b => hostMemWrite s addr b
  | .memRead addr => hostMemRead s addr
  | .reset => .next s.hostReset
  | .engine => engineTurn s

/-- The first event is taken off the list and done; with none left, the engine has its turn. -/
def stepOnce (s : State) : Host.Outcome State Fault Refusal :=
  match s.events with
  | [] => engineTurn s
  | e :: rest => doEvent e { s with events := rest }

/-- The state just after the engine accepted the command word `w` with the registers of `s`, the engine's
turn next: the engine fetches nothing (10_state.md R21), so this stands for a host that writes `w` to `CMD`
(log 6). -/
def State.issued (s : State) (w : Word) : State := { s.acceptIssue w with events := [] }

end Sys2Proof.Machine
end

