-- ==== Sys2Proof/Machine/Step.lean ====
section
/-! DEFINITION. One step of the machine, and the state in which a given word is the one that runs next. -/

namespace Sys2Proof.Machine

/-- One step: the next event, or the engine's turn (log 6). -/
def step (s : State) : Host.Outcome State Fault Refusal := stepOnce s

/-- `s` with the word of `nbits` bits issued and accepted, so that the very next step runs it (log 6). -/
def State.withFetchWord (s : State) (nbits w : Nat) : State := s.issued (tableWord nbits w)

end Sys2Proof.Machine
end

