-- ==== Sys2Proof/Safety.lean ====
section
/-! DEFINITION. What counts as a safe state and a safe run, and the words statements are written in. The
records of memory, the completions and the regions are written here from the spec's tables, apart from the
definitions a step uses. -/

namespace Sys2Proof.Machine

/-! ## The invariant -/

/-- `STATUS` is as 10_state.md R33 says it can be: BUSY is `FSM = BUSY`, never with DONE, the reserved bits
read 0, ERR is set exactly when ERRCODE is not 0, only while DONE, and ERRCODE is a code of 60_exceptions.md
R280. -/
abbrev StatusLegal (s : State) : Prop :=
  (statusBusy s.status = true ↔ s.fsm = .busy) ∧
  ¬ (statusBusy s.status = true ∧ statusDone s.status = true) ∧
  statusReserved s.status = 0#32 ∧
  (statusErr s.status = true ↔ statusErrCode s.status ≠ 0) ∧
  (statusErr s.status = true → statusDone s.status = true) ∧
  statusErrCode s.status ≤ 0xE

/-- The memory is in its canonical form and lists only bytes that exist (20_memory.md R50). -/
abbrev MemoryLegal (s : State) : Prop := s.mem.wf = true ∧ s.mem.within s.params.memSize = true

/-- No race is recorded while the engine is idle. -/
abbrev RaceLegal (s : State) : Prop := s.fsm = .idle → s.raced = []

/-- The invariant of the machine. -/
abbrev Legal (s : State) : Prop := StatusLegal s ∧ MemoryLegal s ∧ RaceLegal s

/-- The host has kept the duty of 20_memory.md R60 so far: no byte written since the issue. -/
abbrev Undisturbed (s : State) : Prop := s.raced = []

/-- `m` is a mix of old and new bytes (20_memory.md R60): each byte is the one that stands in memory or one that the
host overwrote during BUSY. -/
def MixOf (s : State) (m : Memory) : Prop := ∀ x, m.get x = s.mem.get x ∨ (x, m.get x) ∈ s.raced

/-- Byte `x` holds a free value that the way from `s` to `t` has drawn (log 9). -/
def HoldsFree (s t : State) (x : Nat) : Prop :=
  ∃ k, s.freeIdx ≤ k ∧ k < t.freeIdx ∧ t.mem.get x = Config.freeByte k

/-- On the way from `s` to `t` each byte of `W` that exists took a free value, and every other byte is as before
(20_memory.md R60, 70_reset_and_hazards.md R300). -/
def FreesOnly (s t : State) (W : Nat → Bool) : Prop :=
  ∀ x, if W x = true ∧ x < s.params.memSize then HoldsFree s t x else t.mem.get x = s.mem.get x

/-! ## Completion -/

/-- The whole state after a normal completion (10_state.md R32) with memory `m` and results `r`, `r2`. -/
def doneState (s : State) (m : Memory) (r r2 : Nat) : State :=
  { params := s.params, fsm := .idle, status := if s.status.getLsbD 3 then 0xA#32 else 0x2#32,
    result := BitVec.ofNat 32 r, result2 := BitVec.ofNat 32 r2, regs := s.regs, snap := s.snap, mem := m,
    events := s.events, readData := s.readData, raced := [], freeIdx := s.freeIdx }

/-- The whole state after an error completion (60_exceptions.md R283) that leaves memory alone (R282). -/
def failedState (s : State) (e : Err) : State :=
  { params := s.params, fsm := .idle,
    status := BitVec.ofNat 32 (0x6 + e.code * 0x100 + if s.status.getLsbD 3 then 0x8 else 0),
    result := 0xFFFFFFFF#32, result2 := 0, regs := s.regs, snap := s.snap, mem := s.mem,
    events := s.events, readData := s.readData, raced := [], freeIdx := s.freeIdx }

/-- An error completion with code `e`, whatever it leaves in memory (R283, R254). -/
def FailsWith (o : Host.Outcome State Fault Refusal) (s : State) (e : Err) : Prop :=
  ∃ t, o = .next t ∧ t.fsm = .idle ∧ t.status = (failedState s e).status ∧ t.result = 0xFFFFFFFF#32 ∧
    t.result2 = 0

/-! ## Memory -/

/-- `m'` is `m` with the bytes `out` at `a`, every other byte as before. -/
def Stored (m m' : Memory) (a : Nat) (out : Bytes) : Prop :=
  ∀ x, m'.get x = if a ≤ x ∧ x < a + out.length then out.getD (x - a) 0#8 else m.get x

/-- The bit at position `q` of all of memory (00_scope.md R8 with base 0): bit `p` of a buffer at `base` is
bit `8 * base + p`. -/
def gbit (m : Memory) (q : Nat) : Bool := (m.get (q / 8)).getLsbD (7 - q % 8)

/-- A bit range is in memory: empty, or its last bit below `8 * MEM_SIZE` (20_memory.md R52, R54). -/
abbrev BitsFit (s : State) (addr pos len : Word) : Prop :=
  len.toNat = 0 ∨ 8 * addr.toNat + pos.toNat + len.toNat ≤ 8 * s.params.memSize

/-- The bytes `a .. a+n-1` are in memory, or `n = 0` (20_memory.md R52). -/
abbrev BytesFit (s : State) (a n : Nat) : Prop := n = 0 ∨ a + n ≤ s.params.memSize

/-- The first bit of operand A, counted from bit 0 of memory. -/
def startA (r : Regs) : Nat := 8 * r.aAddr.toNat + r.aPos.toNat
/-- The first bit of operand B. -/
def startB (r : Regs) : Nat := 8 * r.bAddr.toNat + r.bPos.toNat
/-- The first bit of the destination. -/
def startD (r : Regs) : Nat := 8 * r.dAddr.toNat + r.dPos.toNat

/-- What bit `q` reads as when the destination bits from `d` on have been written up to, not including, the
`i`-th: the new value if it is one of them, else the old one (40_bitbuf.md R112). -/
def bitNow (old new : Memory) (d i q : Nat) : Bool :=
  if d ≤ q ∧ q < d + i then gbit new q else gbit old q

/-! ## Regions (20_memory.md R65, 30_encoding.md R74) -/

/-- The regions a command other than the bit commands and patchers writes (R65): it must not read them. -/
def guardOf (i : Instr) (r : Regs) : List Range :=
  match i with
  | .cOmit | .cVal | .cMap | .cLsb | .cDlen | .cDchk | .cDeviid | .cAppiid => [⟨r.dAddr.toNat, r.outCap.toNat⟩]
  | .dOmit | .dVal | .dMap | .dLsb | .dDlen | .dDchk | .dDeviid | .dAppiid => [⟨r.dAddr.toNat, r.outCap.toNat⟩]
  | .clayer => [⟨r.dAddr.toNat, r.outCap.toNat⟩]
  | .dlayer | .comp | .decomp => [⟨r.dAddr.toNat, r.outCap.toNat⟩, ⟨r.ctxAddr.toNat, r.ctxSize.toNat⟩]
  | .flat6 | .flatu | .flatc => [⟨r.ctxAddr.toNat, r.ctxSize.toNat⟩]
  | .getb | .setb | .clrb | .cpyb | .cmpb | .shlb | .shrb | .xorb | .andb => []
  | .meq | .mign | .mmsb | .mmap | .mdisp => []
  | .rsel | .ridpk | .ridunpk | .plen | .pchk => []

/-- The output range and the context region of a command, as far as it uses them (R65, 70_reset_and_hazards.md R310):
those that it must not read, and the context region that `CLAYER` reads its columns from. -/
def regionsOf (i : Instr) (r : Regs) : List Range :=
  if i = .clayer then [⟨r.dAddr.toNat, r.outCap.toNat⟩, ⟨r.ctxAddr.toNat, r.ctxSize.toNat⟩] else guardOf i r

/-- Whether byte `x` is one that the command may write (R74, R65). -/
def mayWrite (i : Instr) (r : Regs) (x : Nat) : Bool :=
  match i with
  | .setb | .clrb | .cpyb | .xorb | .andb =>
    r.len.toNat != 0 && startD r / 8 ≤ x && x ≤ (startD r + r.len.toNat - 1) / 8
  | .shlb | .shrb => r.dAddr.toNat ≤ x && x < r.dAddr.toNat + r.len.toNat
  | .plen =>
    x == r.aAddr.toNat + 4 || x == r.aAddr.toNat + 5 || x == r.aAddr.toNat + 44 || x == r.aAddr.toNat + 45
  | .pchk => x == r.aAddr.toNat + 46 || x == r.aAddr.toNat + 47
  | .cOmit | .cVal | .cMap | .cLsb | .cDlen | .cDchk | .cDeviid | .cAppiid
  | .dOmit | .dVal | .dMap | .dLsb | .dDlen | .dDchk | .dDeviid | .dAppiid
  | .clayer | .dlayer | .comp | .decomp | .flat6 | .flatu | .flatc
  | .getb | .cmpb | .meq | .mign | .mmsb | .mmap | .mdisp | .rsel | .ridpk | .ridunpk =>
    (guardOf i r).any (fun g => g.has x)

/-- Whether byte `x` is one that command `i`, completed as in `u`, wrote: nothing after an error but for `COMP` and
`DECOMP` (60_exceptions.md R282), of an output range the bytes that `RESULT` or `RESULT2` counts, of a context region
the bytes used that its second word counts (30_encoding.md R74, R90), else all it may write. -/
def wroteIn (i : Instr) (r : Regs) (u : State) (x : Nat) : Bool :=
  match i with
  | .comp | .decomp => mayWrite i r x
  | .cOmit | .cVal | .cMap | .cLsb | .cDlen | .cDchk | .cDeviid | .cAppiid | .clayer =>
    !statusErr u.status && (r.dAddr.toNat ≤ x && x < r.dAddr.toNat + u.result.toNat)
  | .dOmit | .dVal | .dMap | .dLsb | .dDlen | .dDchk | .dDeviid | .dAppiid =>
    !statusErr u.status && (r.dAddr.toNat ≤ x && x < r.dAddr.toNat + u.result2.toNat)
  | .flat6 | .flatu | .flatc =>
    !statusErr u.status &&
      (r.ctxAddr.toNat ≤ x && x < r.ctxAddr.toNat + be (u.mem.read (r.ctxAddr.toNat + 4) 4))
  | .dlayer =>
    !statusErr u.status && ((r.dAddr.toNat ≤ x && x < r.dAddr.toNat + u.result2.toNat) ||
      (r.ctxAddr.toNat ≤ x && x < r.ctxAddr.toNat + be (u.mem.read (r.ctxAddr.toNat + 4) 4)))
  | .getb | .setb | .clrb | .cpyb | .cmpb | .shlb | .shrb | .xorb | .andb
  | .meq | .mign | .mmsb | .mmap | .mdisp | .rsel | .ridpk | .ridunpk | .plen | .pchk =>
    !statusErr u.status && mayWrite i r x

/-- `W` is a set of bytes that command `i`, running in `s`, may be writing: those of its completion on the memory as it
stands or, only where it reads a byte that the host wrote, on some mix; every byte it may write where 20_memory.md R65
leaves that completion open (log 11, 12). -/
def MayBeWriting (i : Instr) (s : State) (W : Nat → Bool) : Prop :=
  ∃ m : Memory, MixOf s m ∧ ((commandOf i).compute s ≠ .error .raced → m = s.mem) ∧
    ((∃ u, exec i { s with mem := m, raced := [] } = .next u ∧ ∀ x, W x = wroteIn i s.snap.regs u x) ∨
     (exec i { s with mem := m, raced := [] } = .refused .regionOverlap ∧
      ∀ x, W x = mayWrite i s.snap.regs x))

/-- What a command sees of the machine: memory, the parameters, and the regions it must not read. -/
def viewOf (i : Instr) (s : State) : View :=
  { mem := s.mem, size := s.params.memSize, codec := s.params.codec, table := s.params.optionTable,
    guard := guardOf i s.snap.regs, raced := s.raced.map Prod.fst }

/-- A command may read the bytes `a .. a+n-1`: they exist and lie in none of its own regions (R52, R65). -/
def readable (v : View) (a n : Nat) : Bool :=
  (n == 0 || a + n ≤ v.size) && v.guard.all (fun g => !(g.meets ⟨a, n⟩))

/-- The two regions of `CLAYER`, `DLAYER`, `COMP` and `DECOMP` share no byte (R65, 70_reset_and_hazards.md R310). -/
abbrev RegionsApart (r : Regs) : Prop :=
  r.outCap.toNat = 0 ∨ r.ctxSize.toNat = 0 ∨ r.dAddr.toNat + r.outCap.toNat ≤ r.ctxAddr.toNat ∨
    r.ctxAddr.toNat + r.ctxSize.toNat ≤ r.dAddr.toNat

/-! ## Registers -/

/-- The byte offset of a register of `Regs` (10_state.md R23). -/
def OpReg.offset : OpReg → Nat
  | .aAddr => 0x10 | .aPos => 0x14 | .bAddr => 0x18 | .bPos => 0x1C | .dAddr => 0x20 | .dPos => 0x24
  | .len => 0x28 | .aux => 0x2C | .dir => 0x30 | .devId => 0x34 | .devtabAddr => 0x38 | .devtabN => 0x3C
  | .ctxAddr => 0x40 | .ctxSize => 0x44 | .outCap => 0x48
  | .node0 => 0x4C | .node1 => 0x50 | .node2 => 0x54 | .node3 => 0x58

/-- The registers a command reads (R74): "dev" is three registers, "ctx" two, "node" four. -/
def readsOf : Instr → List OpReg
  | .getb => [.aAddr, .aPos, .len]
  | .setb | .clrb => [.dAddr, .dPos, .len]
  | .cpyb => [.aAddr, .aPos, .dAddr, .dPos, .len]
  | .cmpb => [.aAddr, .aPos, .bAddr, .bPos, .len]
  | .shlb | .shrb => [.dAddr, .len, .aux]
  | .xorb | .andb => [.aAddr, .aPos, .bAddr, .bPos, .dAddr, .dPos, .len]
  | .meq | .mign | .mmsb | .mmap | .mdisp => [.aAddr, .len, .bAddr]
  | .cOmit | .cVal | .cMap | .cLsb | .cDlen | .cDchk | .cAppiid => [.aAddr, .len, .bAddr, .dAddr, .outCap]
  | .cDeviid => [.aAddr, .len, .bAddr, .dAddr, .outCap, .node0, .node1, .node2, .node3]
  | .dOmit | .dVal | .dMap | .dLsb | .dDlen | .dDchk | .dAppiid => [.aAddr, .len, .bAddr, .dAddr, .outCap]
  | .dDeviid => [.aAddr, .len, .bAddr, .dAddr, .outCap, .node0, .node1, .node2, .node3]
  | .rsel => [.aux, .dir, .devId, .devtabAddr, .devtabN, .ctxAddr, .ctxSize]
  | .clayer =>
    [.aux, .bAddr, .dir, .ctxAddr, .ctxSize, .dAddr, .outCap, .node0, .node1, .node2, .node3]
  | .dlayer =>
    [.aux, .bAddr, .aAddr, .len, .dir, .ctxAddr, .ctxSize, .dAddr, .outCap, .node0, .node1, .node2, .node3]
  | .flat6 | .flatu => [.aAddr, .dir, .ctxAddr, .ctxSize]
  | .flatc => [.aAddr, .len, .ctxAddr, .ctxSize]
  | .ridpk | .ridunpk => [.aux]
  | .comp =>
    [.aAddr, .len, .dAddr, .outCap, .aux, .dir, .devId, .devtabAddr, .devtabN, .ctxAddr, .ctxSize,
     .node0, .node1, .node2, .node3]
  | .decomp =>
    [.aAddr, .len, .dAddr, .outCap, .dir, .devId, .devtabAddr, .devtabN, .ctxAddr, .ctxSize,
     .node0, .node1, .node2, .node3]
  | .plen | .pchk => [.aAddr, .len]

/-- The layer number a register holds (30_encoding.md R86). -/
def auxIs (r : Regs) (l : Layer) : Bool :=
  match l with
  | .ip6 => r.aux.toNat == 0
  | .udp => r.aux.toNat == 1
  | .coap => r.aux.toNat == 2

/-- The direction that `DIR` holds (10_state.md R25). -/
def dirIs (r : Regs) (d : PacketDir) : Bool :=
  match d with
  | .up => r.dir.toNat == 1
  | .down => r.dir.toNat == 2

/-- `NodeIID` as one number: address bytes 8 to 15 (10_state.md R28). -/
def iidOf (r : Regs) : Bytes := bytesBE 8 (r.node2.toNat * 2 ^ 32 + r.node3.toNat)

/-! ## Records in memory (30_encoding.md R84 to R90) -/

/-- The unsigned integer of the `n` bytes at `a` (20_memory.md R51). -/
def num (v : View) (a n : Nat) : Nat := be (v.mem.read a n)

/-- The code of a descriptor's direction (R84). -/
def FieldDir.code : FieldDir → Nat
  | .up => 1 | .down => 2 | .bi => 3
/-- The code of a matching operator (R84). -/
def Mo.code : Mo → Nat
  | .equal => 0 | .ignore => 1 | .msb => 2 | .map => 3
/-- The code of an action (R84). -/
def Cda.code : Cda → Nat
  | .omit => 0 | .sendValue => 1 | .sendIndex => 2 | .sendLsb => 3 | .deferLength => 4 | .deferChecksum => 5
  | .deriveDevIid => 6 | .deriveAppIid => 7
/-- The code of a candidate-list form (R84). -/
def Form.code : Form → Nat
  | .single => 0 | .prefixed => 1

/-- A readable descriptor `d` stands at `a` (R84). -/
def descAt (v : View) (a : Nat) (d : Desc) : Bool :=
  readable v a 16 && num v a 2 == d.fid && num v (a + 2) 1 == d.dir.code && num v (a + 3) 1 == d.mo.code &&
  num v (a + 4) 2 == d.bits && num v (a + 6) 2 == d.par && num v (a + 8) 1 == d.cda.code &&
  num v (a + 9) 1 == d.form.code && num v (a + 10) 2 == d.tlen && num v (a + 12) 4 == d.taddr

/-- The bytes at `a` carry a value of `dir`, `mo`, `cda` or `form` that R84 does not list. -/
def descIllegal (v : View) (a : Nat) : Bool :=
  !(num v (a + 2) 1 == 1 || num v (a + 2) 1 == 2 || num v (a + 2) 1 == 3) || 3 < num v (a + 3) 1 ||
  7 < num v (a + 8) 1 || 1 < num v (a + 9) 1

/-- Reading the descriptor at `a` raises `e` (R84, 20_memory.md R52). -/
def DescFails (v : View) (a : Nat) (e : Err) : Prop :=
  (v.size < a + 16 ∧ e = .busFault) ∨ (readable v a 16 = true ∧ descIllegal v a = true ∧ e = .ruleFormat)

/-- Readable descriptors stand one after another from `a`. -/
def descsAt (v : View) : Nat → List Desc → Bool
  | _, [] => true
  | a, d :: rest => descAt v a d && descsAt v (a + 16) rest

/-- A readable and legal rule record of a layer stands at `a` (R86, R87). -/
def ruleAt (v : View) (a : Nat) (layer : Layer) (rule : Rule) : Bool :=
  readable v a 8 && num v a 1 == rule.ruleId && num v (a + 1) 1 == layer.number &&
  num v (a + 2) 2 == rule.fields.length &&
  num v (a + 4) 2 == (rule.fields.filter (fun d => d.dir == .up || d.dir == .bi)).length &&
  num v (a + 6) 2 == (rule.fields.filter (fun d => d.dir == .down || d.dir == .bi)).length &&
  1 ≤ rule.ruleId && rule.ruleId ≤ (match layer with | .ip6 => 3 | .udp => 3 | .coap => 7) &&
  descsAt v (a + 8) rule.fields

/-- The layer and the rule id of the rule record at `a` are legal for a layer (R86, R87). -/
def headerLegal (v : View) (a : Nat) (layer : Layer) : Bool :=
  num v (a + 1) 1 == layer.number && 1 ≤ num v a 1 &&
  num v a 1 ≤ (match layer with | .ip6 => 3 | .udp => 3 | .coap => 7)

/-- Reading the rule record at `a` for a layer raises `e` (R87): its header is out of memory (all 8 bytes at once:
log 19) or illegal, or, after the readable descriptors `ds`, the next one fails or the counts for UP and DOWN differ
from the header's. -/
def RuleFails (v : View) (a : Nat) (layer : Layer) (e : Err) : Prop :=
  (v.size < a + 8 ∧ e = .busFault) ∨
  (readable v a 8 = true ∧ headerLegal v a layer = false ∧ e = .ruleFormat) ∨
  (readable v a 8 = true ∧ headerLegal v a layer = true ∧ ∃ ds, descsAt v (a + 8) ds = true ∧
    ((ds.length < num v (a + 2) 2 ∧ DescFails v (a + 8 + 16 * ds.length) e) ∨
     (ds.length = num v (a + 2) 2 ∧ e = .ruleFormat ∧
      (num v (a + 4) 2 ≠ (ds.filter (fun d => d.dir == .up || d.dir == .bi)).length ∨
       num v (a + 6) 2 ≠ (ds.filter (fun d => d.dir == .down || d.dir == .bi)).length))))

/-- `t` is the readable target value of `d` (R85). -/
def targetIs (v : View) (d : Desc) (t : Bytes) : Bool :=
  d.tlen == (d.bits + 7) / 8 && readable v d.taddr d.tlen && v.mem.read d.taddr d.tlen == t

/-- `t` spells the candidates `ks` in a form (R85). -/
def spells (form : Form) (ks : List Bytes) (t : Bytes) : Bool :=
  match form with
  | .single => ks.all (fun k => k.length == 1) && t == ks.flatten
  | .prefixed =>
    ks.all (fun k => k.length ≤ 255) && t == (ks.map (fun k => BitVec.ofNat 8 k.length :: k)).flatten

/-- `ks` is the readable candidate list of `d` (R85). -/
def candidatesAre (v : View) (d : Desc) (ks : List Bytes) : Bool :=
  d.par ≤ 256 && readable v d.taddr d.tlen && ks.length == d.par && spells d.form ks (v.mem.read d.taddr d.tlen)

/-- The readable column value, or cursor bytes, at `A_ADDR` (41_predicates.md R140, 43_decompress_actions.md
R180). -/
def inputIs (v : View) (r : Regs) (c : Bytes) : Bool :=
  readable v r.aAddr.toNat r.len.toNat && v.mem.read r.aAddr.toNat r.len.toNat == c

/-- `out` fits `OUT_CAP` and memory at `D_ADDR` (42_compress_actions.md R160). -/
abbrev RoomFor (s : State) (r : Regs) (n : Nat) : Prop := n ≤ r.outCap.toNat ∧ BytesFit s r.dAddr.toNat n

/-- A command whose result is the bytes `out` stores them at `D_ADDR` and gives `r1` and `r2`; more than `OUT_CAP` is
`INSUFFICIENT_BUFFER`, a destination out of memory `BUS_FAULT` (42_compress_actions.md R160,
43_decompress_actions.md R180). -/
def Delivers (i : Instr) (s : State) (r : Regs) (out : Bytes) (r1 r2 : Nat) : Prop :=
  (RoomFor s r out.length →
    ∃ m, exec i s = .next (doneState s m r1 r2) ∧ Stored s.mem m r.dAddr.toNat out) ∧
  (r.outCap.toNat < out.length → exec i s = .next (failedState s .insufficientBuffer)) ∧
  (out.length ≤ r.outCap.toNat → ¬ BytesFit s r.dAddr.toNat out.length →
    exec i s = .next (failedState s .busFault))

/-- Readable column entries stand one after another from `a` (R90, R92). -/
def entriesAt (v : View) : Nat → List Col → Bool
  | _, [] => true
  | a, c :: rest =>
    readable v a 8 && num v a 2 == c.fid && num v (a + 2) 2 == c.val.length &&
    readable v (num v (a + 4) 4) c.val.length && v.mem.read (num v (a + 4) 4) c.val.length == c.val &&
    entriesAt v (a + 8) rest

/-- The context region holds the readable columns `cols` (R92). -/
def columnsAre (v : View) (r : Regs) (cols : List Col) : Bool :=
  readable v r.ctxAddr.toNat 2 && num v r.ctxAddr.toNat 2 == cols.length &&
  8 + 8 * cols.length ≤ r.ctxSize.toNat && entriesAt v (r.ctxAddr.toNat + 8) cols

/-- Reading the columns of the context region raises `e` (R92): the count is out of memory, the entries of `n` columns
do not fit `CTX_SIZE`, or, after the readable columns `cols`, the next entry or its value is out of memory. -/
def ColumnsFail (v : View) (r : Regs) (e : Err) : Prop :=
  (v.size < r.ctxAddr.toNat + 2 ∧ e = .busFault) ∨
  (readable v r.ctxAddr.toNat 2 = true ∧ r.ctxSize.toNat < 8 + 8 * num v r.ctxAddr.toNat 2 ∧ e = .ctxOverflow) ∨
  (readable v r.ctxAddr.toNat 2 = true ∧ 8 + 8 * num v r.ctxAddr.toNat 2 ≤ r.ctxSize.toNat ∧ e = .busFault ∧
    ∃ (cols : List Col) (b : Nat), entriesAt v (r.ctxAddr.toNat + 8) cols = true ∧
      cols.length < num v r.ctxAddr.toNat 2 ∧ b = r.ctxAddr.toNat + 8 + 8 * cols.length ∧
      (v.size < b + 8 ∨
       readable v b 8 = true ∧ num v (b + 2) 2 ≠ 0 ∧ v.size < num v (b + 4) 4 + num v (b + 2) 2))

/-! ## The bytes a command reads (30_encoding.md R74, 20_memory.md R60) -/

/-- Byte `x` is one of the `n` bytes from `a`. -/
def amongBytes (a n x : Nat) : Bool := a ≤ x && x < a + n

/-- Byte `x` is one that a bit range touches (20_memory.md R54). -/
def bitsTouch (addr pos len : Word) (x : Nat) : Bool :=
  len.toNat != 0 && (8 * addr.toNat + pos.toNat) / 8 ≤ x && x ≤ (8 * addr.toNat + pos.toNat + len.toNat - 1) / 8

/-- Byte `x` is one of the descriptor at `a` (R84) or of its target value (R85). -/
def fieldReads (v : View) (a x : Nat) : Bool :=
  amongBytes a 16 x || amongBytes (num v (a + 12) 4) (num v (a + 10) 2) x

/-- Byte `x` is one of the rule record at `a`, or of a target value of its descriptors (R86). -/
def ruleReads (v : View) (a x : Nat) : Bool :=
  amongBytes a 8 x || (List.range (num v (a + 2) 2)).any (fun j => fieldReads v (a + 8 + 16 * j) x)

/-- Byte `x` is one of the column array, or of a value that its entries address (R90). -/
def columnsRead (v : View) (r : Regs) (x : Nat) : Bool :=
  amongBytes r.ctxAddr.toNat (8 + 8 * num v r.ctxAddr.toNat 2) x ||
  (List.range (num v r.ctxAddr.toNat 2)).any (fun j =>
    amongBytes (num v (r.ctxAddr.toNat + 12 + 8 * j) 4) (num v (r.ctxAddr.toNat + 10 + 8 * j) 2) x)

/-- Byte `x` is one of the device table, or of a rule list or a rule of a record with id `DEV_ID` (R88, R89). -/
def deviceReads (v : View) (r : Regs) (x : Nat) : Bool :=
  amongBytes r.devtabAddr.toNat (32 * r.devtabN.toNat) x ||
  (List.range r.devtabN.toNat).any (fun k =>
    num v (r.devtabAddr.toNat + 32 * k) 4 == r.devId.toNat &&
    [0, 1, 2].any (fun layer =>
      let list := num v (r.devtabAddr.toNat + 32 * k + 4 + 4 * layer) 4
      let count := num v (r.devtabAddr.toNat + 32 * k + 16 + layer) 1
      amongBytes list (4 * count) x ||
      (List.range count).any (fun j => ruleReads v (num v (list + 4 * j) 4) x)))

/-- Whether byte `x` is one that the command may read, beside those that it writes: its operand (R74), the records its
registers point to, and what these point to. -/
def mayRead (i : Instr) (s : State) (x : Nat) : Bool :=
  let r := s.snap.regs
  let v := viewOf i s
  let input := amongBytes r.aAddr.toNat r.len.toNat x
  match i with
  | .setb | .clrb | .ridpk | .ridunpk => false
  | .getb | .cpyb => bitsTouch r.aAddr r.aPos r.len x
  | .cmpb | .xorb | .andb => bitsTouch r.aAddr r.aPos r.len x || bitsTouch r.bAddr r.bPos r.len x
  | .shlb | .shrb => amongBytes r.dAddr.toNat r.len.toNat x
  | .meq | .mmsb | .mmap | .mdisp | .cMap | .dOmit | .dMap | .dLsb => input || fieldReads v r.bAddr.toNat x
  | .mign | .cOmit | .cVal | .cLsb | .cDlen | .cDchk | .cDeviid | .cAppiid
  | .dVal | .dDlen | .dDchk | .dDeviid | .dAppiid => input || amongBytes r.bAddr.toNat 16 x
  | .rsel => deviceReads v r x || columnsRead v r x
  | .clayer => ruleReads v r.bAddr.toNat x || columnsRead v r x
  | .dlayer => input || ruleReads v r.bAddr.toNat x
  | .comp | .decomp => input || deviceReads v r x
  | .flat6 => amongBytes r.aAddr.toNat 40 x
  | .flatu => amongBytes r.aAddr.toNat 8 x
  | .flatc | .plen | .pchk => input

/-! ## Columns and rules -/

/-- The field ids of 30_encoding.md R82, with the option numbers of the table (45_flatten.md R230). -/
def Assigned (table : List Nat) (fid : Nat) : Prop :=
  fid ∈ [0x01, 0x02, 0x03, 0x04, 0x05, 0x06, 0x07, 0x08, 0x09, 0x0A, 0x11, 0x12, 0x13, 0x14,
    0x21, 0x22, 0x23, 0x24, 0x25, 0x26, 0x27] ∨ ∃ n ∈ table, fid = 0x100 + n

/-- A descriptor pairs with a column (44_rule_selection.md R201). -/
def Paired (v : View) (f : Desc) (c : Col) : Prop := f.fid = c.fid ∧ Assigned v.table f.fid

/-- A value as the engine writes it into a column: its low `L` bits, if it has the `nb(L)` bytes of an `L`-bit field
(R83, log 28). -/
def unpadded (d : Desc) (val : Bytes) : Bytes :=
  if val.length = (d.bits + 7) / 8 then bytesBE val.length (be val % 2 ^ d.bits) else val

/-- The bytes a column array takes: `8 + 8n + Σ len(v_i)` (R93). -/
def bytesUsed (cols : List Col) : Nat := 8 + 8 * cols.length + (cols.map (fun c => c.val.length)).sum

/-- `Σ_{j<k} len(v_j)` (R91). -/
def valuesBefore (cols : List Col) (k : Nat) : Nat := ((cols.take k).map (fun c => c.val.length)).sum

/-- Memory `m` holds the column array of R90 at `base`: count, zero, bytes used, then each entry with the
address of its value, and the values packed in column order. -/
def HoldsColumns (m : Memory) (base : Nat) (cols : List Col) : Prop :=
  be (m.read base 2) = cols.length % 2 ^ 16 ∧ be (m.read (base + 2) 2) = 0 ∧
  be (m.read (base + 4) 4) = bytesUsed cols % 2 ^ 32 ∧
  ∀ k c, cols[k]? = some c →
    be (m.read (base + 8 + 8 * k) 2) = c.fid % 2 ^ 16 ∧
    be (m.read (base + 10 + 8 * k) 2) = c.val.length % 2 ^ 16 ∧
    be (m.read (base + 12 + 8 * k) 4) = (base + 8 + 8 * cols.length + valuesBefore cols k) % 2 ^ 32 ∧
    m.read (base + 8 + 8 * cols.length + valuesBefore cols k) c.val.length = c.val

/-- Record `k` of the device table is readable and the first with id `DEV_ID` (R89). -/
def deviceIs (v : View) (r : Regs) (k : Nat) : Bool :=
  k < r.devtabN.toNat &&
  (List.range (k + 1)).all (fun j => readable v (r.devtabAddr.toNat + 32 * j) 4 &&
    ((num v (r.devtabAddr.toNat + 32 * j) 4 == r.devId.toNat) == (j == k)))

/-- No record of the readable device table has id `DEV_ID` (R89). -/
def noDevice (v : View) (r : Regs) : Bool :=
  (List.range r.devtabN.toNat).all (fun j => readable v (r.devtabAddr.toNat + 32 * j) 4 &&
    num v (r.devtabAddr.toNat + 32 * j) 4 != r.devId.toNat)

/-- Record `k` of the device table is out of memory, and the records before it have other ids (R89). -/
def deviceFault (v : View) (r : Regs) (k : Nat) : Bool :=
  k < r.devtabN.toNat && v.size < r.devtabAddr.toNat + 32 * k + 4 &&
  (List.range k).all (fun j => readable v (r.devtabAddr.toNat + 32 * j) 4 &&
    num v (r.devtabAddr.toNat + 32 * j) 4 != r.devId.toNat)

/-- The rules of a layer in device record `k`: the addresses `as` in declared order, all readable (R88). -/
def rulesListed (v : View) (r : Regs) (k : Nat) (layer : Layer) (as : List Nat) : Bool :=
  readable v (r.devtabAddr.toNat + 32 * k + 4 + 4 * layer.number) 4 &&
  readable v (r.devtabAddr.toNat + 32 * k + 16 + layer.number) 1 &&
  num v (r.devtabAddr.toNat + 32 * k + 16 + layer.number) 1 == as.length &&
  (List.range as.length).all (fun j =>
    readable v (num v (r.devtabAddr.toNat + 32 * k + 4 + 4 * layer.number) 4 + 4 * j) 4 &&
    num v (num v (r.devtabAddr.toNat + 32 * k + 4 + 4 * layer.number) 4 + 4 * j) 4 == as.getD j 0)

/-- The descriptors of a rule that apply in a direction, in rule order (44_rule_selection.md R200). -/
def applying (rule : Rule) (dir : PacketDir) : List Desc :=
  rule.fields.filter (fun d => d.dir == .bi || d.dir == (match dir with | .up => .up | .down => .down))

/-! ## Layers of `COMP` and `DECOMP` (46_pipeline.md R252 to R255) -/

/-- The outcome of one layer of `COMP`, for the columns `cols`: `none` is verbatim, because no rule matches or
because its actions raise one of the three errors that R252 catches; else the rule's id and residue. -/
def LayerPacked (v : View) (r : Regs) (dev : Nat) (layer : Layer) (cols : List Col) (dir : PacketDir)
    (o : Option (Nat × Bytes)) : Prop :=
  bytesUsed cols ≤ r.ctxSize.toNat ∧
  match o with
  | none =>
    selectRule v dev layer cols dir = .ok none ∨
    ∃ a rule e, selectRule v dev layer cols dir = .ok (some (a, rule)) ∧
      compressLayer v (iidOf r) rule cols dir = .error (.err e) ∧
      (e = .fieldLength ∨ e = .noMatch ∨ e = .unsupported)
  | some (id, res) =>
    ∃ a rule, selectRule v dev layer cols dir = .ok (some (a, rule)) ∧ rule.ruleId = id ∧
      compressLayer v (iidOf r) rule cols dir = .ok res

/-- A layer of `COMP` raises `e`, one that R252 does not catch: its columns do not fit `CTX_SIZE`, the selection fails,
or an action does. -/
def LayerFails (v : View) (r : Regs) (dev : Nat) (layer : Layer) (cols : List Col) (dir : PacketDir)
    (e : Err) : Prop :=
  (r.ctxSize.toNat < bytesUsed cols ∧ e = .ctxOverflow) ∨
  (bytesUsed cols ≤ r.ctxSize.toNat ∧
    (selectRule v dev layer cols dir = .error (.err e) ∨
     ∃ a rule, selectRule v dev layer cols dir = .ok (some (a, rule)) ∧
      compressLayer v (iidOf r) rule cols dir = .error (.err e) ∧
      e ≠ .fieldLength ∧ e ≠ .noMatch ∧ e ≠ .unsupported))

/-- The id of a layer's outcome: 0 for verbatim (30_encoding.md R81). -/
def outcomeId (o : Option (Nat × Bytes)) : Nat := (o.map Prod.fst).getD 0

/-- The rule that a sub-field names: none for 0 (R81, R255). -/
def LayerNamed (v : View) (dev : Nat) (layer : Layer) (id : Nat) (rule : Option Rule) : Prop :=
  match rule with
  | none => id = 0
  | some rl => id ≠ 0 ∧ findRule v dev layer id = .ok rl

/-- The number of bytes of a layer's part: `verbatim`, or the sum of its rule's residue sizes (R255). -/
def PartSized (verbatim : Nat) (rule : Option Rule) (dir : PacketDir) (n : Nat) : Prop :=
  match rule with
  | none => n = verbatim
  | some rl => residueSum (applying rl dir) = .ok n

/-- A layer's part `src` decompresses to the header `h`, taking `k` bytes (R255). -/
def LayerUnpacked (v : View) (r : Regs) (layer : Layer) (rule : Option Rule) (src : Bytes) (dir : PacketDir)
    (k : Nat) (h : Bytes) : Prop :=
  match rule with
  | none => k = src.length ∧ h = src
  | some rl =>
    ∃ cols, decompressLayer v (iidOf r) rl src dir = .ok (k, cols) ∧ bytesUsed cols ≤ r.ctxSize.toNat ∧
      assemble v layer cols dir = .ok h

/-- Finding the rule that a sub-field names raises `e` (R255). -/
def NameFails (v : View) (dev : Nat) (layer : Layer) (id : Nat) (e : Err) : Prop :=
  id ≠ 0 ∧ findRule v dev layer id = .error (.err e)

/-- The size of a layer's part raises `e` (R255, 42_compress_actions.md R170). -/
def SizeFails (rule : Option Rule) (dir : PacketDir) (e : Err) : Prop :=
  ∃ rl, rule = some rl ∧ residueSum (applying rl dir) = .error (.err e)

/-- Decompressing a layer's part `src` raises `e`: an action fails, the columns do not fit `CTX_SIZE`, or they assemble
to no header (R255). -/
def UnpackFails (v : View) (r : Regs) (layer : Layer) (rule : Option Rule) (src : Bytes) (dir : PacketDir)
    (e : Err) : Prop :=
  ∃ rl, rule = some rl ∧
    (decompressLayer v (iidOf r) rl src dir = .error (.err e) ∨
     ∃ k cols, decompressLayer v (iidOf r) rl src dir = .ok (k, cols) ∧
      ((r.ctxSize.toNat < bytesUsed cols ∧ e = .ctxOverflow) ∨
       (bytesUsed cols ≤ r.ctxSize.toNat ∧ assemble v layer cols dir = .error (.err e))))

/-- What `DECOMP` does once the parts of the compressed packet `src`, of `s0` and `s1` bytes, fit it (R255): the layers
CoAP, UDP, IPv6, then the length checks, the patches and the write; every byte of the two regions beyond the packet is a
free value (log 10). -/
def UnpacksParts (s : State) (r : Regs) (v : View) (dir : PacketDir) (src : Bytes) (b0 : Nat)
    (rule0 rule1 rule2 : Option Rule) (s0 s1 : Nat) : Prop :=
  (∀ e, UnpackFails v r .coap rule2 (src.drop (1 + s0 + s1)) dir e → FailsWith (exec .decomp s) s e) ∧
  (∀ (k2 : Nat) (h2 : Bytes), LayerUnpacked v r .coap rule2 (src.drop (1 + s0 + s1)) dir k2 h2 →
    (∀ e, UnpackFails v r .udp rule1 ((src.drop (1 + s0)).take s1) dir e → FailsWith (exec .decomp s) s e) ∧
    (∀ (k1 : Nat) (h1 : Bytes), LayerUnpacked v r .udp rule1 ((src.drop (1 + s0)).take s1) dir k1 h1 →
      (∀ e, UnpackFails v r .ip6 rule0 ((src.drop 1).take s0) dir e → FailsWith (exec .decomp s) s e) ∧
      (∀ (k0 : Nat) (h0 pkt0 : Bytes), LayerUnpacked v r .ip6 rule0 ((src.drop 1).take s0) dir k0 h0 →
        pkt0 = h0 ++ h1 ++ h2 ++ src.drop (1 + s0 + s1 + k2) →
        (r.outCap.toNat < pkt0.length → FailsWith (exec .decomp s) s .insufficientBuffer) ∧
        (pkt0.length ≤ r.outCap.toNat → 0xFFFF < pkt0.length - 40 → FailsWith (exec .decomp s) s .operand) ∧
        (pkt0.length ≤ r.outCap.toNat → pkt0.length - 40 ≤ 0xFFFF →
          ∃ (pkt1 pkt : Bytes) (mask one val : Nat) (t : State),
            patchLen pkt0 = .ok (pkt1, mask) ∧ patchChk pkt1 = .ok (pkt, one, val) ∧ exec .decomp s = .next t ∧
            t = { doneState s t.mem pkt.length b0 with freeIdx := t.freeIdx } ∧ pkt.length = pkt0.length ∧
            t.mem.read r.dAddr.toNat pkt.length = pkt ∧
            (∀ x, (r.dAddr.toNat + pkt.length ≤ x ∧ x < r.dAddr.toNat + r.outCap.toNat) ∨
              (r.ctxAddr.toNat ≤ x ∧ x < r.ctxAddr.toNat + r.ctxSize.toNat) → HoldsFree s t x) ∧
            (∀ x, ¬ (r.dAddr.toNat ≤ x ∧ x < r.dAddr.toNat + r.outCap.toNat) →
              ¬ (r.ctxAddr.toNat ≤ x ∧ x < r.ctxAddr.toNat + r.ctxSize.toNat) → t.mem.get x = s.mem.get x)))))

/-- The natural width of a field; `none` where it varies (30_encoding.md R82). -/
def naturalBits (fid : Nat) : Option Nat :=
  match fid with
  | 0x01 => some 4 | 0x02 => some 8 | 0x03 => some 20 | 0x04 => some 16 | 0x05 => some 8 | 0x06 => some 8
  | 0x07 => some 64 | 0x08 => some 64 | 0x09 => some 64 | 0x0A => some 64
  | 0x11 => some 16 | 0x12 => some 16 | 0x13 => some 16 | 0x14 => some 16
  | 0x21 => some 2 | 0x22 => some 2 | 0x23 => some 4 | 0x24 => some 8 | 0x25 => some 16 | 0x27 => some 8
  | _ => none

/-! ## Headers on the wire (45_flatten.md R227, R228, R233 to R235) -/

/-- A nibble and its extension bytes for a number (R228): up to 12 the number, 13 and one byte from 13 on, 14 and two
bytes from 269 on. -/
def spellNibble (x : Nat) : Nat × Bytes :=
  if x ≤ 12 then (x, []) else if x ≤ 268 then (13, bytesBE 1 (x - 13)) else (14, bytesBE 2 (x - 269))

/-- The bytes of an option before its value: `d` is its number less the one before, `n` its value's length (R228). -/
def spellOption (d n : Nat) : Bytes :=
  BitVec.ofNat 8 ((spellNibble d).1 * 16 + (spellNibble n).1) :: ((spellNibble d).2 ++ (spellNibble n).2)

/-- Options after option number `prev`, on the wire (R228). -/
def spellOptions : Nat → List (Nat × Bytes) → Bytes
  | _, [] => []
  | prev, (n, val) :: rest => spellOption (n - prev) val.length ++ val ++ spellOptions n rest

/-- Options after option number `prev` as R228 allows them: numbers of the table that do not decrease, each within the
reach of a delta, and values of at most 0xFFFF bytes. -/
def optionsLegal (table : List Nat) : Nat → List (Nat × Bytes) → Bool
  | _, [] => true
  | prev, (n, val) :: rest =>
    prev ≤ n && n - prev ≤ 65804 && table.contains n && val.length ≤ 0xFFFF && optionsLegal table n rest

/-- A CoAP header that R227 and R228 allow. -/
def headerAllowed (table : List Nat) (h : CoapHeader) : Bool :=
  h.ver == 1 && h.typ < 4 && h.tkl ≤ 8 && h.token.length == h.tkl && h.mid.length == 2 &&
  optionsLegal table 0 h.opts

/-- A CoAP header on the wire, its marker included (R227, R228). -/
def spellHeader (h : CoapHeader) : Bytes :=
  [BitVec.ofNat 8 (h.ver * 64 + h.typ * 16 + h.tkl), h.code] ++ h.mid ++ h.token ++ spellOptions 0 h.opts ++
  (if h.marker then [0xFF#8] else [])

/-- The extension bytes that a nibble asks for (R228). -/
def extensionBytes (x : Nat) : Nat := if x = 13 then 1 else if x = 14 then 2 else 0

/-- The columns are those of a header of the layer: the ids and lengths of R233 and R234; for CoAP those of R235, with
a token as long as TKL says, a marker value FF, and options of the table whose numbers do not decrease. -/
def assembles (table : List Nat) (layer : Layer) (cols : List Col) : Bool :=
  match layer with
  | .ip6 =>
    cols.map Col.fid == [0x01, 0x02, 0x03, 0x04, 0x05, 0x06, 0x07, 0x08, 0x09, 0x0A] &&
    cols.map (fun c => c.val.length) == [1, 1, 3, 2, 1, 1, 8, 8, 8, 8]
  | .udp =>
    cols.map Col.fid == [0x11, 0x12, 0x13, 0x14] && cols.map (fun c => c.val.length) == [2, 2, 2, 2]
  | .coap =>
    let tkl := be ((cols.map Col.val).getD 2 []) % 16
    let rest := cols.drop 6
    let marked := (rest.map Col.fid).getLast? == some 0x27
    let options := if marked then rest.dropLast else rest
    (cols.take 6).map Col.fid == [0x21, 0x22, 0x23, 0x24, 0x25, 0x26] &&
    (cols.take 6).map (fun c => c.val.length) == [1, 1, 1, 1, 2, tkl] && tkl ≤ 8 &&
    (!marked || (rest.map Col.val).getLast? == some [0xFF#8]) &&
    options.all (fun c => 0x100 ≤ c.fid && table.contains (c.fid - 0x100)) &&
    decide ((options.map Col.fid).Pairwise (· ≤ ·))

/-- The header that columns for which `assembles` holds give: IPv6 (R233) and UDP (R234) as one big-endian number each,
in which the bits of V, TC and FL above their widths are dropped and the two ends stand in the order of the direction;
CoAP (R235) from the low 2 bits of V and T and the low 4 of TKL, as the codec of the machine spells it (R226, R236). -/
def assembled (v : View) (layer : Layer) (cols : List Col) (dir : PacketDir) : Bytes :=
  let value := fun k => (cols.map Col.val).getD k []
  let n := fun k => be (value k)
  match layer with
  | .ip6 =>
    let dev := n 6 * 2 ^ 64 + n 7
    let app := n 8 * 2 ^ 64 + n 9
    bytesBE 40 (n 0 % 2 ^ 4 * 2 ^ 316 + n 1 % 2 ^ 8 * 2 ^ 308 + n 2 % 2 ^ 20 * 2 ^ 288 + n 3 * 2 ^ 272 +
      n 4 * 2 ^ 264 + n 5 * 2 ^ 256 +
      (match dir with | .up => dev * 2 ^ 128 + app | .down => app * 2 ^ 128 + dev))
  | .udp =>
    bytesBE 8 ((match dir with | .up => n 0 * 2 ^ 16 + n 1 | .down => n 1 * 2 ^ 16 + n 0) * 2 ^ 32 +
      n 2 * 2 ^ 16 + n 3)
  | .coap =>
    let rest := cols.drop 6
    let marked := (rest.map Col.fid).getLast? == some 0x27
    let options := if marked then rest.dropLast else rest
    let header : CoapHeader :=
      { ver := n 0 % 4, typ := n 1 % 4, tkl := n 2 % 16, code := BitVec.ofNat 8 (n 3), mid := value 4,
        token := value 5, opts := options.map (fun c => (c.fid - 0x100, c.val)), marker := marked }
    match v.codec with
    | .reference => spellHeader header
    | .external => Config.externalEncode header

/-- A field meets the conditions of the round-trip property (R259): omit only with `mo = equal`, or MSB over the
whole field; send-LSB only where the predicate has pinned the upper bits, with the pad bits of its target zero;
deferral only of IPv6 LEN, UDP LEN and UDP CKSUM; and the field has its natural width. -/
def roundTripField (v : View) (d : Desc) : Bool :=
  (match naturalBits d.fid with
    | some w => d.bits == w
    | none => d.bits % 8 == 0) &&
  (match d.cda with
    | .omit => d.mo == .equal || (d.mo == .msb && d.par == d.bits)
    | .sendLsb => (d.mo == .equal || d.mo == .msb) && num v d.taddr d.tlen < 2 ^ d.bits
    | .deferLength => d.fid == 0x04 || d.fid == 0x13 || d.fid == 0x14
    | .deferChecksum => d.fid == 0x04 || d.fid == 0x13 || d.fid == 0x14
    | .sendValue => true
    | .sendIndex => true
    | .deriveDevIid => true
    | .deriveAppIid => true)

/-- The readable rules of a layer in device record `k`, with the addresses of their records: no two have one id,
and every field meets the conditions of the round-trip property. -/
def roundTripRules (v : View) (r : Regs) (k : Nat) (layer : Layer) (rules : List (Nat × Rule)) : Bool :=
  rulesListed v r k layer (rules.map Prod.fst) &&
  rules.all (fun x => ruleAt v x.1 layer x.2 && x.2.fields.all (roundTripField v)) &&
  decide (rules.map (fun x => x.2.ruleId)).Nodup

end Sys2Proof.Machine
end

