-- ==== Sys2Proof/Certificates/Slice0/Obligations.lean ====
section
/-! DEFINITION. The statements for the provers. Each docstring says which rule of the spec it formalises. -/

section

open Sys2Proof Sys2Proof.Machine

/-! ## Reset, decoding, the step -/

/-- 10_state.md R43: what reset leaves, and that a direction-dependent command issued with the registers so left
raises `OPERAND`, whatever the memory (which R43 leaves unspecified). -/
def Obligations.ResetRegisters : Prop :=
  State.reset.fsm = .idle ∧ State.reset.status = 0#32 ∧ State.reset.result = 0#32 ∧ State.reset.result2 = 0#32 ∧
  (∀ r : OpReg, State.reset.regs.get r = 0#32) ∧
  readRegister State.reset 0x5C = 0x53434843#32 ∧ readRegister State.reset 0x60 = 0x00000001#32 ∧
  (∀ (i : Instr) (s : State) (m : Memory), i ∈ [.rsel, .clayer, .dlayer, .flat6, .flatu, .comp, .decomp] →
    s = { State.reset with fsm := .busy, status := 1#32, snap := ⟨encode i, State.reset.regs⟩, mem := m } →
    FailsWith (exec i s) s .operand)

/-- The reset state meets the invariant `Legal`, and its parameters are within 00_scope.md R6 (the values of the
parameters and of memory are the model's choice: log 1 to 5). -/
def Obligations.ResetIsLegal : Prop := Legal State.reset ∧ State.reset.params.wellFormed = true

/-- The invariant: `STATUS` is as 10_state.md R33 says, with the codes of 60_exceptions.md R280; memory keeps its
canonical form and lists only bytes below `MEM_SIZE` (20_memory.md R50); no race is recorded while idle. Every
step keeps it, from every state that has it, whatever the host does. -/
def Obligations.StepKeepsLegal : Prop := ∀ s t : State, Legal s → step s = .next t → Legal t

/-- 30_encoding.md R73: every row of the opcode map, as the word that 30_encoding.md R70 makes of it. -/
def Obligations.DecodeOpcodeMap : Prop :=
  ∀ p ∈ ([(0x00000010#32, .getb), (0x00000011#32, .setb), (0x00000012#32, .clrb), (0x00000013#32, .cpyb),
      (0x00000014#32, .cmpb), (0x00000015#32, .shlb), (0x00000016#32, .shrb), (0x00000017#32, .xorb),
      (0x00000018#32, .andb)] ++
     [(0x00000020#32, .meq), (0x00000021#32, .mign), (0x00000022#32, .mmsb), (0x00000023#32, .mmap),
      (0x00000024#32, .mdisp)] ++
     [(0x00000030#32, .cOmit), (0x00000031#32, .cVal), (0x00000032#32, .cMap), (0x00000033#32, .cLsb),
      (0x00000034#32, .cDlen), (0x00000035#32, .cDchk), (0x00000036#32, .cDeviid), (0x00000037#32, .cAppiid)] ++
     [(0x00000040#32, .dOmit), (0x00000041#32, .dVal), (0x00000042#32, .dMap), (0x00000043#32, .dLsb),
      (0x00000044#32, .dDlen), (0x00000045#32, .dDchk), (0x00000046#32, .dDeviid), (0x00000047#32, .dAppiid)] ++
     [(0x00000050#32, .rsel), (0x00000051#32, .clayer), (0x00000052#32, .dlayer), (0x00000058#32, .flat6),
      (0x00000059#32, .flatu), (0x0000005A#32, .flatc), (0x00000060#32, .ridpk), (0x00000061#32, .ridunpk),
      (0x00000062#32, .comp), (0x00000063#32, .decomp), (0x00000064#32, .plen), (0x00000065#32, .pchk)] :
     List (Word × Instr)),
    decode p.1 = .ok p.2

/-- Decode and encode agree in both directions, over all 2^32 words: a word is an instruction's exactly if it is
the one the encoder gives (30_encoding.md R70, R71, R73). -/
def Obligations.DecodeEncodeAgree : Prop := ∀ (w : Word) (i : Instr), decode w = .ok i ↔ w = encode i

/-- 30_encoding.md R70, R75: an illegal word, with bits 31:8 not zero or one of the reserved opcodes as R75 lists
them, completes with `ILLEGAL_CMD` and no other effect: no memory changes. -/
def Obligations.IllegalWordCompletes : Prop :=
  ∀ (s : State) (w : Nat), s.events = [] → s.fsm = .busy → s.snap.word.toNat = w →
    (256 ≤ w ∨ w ≤ 0x0F ∨ (0x19 ≤ w ∧ w ≤ 0x1F) ∨ (0x25 ≤ w ∧ w ≤ 0x2F) ∨ (0x38 ≤ w ∧ w ≤ 0x3F) ∨
      (0x48 ≤ w ∧ w ≤ 0x4F) ∨ (0x53 ≤ w ∧ w ≤ 0x57) ∨ (0x5B ≤ w ∧ w ≤ 0x5F) ∨ (0x66 ≤ w ∧ w ≤ 0xFF)) →
    step s = .next (failedState s .illegalCmd)

/-- A step in which the engine has its turn runs the command of the word it snapshotted, and nothing else; and
`withFetchWord` is an accepted issue of the word (10_state.md R29, R30, R32; the event list is the model's: log 6). -/
def Obligations.StepRunsIssuedCommand : Prop :=
  (∀ (s : State) (i : Instr), s.events = [] → s.fsm = .busy → decode s.snap.word = .ok i → step s = exec i s) ∧
  (∀ (s : State) (i : Instr) (rest : List Event), s.events = .engine :: rest → s.fsm = .busy →
    decode s.snap.word = .ok i → step s = exec i { s with events := rest }) ∧
  (∀ (s : State) (i : Instr), step (s.withFetchWord 32 (encode i).toNat) =
    exec i { s with status := 0x1#32, snap := ⟨encode i, s.regs⟩, fsm := .busy, raced := [], events := [] })

/-- 10_state.md R22, with the reset of 70_reset_and_hazards.md R300: a step leaves IDLE only by an accepted issue,
and leaves BUSY only by a completion in the engine's turn or by reset; an idle engine with nothing to do waits
(R301). -/
def Obligations.FsmTransitions : Prop :=
  (∀ s : State, s.fsm = .idle → s.events = [] → step s = .next s) ∧
  (∀ s t : State, s.fsm = .idle → step s = .next t → t.fsm = .busy →
    ∃ w rest, s.events = .regWrite s.params.regBase 4 w :: rest ∧ t.snap = ⟨w, s.regs⟩) ∧
  (∀ s t : State, s.fsm = .busy → step s = .next t → t.fsm = .idle →
    (statusDone t.status = true ∧ (s.events = [] ∨ ∃ rest, s.events = .engine :: rest)) ∨
    ∃ rest, s.events = .reset :: rest)

/-! ## The host's side -/

/-- 10_state.md R30, R31: an issue while IDLE is accepted, one while BUSY is dropped and only sets OVR, and OVR
then stays set until the next accepted issue (or reset, 70_reset_and_hazards.md R300). -/
def Obligations.IssueAcceptedOrDropped : Prop :=
  (∀ (s : State) (w : Word) (rest : List Event), s.fsm = .idle →
    s.events = .regWrite s.params.regBase 4 w :: rest →
    step s = .next { s with events := rest, status := 0x00000001#32, snap := ⟨w, s.regs⟩, fsm := .busy, raced := [] }) ∧
  (∀ (s : State) (w : Word) (rest : List Event), s.fsm = .busy →
    s.events = .regWrite s.params.regBase 4 w :: rest →
    step s = .next { s with events := rest, status := s.status ||| 0x8#32 }) ∧
  (∀ s t : State, step s = .next t → s.status.getLsbD 3 = true →
    t.status.getLsbD 3 = true ∨ (s.fsm = .idle ∧ t.fsm = .busy) ∨ ∃ rest, s.events = .reset :: rest)

/-- 10_state.md R24, R26, R35: each register at 0x10 to 0x58 stores all 32 bits written, whether the engine is
IDLE or BUSY, alone, and reads back as written; no command is affected, since it uses its snapshot. -/
def Obligations.OperandRegisters : Prop :=
  (∀ (s : State) (q : OpReg) (w : Word) (rest : List Event),
    s.events = .regWrite (s.params.regBase + q.offset) 4 w :: rest →
    ∃ t, step s = .next t ∧ t = { s with events := rest, regs := t.regs } ∧ t.regs.get q = w ∧
      ∀ p : OpReg, p ≠ q → t.regs.get p = s.regs.get p) ∧
  (∀ (s : State) (q : OpReg) (rest : List Event),
    s.events = .regRead (s.params.regBase + q.offset) 4 :: rest →
    step s = .next { s with events := rest, readData := s.regs.get q }) ∧
  (∀ (i : Instr) (s : State) (g : Regs),
    (∀ t, exec i s = .next t → exec i { s with regs := g } = .next { t with regs := g }) ∧
    (∀ f, exec i s = .refused f → exec i { s with regs := g } = .refused f))

/-- 10_state.md R36, R38, with the reads of R29, R33 and R34: a write to a read-only or unmapped register is
ignored; an unmapped register and `CMD` read 0, `ID` and `VERSION` read their constants in every state, and
`STATUS`, `RESULT` and `RESULT2` read the registers. -/
def Obligations.FixedRegisters : Prop :=
  (∀ (s : State) (o : Nat) (w : Word) (rest : List Event),
    (o = 0x04 ∨ o = 0x08 ∨ o = 0x0C ∨ o = 0x5C ∨ (0x60 ≤ o ∧ o ≤ 0xFC ∧ o % 4 = 0)) →
    s.events = .regWrite (s.params.regBase + o) 4 w :: rest → step s = .next { s with events := rest }) ∧
  (∀ (s : State) (o : Nat) (rest : List Event), s.events = .regRead (s.params.regBase + o) 4 :: rest →
    ((0x64 ≤ o ∧ o ≤ 0xFC ∧ o % 4 = 0) ∨ o = 0 → step s = .next { s with events := rest, readData := 0#32 }) ∧
    (o = 0x5C → step s = .next { s with events := rest, readData := 0x53434843#32 }) ∧
    (o = 0x60 → step s = .next { s with events := rest, readData := 0x00000001#32 }) ∧
    (o = 0x04 → step s = .next { s with events := rest, readData := s.status }) ∧
    (o = 0x08 → step s = .next { s with events := rest, readData := s.result }) ∧
    (o = 0x0C → step s = .next { s with events := rest, readData := s.result2 }))

/-- 10_state.md R37: an access to the register window that is not an aligned 32-bit one is refused. -/
def Obligations.AccessShapeRefused : Prop :=
  ∀ (s : State) (a n : Nat) (w : Word) (rest : List Event),
    a < s.params.regBase + 256 → s.params.regBase < a + n →
    (n ≠ 4 ∨ a < s.params.regBase ∨ (a - s.params.regBase) % 4 ≠ 0) →
    (s.events = .regWrite a n w :: rest → step s = .refused .registerAccessShape) ∧
    (s.events = .regRead a n :: rest → step s = .refused .registerAccessShape)

/-- 10_state.md R34: only a completion (or reset, R43) changes `RESULT` and `RESULT2`; after an error, with the
host's duty of 20_memory.md R60 kept, they are 0xFFFFFFFF and 0. -/
def Obligations.ResultRegistersKept : Prop :=
  (∀ s t : State, step s = .next t → (t.result ≠ s.result ∨ t.result2 ≠ s.result2) →
    (s.fsm = .busy ∧ t.fsm = .idle ∧ statusDone t.status = true) ∨ ∃ rest, s.events = .reset :: rest) ∧
  (∀ (i : Instr) (s t : State), Undisturbed s → exec i s = .next t → statusErr t.status = true →
    t.result = 0xFFFFFFFF#32 ∧ t.result2 = 0#32)

/-- 20_memory.md R50, R56: the host's own accesses to buffer memory, one byte each: a write changes that byte
alone, and while BUSY its old value is kept with the race (log 11); a read while IDLE returns it and changes nothing
else; and a byte at or above `MEM_SIZE` does not exist (that such an access faults is the model's choice: log 17). A
read while BUSY returns a byte that the running command does not write as it stands, and of one that it writes, on which
R60 lets no host rely, a free value (log 13; which bytes those are where the host has broken R60: log 11). -/
def Obligations.HostMemoryAccess : Prop :=
  (∀ (s : State) (x : Nat) (b : Byte) (rest : List Event), s.events = .memWrite x b :: rest →
    x < s.params.memSize → ∃ t, step s = .next t ∧ Stored s.mem t.mem x [b] ∧
      t = { s with events := rest, mem := t.mem, raced := t.raced } ∧
      (s.fsm = .idle → t.raced = s.raced) ∧ (s.fsm = .busy → t.raced = (x, s.mem.get x) :: s.raced)) ∧
  (∀ (s : State) (x : Nat) (rest : List Event), s.events = .memRead x :: rest → x < s.params.memSize →
    s.fsm = .idle → step s = .next { s with events := rest, readData := (s.mem.get x).setWidth 32 }) ∧
  (∀ (s : State) (x : Nat) (rest : List Event), s.events = .memRead x :: rest → x < s.params.memSize →
    s.fsm = .busy →
    ∃ t, step s = .next t ∧ t = { s with events := rest, readData := t.readData, freeIdx := t.freeIdx } ∧
      (∀ e, decode s.snap.word = .error e → t.readData = (s.mem.get x).setWidth 32) ∧
      (∀ i, decode s.snap.word = .ok i →
        (mayWrite i s.snap.regs x = false → t.readData = (s.mem.get x).setWidth 32) ∧
        (∀ u, Undisturbed s → exec i s = .next u → wroteIn i s.snap.regs u x = false →
          t.readData = (s.mem.get x).setWidth 32) ∧
        (∃ W, MayBeWriting i s W ∧
          if W x = true then
            ∃ k, s.freeIdx ≤ k ∧ k < t.freeIdx ∧ t.readData = (Config.freeByte k).setWidth 32
          else t.readData = (s.mem.get x).setWidth 32))) ∧
  (∀ (s : State) (x : Nat) (b : Byte) (rest : List Event), s.params.memSize ≤ x →
    s.events = .memWrite x b :: rest ∨ s.events = .memRead x :: rest → step s = .fault (.noSuchByte x))

/-- 70_reset_and_hazards.md R300, 10_state.md R43: a reset event at any time puts every register to its reset
value; while IDLE it leaves memory alone; while BUSY each byte that the abandoned command would have written holds a
free value, and every other byte is unchanged: of a command whose completion is known, exactly the bytes that completion
writes, so none at all where it would be an error of a command other than `COMP` and `DECOMP`; where the host broke R60
and the command reads what it wrote, those of the completion on some mix (log 11); and where the command would be
refused by R65, every byte it may write (log 12). -/
def Obligations.ResetEvent : Prop :=
  ∀ (s : State) (rest : List Event), s.events = .reset :: rest →
    ∃ t, step s = .next t ∧ t.fsm = .idle ∧ t.status = 0#32 ∧ t.result = 0#32 ∧ t.result2 = 0#32 ∧
      (∀ q : OpReg, t.regs.get q = 0#32) ∧ readRegister t 0x5C = 0x53434843#32 ∧ readRegister t 0x60 = 1#32 ∧
      t.params = s.params ∧ t.events = rest ∧
      (s.fsm = .idle → t.mem = s.mem) ∧
      (∀ e, s.fsm = .busy → decode s.snap.word = .error e → t.mem = s.mem) ∧
      (∀ i, s.fsm = .busy → decode s.snap.word = .ok i →
        (∀ x, mayWrite i s.snap.regs x = false → t.mem.get x = s.mem.get x) ∧
        (∀ u, Undisturbed s → exec i s = .next u →
          (∀ x, u.mem.get x ≠ s.mem.get x → HoldsFree s t x) ∧ FreesOnly s t (wroteIn i s.snap.regs u) ∧
          (statusErr u.status = true → i ≠ .comp → i ≠ .decomp → t.mem = s.mem)) ∧
        (∃ W, MayBeWriting i s W ∧ FreesOnly s t W))

/-- 20_memory.md R60, 40_bitbuf.md R110: where the host wrote memory during BUSY, a command completes in one of three
ways. As if the host had kept its duty, where it reads none of the bytes that the host wrote and either ends in an error
or writes none of them. Or, where it reads none but writes one, with the same registers, and each byte that it writes
holds any value. Or, where it reads one, with `RESULT`, `RESULT2` and `STATUS` each from the completion on some mix of
old and new bytes, and the bytes that a fourth such completion writes hold any value. No other byte changes. It reads
none where none of them is an operand or record of the command, or what its records point to; and where moreover it may
write none of them, the breach has no effect at all. A shift of a window in which the host
wrote gives 0 and frees the window, and no more; and a bit range out of memory is `BUS_FAULT` whatever the host wrote,
since no byte is read before the range checks. (That the registers and the bytes come from a mix each is the model's
reading: log 11.) -/
def Obligations.RacedCompletion : Prop :=
  (∀ (i : Instr) (s t : State), exec i s = .next t →
    ((commandOf i).compute s ≠ .error .raced ∧ exec i { s with raced := [] } = .next t ∧
      (statusErr t.status = true ∨ ∀ p ∈ s.raced, wroteIn i s.snap.regs t p.1 = false)) ∨
    ((commandOf i).compute s ≠ .error .raced ∧
      ∃ u, exec i { s with raced := [] } = .next u ∧ t = { u with mem := t.mem, freeIdx := t.freeIdx } ∧
        (∃ p ∈ s.raced, wroteIn i s.snap.regs u p.1 = true) ∧ FreesOnly s t (wroteIn i s.snap.regs u)) ∨
    ((commandOf i).compute s = .error .raced ∧
      ∃ (m1 m2 m3 m4 : Memory) (u1 u2 u3 u4 : State), MixOf s m1 ∧ MixOf s m2 ∧ MixOf s m3 ∧ MixOf s m4 ∧
      exec i { s with mem := m1, raced := [] } = .next u1 ∧ exec i { s with mem := m2, raced := [] } = .next u2 ∧
      exec i { s with mem := m3, raced := [] } = .next u3 ∧ exec i { s with mem := m4, raced := [] } = .next u4 ∧
      t.result = u1.result ∧ t.result2 = u2.result2 ∧ t.status = u3.status ∧
      FreesOnly s t (wroteIn i s.snap.regs u4))) ∧
  (∀ (i : Instr) (s : State), (∀ p ∈ s.raced, mayRead i s p.1 = false) →
    (commandOf i).compute s ≠ .error .raced ∧
    ((∀ p ∈ s.raced, mayWrite i s.snap.regs p.1 = false) → exec i s = exec i { s with raced := [] })) ∧
  (∀ (s : State) (r : Regs) (p : Nat × Byte) (i : Instr), i = .shlb ∨ i = .shrb → s.snap.regs = r → p ∈ s.raced →
    r.dAddr.toNat ≤ p.1 → p.1 < r.dAddr.toNat + r.len.toNat → r.dAddr.toNat + r.len.toNat ≤ s.params.memSize →
    ∃ t, exec i s = .next t ∧ t = { doneState s t.mem 0 0 with freeIdx := t.freeIdx } ∧
      ∀ x, if r.dAddr.toNat ≤ x ∧ x < r.dAddr.toNat + r.len.toNat then HoldsFree s t x
        else t.mem.get x = s.mem.get x) ∧
  (∀ (s : State) (r : Regs), s.snap.regs = r →
    (¬ BitsFit s r.aAddr r.aPos r.len → r.len.toNat ≤ 32 → exec .getb s = .next (failedState s .busFault)) ∧
    (∀ i, i ∈ [.cpyb, .cmpb, .xorb, .andb] → ¬ BitsFit s r.aAddr r.aPos r.len →
      exec i s = .next (failedState s .busFault)) ∧
    (∀ i, i ∈ [.cmpb, .xorb, .andb] → ¬ BitsFit s r.bAddr r.bPos r.len →
      exec i s = .next (failedState s .busFault)) ∧
    (∀ i, i ∈ [.setb, .clrb, .cpyb, .xorb, .andb] → ¬ BitsFit s r.dAddr r.dPos r.len →
      exec i s = .next (failedState s .busFault)))

/-! ## Every command -/

/-- 10_state.md R22, 20_memory.md R65, 70_reset_and_hazards.md R310: every command completes; only the refusal of R65
stands beside, never a fault, and never for a command with no region of its own. A command whose output range and
context region share a byte (`CLAYER`, which reads the region, among them), or whose descriptor lies in its output
range, is refused (that R65 is decided on the registers before any other check is the model's reading: log 14). -/
def Obligations.EveryCommandCompletes : Prop :=
  (∀ (i : Instr) (s : State), (∃ t, exec i s = .next t ∧ t.fsm = .idle ∧ statusDone t.status = true) ∨
    exec i s = .refused .regionOverlap) ∧
  (∀ (i : Instr) (s : State), guardOf i s.snap.regs = [] → ∃ t, exec i s = .next t) ∧
  (∀ (i : Instr) (s : State), i ∈ [.clayer, .dlayer, .comp, .decomp] → ¬ RegionsApart s.snap.regs →
    exec i s = .refused .regionOverlap) ∧
  (∀ (i : Instr) (s : State),
    i ∈ [.cOmit, .cVal, .cMap, .cLsb, .cDlen, .cDchk, .cDeviid, .cAppiid,
         .dOmit, .dVal, .dMap, .dLsb, .dDlen, .dDchk, .dDeviid, .dAppiid] →
    s.snap.regs.bAddr.toNat + 16 ≤ s.params.memSize → s.snap.regs.outCap.toNat ≠ 0 →
    s.snap.regs.dAddr.toNat < s.snap.regs.bAddr.toNat + 16 →
    s.snap.regs.bAddr.toNat < s.snap.regs.dAddr.toNat + s.snap.regs.outCap.toNat →
    exec i s = .refused .regionOverlap)

/-- The frame of every command (10_state.md R30 to R32, 60_exceptions.md R283): a completion clears BUSY, sets DONE,
keeps OVR, and gives ERR and ERRCODE either 0 or, with RESULT 0xFFFFFFFF and RESULT2 0, an error of R280; no other
register, no parameter and no field of the host's side changes. -/
def Obligations.CompletionFrame : Prop :=
  ∀ (i : Instr) (s t : State), exec i s = .next t →
    t.fsm = .idle ∧ t.params = s.params ∧ t.regs = s.regs ∧ t.snap = s.snap ∧ t.events = s.events ∧
    t.readData = s.readData ∧ t.raced = [] ∧
    (Undisturbed s →
      t.status = (if s.status.getLsbD 3 then 0xA#32 else 0x2#32) ∨
      ∃ e : Err, t.status = (failedState s e).status ∧ t.result = 0xFFFFFFFF#32 ∧ t.result2 = 0#32)

/-- 60_exceptions.md R282, 46_pipeline.md R254: a command that completes with an error has written no memory, but for
`COMP` and `DECOMP`, whose context region and output range may hold any value. That every byte of them then is a fresh
free value, however early the error, is the model's choice (log 10, with the free values of log 9). -/
def Obligations.ErrorsArePrecise : Prop :=
  (∀ (i : Instr) (s t : State), i ≠ .comp → i ≠ .decomp → Undisturbed s → exec i s = .next t →
    statusErr t.status = true → t.mem = s.mem) ∧
  (∀ (i : Instr) (s t : State), i = .comp ∨ i = .decomp → Undisturbed s → exec i s = .next t →
    statusErr t.status = true → ∀ x,
    (if (s.snap.regs.dAddr.toNat ≤ x ∧ x < s.snap.regs.dAddr.toNat + s.snap.regs.outCap.toNat ∨
        s.snap.regs.ctxAddr.toNat ≤ x ∧ x < s.snap.regs.ctxAddr.toNat + s.snap.regs.ctxSize.toNat) ∧
        x < s.params.memSize
      then HoldsFree s t x
      else t.mem.get x = s.mem.get x))

/-- The memory frame of every command (30_encoding.md R74, 20_memory.md R65): every byte outside those it may write
reads as before, whatever the outcome; a command that R74 does not list as writing memory writes none. -/
def Obligations.MemoryFrame : Prop :=
  (∀ (i : Instr) (s t : State) (x : Nat), exec i s = .next t → mayWrite i s.snap.regs x = false →
    t.mem.get x = s.mem.get x) ∧
  (∀ (i : Instr) (s t : State),
    i ∈ [.getb, .cmpb, .meq, .mign, .mmsb, .mmap, .mdisp, .rsel, .ridpk, .ridunpk] →
    exec i s = .next t → t.mem = s.mem)

/-- 30_encoding.md R74, the column "reads": two snapshots that agree on the registers a command reads give the same
completion, and the same refusal. -/
def Obligations.ReadsOnlyItsOperands : Prop :=
  ∀ (i : Instr) (s : State) (g : Regs), (∀ q ∈ readsOf i, g.get q = s.snap.regs.get q) →
    (∀ t, exec i s = .next t →
      exec i { s with snap := { s.snap with regs := g } } = .next { t with snap := { t.snap with regs := g } }) ∧
    (∀ f, exec i s = .refused f → exec i { s with snap := { s.snap with regs := g } } = .refused f)

/-! ## The bit-buffer primitives -/

/-- 40_bitbuf.md R113: `GETB` returns the `n ≤ 32` bits from `A_POS`, the first bit the most significant; more
than 32 is `OPERAND`, checked first; else a byte out of range is `BUS_FAULT`. -/
def Obligations.GetbResult : Prop :=
  decode 0x00000010#32 = .ok .getb ∧
  ∀ (s : State) (r : Regs), s.snap.regs = r → Undisturbed s →
    (r.len.toNat ≤ 32 → BitsFit s r.aAddr r.aPos r.len →
      ∃ v, exec .getb s = .next (doneState s s.mem v 0) ∧ v < 2 ^ r.len.toNat ∧
        ∀ k, k < r.len.toNat → v.testBit (r.len.toNat - 1 - k) = gbit s.mem (startA r + k)) ∧
    (32 < r.len.toNat → exec .getb s = .next (failedState s .operand)) ∧
    (r.len.toNat ≤ 32 → ¬ BitsFit s r.aAddr r.aPos r.len → exec .getb s = .next (failedState s .busFault))

/-- 40_bitbuf.md R114, R115: `SETB` sets and `CLRB` clears the bits of the range, and every other bit of memory is
as before; a range out of memory is `BUS_FAULT`. -/
def Obligations.SetbClrbResult : Prop :=
  decode 0x00000011#32 = .ok .setb ∧ decode 0x00000012#32 = .ok .clrb ∧
  ∀ (s : State) (r : Regs), s.snap.regs = r → Undisturbed s →
    (BitsFit s r.dAddr r.dPos r.len →
      (∃ m, exec .setb s = .next (doneState s m 0 0) ∧
        ∀ q, gbit m q = if startD r ≤ q ∧ q < startD r + r.len.toNat then true else gbit s.mem q) ∧
      (∃ m, exec .clrb s = .next (doneState s m 0 0) ∧
        ∀ q, gbit m q = if startD r ≤ q ∧ q < startD r + r.len.toNat then false else gbit s.mem q)) ∧
    (¬ BitsFit s r.dAddr r.dPos r.len →
      exec .setb s = .next (failedState s .busFault) ∧ exec .clrb s = .next (failedState s .busFault))

/-- 40_bitbuf.md R116, R112: `CPYB` ORs each source bit, as it is at that moment, into the destination, in
ascending order: with overlapping ranges a bit written at an earlier index is the one read. Every bit outside the
destination is as before. -/
def Obligations.CpybCascade : Prop :=
  decode 0x00000013#32 = .ok .cpyb ∧
  ∀ (s : State) (r : Regs), s.snap.regs = r → Undisturbed s →
    (BitsFit s r.aAddr r.aPos r.len → BitsFit s r.dAddr r.dPos r.len →
      ∃ m, exec .cpyb s = .next (doneState s m 0 0) ∧
        (∀ q, ¬ (startD r ≤ q ∧ q < startD r + r.len.toNat) → gbit m q = gbit s.mem q) ∧
        (∀ k, k < r.len.toNat →
          gbit m (startD r + k) = (gbit s.mem (startD r + k) || bitNow s.mem m (startD r) k (startA r + k)))) ∧
    (¬ (BitsFit s r.aAddr r.aPos r.len ∧ BitsFit s r.dAddr r.dPos r.len) →
      exec .cpyb s = .next (failedState s .busFault))

/-- 40_bitbuf.md R120, R121, R112: `XORB` and `ANDB` OR the combination of two source bits, as they are at that
moment, into the destination, in ascending order. -/
def Obligations.XorbAndbCascade : Prop :=
  decode 0x00000017#32 = .ok .xorb ∧ decode 0x00000018#32 = .ok .andb ∧
  ∀ (s : State) (r : Regs), s.snap.regs = r → Undisturbed s →
    (BitsFit s r.aAddr r.aPos r.len → BitsFit s r.bAddr r.bPos r.len → BitsFit s r.dAddr r.dPos r.len →
      (∃ m, exec .xorb s = .next (doneState s m 0 0) ∧
        (∀ q, ¬ (startD r ≤ q ∧ q < startD r + r.len.toNat) → gbit m q = gbit s.mem q) ∧
        (∀ k, k < r.len.toNat → gbit m (startD r + k) = (gbit s.mem (startD r + k) ||
          (bitNow s.mem m (startD r) k (startA r + k) ^^ bitNow s.mem m (startD r) k (startB r + k))))) ∧
      (∃ m, exec .andb s = .next (doneState s m 0 0) ∧
        (∀ q, ¬ (startD r ≤ q ∧ q < startD r + r.len.toNat) → gbit m q = gbit s.mem q) ∧
        (∀ k, k < r.len.toNat → gbit m (startD r + k) = (gbit s.mem (startD r + k) ||
          (bitNow s.mem m (startD r) k (startA r + k) && bitNow s.mem m (startD r) k (startB r + k)))))) ∧
    (¬ (BitsFit s r.aAddr r.aPos r.len ∧ BitsFit s r.bAddr r.bPos r.len ∧ BitsFit s r.dAddr r.dPos r.len) →
      exec .xorb s = .next (failedState s .busFault) ∧ exec .andb s = .next (failedState s .busFault))

/-- 40_bitbuf.md R117: `CMPB` gives 1 exactly if the two bit ranges are equal, else 0. -/
def Obligations.CmpbResult : Prop :=
  decode 0x00000014#32 = .ok .cmpb ∧
  ∀ (s : State) (r : Regs), s.snap.regs = r → Undisturbed s →
    (BitsFit s r.aAddr r.aPos r.len → BitsFit s r.bAddr r.bPos r.len →
      ((∀ k, k < r.len.toNat → gbit s.mem (startA r + k) = gbit s.mem (startB r + k)) →
        exec .cmpb s = .next (doneState s s.mem 1 0)) ∧
      ((∃ k, k < r.len.toNat ∧ gbit s.mem (startA r + k) ≠ gbit s.mem (startB r + k)) →
        exec .cmpb s = .next (doneState s s.mem 0 0))) ∧
    (¬ (BitsFit s r.aAddr r.aPos r.len ∧ BitsFit s r.bAddr r.bPos r.len) →
      exec .cmpb s = .next (failedState s .busFault))

/-- 40_bitbuf.md R118, R119: `SHLB` and `SHRB` shift the `LEN` bytes at `D_ADDR`, read as one big-endian integer,
by `AUX` bits, any count; no byte outside the window changes. -/
def Obligations.ShiftWindow : Prop :=
  decode 0x00000015#32 = .ok .shlb ∧ decode 0x00000016#32 = .ok .shrb ∧
  ∀ (s : State) (r : Regs) (n k : Nat), s.snap.regs = r → r.len.toNat = n → r.aux.toNat = k → Undisturbed s →
    (BytesFit s r.dAddr.toNat n →
      (∃ m, exec .shlb s = .next (doneState s m 0 0) ∧
        Stored s.mem m r.dAddr.toNat (bytesBE n (be (s.mem.read r.dAddr.toNat n) * 2 ^ k % 2 ^ (8 * n)))) ∧
      (∃ m, exec .shrb s = .next (doneState s m 0 0) ∧
        Stored s.mem m r.dAddr.toNat (bytesBE n (be (s.mem.read r.dAddr.toNat n) / 2 ^ k)))) ∧
    (¬ BytesFit s r.dAddr.toNat n →
      exec .shlb s = .next (failedState s .busFault) ∧ exec .shrb s = .next (failedState s .busFault))

/-- 40_bitbuf.md R123: for any buffer, position and length up to 32, `SETB` then `GETB` of the same range gives
`2^n - 1`, and `CLRB` then `GETB` gives 0, when no range check fails. -/
def Obligations.SetThenGet : Prop :=
  ∀ (s : State) (r : Regs), s.snap.regs = r → Undisturbed s → r.aAddr = r.dAddr → r.aPos = r.dPos →
    r.len.toNat ≤ 32 → BitsFit s r.dAddr r.dPos r.len →
    (∃ t u, exec .setb s = .next t ∧ exec .getb t = .next u ∧
      u = doneState t t.mem (2 ^ r.len.toNat - 1) 0) ∧
    (∃ t u, exec .clrb s = .next t ∧ exec .getb t = .next u ∧ u = doneState t t.mem 0 0)

/-! ## Descriptors and predicates -/

/-- 30_encoding.md R84, 41_predicates.md R140, 42_compress_actions.md R160, 43_decompress_actions.md R180: what every
predicate and action command checks first: a descriptor out of range is `BUS_FAULT`, an illegal `dir`, `mo`, `cda`
or `form` is `RULE_FORMAT`, and with a legal descriptor an input out of range is `BUS_FAULT`. -/
def Obligations.DescriptorChecks : Prop :=
  ∀ (i : Instr) (s : State) (r : Regs), s.snap.regs = r → Undisturbed s →
    i ∈ [.meq, .mign, .mmsb, .mmap, .mdisp,
         .cOmit, .cVal, .cMap, .cLsb, .cDlen, .cDchk, .cDeviid, .cAppiid,
         .dOmit, .dVal, .dMap, .dLsb, .dDlen, .dDchk, .dDeviid, .dAppiid] →
    (s.params.memSize < r.bAddr.toNat + 16 → exec i s = .next (failedState s .busFault)) ∧
    (readable (viewOf i s) r.bAddr.toNat 16 = true →
      descIllegal (viewOf i s) r.bAddr.toNat = true →
      exec i s = .next (failedState s .ruleFormat)) ∧
    (∀ d, descAt (viewOf i s) r.bAddr.toNat d = true → ¬ BytesFit s r.aAddr.toNat r.len.toNat →
      exec i s = .next (failedState s .busFault))

/-- 41_predicates.md R141: `MEQ` gives 1 exactly if the column is the target, byte for byte; a target of the wrong
length is `RULE_FORMAT`. -/
def Obligations.MeqResult : Prop :=
  decode 0x00000020#32 = .ok .meq ∧
  ∀ (s : State) (r : Regs) (d : Desc) (c : Bytes), s.snap.regs = r → Undisturbed s →
    descAt (viewOf .meq s) r.bAddr.toNat d = true → inputIs (viewOf .meq s) r c = true →
    (∀ t, targetIs (viewOf .meq s) d t = true →
      exec .meq s = .next (doneState s s.mem (if c = t then 1 else 0) 0)) ∧
    (d.tlen ≠ (d.bits + 7) / 8 → exec .meq s = .next (failedState s .ruleFormat)) ∧
    (d.tlen = (d.bits + 7) / 8 → ¬ BytesFit s d.taddr d.tlen → exec .meq s = .next (failedState s .busFault))

/-- 41_predicates.md R142, R145: `MIGN` always matches; `MDISP` is the command of the descriptor's own operator. -/
def Obligations.MignMdispResult : Prop :=
  decode 0x00000021#32 = .ok .mign ∧ decode 0x00000024#32 = .ok .mdisp ∧
  ∀ (s : State) (r : Regs) (d : Desc) (c : Bytes), s.snap.regs = r → Undisturbed s →
    descAt (viewOf .mign s) r.bAddr.toNat d = true → inputIs (viewOf .mign s) r c = true →
    exec .mign s = .next (doneState s s.mem 1 0) ∧
    (d.mo = .ignore → exec .mdisp s = .next (doneState s s.mem 1 0)) ∧
    (∀ t, exec (match d.mo with | .equal => .meq | .ignore => .mign | .msb => .mmsb | .map => .mmap) s = .next t →
      exec .mdisp s = .next t)

/-- 41_predicates.md R143: `MMSB` compares the top `M` bits of the `L`-bit field; with `M = L` it is `MEQ`; `M > L`
is `RULE_FORMAT`. -/
def Obligations.MmsbResult : Prop :=
  decode 0x00000022#32 = .ok .mmsb ∧
  ∀ (s : State) (r : Regs) (d : Desc) (c : Bytes), s.snap.regs = r → Undisturbed s →
    descAt (viewOf .mmsb s) r.bAddr.toNat d = true → inputIs (viewOf .mmsb s) r c = true →
    (d.bits < d.par → exec .mmsb s = .next (failedState s .ruleFormat)) ∧
    (d.par = d.bits → exec .mmsb s = exec .meq s) ∧
    (∀ t, d.par < d.bits → targetIs (viewOf .mmsb s) d t = true →
      exec .mmsb s = .next (doneState s s.mem
        (if c.length = (d.bits + 7) / 8 ∧
            be c / 2 ^ (d.bits - d.par) % 2 ^ d.par = be t / 2 ^ (d.bits - d.par) % 2 ^ d.par
          then 1 else 0) 0)) ∧
    (d.par < d.bits → d.tlen ≠ (d.bits + 7) / 8 → exec .mmsb s = .next (failedState s .ruleFormat)) ∧
    (d.par < d.bits → d.tlen = (d.bits + 7) / 8 → ¬ BytesFit s d.taddr d.tlen →
      exec .mmsb s = .next (failedState s .busFault))

/-- 41_predicates.md R144, 30_encoding.md R85: `MMAP` gives the smallest index of a candidate equal to the column,
else no match; more than 256 candidates, or a target that spells no candidate list, is `RULE_FORMAT`. -/
def Obligations.MmapResult : Prop :=
  decode 0x00000023#32 = .ok .mmap ∧
  ∀ (s : State) (r : Regs) (d : Desc) (c : Bytes), s.snap.regs = r → Undisturbed s →
    descAt (viewOf .mmap s) r.bAddr.toNat d = true → inputIs (viewOf .mmap s) r c = true →
    (∀ ks, candidatesAre (viewOf .mmap s) d ks = true →
      (∀ k, ks[k]? = some c → (∀ j, j < k → ks[j]? ≠ some c) →
        exec .mmap s = .next (doneState s s.mem 1 k)) ∧
      (c ∉ ks → exec .mmap s = .next (doneState s s.mem 0 0))) ∧
    (256 < d.par → exec .mmap s = .next (failedState s .ruleFormat)) ∧
    (d.par ≤ 256 → ¬ BytesFit s d.taddr d.tlen → exec .mmap s = .next (failedState s .busFault)) ∧
    (d.par ≤ 256 → BytesFit s d.taddr d.tlen →
      (∀ ks : List Bytes, ks.length = d.par → spells d.form ks (s.mem.read d.taddr d.tlen) = false) →
      exec .mmap s = .next (failedState s .ruleFormat))

/-! ## Compression actions -/

/-- 42_compress_actions.md R161, R165, R166: `C_OMIT`, `C_DLEN` and `C_DCHK` write nothing, whatever `OUT_CAP` and
`D_ADDR`. -/
def Obligations.OmittedResidue : Prop :=
  decode 0x00000030#32 = .ok .cOmit ∧ decode 0x00000034#32 = .ok .cDlen ∧ decode 0x00000035#32 = .ok .cDchk ∧
  ∀ (i : Instr) (s : State) (r : Regs) (d : Desc) (c : Bytes), i = .cOmit ∨ i = .cDlen ∨ i = .cDchk →
    s.snap.regs = r → Undisturbed s →
    descAt (viewOf i s) r.bAddr.toNat d = true → inputIs (viewOf i s) r c = true →
    ∃ m, exec i s = .next (doneState s m 0 0) ∧ ∀ x, m.get x = s.mem.get x

/-- 42_compress_actions.md R162, R160: `C_VAL` writes the column at `D_ADDR`; a column of another length is
`FIELD_LENGTH`; a residue above `OUT_CAP` is `INSUFFICIENT_BUFFER`, one out of memory `BUS_FAULT`. -/
def Obligations.CValResult : Prop :=
  decode 0x00000031#32 = .ok .cVal ∧
  ∀ (s : State) (r : Regs) (d : Desc) (c : Bytes), s.snap.regs = r → Undisturbed s →
    descAt (viewOf .cVal s) r.bAddr.toNat d = true → inputIs (viewOf .cVal s) r c = true →
    (c.length ≠ (d.bits + 7) / 8 → exec .cVal s = .next (failedState s .fieldLength)) ∧
    (c.length = (d.bits + 7) / 8 → Delivers .cVal s r c c.length 0)

/-- 42_compress_actions.md R163, 30_encoding.md R85: `C_MAP` writes the smallest index of an equal candidate as one
byte; no equal candidate is `NO_MATCH`; a target that spells no candidate list is `RULE_FORMAT`. -/
def Obligations.CMapResult : Prop :=
  decode 0x00000032#32 = .ok .cMap ∧
  ∀ (s : State) (r : Regs) (d : Desc) (c : Bytes), s.snap.regs = r → Undisturbed s →
    descAt (viewOf .cMap s) r.bAddr.toNat d = true → inputIs (viewOf .cMap s) r c = true →
    (∀ ks, candidatesAre (viewOf .cMap s) d ks = true →
      (∀ k, ks[k]? = some c → (∀ j, j < k → ks[j]? ≠ some c) → Delivers .cMap s r [BitVec.ofNat 8 k] 1 0) ∧
      (c ∉ ks → exec .cMap s = .next (failedState s .noMatch))) ∧
    (256 < d.par → exec .cMap s = .next (failedState s .ruleFormat)) ∧
    (d.par ≤ 256 → ¬ BytesFit s d.taddr d.tlen → exec .cMap s = .next (failedState s .busFault)) ∧
    (d.par ≤ 256 → readable (viewOf .cMap s) d.taddr d.tlen = true →
      (∀ ks : List Bytes, ks.length = d.par → spells d.form ks (s.mem.read d.taddr d.tlen) = false) →
      exec .cMap s = .next (failedState s .ruleFormat))

/-- 42_compress_actions.md R164: `C_LSB` writes the `L - M` least significant bits of the column, right-aligned in
the fewest of its last bytes that hold them from the straddling byte on; nothing if `M = L`; `M > L` is
`RULE_FORMAT`, a column of another length `FIELD_LENGTH`. -/
def Obligations.CLsbResult : Prop :=
  decode 0x00000033#32 = .ok .cLsb ∧
  ∀ (s : State) (r : Regs) (d : Desc) (c : Bytes) (n : Nat), s.snap.regs = r → Undisturbed s →
    descAt (viewOf .cLsb s) r.bAddr.toNat d = true → inputIs (viewOf .cLsb s) r c = true →
    n = (d.bits + 7) / 8 - (8 * ((d.bits + 7) / 8) - d.bits + d.par) / 8 →
    (d.bits < d.par → exec .cLsb s = .next (failedState s .ruleFormat)) ∧
    (d.par ≤ d.bits → c.length ≠ (d.bits + 7) / 8 → exec .cLsb s = .next (failedState s .fieldLength)) ∧
    (d.par = d.bits → c.length = (d.bits + 7) / 8 →
      ∃ m, exec .cLsb s = .next (doneState s m 0 0) ∧ ∀ x, m.get x = s.mem.get x) ∧
    (d.par < d.bits → c.length = (d.bits + 7) / 8 →
      Delivers .cLsb s r (bytesBE n (be c % 2 ^ (d.bits - d.par))) n 0)

/-- 42_compress_actions.md R167, R168: `C_DEVIID` writes nothing for a column equal to `NodeIID`, else raises the
errors of R167 in their order; `C_APPIID` is not implemented and completes with `UNSUPPORTED`. -/
def Obligations.CIidResult : Prop :=
  decode 0x00000036#32 = .ok .cDeviid ∧ decode 0x00000037#32 = .ok .cAppiid ∧
  (∀ (s : State) (r : Regs) (d : Desc) (c : Bytes), s.snap.regs = r → Undisturbed s →
    descAt (viewOf .cDeviid s) r.bAddr.toNat d = true → inputIs (viewOf .cDeviid s) r c = true →
    (d.bits ≠ 64 → exec .cDeviid s = .next (failedState s .ruleFormat)) ∧
    (d.bits = 64 → c.length ≠ 8 → exec .cDeviid s = .next (failedState s .fieldLength)) ∧
    (d.bits = 64 → c.length = 8 → c ≠ iidOf r → exec .cDeviid s = .next (failedState s .noMatch)) ∧
    (d.bits = 64 → c = iidOf r →
      ∃ m, exec .cDeviid s = .next (doneState s m 0 0) ∧ ∀ x, m.get x = s.mem.get x)) ∧
  (∀ (s : State) (r : Regs) (d : Desc) (c : Bytes), s.snap.regs = r → Undisturbed s →
    descAt (viewOf .cAppiid s) r.bAddr.toNat d = true → inputIs (viewOf .cAppiid s) r c = true →
    exec .cAppiid s = .next (failedState s .unsupported))

/-! ## Decompression actions -/

/-- 43_decompress_actions.md R181, R185 to R188: the actions that take nothing from the cursor: `D_OMIT` restores
the target, `D_DLEN` and `D_DCHK` give `nb(L)` zero bytes, `D_DEVIID` gives `NodeIID`; `D_APPIID` completes with
`UNSUPPORTED`. -/
def Obligations.RestoredValue : Prop :=
  decode 0x00000040#32 = .ok .dOmit ∧ decode 0x00000044#32 = .ok .dDlen ∧ decode 0x00000045#32 = .ok .dDchk ∧
  decode 0x00000046#32 = .ok .dDeviid ∧ decode 0x00000047#32 = .ok .dAppiid ∧
  ∀ (i : Instr) (s : State) (r : Regs) (d : Desc) (src : Bytes), s.snap.regs = r → Undisturbed s →
    descAt (viewOf i s) r.bAddr.toNat d = true → inputIs (viewOf i s) r src = true →
    (i = .dOmit → ∀ t, targetIs (viewOf i s) d t = true → Delivers i s r t 0 t.length) ∧
    (i = .dOmit → d.tlen ≠ (d.bits + 7) / 8 → exec i s = .next (failedState s .ruleFormat)) ∧
    (i = .dOmit → d.tlen = (d.bits + 7) / 8 → ¬ BytesFit s d.taddr d.tlen →
      exec i s = .next (failedState s .busFault)) ∧
    (i = .dDlen ∨ i = .dDchk →
      Delivers i s r (List.replicate ((d.bits + 7) / 8) 0#8) 0 ((d.bits + 7) / 8)) ∧
    (i = .dDeviid → d.bits = 64 → Delivers i s r (iidOf r) 0 8) ∧
    (i = .dDeviid → d.bits ≠ 64 → exec i s = .next (failedState s .ruleFormat)) ∧
    (i = .dAppiid → exec i s = .next (failedState s .unsupported))

/-- 43_decompress_actions.md R182, R180: `D_VAL` copies `nb(L)` bytes from the cursor; fewer is `CURSOR_OVERRUN`,
more than `OUT_CAP` is `INSUFFICIENT_BUFFER`. -/
def Obligations.DValResult : Prop :=
  decode 0x00000041#32 = .ok .dVal ∧
  ∀ (s : State) (r : Regs) (d : Desc) (src : Bytes) (n : Nat), s.snap.regs = r → Undisturbed s →
    descAt (viewOf .dVal s) r.bAddr.toNat d = true → inputIs (viewOf .dVal s) r src = true →
    n = (d.bits + 7) / 8 →
    (src.length < n → exec .dVal s = .next (failedState s .cursorOverrun)) ∧
    (n ≤ src.length → Delivers .dVal s r (src.take n) n n)

/-- 43_decompress_actions.md R183, 30_encoding.md R85: `D_MAP` substitutes the candidate that the index byte names,
with the candidate's own length; no byte is `CURSOR_OVERRUN`, an index with no candidate `INDEX_RANGE`, a target that
spells no candidate list `RULE_FORMAT`, even with no byte. -/
def Obligations.DMapResult : Prop :=
  decode 0x00000042#32 = .ok .dMap ∧
  ∀ (s : State) (r : Regs) (d : Desc) (src : Bytes), s.snap.regs = r → Undisturbed s →
    descAt (viewOf .dMap s) r.bAddr.toNat d = true → inputIs (viewOf .dMap s) r src = true →
    (∀ ks, candidatesAre (viewOf .dMap s) d ks = true →
      (src = [] → exec .dMap s = .next (failedState s .cursorOverrun)) ∧
      (∀ b rest, src = b :: rest → ks.length ≤ b.toNat → exec .dMap s = .next (failedState s .indexRange)) ∧
      (∀ b rest k, src = b :: rest → ks[b.toNat]? = some k → Delivers .dMap s r k 1 k.length)) ∧
    (256 < d.par → exec .dMap s = .next (failedState s .ruleFormat)) ∧
    (d.par ≤ 256 → ¬ BytesFit s d.taddr d.tlen → exec .dMap s = .next (failedState s .busFault)) ∧
    (d.par ≤ 256 → readable (viewOf .dMap s) d.taddr d.tlen = true →
      (∀ ks : List Bytes, ks.length = d.par → spells d.form ks (s.mem.read d.taddr d.tlen) = false) →
      exec .dMap s = .next (failedState s .ruleFormat))

/-- 43_decompress_actions.md R184: `D_LSB` gives the target with its low `L - M` bits replaced by those of the
received bytes, whatever stands above them; with `M = L` the target and nothing consumed. -/
def Obligations.DLsbResult : Prop :=
  decode 0x00000043#32 = .ok .dLsb ∧
  ∀ (s : State) (r : Regs) (d : Desc) (src : Bytes) (n k : Nat), s.snap.regs = r → Undisturbed s →
    descAt (viewOf .dLsb s) r.bAddr.toNat d = true → inputIs (viewOf .dLsb s) r src = true →
    n = (d.bits + 7) / 8 → k = n - (8 * n - d.bits + d.par) / 8 →
    (d.bits < d.par → exec .dLsb s = .next (failedState s .ruleFormat)) ∧
    (d.par ≤ d.bits → d.tlen ≠ n → exec .dLsb s = .next (failedState s .ruleFormat)) ∧
    (d.par ≤ d.bits → d.tlen = n → ¬ BytesFit s d.taddr d.tlen → exec .dLsb s = .next (failedState s .busFault)) ∧
    (∀ t, targetIs (viewOf .dLsb s) d t = true →
      (d.par = d.bits → Delivers .dLsb s r t 0 n) ∧
      (d.par < d.bits → src.length < k → exec .dLsb s = .next (failedState s .cursorOverrun)) ∧
      (d.par < d.bits → k ≤ src.length →
        Delivers .dLsb s r (bytesBE n (be t / 2 ^ (d.bits - d.par) * 2 ^ (d.bits - d.par) +
          be (src.take k) % 2 ^ (d.bits - d.par))) k n))

/-- 42_compress_actions.md R170, 43_decompress_actions.md R189: `ResidueSize` is the number of bytes that a
successful compression writes and that a successful decompression consumes. -/
def Obligations.ResidueSizeAgrees : Prop :=
  (∀ (v : View) (iid c out : Bytes) (d : Desc), compressField v iid c d = .ok out →
    residueSize d = .ok out.length) ∧
  (∀ (v : View) (iid src val : Bytes) (d : Desc) (k : Nat), decompressField v iid src d = .ok (k, val) →
    residueSize d = .ok k ∧ k ≤ src.length) ∧
  (∀ (v : View) (iid src : Bytes) (rule : Rule) (dir : PacketDir) (k : Nat) (cols : List Col),
    decompressLayer v iid rule src dir = .ok (k, cols) →
    k ≤ src.length ∧ residueSum (applying rule dir) = .ok k ∧
      cols.map Col.fid = (applying rule dir).map Desc.fid)

/-- 42_compress_actions.md R171, 43_decompress_actions.md R189: where the field's own predicate matched and the
action succeeded, decompressing the residue, whatever follows it, gives the field back and takes exactly the
residue: for omit under `equal`, send-value, send-index, send-LSB under `equal` or MSB with zero pad bits, and
derive-device-iid. -/
def Obligations.FieldRoundTrip : Prop :=
  ∀ (v : View) (iid c out rest : Bytes) (d : Desc) (x : Nat),
    predDispatch v c d = .ok (true, x) → compressField v iid c d = .ok out →
    (d.cda = .omit → d.mo = .equal ∨ (d.mo = .msb ∧ d.par = d.bits)) →
    (d.cda = .sendLsb → d.mo = .equal ∨
      (d.mo = .msb ∧ be c < 2 ^ d.bits ∧ num v d.taddr d.tlen < 2 ^ d.bits)) →
    d.cda ≠ .deferLength → d.cda ≠ .deferChecksum →
    decompressField v iid (out ++ rest) d = .ok (out.length, c)

/-! ## Rule selection and layers -/

/-- 44_rule_selection.md R201, R202, 30_encoding.md R82: a rule matches exactly if its applicable descriptors and the
columns agree in number and, pair by pair, in an assigned field id and by the descriptor's own operator; it fails to
match exactly if the numbers differ or some pair, all before it matching, differs, or carries an unassigned id: the scan
of the pairs stops there. -/
def Obligations.RuleMatching : Prop :=
  ∀ (v : View) (rule : Rule) (cols : List Col) (dir : PacketDir),
    (ruleMatches v rule cols dir = .ok true ↔
      (applying rule dir).length = cols.length ∧
      ∀ (j : Nat) (f : Desc) (c : Col), (applying rule dir)[j]? = some f → cols[j]? = some c →
        Paired v f c ∧ ∃ x, predDispatch v c.val f = .ok (true, x)) ∧
    (ruleMatches v rule cols dir = .ok false ↔
      (applying rule dir).length ≠ cols.length ∨
      (applying rule dir).length = cols.length ∧ ∃ (j : Nat) (f : Desc) (c : Col),
        (applying rule dir)[j]? = some f ∧ cols[j]? = some c ∧
        (∀ (i : Nat) (f' : Desc) (c' : Col), i < j → (applying rule dir)[i]? = some f' → cols[i]? = some c' →
          Paired v f' c' ∧ ∃ x, predDispatch v c'.val f' = .ok (true, x)) ∧
        (¬ Paired v f c ∨ Paired v f c ∧ ∃ x, predDispatch v c.val f = .ok (false, x)))

/-- 44_rule_selection.md R202, R203, R209, 30_encoding.md R87 to R89, R92: `RSEL` returns the first rule, in declared
order, that matches the columns, with the address of its record; no match is a success with 0; no record of the device
is `NO_DEVICE`, and a record out of memory before it is found `BUS_FAULT`; columns that cannot be read raise what R92
says, and a rule record, if no rule before it matches, what R87 says (a header that lies partly out of memory is
`BUS_FAULT`: log 19). -/
def Obligations.RselFirstMatch : Prop :=
  ∀ (s : State) (r : Regs) (v : View) (layer : Layer) (dir : PacketDir), s.snap.regs = r → viewOf .rsel s = v →
    Undisturbed s → auxIs r layer = true → dirIs r dir = true →
    (noDevice v r = true → exec .rsel s = .next (failedState s .noDevice)) ∧
    (∀ k, deviceFault v r k = true → exec .rsel s = .next (failedState s .busFault)) ∧
    (∀ (dev : Nat) (e : Err), deviceIs v r dev = true → ColumnsFail v r e → exec .rsel s = .next (failedState s e)) ∧
    (∀ (dev : Nat) (cols : List Col) (addrs : List Nat), deviceIs v r dev = true → columnsAre v r cols = true →
      rulesListed v r dev layer addrs = true →
      (∀ (k a : Nat), addrs[k]? = some a →
        (∀ j b : Nat, j < k → addrs[j]? = some b → ∃ other, ruleAt v b layer other = true ∧
          ruleMatches v other cols dir = .ok false) →
        (∀ rule, ruleAt v a layer rule = true → ruleMatches v rule cols dir = .ok true →
          exec .rsel s = .next (doneState s s.mem rule.ruleId a)) ∧
        (∀ rule e, ruleAt v a layer rule = true → ruleMatches v rule cols dir = .error (.err e) →
          exec .rsel s = .next (failedState s e)) ∧
        (∀ e, RuleFails v a layer e → exec .rsel s = .next (failedState s e))) ∧
      ((∀ b, b ∈ addrs → ∃ other, ruleAt v b layer other = true ∧ ruleMatches v other cols dir = .ok false) →
        exec .rsel s = .next (doneState s s.mem 0 0)))

/-- 44_rule_selection.md R208: `FindRule` gives the first rule of the layer's list with the id; none is
`RULE_NOT_FOUND`. -/
def Obligations.FindRuleFirst : Prop :=
  ∀ (v : View) (r : Regs) (dev : Nat) (layer : Layer) (addrs : List Nat) (id : Nat), v.raced = [] →
    rulesListed v r dev layer addrs = true →
    (∀ (k a : Nat) (rule : Rule), addrs[k]? = some a → ruleAt v a layer rule = true → rule.ruleId = id →
      (∀ j b : Nat, j < k → addrs[j]? = some b →
        ∃ other, ruleAt v b layer other = true ∧ other.ruleId ≠ id) →
      findRule v (r.devtabAddr.toNat + 32 * dev) layer id = .ok rule) ∧
    ((∀ b, b ∈ addrs → ∃ other, ruleAt v b layer other = true ∧ other.ruleId ≠ id) →
      findRule v (r.devtabAddr.toNat + 32 * dev) layer id = .error (.err .ruleNotFound))

/-- 44_rule_selection.md R201, R204, R205, 30_encoding.md R87, R92: `CLAYER` writes the residues of the paired fields in
rule order; a pairing that fails, or is of an unassigned id, is `NO_MATCH`, and else the first field whose action fails
gives the error. Before that, a rule record that cannot be read raises what R87 says (a header that lies partly out of
memory is `BUS_FAULT`: log 19), and columns that cannot be read what R92 says. An output range that overlaps the context
region is refused (70_reset_and_hazards.md R310, `EveryCommandCompletes`). -/
def Obligations.ClayerResult : Prop :=
  ∀ (s : State) (r : Regs) (v : View) (layer : Layer) (dir : PacketDir), s.snap.regs = r → viewOf .clayer s = v →
    Undisturbed s → RegionsApart r → auxIs r layer = true → dirIs r dir = true →
    (∀ e, RuleFails v r.bAddr.toNat layer e → exec .clayer s = .next (failedState s e)) ∧
    (∀ (rule : Rule) (e : Err), ruleAt v r.bAddr.toNat layer rule = true → ColumnsFail v r e →
      exec .clayer s = .next (failedState s e)) ∧
    (∀ (rule : Rule) (cols : List Col), ruleAt v r.bAddr.toNat layer rule = true → columnsAre v r cols = true →
      ((applying rule dir).length ≠ cols.length → exec .clayer s = .next (failedState s .noMatch)) ∧
      (∀ (j : Nat) (f : Desc) (c : Col) (e : Err), (applying rule dir).length = cols.length →
        (applying rule dir)[j]? = some f → cols[j]? = some c →
        (∀ (i : Nat) (f' : Desc) (c' : Col), i < j → (applying rule dir)[i]? = some f' → cols[i]? = some c' →
          Paired v f' c' ∧ ∃ out, compressField v (iidOf r) c'.val f' = .ok out) →
        (¬ Paired v f c ∧ e = .noMatch ∨ Paired v f c ∧ compressField v (iidOf r) c.val f = .error (.err e)) →
        exec .clayer s = .next (failedState s e)) ∧
      (∀ outs : List Bytes, (applying rule dir).length = cols.length → outs.length = cols.length →
        (∀ (j : Nat) (f : Desc) (c : Col) (out : Bytes), (applying rule dir)[j]? = some f → cols[j]? = some c →
          outs[j]? = some out → Paired v f c ∧ compressField v (iidOf r) c.val f = .ok out) →
        Delivers .clayer s r outs.flatten outs.flatten.length 0))

/-- 44_rule_selection.md R206, R207, 45_flatten.md R233 to R236, 30_encoding.md R83, R87, R91: `DLAYER` runs the actions
of the rule along the cursor, and writes the header that the columns assemble to at `D_ADDR` and the columns, their pad
bits cleared (log 28), into the context region. In order, a rule record that cannot be read raises what R87 says (log
19), an input out of memory `BUS_FAULT`, the first action that fails its error, columns of no header of the layer
`RULE_FORMAT`, a region too small `CTX_OVERFLOW`, a range too small `INSUFFICIENT_BUFFER`, and either of them out of
memory `BUS_FAULT`. -/
def Obligations.DlayerResult : Prop :=
  ∀ (s : State) (r : Regs) (v : View) (layer : Layer) (dir : PacketDir), s.snap.regs = r → viewOf .dlayer s = v →
    Undisturbed s → RegionsApart r → auxIs r layer = true → dirIs r dir = true →
    (∀ e, RuleFails v r.bAddr.toNat layer e → exec .dlayer s = .next (failedState s e)) ∧
    (∀ rule, ruleAt v r.bAddr.toNat layer rule = true → ¬ BytesFit s r.aAddr.toNat r.len.toNat →
      exec .dlayer s = .next (failedState s .busFault)) ∧
    (∀ (rule : Rule) (src : Bytes) (cols : List Col) (ks : List Nat), ruleAt v r.bAddr.toNat layer rule = true →
      inputIs v r src = true → ks.length = cols.length →
      cols.map Col.fid = ((applying rule dir).take cols.length).map Desc.fid →
      (∀ (j : Nat) (f : Desc) (c : Col) (k : Nat), (applying rule dir)[j]? = some f → cols[j]? = some c →
        ks[j]? = some k →
        decompressField v (iidOf r) (src.drop (ks.take j).sum) f = .ok (k, c.val)) →
      (∀ f e, (applying rule dir)[cols.length]? = some f →
        decompressField v (iidOf r) (src.drop ks.sum) f = .error (.err e) →
        exec .dlayer s = .next (failedState s e)) ∧
      ((applying rule dir).length = cols.length → assembles v.table layer cols = false →
        exec .dlayer s = .next (failedState s .ruleFormat)) ∧
      ((applying rule dir).length = cols.length → assembles v.table layer cols = true →
        ∃ h, h = assembled v layer cols dir ∧ assemble v layer cols dir = .ok h ∧
          (r.ctxSize.toNat < bytesUsed cols → exec .dlayer s = .next (failedState s .ctxOverflow)) ∧
          (bytesUsed cols ≤ r.ctxSize.toNat → r.outCap.toNat < h.length →
            exec .dlayer s = .next (failedState s .insufficientBuffer)) ∧
          (bytesUsed cols ≤ r.ctxSize.toNat → h.length ≤ r.outCap.toNat →
            ¬ (BytesFit s r.dAddr.toNat h.length ∧ BytesFit s r.ctxAddr.toNat (bytesUsed cols)) →
            exec .dlayer s = .next (failedState s .busFault)) ∧
          (∀ wcols : List Col, wcols.map Col.fid = cols.map Col.fid →
            wcols.map Col.val = List.zipWith unpadded (applying rule dir) (cols.map Col.val) →
            bytesUsed cols ≤ r.ctxSize.toNat → BytesFit s r.ctxAddr.toNat (bytesUsed cols) →
            RoomFor s r h.length →
            ∃ m, exec .dlayer s = .next (doneState s m ks.sum h.length) ∧
              m.read r.dAddr.toNat h.length = h ∧ HoldsColumns m r.ctxAddr.toNat wcols ∧
              ∀ x, ¬ (r.dAddr.toNat ≤ x ∧ x < r.dAddr.toNat + h.length) →
                ¬ (r.ctxAddr.toNat ≤ x ∧ x < r.ctxAddr.toNat + bytesUsed cols) → m.get x = s.mem.get x)))

/-- 44_rule_selection.md R203, R205, R207, R210, 10_state.md R25: `CheckDir` gives the direction `DIR` holds; `RSEL`,
`FLAT6` and `FLATU` complete with `OPERAND` on any other value, whatever their addresses and whatever the host wrote
during BUSY: before the first memory access. So do `CLAYER`, `DLAYER`, `COMP` and `DECOMP`, unless their two regions
share a byte: then 20_memory.md R65 and 70_reset_and_hazards.md R310 refuse them, and first (log 14). An `AUX` above 2
is `OPERAND` in the same way. -/
def Obligations.DirectionChecked : Prop :=
  (∀ r : Regs, (r.dir.toNat = 1 → checkDir r = .ok .up) ∧ (r.dir.toNat = 2 → checkDir r = .ok .down) ∧
    (r.dir.toNat ≠ 1 → r.dir.toNat ≠ 2 → checkDir r = .error (.err .operand))) ∧
  (∀ (i : Instr) (s : State),
    i = .rsel ∨ i = .flat6 ∨ i = .flatu ∨ (i = .clayer ∨ i = .dlayer) ∧ RegionsApart s.snap.regs →
    s.snap.regs.dir.toNat ≠ 1 → s.snap.regs.dir.toNat ≠ 2 → exec i s = .next (failedState s .operand)) ∧
  (∀ (i : Instr) (s : State), i = .comp ∨ i = .decomp → RegionsApart s.snap.regs →
    s.snap.regs.dir.toNat ≠ 1 → s.snap.regs.dir.toNat ≠ 2 → FailsWith (exec i s) s .operand) ∧
  (∀ (i : Instr) (s : State), i ∈ [.clayer, .dlayer, .comp, .decomp] → ¬ RegionsApart s.snap.regs →
    exec i s = .refused .regionOverlap) ∧
  (∀ (i : Instr) (s : State), i = .rsel ∨ (i = .clayer ∨ i = .dlayer) ∧ RegionsApart s.snap.regs →
    2 < s.snap.regs.aux.toNat → exec i s = .next (failedState s .operand))

/-! ## Flatteners and assemblers -/

/-- 45_flatten.md R222 to R225, R221, 30_encoding.md R90, R91: `FLAT6` and `FLATU` write the columns of the header,
each with its value, into the context region: with the header read as one integer, every field by its bits, the
Dev end being the source for UP and the destination for DOWN. Nothing outside the bytes used changes, and a region
too small is `CTX_OVERFLOW`. -/
def Obligations.FlattenResult : Prop :=
  decode 0x00000058#32 = .ok .flat6 ∧ decode 0x00000059#32 = .ok .flatu ∧
  (∀ (s : State) (r : Regs) (dir : PacketDir), s.snap.regs = r → Undisturbed s → dirIs r dir = true →
    (¬ BytesFit s r.aAddr.toNat 40 → exec .flat6 s = .next (failedState s .busFault)) ∧
    (¬ BytesFit s r.aAddr.toNat 8 → exec .flatu s = .next (failedState s .busFault))) ∧
  (∀ (s : State) (r : Regs) (dir : PacketDir) (x src dst : Nat), s.snap.regs = r → Undisturbed s →
    dirIs r dir = true → readable (viewOf .flat6 s) r.aAddr.toNat 40 = true →
    x = num (viewOf .flat6 s) r.aAddr.toNat 40 → src = x / 2 ^ 128 % 2 ^ 128 → dst = x % 2 ^ 128 →
    (r.ctxSize.toNat < 129 → exec .flat6 s = .next (failedState s .ctxOverflow)) ∧
    (129 ≤ r.ctxSize.toNat → ¬ BytesFit s r.ctxAddr.toNat 129 → exec .flat6 s = .next (failedState s .busFault)) ∧
    (129 ≤ r.ctxSize.toNat → BytesFit s r.ctxAddr.toNat 129 →
      ∃ m cols, exec .flat6 s = .next (doneState s m 10 129) ∧ HoldsColumns m r.ctxAddr.toNat cols ∧
        cols.map Col.fid = [0x01, 0x02, 0x03, 0x04, 0x05, 0x06, 0x07, 0x08, 0x09, 0x0A] ∧
        cols.map (fun c => c.val.length) = [1, 1, 3, 2, 1, 1, 8, 8, 8, 8] ∧
        cols.map (fun c => be c.val) =
          [x / 2 ^ 316, x / 2 ^ 308 % 2 ^ 8, x / 2 ^ 288 % 2 ^ 20, x / 2 ^ 272 % 2 ^ 16, x / 2 ^ 264 % 2 ^ 8,
           x / 2 ^ 256 % 2 ^ 8] ++
          (match dir with
            | .up => [src / 2 ^ 64, src % 2 ^ 64, dst / 2 ^ 64, dst % 2 ^ 64]
            | .down => [dst / 2 ^ 64, dst % 2 ^ 64, src / 2 ^ 64, src % 2 ^ 64]) ∧
        ∀ a, ¬ (r.ctxAddr.toNat ≤ a ∧ a < r.ctxAddr.toNat + 129) → m.get a = s.mem.get a)) ∧
  (∀ (s : State) (r : Regs) (dir : PacketDir) (x : Nat), s.snap.regs = r → Undisturbed s →
    dirIs r dir = true → readable (viewOf .flatu s) r.aAddr.toNat 8 = true →
    x = num (viewOf .flatu s) r.aAddr.toNat 8 →
    (r.ctxSize.toNat < 48 → exec .flatu s = .next (failedState s .ctxOverflow)) ∧
    (48 ≤ r.ctxSize.toNat → ¬ BytesFit s r.ctxAddr.toNat 48 → exec .flatu s = .next (failedState s .busFault)) ∧
    (48 ≤ r.ctxSize.toNat → BytesFit s r.ctxAddr.toNat 48 →
      ∃ m cols, exec .flatu s = .next (doneState s m 4 48) ∧ HoldsColumns m r.ctxAddr.toNat cols ∧
        cols.map Col.fid = [0x11, 0x12, 0x13, 0x14] ∧
        cols.map (fun c => c.val.length) = [2, 2, 2, 2] ∧
        cols.map (fun c => be c.val) =
          (match dir with
            | .up => [x / 2 ^ 48, x / 2 ^ 32 % 2 ^ 16]
            | .down => [x / 2 ^ 32 % 2 ^ 16, x / 2 ^ 48]) ++ [x / 2 ^ 16 % 2 ^ 16, x % 2 ^ 16] ∧
        ∀ a, ¬ (r.ctxAddr.toNat ≤ a ∧ a < r.ctxAddr.toNat + 48) → m.get a = s.mem.get a))

/-- 45_flatten.md R231, R232, R226: `FLATC` writes the columns of the message that the codec accepts, and gives their
number and the header's length; a message it does not accept is `INVALID_PACKET`. This holds for either codec (a column
count, length or id that does not fit its entry is stored modulo its size: log 22). R227, R228, R230: the reference
codec accepts exactly a header spelled as R227 and R228 say, with a payload exactly if it ends in a marker (that a
nibble is extended once is the model's reading: log 21); in bytes, it refuses fewer than 4, a version other than 1, a
TKL above 8, a token past the end, and after any options a nibble of 15, extension bytes that are missing, a value past
the end or above 0xFFFF bytes, an option number outside the table, and a marker with nothing after it. -/
def Obligations.FlatcResult : Prop :=
  decode 0x0000005A#32 = .ok .flatc ∧
  (∀ (s : State) (r : Regs), s.snap.regs = r → Undisturbed s → ¬ BytesFit s r.aAddr.toNat r.len.toNat →
    exec .flatc s = .next (failedState s .busFault)) ∧
  (∀ (s : State) (r : Regs) (m : Bytes), s.snap.regs = r → Undisturbed s → inputIs (viewOf .flatc s) r m = true →
    (coapParse (viewOf .flatc s) m = none → exec .flatc s = .next (failedState s .invalidPacket)) ∧
    (∀ p cols, coapParse (viewOf .flatc s) m = some p →
      cols = [⟨0x21, bytesBE 1 p.header.ver⟩, ⟨0x22, bytesBE 1 p.header.typ⟩, ⟨0x23, bytesBE 1 p.header.tkl⟩,
          ⟨0x24, [p.header.code]⟩, ⟨0x25, p.header.mid⟩, ⟨0x26, p.header.token⟩] ++
        p.header.opts.map (fun o => ⟨0x100 + o.1, o.2⟩) ++
        (if p.header.marker then [⟨0x27, [0xFF#8]⟩] else []) →
      (r.ctxSize.toNat < bytesUsed cols → exec .flatc s = .next (failedState s .ctxOverflow)) ∧
      (bytesUsed cols ≤ r.ctxSize.toNat → ¬ BytesFit s r.ctxAddr.toNat (bytesUsed cols) →
        exec .flatc s = .next (failedState s .busFault)) ∧
      (bytesUsed cols ≤ r.ctxSize.toNat → BytesFit s r.ctxAddr.toNat (bytesUsed cols) →
        ∃ m', exec .flatc s = .next (doneState s m' cols.length p.hlen) ∧ HoldsColumns m' r.ctxAddr.toNat cols ∧
          ∀ a, ¬ (r.ctxAddr.toNat ≤ a ∧ a < r.ctxAddr.toNat + bytesUsed cols) → m'.get a = s.mem.get a))) ∧
  ∀ v : View, v.codec = .reference →
    (∀ (m : Bytes) (p : CoapMessage), coapParse v m = some p ↔
      ∃ payload, m = spellHeader p.header ++ payload ∧ headerAllowed v.table p.header = true ∧
        p.hlen = (spellHeader p.header).length ∧ (p.header.marker = true ↔ payload ≠ [])) ∧
    (∀ m : Bytes, m.length < 4 → coapParse v m = none) ∧
    (∀ (b : Byte) (rest : Bytes), b.toNat / 64 ≠ 1 ∨ 8 < b.toNat % 16 ∨ rest.length < 3 + b.toNat % 16 →
      coapParse v (b :: rest) = none) ∧
    (∀ (b code m2 m3 : Byte), b.toNat / 64 = 1 → b.toNat % 16 = 0 →
      coapParse v [b, code, m2, m3] = some ⟨⟨1, b.toNat / 16 % 4, 0, code, [m2, m3], [], [], false⟩, 4⟩) ∧
    (∀ (h : CoapHeader) (b : Byte) (rest : Bytes), headerAllowed v.table h = true → h.marker = false →
      (b ≠ 0xFF#8 ∧ (b.toNat / 16 = 15 ∨ b.toNat % 16 = 15 ∨
          rest.length < extensionBytes (b.toNat / 16) + extensionBytes (b.toNat % 16)) ∨
        b = 0xFF#8 ∧ rest = []) →
      coapParse v (spellHeader h ++ b :: rest) = none) ∧
    (∀ (h : CoapHeader) (d n : Nat) (rest : Bytes), headerAllowed v.table h = true → h.marker = false →
      d ≤ 65804 → n ≤ 65804 →
      (rest.length < n ∨ 0xFFFF < n ∨ (h.opts.map Prod.fst).getLastD 0 + d ∉ v.table) →
      coapParse v (spellHeader h ++ spellOption d n ++ rest) = none)

/-- 45_flatten.md R237, with R226's law of a conforming codec for the reference codec: assembling the columns of a
flattened header gives the header back, in both directions, for every header of the fixed layers and every CoAP
message that the reference codec accepts, with any option table. And R233 to R236: what any columns assemble to, those
that no flattener gives among them, the bits of V, TC, FL, T and TKL above their widths dropped; or else
`RULE_FORMAT`. -/
def Obligations.AssembleInvertsFlatten : Prop :=
  (∀ (h : Bytes) (dir : PacketDir), h.length = 40 → assemble6 (flatten6 h dir) dir = .ok h) ∧
  (∀ (h : Bytes) (dir : PacketDir), h.length = 8 → assembleU (flattenU h dir) dir = .ok h) ∧
  (∀ (v : View) (m : Bytes) (p : CoapMessage), v.codec = .reference → coapParse v m = some p →
    assembleC v (flattenC p.header) = .ok (m.take p.hlen) ∧ p.hlen ≤ m.length) ∧
  (∀ (v : View) (layer : Layer) (cols : List Col) (dir : PacketDir),
    (assembles v.table layer cols = true → assemble v layer cols dir = .ok (assembled v layer cols dir)) ∧
    (assembles v.table layer cols = false → assemble v layer cols dir = .error (.err .ruleFormat)))

/-- 30_encoding.md R90 to R92: `ReadColumns` after `WriteColumns` gives the columns back, empty values included. -/
def Obligations.ColumnsRoundTrip : Prop :=
  ∀ (v : View) (r : Regs) (cols : List Col), v.size ≤ 2 ^ 32 → v.guard = [] → v.raced = [] →
    cols.length < 2 ^ 16 → (∀ c ∈ cols, c.fid < 2 ^ 16 ∧ c.val.length < 2 ^ 16) →
    bytesUsed cols ≤ r.ctxSize.toNat → r.ctxAddr.toNat + bytesUsed cols ≤ v.size →
    ∃ w, writeColumns v r cols = .ok w ∧ w.1 = r.ctxAddr.toNat ∧ w.2.length = bytesUsed cols ∧
      readColumns { v with mem := v.mem.put w.1 w.2 } r = .ok cols

/-! ## The pipeline -/

/-- 46_pipeline.md R250, R251, 30_encoding.md R80: `RIDPK` packs and `RIDUNPK` unpacks the Layered Rule ID; a
sub-field too wide, or a value above 0xFF, is `OPERAND`; and `RIDPK` of `RIDUNPK(b)` is `b`. -/
def Obligations.RuleIdPacking : Prop :=
  decode 0x00000060#32 = .ok .ridpk ∧ decode 0x00000061#32 = .ok .ridunpk ∧
  (∀ (s : State) (r : Regs) (nwl tpl apl frag : Nat), s.snap.regs = r → Undisturbed s →
    nwl < 256 → tpl < 256 → apl < 256 → frag < 256 →
    r.aux.toNat = frag * 2 ^ 24 + apl * 2 ^ 16 + tpl * 2 ^ 8 + nwl →
    (nwl ≤ 3 → tpl ≤ 3 → apl ≤ 7 → frag ≤ 1 →
      exec .ridpk s = .next (doneState s s.mem (frag * 128 + apl * 16 + tpl * 4 + nwl) 0)) ∧
    (3 < nwl ∨ 3 < tpl ∨ 7 < apl ∨ 1 < frag → exec .ridpk s = .next (failedState s .operand))) ∧
  (∀ (s : State) (r : Regs) (nwl tpl apl frag : Nat), s.snap.regs = r → Undisturbed s →
    nwl ≤ 3 → tpl ≤ 3 → apl ≤ 7 → frag ≤ 1 → r.aux.toNat = frag * 128 + apl * 16 + tpl * 4 + nwl →
    exec .ridunpk s = .next (doneState s s.mem (nwl + tpl * 2 ^ 8 + apl * 2 ^ 16 + frag * 2 ^ 24) 0)) ∧
  (∀ s : State, Undisturbed s → 0xFF < s.snap.regs.aux.toNat →
    exec .ridunpk s = .next (failedState s .operand)) ∧
  (∀ s : State, Undisturbed s → s.snap.regs.aux.toNat ≤ 0xFF →
    ∃ t u, exec .ridunpk s = .next t ∧ u = { t with snap := ⟨t.snap.word, { t.snap.regs with aux := t.result }⟩ } ∧
      exec .ridpk u = .next { u with result := s.snap.regs.aux, result2 := 0#32 })

/-- 46_pipeline.md R256: `PLEN` patches each of the two length fields that is zero with `n - 40`, tells which, and
changes no other byte; a length out of its limits is `OPERAND`; a second `PLEN` changes nothing. -/
def Obligations.PlenResult : Prop :=
  decode 0x00000064#32 = .ok .plen ∧
  ∀ (s : State) (r : Regs) (a n x y : Nat), s.snap.regs = r → r.aAddr.toNat = a → r.len.toNat = n → Undisturbed s →
    x = be (s.mem.read (a + 4) 2) → y = be (s.mem.read (a + 44) 2) →
    (¬ BytesFit s a n → 48 ≤ n → n - 40 ≤ 0xFFFF → exec .plen s = .next (failedState s .busFault)) ∧
    (BytesFit s a n → (n < 48 ∨ 0xFFFF < n - 40) → exec .plen s = .next (failedState s .operand)) ∧
    (BytesFit s a n → 48 ≤ n → n - 40 ≤ 0xFFFF →
      ∃ t u, exec .plen s = .next t ∧
        t = doneState s t.mem ((if x = 0 then 1 else 0) + (if y = 0 then 2 else 0)) 0 ∧
        be (t.mem.read (a + 4) 2) = (if x = 0 then n - 40 else x) ∧
        be (t.mem.read (a + 44) 2) = (if y = 0 then n - 40 else y) ∧
        (∀ b, b ≠ a + 4 → b ≠ a + 5 → b ≠ a + 44 → b ≠ a + 45 → t.mem.get b = s.mem.get b) ∧
        exec .plen t = .next u ∧ u = doneState t u.mem 0 0 ∧ ∀ b, u.mem.get b = t.mem.get b)

/-- 46_pipeline.md R257, R258: `PCHK` leaves a nonzero checksum field and returns it; a zero one gets the value `c`
in 1 .. 0xFFFF that makes the 16-bit words of pseudo-header, UDP header and data, with `c` added, a multiple of
0xFFFF (the one's-complement sum); a second `PCHK` changes nothing. -/
def Obligations.PchkResult : Prop :=
  decode 0x00000065#32 = .ok .pchk ∧
  ∀ (s : State) (r : Regs) (a n x : Nat) (data : Bytes), s.snap.regs = r → r.aAddr.toNat = a → r.len.toNat = n →
    Undisturbed s → x = be (s.mem.read (a + 46) 2) →
    data = s.mem.read (a + 8) 32 ++ [0#8, 0#8] ++ s.mem.read (a + 44) 2 ++ [0#8, 0#8, 0#8, 17#8] ++
      s.mem.read (a + 40) (n - 40) →
    (¬ BytesFit s a n → 48 ≤ n → n - 40 ≤ 0xFFFF → exec .pchk s = .next (failedState s .busFault)) ∧
    (BytesFit s a n → (n < 48 ∨ 0xFFFF < n - 40) → exec .pchk s = .next (failedState s .operand)) ∧
    (BytesFit s a n → 48 ≤ n → n - 40 ≤ 0xFFFF → x ≠ 0 →
      ∃ m, exec .pchk s = .next (doneState s m 0 x) ∧ ∀ b, m.get b = s.mem.get b) ∧
    (BytesFit s a n → 48 ≤ n → n - 40 ≤ 0xFFFF → x = 0 →
      ∃ t u c, exec .pchk s = .next t ∧ t = doneState s t.mem 1 c ∧ 1 ≤ c ∧ c ≤ 0xFFFF ∧
        (((List.range ((data.length + 1) / 2)).map (fun k =>
          (data.getD (2 * k) 0#8).toNat * 256 + (data.getD (2 * k + 1) 0#8).toNat)).sum + c) % 0xFFFF = 0 ∧
        Stored s.mem t.mem (a + 46) (bytesBE 2 c) ∧
        exec .pchk t = .next u ∧ u = doneState t u.mem 0 c ∧ ∀ b, u.mem.get b = t.mem.get b)

/-- 46_pipeline.md R252, R253, R254, 30_encoding.md R97: `COMP` writes the Layered Rule ID and, layer by layer, the
residues, or the bytes verbatim where no rule matches, the CoAP message is invalid or the actions raise one of the
three errors that are caught. Every other error is fatal, in the order of R253: `OPERAND`, the `BUS_FAULT` of the
regions and of the packet, `NO_DEVICE`, then a layer's columns above `CTX_SIZE`, a fatal error of its selection or of
its actions, CoAP first, then UDP, then IPv6, and an output above `OUT_CAP`. Every byte of the two regions beyond the
output is a free value, which is the model's choice (log 10). -/
def Obligations.CompResult : Prop :=
  ∀ (s : State) (r : Regs) (v : View) (dir : PacketDir), s.snap.regs = r → viewOf .comp s = v → Undisturbed s →
    RegionsApart r → dirIs r dir = true →
    (2 ≤ r.aux.toNat ∨ r.len.toNat < 48 → FailsWith (exec .comp s) s .operand) ∧
    (r.aux.toNat < 2 → 48 ≤ r.len.toNat →
      ¬ (BytesFit s r.dAddr.toNat r.outCap.toNat ∧ BytesFit s r.ctxAddr.toNat r.ctxSize.toNat ∧
        BytesFit s r.aAddr.toNat r.len.toNat) → FailsWith (exec .comp s) s .busFault) ∧
    (∀ (pkt tail : Bytes), r.aux.toNat < 2 → 48 ≤ r.len.toNat → BytesFit s r.dAddr.toNat r.outCap.toNat →
      BytesFit s r.ctxAddr.toNat r.ctxSize.toNat → inputIs v r pkt = true → tail = pkt.drop 48 →
      (noDevice v r = true → FailsWith (exec .comp s) s .noDevice) ∧
      (∀ k, deviceFault v r k = true → FailsWith (exec .comp s) s .busFault) ∧
      (∀ (dk dev : Nat), deviceIs v r dk = true → dev = r.devtabAddr.toNat + 32 * dk →
        (∀ p e, coapParse v tail = some p → LayerFails v r dev .coap (flattenC p.header) dir e →
          FailsWith (exec .comp s) s e) ∧
        (∀ o2, (match coapParse v tail with
            | none => o2 = none
            | some p => LayerPacked v r dev .coap (flattenC p.header) dir o2) →
          (∀ e, LayerFails v r dev .udp (flattenU ((pkt.drop 40).take 8) dir) dir e →
            FailsWith (exec .comp s) s e) ∧
          (∀ o1, LayerPacked v r dev .udp (flattenU ((pkt.drop 40).take 8) dir) dir o1 →
            (∀ e, LayerFails v r dev .ip6 (flatten6 (pkt.take 40) dir) dir e → FailsWith (exec .comp s) s e) ∧
            (∀ (o0 : Option (Nat × Bytes)) (b0 : Nat) (out : Bytes),
              LayerPacked v r dev .ip6 (flatten6 (pkt.take 40) dir) dir o0 →
              b0 = r.aux.toNat * 128 + outcomeId o2 * 16 + outcomeId o1 * 4 + outcomeId o0 →
              out = [BitVec.ofNat 8 b0] ++ (o0.map Prod.snd).getD (pkt.take 40) ++
                (o1.map Prod.snd).getD ((pkt.drop 40).take 8) ++
                (match o2, coapParse v tail with
                  | some (_, res), some p => res ++ tail.drop p.hlen
                  | _, _ => tail) →
              (r.outCap.toNat < out.length → FailsWith (exec .comp s) s .insufficientBuffer) ∧
              (out.length ≤ r.outCap.toNat →
                ∃ t, exec .comp s = .next t ∧
                  t = { doneState s t.mem out.length b0 with freeIdx := t.freeIdx } ∧
                  t.mem.read r.dAddr.toNat out.length = out ∧
                  (∀ x, (r.dAddr.toNat + out.length ≤ x ∧ x < r.dAddr.toNat + r.outCap.toNat) ∨
                    (r.ctxAddr.toNat ≤ x ∧ x < r.ctxAddr.toNat + r.ctxSize.toNat) → HoldsFree s t x) ∧
                  (∀ x, ¬ (r.dAddr.toNat ≤ x ∧ x < r.dAddr.toNat + r.outCap.toNat) →
                    ¬ (r.ctxAddr.toNat ≤ x ∧ x < r.ctxAddr.toNat + r.ctxSize.toNat) →
                    t.mem.get x = s.mem.get x)))))))

/-- 46_pipeline.md R255, R254: `DECOMP` splits the Layered Rule ID, finds the rules, cuts the parts by their residue
sizes, decompresses CoAP, UDP and IPv6, patches lengths and checksum, and writes the packet. Its errors, in the order of
R255: an empty input `CURSOR_OVERRUN`, the `BUS_FAULT` of the regions and of the input, `NO_DEVICE`, a rule not found or
not readable (CoAP, UDP, IPv6), a residue size, parts that do not fit the input `CURSOR_OVERRUN`, a layer that does not
decompress (CoAP, UDP, IPv6), a packet above `OUT_CAP` `INSUFFICIENT_BUFFER`, one too long to patch `OPERAND`. Every
byte of the two regions beyond the packet is a free value, which is the model's choice (log 10). -/
def Obligations.DecompResult : Prop :=
  ∀ (s : State) (r : Regs) (v : View) (dir : PacketDir), s.snap.regs = r → viewOf .decomp s = v → Undisturbed s →
    RegionsApart r → dirIs r dir = true →
    (r.len.toNat = 0 → FailsWith (exec .decomp s) s .cursorOverrun) ∧
    (1 ≤ r.len.toNat → ¬ (BytesFit s r.dAddr.toNat r.outCap.toNat ∧ BytesFit s r.ctxAddr.toNat r.ctxSize.toNat ∧
      BytesFit s r.aAddr.toNat r.len.toNat) → FailsWith (exec .decomp s) s .busFault) ∧
    (∀ (src : Bytes) (b0 : Nat), 1 ≤ r.len.toNat → BytesFit s r.dAddr.toNat r.outCap.toNat →
      BytesFit s r.ctxAddr.toNat r.ctxSize.toNat → inputIs v r src = true → b0 = (src.headD 0#8).toNat →
      (noDevice v r = true → FailsWith (exec .decomp s) s .noDevice) ∧
      (∀ k, deviceFault v r k = true → FailsWith (exec .decomp s) s .busFault) ∧
      (∀ (dk dev : Nat), deviceIs v r dk = true → dev = r.devtabAddr.toNat + 32 * dk →
        (∀ e, NameFails v dev .coap (b0 / 16 % 8) e → FailsWith (exec .decomp s) s e) ∧
        (∀ rule2, LayerNamed v dev .coap (b0 / 16 % 8) rule2 →
          (∀ e, NameFails v dev .udp (b0 / 4 % 4) e → FailsWith (exec .decomp s) s e) ∧
          (∀ rule1, LayerNamed v dev .udp (b0 / 4 % 4) rule1 →
            (∀ e, NameFails v dev .ip6 (b0 % 4) e → FailsWith (exec .decomp s) s e) ∧
            (∀ rule0, LayerNamed v dev .ip6 (b0 % 4) rule0 →
              (∀ e, SizeFails rule0 dir e → FailsWith (exec .decomp s) s e) ∧
              (∀ s0, PartSized 40 rule0 dir s0 →
                (∀ e, SizeFails rule1 dir e → FailsWith (exec .decomp s) s e) ∧
                (∀ s1, PartSized 8 rule1 dir s1 →
                  (src.length < 1 + s0 + s1 → FailsWith (exec .decomp s) s .cursorOverrun) ∧
                  (1 + s0 + s1 ≤ src.length → UnpacksParts s r v dir src b0 rule0 rule1 rule2 s0 s1))))))))

/-- 46_pipeline.md R259, the round-trip property, for a packet whose length and checksum fields are those `PLEN` and
`PCHK` compute, rules that meet the property's conditions and no two of which have one id in a layer, and the
reference codec: decompressing what compression gave, with the same table, direction and node address, and patching,
gives the packet back byte for byte. -/
def Obligations.PacketRoundTrip : Prop :=
  ∀ (v : View) (r q : Regs) (dir : PacketDir) (dk b0 : Nat) (pkt out : Bytes) (rules : Layer → List (Nat × Rule)),
    v.codec = .reference → v.raced = [] → (∀ layer, roundTripRules v r dk layer (rules layer) = true) →
    48 ≤ pkt.length → pkt.length - 40 ≤ 0xFFFF → be ((pkt.drop 4).take 2) = pkt.length - 40 →
    be ((pkt.drop 44).take 2) = pkt.length - 40 →
    be ((pkt.drop 46).take 2) = checksum (pkt.take 46 ++ [0#8, 0#8] ++ pkt.drop 48) →
    r.aux.toNat < 2 → compressPacket v r (r.devtabAddr.toNat + 32 * dk) pkt dir = .ok (b0, out) →
    q.len.toNat = out.length → q.ctxSize = r.ctxSize → q.node2 = r.node2 → q.node3 = r.node3 →
    ∃ pkt0 pkt1 mask one val, decompressPacket v q (r.devtabAddr.toNat + 32 * dk) out dir = .ok pkt0 ∧
      patchLen pkt0 = .ok (pkt1, mask) ∧ patchChk pkt1 = .ok (pkt, one, val)

end
end

