-- ==== Sys2Proof/Laws/Bytes.lean ====
section
/-! SUPPORT. Laws of byte strings and their big-endian integers (00_scope.md R10). -/

namespace Sys2Proof.Machine

theorem be_foldl (s : Bytes) : ∀ v : Nat,
    s.foldl (fun v b => v * 256 + b.toNat) v = v * 256 ^ s.length + be s := by
  induction s with
  | nil => intro v; simp [be]
  | cons b t ih =>
    intro v
    have h0 := ih (0 * 256 + b.toNat)
    have h1 := ih (v * 256 + b.toNat)
    simp only [be, List.foldl_cons, List.length_cons] at *
    rw [h1, h0]
    ring

@[simp] theorem be_nil : be [] = 0 := rfl

theorem be_cons (b : Byte) (s : Bytes) : be (b :: s) = b.toNat * 256 ^ s.length + be s := by
  have := be_foldl s (0 * 256 + b.toNat)
  simp only [be, List.foldl_cons] at *
  rw [this]; ring

theorem be_append (a b : Bytes) : be (a ++ b) = be a * 256 ^ b.length + be b := by
  have := be_foldl b (be a)
  rw [← this]; simp [be, List.foldl_append]

theorem be_lt (s : Bytes) : be s < 256 ^ s.length := by
  induction s with
  | nil => simp
  | cons b t ih =>
    rw [be_cons, List.length_cons, pow_succ]
    have hb : b.toNat < 256 := b.isLt
    generalize 256 ^ t.length = q at *
    nlinarith

@[simp] theorem length_bytesBE (n v : Nat) : (bytesBE n v).length = n := by
  induction n with
  | zero => rfl
  | succ n ih => simp [bytesBE, ih]

theorem be_bytesBE (n v : Nat) : be (bytesBE n v) = v % 256 ^ n := by
  induction n with
  | zero => simp [bytesBE, Nat.mod_one]
  | succ n ih =>
    have hb : (BitVec.ofNat 8 (v / 256 ^ n)).toNat = v / 256 ^ n % 256 := BitVec.toNat_ofNat _ _
    rw [bytesBE, be_cons, ih, length_bytesBE, hb, pow_succ, Nat.mod_mul, Nat.mul_comm, Nat.add_comm]

theorem be_injective_of_length {a b : Bytes} (hl : a.length = b.length) (h : be a = be b) : a = b := by
  induction a generalizing b with
  | nil => cases b with
    | nil => rfl
    | cons _ _ => simp at hl
  | cons x s ih =>
    cases b with
    | nil => simp at hl
    | cons y t =>
      have hlt : s.length = t.length := by simpa using hl
      rw [be_cons, be_cons, ← hlt] at h
      have h1 := be_lt s
      have h2 : be t < 256 ^ s.length := by rw [hlt]; exact be_lt t
      have hpos : 0 < 256 ^ s.length := Nat.pow_pos (by norm_num)
      have hx : x.toNat = y.toNat := by
        have e1 : (x.toNat * 256 ^ s.length + be s) / 256 ^ s.length = x.toNat := by
          rw [Nat.mul_comm, Nat.mul_add_div hpos, Nat.div_eq_of_lt h1, Nat.add_zero]
        have e2 : (y.toNat * 256 ^ s.length + be t) / 256 ^ s.length = y.toNat := by
          rw [Nat.mul_comm, Nat.mul_add_div hpos, Nat.div_eq_of_lt h2, Nat.add_zero]
        rw [← e1, ← e2, h]
      have hs : be s = be t := by rw [hx] at h; omega
      rw [BitVec.eq_of_toNat_eq hx, ih hlt hs]

theorem bytesBE_be (s : Bytes) : bytesBE s.length (be s) = s := by
  apply be_injective_of_length
  · simp
  · rw [be_bytesBE, Nat.mod_eq_of_lt (be_lt s)]

@[simp] theorem length_zeros (n : Nat) : (zeros n).length = n := by simp [zeros]

theorem length_slice (s : Bytes) (i n : Nat) (h : i + n ≤ s.length) : (slice s i n).length = n := by
  simp [slice]; omega

end Sys2Proof.Machine
end

