-- ==== Sys2Proof/Laws/Memory.lean ====
section
/-! SUPPORT. Laws of the buffer memory: what a byte reads as after a store, and the canonical form. -/

namespace Sys2Proof.Machine

variable {α : Type}

/-! ## Sorted lists -/

theorem rising_iff_pairwise (l : List (Nat × α)) :
    rising l = true ↔ l.Pairwise (fun x y => x.1 < y.1) := by
  induction l with
  | nil => simp [rising]
  | cons x t ih =>
    cases t with
    | nil => simp [rising]
    | cons y rest =>
      simp only [rising, Bool.and_eq_true, decide_eq_true_eq, ih, List.pairwise_cons]
      constructor
      · rintro ⟨hxy, hy, hr⟩
        refine ⟨?_, hy, hr⟩
        intro z hz
        rcases List.mem_cons.1 hz with rfl | hz
        · exact hxy
        · exact Nat.lt_trans hxy (hy z hz)
      · rintro ⟨hx, hy, hr⟩
        exact ⟨hx y (by simp), hy, hr⟩

@[simp] theorem mem_below (a : Nat) (l : List (Nat × α)) (c : Nat × α) :
    c ∈ below a l ↔ c ∈ l ∧ c.1 < a := by simp [below]

@[simp] theorem mem_above (a : Nat) (l : List (Nat × α)) (c : Nat × α) :
    c ∈ above a l ↔ c ∈ l ∧ a ≤ c.1 := by simp [above]

theorem pairwise_below {l : List (Nat × α)} (a : Nat) (h : l.Pairwise (fun x y => x.1 < y.1)) :
    (below a l).Pairwise (fun x y => x.1 < y.1) := h.filter _

theorem pairwise_above {l : List (Nat × α)} (a : Nat) (h : l.Pairwise (fun x y => x.1 < y.1)) :
    (above a l).Pairwise (fun x y => x.1 < y.1) := h.filter _

theorem cellsOf_bounds (s : Bytes) : ∀ (a : Nat), ∀ c ∈ cellsOf a s,
    a ≤ c.1 ∧ c.1 < a + s.length ∧ c.2 ≠ Config.unwritten := by
  induction s with
  | nil => intro a c h; simp [cellsOf] at h
  | cons b rest ih =>
    intro a c h
    by_cases hb : b = Config.unwritten
    · simp only [cellsOf, hb, if_true] at h
      have := ih (a + 1) c h
      simp only [List.length_cons]
      exact ⟨by omega, by omega, this.2.2⟩
    · simp only [cellsOf, hb, if_false, List.mem_cons] at h
      rcases h with rfl | h
      · simp only [List.length_cons]; exact ⟨Nat.le_refl _, by omega, hb⟩
      · have := ih (a + 1) c h
        simp only [List.length_cons]; exact ⟨by omega, by omega, this.2.2⟩

theorem pairwise_cellsOf (s : Bytes) : ∀ a, (cellsOf a s).Pairwise (fun x y => x.1 < y.1) := by
  induction s with
  | nil => intro a; simp [cellsOf]
  | cons b rest ih =>
    intro a
    by_cases hb : b = Config.unwritten
    · simpa only [cellsOf, hb, if_true] using ih (a + 1)
    · simp only [cellsOf, hb, if_false, List.pairwise_cons]
      exact ⟨fun c hc => by have := cellsOf_bounds rest (a + 1) c hc; omega, ih (a + 1)⟩

theorem freeOf_bounds (n : Nat) : ∀ (a k : Nat), ∀ c ∈ freeOf a n k, a ≤ c.1 ∧ c.1 < a + n := by
  induction n with
  | zero => intro a k c h; simp [freeOf] at h
  | succ n ih =>
    intro a k c h
    simp only [freeOf, List.mem_cons] at h
    rcases h with rfl | h
    · exact ⟨Nat.le_refl _, by simp⟩
    · have := ih (a + 1) (k + 1) c h; omega

theorem pairwise_freeOf (n : Nat) : ∀ a k, (freeOf a n k).Pairwise (fun x y => x.1 < y.1) := by
  induction n with
  | zero => intro a k; simp [freeOf]
  | succ n ih =>
    intro a k
    simp only [freeOf, List.pairwise_cons]
    exact ⟨fun c hc => by have := freeOf_bounds n (a + 1) (k + 1) c hc; omega, ih _ _⟩

/-! ## Lookups -/

theorem assoc_append (a : Nat) (l r : List (Nat × α)) :
    assoc a (l ++ r) = (assoc a l).or (assoc a r) := by
  induction l with
  | nil => simp [assoc]
  | cons x t ih =>
    by_cases h : x.1 = a <;> simp [assoc, h, ih]

theorem assoc_below (a b : Nat) (l : List (Nat × α)) :
    assoc a (below b l) = if a < b then assoc a l else none := by
  induction l with
  | nil => simp [below, assoc]
  | cons x t ih =>
    unfold below at ih ⊢
    by_cases hx : x.1 < b
    · by_cases h : x.1 = a
      · subst h; simp [assoc, hx]
      · simp [hx, assoc, h, ih]
    · by_cases h : x.1 = a
      · subst h; simp [hx, ih]
      · simp [hx, assoc, h, ih]

theorem assoc_above (a b : Nat) (l : List (Nat × α)) :
    assoc a (above b l) = if b ≤ a then assoc a l else none := by
  induction l with
  | nil => simp [above, assoc]
  | cons x t ih =>
    unfold above at ih ⊢
    by_cases hx : b ≤ x.1
    · by_cases h : x.1 = a
      · subst h; simp [assoc, hx]
      · simp [hx, assoc, h, ih]
    · by_cases h : x.1 = a
      · subst h; simp [hx, ih]
      · simp [hx, assoc, h, ih]

theorem assoc_cellsOf (s : Bytes) : ∀ a b, (assoc a (cellsOf b s)).getD Config.unwritten =
    if b ≤ a then s[a - b]?.getD Config.unwritten else Config.unwritten := by
  induction s with
  | nil => intro a b; simp [cellsOf, assoc]
  | cons x t ih =>
    intro a b
    by_cases hx : x = Config.unwritten
    · simp only [cellsOf, hx, if_true, ih]
      by_cases h : b + 1 ≤ a
      · have h2 : b ≤ a := by omega
        obtain ⟨k, hk⟩ : ∃ k, a - b = k + 1 := ⟨a - b - 1, by omega⟩
        have : a - (b + 1) = k := by omega
        simp [h, h2, hk, this]
      · by_cases h2 : b ≤ a
        · have : a - b = 0 := by omega
          simp [h, h2, this]
        · simp [h, h2]
    · simp only [cellsOf, hx, if_false, assoc]
      by_cases h : b = a
      · subst h; simp
      · simp only [h, if_false, ih]
        by_cases h1 : b + 1 ≤ a
        · have h2 : b ≤ a := by omega
          obtain ⟨k, hk⟩ : ∃ k, a - b = k + 1 := ⟨a - b - 1, by omega⟩
          have : a - (b + 1) = k := by omega
          simp [h1, h2, hk, this]
        · have h2 : ¬ b ≤ a := by omega
          simp [h1, h2]

theorem assoc_freeOf (n : Nat) : ∀ a b k, assoc a (freeOf b n k) =
    if b ≤ a ∧ a < b + n then some (k + (a - b)) else none := by
  induction n with
  | zero => intro a b k; have : ¬ (b ≤ a ∧ a < b + 0) := by omega
            simp [freeOf, assoc]
  | succ n ih =>
    intro a b k
    simp only [freeOf, assoc]
    by_cases h : b = a
    · subst h; simp
    · simp only [h, if_false, ih]
      by_cases h1 : b + 1 ≤ a ∧ a < b + 1 + n
      · have h2 : b ≤ a ∧ a < b + (n + 1) := by omega
        have : k + 1 + (a - (b + 1)) = k + (a - b) := by omega
        simp [h1, h2, this]
      · have h2 : ¬ (b ≤ a ∧ a < b + (n + 1)) := by omega
        rw [if_neg h1, if_neg h2]

theorem assoc_eq_none_of_forall {a : Nat} {l : List (Nat × α)} (h : ∀ c ∈ l, c.1 ≠ a) : assoc a l = none := by
  induction l with
  | nil => rfl
  | cons x t ih =>
    have hx : x.1 ≠ a := h x (by simp)
    simp [assoc, hx, ih (fun c hc => h c (by simp [hc]))]

theorem assoc_isNone_iff (a : Nat) (l : List (Nat × α)) :
    (assoc a l).isNone = true ↔ ∀ c ∈ l, c.1 ≠ a := by
  induction l with
  | nil => simp [assoc]
  | cons x t ih => by_cases h : x.1 = a <;> simp [assoc, h, ih]

/-! ## What a byte reads as -/

/-- Every byte after a store: the bytes stored, and everything else as before. -/
theorem Memory.get_put (m : Memory) (b : Nat) (s : Bytes) (a : Nat) :
    (m.put b s).get a = if b ≤ a then s[a - b]?.getD (m.get a) else m.get a := by
  unfold Memory.get Memory.put
  simp only [assoc_append, assoc_below, assoc_above]
  by_cases h : b ≤ a
  · have h1 : ¬ a < b := by omega
    by_cases h2 : b + s.length ≤ a
    · have h3 : s[a - b]? = none := List.getElem?_eq_none (by omega)
      have h4 : assoc a (cellsOf b s) = none :=
        assoc_eq_none_of_forall (fun c hc => by have := cellsOf_bounds s b c hc; omega)
      simp [h, h1, h2, h3, h4]
    · have h3 : a - b < s.length := by omega
      have h4 := assoc_cellsOf s a b
      simp only [h, if_true] at h4
      simp only [h, h1, h2, if_true, if_false, Option.or_none, Option.none_or]
      rw [h4]
      simp [List.getElem?_eq_getElem h3]
  · have h1 : a < b := by omega
    have h2 : ¬ b + s.length ≤ a := by omega
    have h4 : assoc a (cellsOf b s) = none :=
      assoc_eq_none_of_forall (fun c hc => by have := cellsOf_bounds s b c hc; omega)
    simp [h, h1, h2, h4]

/-- A store leaves every byte outside it alone. -/
theorem Memory.get_put_of_not_mem (m : Memory) (b : Nat) (s : Bytes) (a : Nat)
    (h : ¬ (b ≤ a ∧ a < b + s.length)) : (m.put b s).get a = m.get a := by
  rw [Memory.get_put]
  split
  · rw [List.getElem?_eq_none (by omega)]; rfl
  · rfl

/-- A byte just stored reads back. -/
theorem Memory.get_put_of_mem (m : Memory) (b : Nat) (s : Bytes) (a : Nat) (h : b ≤ a) (h2 : a - b < s.length) :
    (m.put b s).get a = s[a - b] := by
  rw [Memory.get_put, if_pos h, List.getElem?_eq_getElem h2]; rfl

/-- Every byte after `n` bytes from `b` became free values: those, and everything else as before. -/
theorem Memory.get_clobber (m : Memory) (b n k a : Nat) :
    (m.clobber b n k).get a =
      if b ≤ a ∧ a < b + n then Config.freeByte (k + (a - b)) else m.get a := by
  unfold Memory.get Memory.clobber
  simp only [assoc_append, assoc_below, assoc_above, assoc_freeOf]
  by_cases h : b ≤ a
  · have h1 : ¬ a < b := by omega
    by_cases h2 : b + n ≤ a
    · have h3 : ¬ a < b + n := by omega
      simp [h, h1, h2, h3]
    · have h3 : a < b + n := by omega
      simp [h, h1, h3]
  · have h1 : a < b := by omega
    have h2 : ¬ b + n ≤ a := by omega
    simp [h, h1, h2]

theorem Memory.length_read (m : Memory) (n : Nat) : ∀ a, (m.read a n).length = n := by
  induction n with
  | zero => intro a; rfl
  | succ n ih => intro a; simp [Memory.read, ih]

theorem Memory.getElem?_read (m : Memory) (n : Nat) : ∀ a i, (m.read a n)[i]? =
    if i < n then some (m.get (a + i)) else none := by
  induction n with
  | zero => intro a i; simp [Memory.read]
  | succ n ih =>
    intro a i
    cases i with
    | zero => simp [Memory.read]
    | succ i =>
      have : a + 1 + i = a + (i + 1) := by omega
      simp [Memory.read, ih, this]

/-- Reading depends only on the bytes read. -/
theorem Memory.read_congr {m m' : Memory} {a n : Nat} (h : ∀ i < n, m.get (a + i) = m'.get (a + i)) :
    m.read a n = m'.read a n := by
  apply List.ext_getElem?
  intro i
  rw [Memory.getElem?_read, Memory.getElem?_read]
  split
  · rw [h i ‹_›]
  · rfl

/-- What was stored reads back. -/
theorem Memory.read_put (m : Memory) (a : Nat) (s : Bytes) : (m.put a s).read a s.length = s := by
  apply List.ext_getElem?
  intro i
  rw [Memory.getElem?_read]
  split
  · rename_i h
    rw [Memory.get_put_of_mem _ _ _ _ (by omega) (by omega)]
    simp
  · rw [List.getElem?_eq_none (by omega)]

/-! ## The canonical form -/

theorem Memory.wf_iff (m : Memory) : m.wf = true ↔
    m.cells.Pairwise (fun x y => x.1 < y.1) ∧ m.free.Pairwise (fun x y => x.1 < y.1) ∧
    (∀ c ∈ m.cells, c.2 ≠ Config.unwritten) ∧ (∀ c ∈ m.cells, ∀ f ∈ m.free, f.1 ≠ c.1) := by
  unfold Memory.wf
  simp only [Bool.and_eq_true, rising_iff_pairwise, List.all_eq_true, bne_iff_ne, assoc_isNone_iff, ne_eq]
  tauto

theorem Memory.wf_empty : Memory.empty.wf = true := by decide

/-- A store keeps the canonical form. -/
theorem Memory.wf_put {m : Memory} (a : Nat) (s : Bytes) (h : m.wf = true) : (m.put a s).wf = true := by
  obtain ⟨hc, hf, hz, hd⟩ := (Memory.wf_iff m).1 h
  refine (Memory.wf_iff _).2 ⟨?_, ?_, ?_, ?_⟩
  · simp only [Memory.put, List.pairwise_append]
    refine ⟨pairwise_below _ hc, ⟨pairwise_cellsOf _ _, pairwise_above _ hc, ?_⟩, ?_⟩
    · intro x hx y hy
      have h1 := cellsOf_bounds s a x hx
      have h2 := (mem_above _ _ _).1 hy
      omega
    · intro x hx y hy
      have h1 := (mem_below _ _ _).1 hx
      rcases List.mem_append.1 hy with hy | hy
      · have := cellsOf_bounds s a y hy; omega
      · have := (mem_above _ _ _).1 hy; omega
  · simp only [Memory.put, List.pairwise_append]
    refine ⟨pairwise_below _ hf, pairwise_above _ hf, ?_⟩
    intro x hx y hy
    have h1 := (mem_below _ _ _).1 hx
    have h2 := (mem_above _ _ _).1 hy
    omega
  · intro c hcm
    simp only [Memory.put, List.mem_append, mem_below, mem_above] at hcm
    rcases hcm with hcm | hcm | hcm
    · exact hz c hcm.1
    · exact (cellsOf_bounds s a c hcm).2.2
    · exact hz c hcm.1
  · intro c hcm f hfm
    simp only [Memory.put, List.mem_append, mem_below, mem_above] at hcm hfm
    rcases hcm with hcm | hcm | hcm
    · rcases hfm with hfm | hfm <;> exact hd c hcm.1 f hfm.1
    · have := cellsOf_bounds s a c hcm
      rcases hfm with hfm | hfm <;> omega
    · rcases hfm with hfm | hfm <;> exact hd c hcm.1 f hfm.1

/-- Letting bytes hold any value keeps the canonical form. -/
theorem Memory.wf_clobber {m : Memory} (a n k : Nat) (h : m.wf = true) : (m.clobber a n k).wf = true := by
  obtain ⟨hc, hf, hz, hd⟩ := (Memory.wf_iff m).1 h
  refine (Memory.wf_iff _).2 ⟨?_, ?_, ?_, ?_⟩
  · simp only [Memory.clobber, List.pairwise_append]
    refine ⟨pairwise_below _ hc, pairwise_above _ hc, ?_⟩
    intro x hx y hy
    have h1 := (mem_below _ _ _).1 hx
    have h2 := (mem_above _ _ _).1 hy
    omega
  · simp only [Memory.clobber, List.pairwise_append]
    refine ⟨pairwise_below _ hf, ⟨pairwise_freeOf _ _ _, pairwise_above _ hf, ?_⟩, ?_⟩
    · intro x hx y hy
      have h1 := freeOf_bounds n a k x hx
      have h2 := (mem_above _ _ _).1 hy
      omega
    · intro x hx y hy
      have h1 := (mem_below _ _ _).1 hx
      rcases List.mem_append.1 hy with hy | hy
      · have := freeOf_bounds n a k y hy; omega
      · have := (mem_above _ _ _).1 hy; omega
  · intro c hcm
    simp only [Memory.clobber, List.mem_append, mem_below, mem_above] at hcm
    rcases hcm with hcm | hcm <;> exact hz c hcm.1
  · intro c hcm f hfm
    simp only [Memory.clobber, List.mem_append, mem_below, mem_above] at hcm hfm
    rcases hfm with hfm | hfm | hfm
    · rcases hcm with hcm | hcm <;> exact hd c hcm.1 f hfm.1
    · have := freeOf_bounds n a k f hfm
      rcases hcm with hcm | hcm <;> omega
    · rcases hcm with hcm | hcm <;> exact hd c hcm.1 f hfm.1

/-- Writing one bit keeps the canonical form. -/
theorem Memory.wf_putBit {m : Memory} (base p : Nat) (b : Bool) (h : m.wf = true) :
    (m.putBit base p b).wf = true := Memory.wf_put _ _ h

/-- Storing a list of writes keeps the canonical form. -/
theorem wf_storeAll (ws : List (Nat × Bytes)) : ∀ {m : Memory}, m.wf = true → (storeAll m ws).wf = true := by
  induction ws with
  | nil => intro m h; exact h
  | cons w rest ih => intro m h; exact ih (Memory.wf_put _ _ h)

/-! ## Every listed address exists -/

theorem Memory.within_iff (m : Memory) (size : Nat) : m.within size = true ↔
    (∀ c ∈ m.cells, c.1 < size) ∧ (∀ c ∈ m.free, c.1 < size) := by
  simp [Memory.within]

theorem Memory.within_put {m : Memory} {size : Nat} (a : Nat) (s : Bytes) (h : m.within size = true)
    (hr : s = [] ∨ a + s.length ≤ size) : (m.put a s).within size = true := by
  obtain ⟨hc, hf⟩ := (Memory.within_iff m size).1 h
  refine (Memory.within_iff _ _).2 ⟨?_, ?_⟩
  · intro c hcm
    simp only [Memory.put, List.mem_append, mem_below, mem_above] at hcm
    rcases hcm with hcm | hcm | hcm
    · exact hc c hcm.1
    · have := cellsOf_bounds s a c hcm
      rcases hr with rfl | hr
      · simp [cellsOf] at hcm
      · omega
    · exact hc c hcm.1
  · intro c hcm
    simp only [Memory.put, List.mem_append, mem_below, mem_above] at hcm
    rcases hcm with hcm | hcm <;> exact hf c hcm.1

theorem Memory.within_clobber {m : Memory} {size : Nat} (a n k : Nat) (h : m.within size = true)
    (hr : n = 0 ∨ a + n ≤ size) : (m.clobber a n k).within size = true := by
  obtain ⟨hc, hf⟩ := (Memory.within_iff m size).1 h
  refine (Memory.within_iff _ _).2 ⟨?_, ?_⟩
  · intro c hcm
    simp only [Memory.clobber, List.mem_append, mem_below, mem_above] at hcm
    rcases hcm with hcm | hcm <;> exact hc c hcm.1
  · intro c hcm
    simp only [Memory.clobber, List.mem_append, mem_below, mem_above] at hcm
    rcases hcm with hcm | hcm | hcm
    · exact hf c hcm.1
    · have := freeOf_bounds n a k c hcm
      rcases hr with rfl | hr
      · simp [freeOf] at hcm
      · omega
    · exact hf c hcm.1

end Sys2Proof.Machine
end

