-- ==== Sys2Proof/Laws/State.lean ====
section
/-! SUPPORT. One lemma per field of State and per update of it. -/

namespace Sys2Proof.Machine

variable (s : State) (w w2 : Word) (e : Effect) (x : Err) (rs : List Range) (k n : Nat)

@[simp] theorem State.acceptIssue_params : (s.acceptIssue w).params = s.params := rfl
@[simp] theorem State.acceptIssue_fsm : (s.acceptIssue w).fsm = .busy := rfl
@[simp] theorem State.acceptIssue_status : (s.acceptIssue w).status = statusIssued := rfl
@[simp] theorem State.acceptIssue_result : (s.acceptIssue w).result = s.result := rfl
@[simp] theorem State.acceptIssue_result2 : (s.acceptIssue w).result2 = s.result2 := rfl
@[simp] theorem State.acceptIssue_regs : (s.acceptIssue w).regs = s.regs := rfl
@[simp] theorem State.acceptIssue_snap : (s.acceptIssue w).snap = { word := w, regs := s.regs } := rfl
@[simp] theorem State.acceptIssue_mem : (s.acceptIssue w).mem = s.mem := rfl
@[simp] theorem State.acceptIssue_events : (s.acceptIssue w).events = s.events := rfl
@[simp] theorem State.acceptIssue_readData : (s.acceptIssue w).readData = s.readData := rfl
@[simp] theorem State.acceptIssue_raced : (s.acceptIssue w).raced = [] := rfl
@[simp] theorem State.acceptIssue_freeIdx : (s.acceptIssue w).freeIdx = s.freeIdx := rfl

@[simp] theorem State.dropIssue_params : (s.dropIssue).params = s.params := rfl
@[simp] theorem State.dropIssue_fsm : (s.dropIssue).fsm = s.fsm := rfl
@[simp] theorem State.dropIssue_status : (s.dropIssue).status = statusDropped s.status := rfl
@[simp] theorem State.dropIssue_result : (s.dropIssue).result = s.result := rfl
@[simp] theorem State.dropIssue_result2 : (s.dropIssue).result2 = s.result2 := rfl
@[simp] theorem State.dropIssue_regs : (s.dropIssue).regs = s.regs := rfl
@[simp] theorem State.dropIssue_snap : (s.dropIssue).snap = s.snap := rfl
@[simp] theorem State.dropIssue_mem : (s.dropIssue).mem = s.mem := rfl
@[simp] theorem State.dropIssue_events : (s.dropIssue).events = s.events := rfl
@[simp] theorem State.dropIssue_readData : (s.dropIssue).readData = s.readData := rfl
@[simp] theorem State.dropIssue_raced : (s.dropIssue).raced = s.raced := rfl
@[simp] theorem State.dropIssue_freeIdx : (s.dropIssue).freeIdx = s.freeIdx := rfl

@[simp] theorem State.issued_params : (s.issued w).params = s.params := rfl
@[simp] theorem State.issued_fsm : (s.issued w).fsm = .busy := rfl
@[simp] theorem State.issued_status : (s.issued w).status = statusIssued := rfl
@[simp] theorem State.issued_result : (s.issued w).result = s.result := rfl
@[simp] theorem State.issued_result2 : (s.issued w).result2 = s.result2 := rfl
@[simp] theorem State.issued_regs : (s.issued w).regs = s.regs := rfl
@[simp] theorem State.issued_snap : (s.issued w).snap = { word := w, regs := s.regs } := rfl
@[simp] theorem State.issued_mem : (s.issued w).mem = s.mem := rfl
@[simp] theorem State.issued_events : (s.issued w).events = [] := rfl
@[simp] theorem State.issued_readData : (s.issued w).readData = s.readData := rfl
@[simp] theorem State.issued_raced : (s.issued w).raced = [] := rfl
@[simp] theorem State.issued_freeIdx : (s.issued w).freeIdx = s.freeIdx := rfl

@[simp] theorem State.completeOk_params : (s.completeOk e).params = s.params := rfl
@[simp] theorem State.completeOk_fsm : (s.completeOk e).fsm = .idle := rfl
@[simp] theorem State.completeOk_status : (s.completeOk e).status = statusOk s.status := rfl
@[simp] theorem State.completeOk_result : (s.completeOk e).result = BitVec.ofNat 32 e.result := rfl
@[simp] theorem State.completeOk_result2 : (s.completeOk e).result2 = BitVec.ofNat 32 e.result2 := rfl
@[simp] theorem State.completeOk_regs : (s.completeOk e).regs = s.regs := rfl
@[simp] theorem State.completeOk_snap : (s.completeOk e).snap = s.snap := rfl
@[simp] theorem State.completeOk_mem : (s.completeOk e).mem = storeAll s.mem e.writes := rfl
@[simp] theorem State.completeOk_events : (s.completeOk e).events = s.events := rfl
@[simp] theorem State.completeOk_readData : (s.completeOk e).readData = s.readData := rfl
@[simp] theorem State.completeOk_raced : (s.completeOk e).raced = [] := rfl
@[simp] theorem State.completeOk_freeIdx : (s.completeOk e).freeIdx = s.freeIdx := rfl

@[simp] theorem State.completeError_params : (s.completeError x).params = s.params := rfl
@[simp] theorem State.completeError_fsm : (s.completeError x).fsm = .idle := rfl
@[simp] theorem State.completeError_status : (s.completeError x).status = statusError s.status x.code := rfl
@[simp] theorem State.completeError_result : (s.completeError x).result = 0xFFFFFFFF#32 := rfl
@[simp] theorem State.completeError_result2 : (s.completeError x).result2 = 0 := rfl
@[simp] theorem State.completeError_regs : (s.completeError x).regs = s.regs := rfl
@[simp] theorem State.completeError_snap : (s.completeError x).snap = s.snap := rfl
@[simp] theorem State.completeError_mem : (s.completeError x).mem = s.mem := rfl
@[simp] theorem State.completeError_events : (s.completeError x).events = s.events := rfl
@[simp] theorem State.completeError_readData : (s.completeError x).readData = s.readData := rfl
@[simp] theorem State.completeError_raced : (s.completeError x).raced = [] := rfl
@[simp] theorem State.completeError_freeIdx : (s.completeError x).freeIdx = s.freeIdx := rfl

@[simp] theorem State.completeRaced_params : (s.completeRaced w w2 n).params = s.params := rfl
@[simp] theorem State.completeRaced_fsm : (s.completeRaced w w2 n).fsm = .idle := rfl
@[simp] theorem State.completeRaced_status : (s.completeRaced w w2 n).status = statusOfCode s.status n := rfl
@[simp] theorem State.completeRaced_result : (s.completeRaced w w2 n).result = w := rfl
@[simp] theorem State.completeRaced_result2 : (s.completeRaced w w2 n).result2 = w2 := rfl
@[simp] theorem State.completeRaced_regs : (s.completeRaced w w2 n).regs = s.regs := rfl
@[simp] theorem State.completeRaced_snap : (s.completeRaced w w2 n).snap = s.snap := rfl
@[simp] theorem State.completeRaced_mem : (s.completeRaced w w2 n).mem = s.mem := rfl
@[simp] theorem State.completeRaced_events : (s.completeRaced w w2 n).events = s.events := rfl
@[simp] theorem State.completeRaced_readData : (s.completeRaced w w2 n).readData = s.readData := rfl
@[simp] theorem State.completeRaced_raced : (s.completeRaced w w2 n).raced = [] := rfl
@[simp] theorem State.completeRaced_freeIdx : (s.completeRaced w w2 n).freeIdx = s.freeIdx := rfl

@[simp] theorem State.mixed_params : (s.mixed k).params = s.params := rfl
@[simp] theorem State.mixed_fsm : (s.mixed k).fsm = s.fsm := rfl
@[simp] theorem State.mixed_status : (s.mixed k).status = s.status := rfl
@[simp] theorem State.mixed_result : (s.mixed k).result = s.result := rfl
@[simp] theorem State.mixed_result2 : (s.mixed k).result2 = s.result2 := rfl
@[simp] theorem State.mixed_regs : (s.mixed k).regs = s.regs := rfl
@[simp] theorem State.mixed_snap : (s.mixed k).snap = s.snap := rfl
@[simp] theorem State.mixed_mem : (s.mixed k).mem = mixOf k 0 s.raced s.mem := rfl
@[simp] theorem State.mixed_events : (s.mixed k).events = s.events := rfl
@[simp] theorem State.mixed_readData : (s.mixed k).readData = s.readData := rfl
@[simp] theorem State.mixed_raced : (s.mixed k).raced = [] := rfl
@[simp] theorem State.mixed_freeIdx : (s.mixed k).freeIdx = s.freeIdx := rfl

@[simp] theorem State.hostReset_params : (s.hostReset).params = s.params := rfl
@[simp] theorem State.hostReset_fsm : (s.hostReset).fsm = .idle := rfl
@[simp] theorem State.hostReset_status : (s.hostReset).status = 0 := rfl
@[simp] theorem State.hostReset_result : (s.hostReset).result = 0 := rfl
@[simp] theorem State.hostReset_result2 : (s.hostReset).result2 = 0 := rfl
@[simp] theorem State.hostReset_regs : (s.hostReset).regs = Regs.zero := rfl
@[simp] theorem State.hostReset_snap : (s.hostReset).snap = { word := 0, regs := Regs.zero } := rfl
@[simp] theorem State.hostReset_mem : (s.hostReset).mem =
    (State.clobber { s with freeIdx := s.freeIdx + 1 } (runningWrites s)).mem := rfl
@[simp] theorem State.hostReset_events : (s.hostReset).events = s.events := rfl
@[simp] theorem State.hostReset_readData : (s.hostReset).readData = s.readData := rfl
@[simp] theorem State.hostReset_raced : (s.hostReset).raced = [] := rfl
@[simp] theorem State.hostReset_freeIdx : (s.hostReset).freeIdx =
    (State.clobber { s with freeIdx := s.freeIdx + 1 } (runningWrites s)).freeIdx := rfl

@[simp] theorem State.clobber_params : (s.clobber rs).params = s.params := by
  induction rs generalizing s with
  | nil => rfl
  | cons r rest ih => simp only [State.clobber, ih]

@[simp] theorem State.clobber_fsm : (s.clobber rs).fsm = s.fsm := by
  induction rs generalizing s with
  | nil => rfl
  | cons r rest ih => simp only [State.clobber, ih]

@[simp] theorem State.clobber_status : (s.clobber rs).status = s.status := by
  induction rs generalizing s with
  | nil => rfl
  | cons r rest ih => simp only [State.clobber, ih]

@[simp] theorem State.clobber_result : (s.clobber rs).result = s.result := by
  induction rs generalizing s with
  | nil => rfl
  | cons r rest ih => simp only [State.clobber, ih]

@[simp] theorem State.clobber_result2 : (s.clobber rs).result2 = s.result2 := by
  induction rs generalizing s with
  | nil => rfl
  | cons r rest ih => simp only [State.clobber, ih]

@[simp] theorem State.clobber_regs : (s.clobber rs).regs = s.regs := by
  induction rs generalizing s with
  | nil => rfl
  | cons r rest ih => simp only [State.clobber, ih]

@[simp] theorem State.clobber_snap : (s.clobber rs).snap = s.snap := by
  induction rs generalizing s with
  | nil => rfl
  | cons r rest ih => simp only [State.clobber, ih]

@[simp] theorem State.clobber_events : (s.clobber rs).events = s.events := by
  induction rs generalizing s with
  | nil => rfl
  | cons r rest ih => simp only [State.clobber, ih]

@[simp] theorem State.clobber_readData : (s.clobber rs).readData = s.readData := by
  induction rs generalizing s with
  | nil => rfl
  | cons r rest ih => simp only [State.clobber, ih]

@[simp] theorem State.clobber_raced : (s.clobber rs).raced = s.raced := by
  induction rs generalizing s with
  | nil => rfl
  | cons r rest ih => simp only [State.clobber, ih]

@[simp] theorem State.clobber_nil : s.clobber [] = s := rfl

/-- A write of a register of `Regs` is read back. -/
@[simp] theorem Regs.get_set_self (r : Regs) (n : OpReg) : (r.set w n).get n = w := by cases n <;> rfl

/-- A write of a register of `Regs` leaves the others alone. -/
theorem Regs.get_set_of_ne (r : Regs) {n k : OpReg} (h : k ≠ n) : (r.set w n).get k = r.get k := by
  cases n <;> cases k <;> first | rfl | exact absurd rfl h

/-- Registers that agree under every name are equal. -/
theorem Regs.ext_get {a b : Regs} (h : ∀ n, a.get n = b.get n) : a = b := by
  cases a; cases b
  simp only [Regs.mk.injEq]
  exact ⟨h .aAddr, h .aPos, h .bAddr, h .bPos, h .dAddr, h .dPos, h .len, h .aux, h .dir, h .devId,
    h .devtabAddr, h .devtabN, h .ctxAddr, h .ctxSize, h .outCap, h .node0, h .node1, h .node2, h .node3⟩

end Sys2Proof.Machine
end

