-- ==== Sys2Proof/Laws/Ops.lean ====
section
/-! SUPPORT. What each shared operation can do, said once. -/

namespace Sys2Proof.Machine

/-! ## Comp -/

/-- A sequence of two computations succeeds exactly when both do. -/
theorem bind_eq_ok {α β : Type} {x : Comp α} {f : α → Comp β} {b : β} :
    (x >>= f) = .ok b ↔ ∃ a, x = .ok a ∧ f a = .ok b := by
  cases x with
  | error e => simp [bind, Except.bind]
  | ok a => simp [bind, Except.bind]

/-- A sequence of two computations stops exactly when one does. -/
theorem bind_eq_error {α β : Type} {x : Comp α} {f : α → Comp β} {e : Stop} :
    (x >>= f) = .error e ↔ x = .error e ∨ ∃ a, x = .ok a ∧ f a = .error e := by
  cases x with
  | error e => simp [bind, Except.bind]
  | ok a => simp [bind, Except.bind]

@[simp] theorem raise_ne_ok {α : Type} (e : Err) (a : α) : (raise e : Comp α) ≠ .ok a := by simp [raise]

/-! ## Range checks and reads (20_memory.md R52, R54) -/

theorem checkRange_eq_ok {v : View} {a n : Nat} :
    checkRange v a n = .ok () ↔ n = 0 ∨ a + n ≤ v.size := by
  unfold checkRange raise
  split <;> simp <;> omega

theorem sense_eq_ok {v : View} {rg : Range} : sense v rg = .ok () ↔ anyIn v.raced [rg] = false := by
  unfold sense
  split <;> simp_all

/-- A read is let through exactly when it is in range and meets no guarded range and no raced byte. -/
theorem touch_eq_ok {v : View} {a n : Nat} :
    touch v a n = .ok () ↔
      (n = 0 ∨ a + n ≤ v.size) ∧ v.guard.any (Range.meets ⟨a, n⟩) = false ∧ anyIn v.raced [⟨a, n⟩] = false := by
  unfold touch raise
  split
  · simp; omega
  · rename_i h
    have h0 : n = 0 ∨ a + n ≤ v.size := by omega
    split
    · simp [*]
    · rw [sense_eq_ok]; simp_all

theorem readBytes_eq_ok {v : View} {a n : Nat} {s : Bytes} :
    readBytes v a n = .ok s ↔ touch v a n = .ok () ∧ s = v.mem.read a n := by
  unfold readBytes
  simp only [bind_eq_ok]
  constructor
  · rintro ⟨u, h, hs⟩; cases u; exact ⟨h, by cases hs; rfl⟩
  · rintro ⟨h, rfl⟩; exact ⟨(), h, rfl⟩

theorem length_of_readBytes {v : View} {a n : Nat} {s : Bytes} (h : readBytes v a n = .ok s) : s.length = n := by
  rw [(readBytes_eq_ok.1 h).2, Memory.length_read]

/-- A read of no bytes always succeeds (R52). -/
theorem readBytes_zero (v : View) (a : Nat) : readBytes v a 0 = .ok [] := by
  refine readBytes_eq_ok.2 ⟨touch_eq_ok.2 ⟨Or.inl rfl, ?_, ?_⟩, rfl⟩
  · rw [List.any_eq_false]; intro r _; simp [Range.meets]
  · simp [anyIn, Range.has]

/-! ## Completion -/

/-- A computation completes, normally or with an error, or stops for a reason that reports nothing. -/
theorem reportOf_cases (x : Comp Effect) :
    (∃ e, x = .ok e ∧ reportOf x = some ⟨BitVec.ofNat 32 e.result, BitVec.ofNat 32 e.result2, 0⟩) ∨
    (∃ e, x = .error (.err e) ∧ reportOf x = some ⟨0xFFFFFFFF#32, 0, e.code⟩) ∨
    (x = .error .overlap ∧ reportOf x = none) ∨ (x = .error .raced ∧ reportOf x = none) := by
  cases x with
  | ok e => exact Or.inl ⟨e, rfl, rfl⟩
  | error st =>
    cases st with
    | err e => exact Or.inr (Or.inl ⟨e, rfl, rfl⟩)
    | overlap => exact Or.inr (Or.inr (Or.inl ⟨rfl, rfl⟩))
    | raced => exact Or.inr (Or.inr (Or.inr ⟨rfl, rfl⟩))

/-- Everything the completion of a command that reads a raced byte can do (20_memory.md R60, R65). -/
theorem performRaced_cases (c : Command) (s : State) :
    (∃ x1 x2 x3 x4, reportOf (c.compute (s.mixed s.freeIdx)) = some x1 ∧
      reportOf (c.compute (s.mixed (s.freeIdx + 1))) = some x2 ∧
      reportOf (c.compute (s.mixed (s.freeIdx + 2))) = some x3 ∧
      reportOf (c.compute (s.mixed (s.freeIdx + 3))) = some x4 ∧
      performRaced c s = .next
        ((State.clobber { s with freeIdx := s.freeIdx + 4 } (c.written (s.mixed (s.freeIdx + 3)))).completeRaced
          x1.result x2.result2 x3.code)) ∨
    performRaced c s = .refused .regionOverlap := by
  unfold performRaced
  split
  · rename_i x y z q h1 h2 h3 h4
    exact Or.inl ⟨x, y, z, q, h1, h2, h3, h4, rfl⟩
  · exact Or.inr rfl

/-- Everything the completion of a command can do (10_state.md R32, 60_exceptions.md R283, 20_memory.md R60,
R65). -/
theorem perform_cases (c : Command) (s : State) :
    (∃ e, c.compute s = .ok e ∧ anyIn (s.raced.map Prod.fst) (c.written s) = false ∧
      perform c s = .next ((s.clobber (c.scratch s.snap.regs)).completeOk e)) ∨
    (∃ e, c.compute s = .ok e ∧ anyIn (s.raced.map Prod.fst) (c.written s) = true ∧
      perform c s = .next ((s.clobber (c.written s)).completeOk { e with writes := [] })) ∨
    (∃ e, c.compute s = .error (.err e) ∧
      perform c s = .next ((s.clobber (c.scratch s.snap.regs)).completeError e)) ∨
    (c.compute s = .error .raced ∧ perform c s = performRaced c s) ∨
    (c.compute s = .error .overlap ∧ perform c s = .refused .regionOverlap) := by
  unfold perform
  cases hc : c.compute s with
  | ok e =>
    cases hr : anyIn (s.raced.map Prod.fst) (c.written s) with
    | true => exact Or.inr (Or.inl ⟨e, rfl, rfl, rfl⟩)
    | false => exact Or.inl ⟨e, rfl, rfl, rfl⟩
  | error st =>
    cases st with
    | err e => exact Or.inr (Or.inr (Or.inl ⟨e, rfl, rfl⟩))
    | raced => exact Or.inr (Or.inr (Or.inr (Or.inl ⟨rfl, rfl⟩)))
    | overlap => exact Or.inr (Or.inr (Or.inr (Or.inr ⟨rfl, rfl⟩)))

/-- A command whose host kept its duty and whose computation succeeds completes normally. -/
theorem perform_of_ok {c : Command} {s : State} {e : Effect} (hr : s.raced = []) (h : c.compute s = .ok e) :
    perform c s = .next ((s.clobber (c.scratch s.snap.regs)).completeOk e) := by
  unfold perform; rw [h]; simp [hr, anyIn]

/-- A command whose computation raises `e` completes with `e`, whatever the host wrote that it has not read. -/
theorem perform_of_err {c : Command} {s : State} {e : Err} (h : c.compute s = .error (.err e)) :
    perform c s = .next ((s.clobber (c.scratch s.snap.regs)).completeError e) := by
  unfold perform; rw [h]

/-- A command that writes nothing and whose computation raises `e` leaves memory alone. -/
theorem perform_of_err_precise {c : Command} {s : State} {e : Err} (hs : c.scratch s.snap.regs = [])
    (h : c.compute s = .error (.err e)) : perform c s = .next (s.completeError e) := by
  rw [perform_of_err h, hs]; rfl

/-- A command never stops the machine with a fault (60_exceptions.md R287). -/
theorem perform_ne_fault (c : Command) (s : State) (f : Fault) : perform c s ≠ .fault f := by
  rcases perform_cases c s with ⟨e, -, -, h⟩ | ⟨e, -, -, h⟩ | ⟨e, -, h⟩ | ⟨-, h⟩ | ⟨-, h⟩ <;> rw [h]
  case inr.inr.inr.inl =>
    rcases performRaced_cases c s with ⟨_, _, _, _, -, -, -, -, h⟩ | h <;> rw [h] <;> nofun
  all_goals nofun

/-! ## Mixes of old and new bytes (20_memory.md R60) -/

theorem mixOf_get (k : Nat) (l : List (Nat × Byte)) : ∀ (j : Nat) (m : Memory) (x : Nat),
    (mixOf k j l m).get x = m.get x ∨ (x, (mixOf k j l m).get x) ∈ l := by
  induction l with
  | nil => intro j m x; exact Or.inl rfl
  | cons p rest ih =>
    obtain ⟨a, b⟩ := p
    intro j m x
    rw [mixOf]
    rcases ih (j + 1) (if Config.freePick k j then m.put a [b] else m) x with h | h
    · rw [h]
      split
      · by_cases hx : x = a
        · subst hx
          rw [Memory.get_put_of_mem _ _ _ _ (Nat.le_refl x) (by simp)]
          exact Or.inr (by simp)
        · rw [Memory.get_put_of_not_mem _ _ _ _ (by simp only [List.length_singleton]; omega)]
          exact Or.inl rfl
      · exact Or.inl rfl
    · exact Or.inr (List.mem_cons_of_mem _ h)

theorem mixOf_wf (k : Nat) (l : List (Nat × Byte)) : ∀ (j : Nat) (m : Memory), m.wf = true →
    (mixOf k j l m).wf = true := by
  induction l with
  | nil => intro j m h; exact h
  | cons p rest ih =>
    obtain ⟨a, b⟩ := p
    intro j m h
    rw [mixOf]
    refine ih _ _ ?_
    split
    · exact Memory.wf_put _ _ h
    · exact h

/-! ## Free bytes -/

/-- Bytes outside the ranges are as before. -/
theorem State.clobber_get (rs : List Range) : ∀ (s : State) (a : Nat), (∀ r ∈ rs, r.has a = false) →
    (s.clobber rs).mem.get a = s.mem.get a := by
  induction rs with
  | nil => intro s a _; rfl
  | cons r rest ih =>
    intro s a h
    rw [State.clobber, ih _ _ (fun q hq => h q (by simp [hq]))]
    have hr := h r (by simp)
    simp only [Range.has, Bool.and_eq_false_iff, decide_eq_false_iff_not] at hr
    rw [Memory.get_clobber]
    split
    · omega
    · rfl

theorem State.clobber_wf (rs : List Range) : ∀ (s : State), s.mem.wf = true → (s.clobber rs).mem.wf = true := by
  induction rs with
  | nil => intro s h; exact h
  | cons r rest ih => intro s h; exact ih _ (Memory.wf_clobber _ _ _ h)

theorem State.clobber_within (rs : List Range) : ∀ (s : State), s.mem.within s.params.memSize = true →
    (s.clobber rs).mem.within s.params.memSize = true := by
  induction rs with
  | nil => intro s h; exact h
  | cons r rest ih =>
    intro s h
    have hr : min r.len (s.params.memSize - r.base) = 0 ∨
        r.base + min r.len (s.params.memSize - r.base) ≤ s.params.memSize := by omega
    exact ih _ (Memory.within_clobber _ _ _ h hr)

end Sys2Proof.Machine
end

