-- ==== Sys2Proof/Laws/Commands.lean ====
section
/-! SUPPORT. The bridge between the meanings and the words of Safety.lean: every instruction is one `perform`, and
what the shared operands and outputs of commands can do, said once. -/

namespace Sys2Proof.Machine

/-! ## Every instruction is one `perform` -/

theorem exec_eq_perform (i : Instr) (s : State) : exec i s = perform (commandOf i) s := by cases i <;> rfl

/-- The regions of a guarded command are those of 20_memory.md R65. -/
theorem guard_eq_guardOf (i : Instr) (r : Regs) :
    (if (commandOf i).guarded then (commandOf i).regions r else []) = guardOf i r := by cases i <;> rfl

/-- The ranges that may not overlap are those of 70_reset_and_hazards.md R310. -/
theorem apart_eq_regionsOf (i : Instr) (r : Regs) :
    (if (commandOf i).guarded then (commandOf i).apart r else []) = regionsOf i r := by cases i <;> rfl

theorem view_eq_viewOf (i : Instr) (s : State) : (commandOf i).view s = viewOf i s := by
  unfold Command.view viewOf
  rw [guard_eq_guardOf]

/-- A command whose own regions share no byte computes its function. -/
theorem compute_eq_run (i : Instr) (s : State) (h : rangesMeet (regionsOf i s.snap.regs) = false) :
    (commandOf i).compute s = (commandOf i).run (viewOf i s) s.snap.regs := by
  unfold Command.compute
  rw [view_eq_viewOf]
  have hg := apart_eq_regionsOf i s.snap.regs
  cases hgu : (commandOf i).guarded with
  | false => simp
  | true =>
    rw [hgu, if_pos rfl] at hg
    rw [hg, h]
    simp

/-- With at most one region there is nothing to meet. -/
@[simp] theorem rangesMeet_nil : rangesMeet [] = false := rfl
@[simp] theorem rangesMeet_singleton (g : Range) : rangesMeet [g] = false := by simp [rangesMeet]

theorem rangesMeet_pair (g q : Range) : rangesMeet [g, q] = g.meets q := by simp [rangesMeet]

/-- The output range and the context region share no byte exactly if `RegionsApart`. -/
theorem rangesMeet_out_ctx (r : Regs) : rangesMeet [outRange r, ctxRange r] = false ↔ RegionsApart r := by
  rw [rangesMeet_pair, ← Bool.not_eq_true]
  simp only [Range.meets, Bool.and_eq_true, bne_iff_ne, decide_eq_true_eq]
  simp only [RegionsApart, outRange, ctxRange]
  omega

/-- A command that uses both regions is refused where they share a byte, before anything else (log 14). -/
theorem perform_of_not_apart {c : Command} {s : State} (hg : c.guarded = true)
    (ha : c.apart s.snap.regs = [outRange s.snap.regs, ctxRange s.snap.regs]) (h : ¬ RegionsApart s.snap.regs) :
    perform c s = .refused .regionOverlap := by
  have hm : rangesMeet [outRange s.snap.regs, ctxRange s.snap.regs] = true := by
    rw [← Bool.not_eq_false]
    exact fun hf => h ((rangesMeet_out_ctx _).1 hf)
  unfold perform Command.compute
  simp [hg, ha, hm]

/-! ## Completion -/

theorem statusOk_eq (w : Word) : statusOk w = if w.getLsbD 3 then 0xA#32 else 0x2#32 := by
  have h : w &&& 0x8#32 = if w.getLsbD 3 then 0x8#32 else 0#32 := by
    apply BitVec.eq_of_getLsbD_eq
    intro k hk
    rw [BitVec.getLsbD_and]
    by_cases h3 : k = 3
    · subst h3
      cases w.getLsbD 3 <;> decide
    · have h8 : (0x8#32).getLsbD k = false := by
        revert hk h3 k
        decide
      rw [h8, Bool.and_false]
      split
      · exact h8.symm
      · simp
  unfold statusOk
  rw [h]
  split <;> decide

theorem completeOk_eq_doneState (s : State) (e : Effect) :
    s.completeOk e = doneState s (storeAll s.mem e.writes) e.result e.result2 := by
  simp only [State.completeOk, doneState, statusOk_eq]

/-! ## Reads and outputs -/

/-- `CheckBits` lets an empty bit range through, and one whose last bit is in memory (20_memory.md R54). -/
theorem checkBits_eq_ok {v : View} {base pos len : Nat} :
    checkBits v base pos len = .ok () ↔ len = 0 ∨ 8 * base + pos + len ≤ 8 * v.size := by
  unfold checkBits
  rw [checkRange_eq_ok]
  unfold bitRange
  split
  · simp [*]
  · simp only; omega

/-- A descriptor pairs with a column exactly as 44_rule_selection.md R201 says. -/
theorem pairs_iff_paired {v : View} {f : Desc} {c : Col} : f.pairs v c = true ↔ Paired v f c := by
  have h : assignedFid v.table f.fid = true ↔ Assigned v.table f.fid := by
    simp only [assignedFid, Assigned, Bool.or_eq_true, Bool.and_eq_true, decide_eq_true_eq, List.contains_iff_mem,
      List.mem_cons, List.not_mem_nil, or_false]
    constructor
    · rintro (((h | h) | h) | ⟨h, hm⟩)
      · left; omega
      · left; omega
      · left; omega
      · exact Or.inr ⟨_, hm, by omega⟩
    · rintro (h | ⟨n, hm, h⟩)
      · left; omega
      · right
        rw [h]
        exact ⟨by omega, by simpa using hm⟩
  rw [Desc.pairs, Bool.and_eq_true, beq_iff_eq, h, Paired]

/-- What the engine writes of a field value has the value's length. -/
@[simp] theorem length_clearPad (d : Desc) (val : Bytes) : (clearPad d val).length = val.length := by
  unfold clearPad
  split
  · cases val <;> rfl
  · rfl

theorem touch_of_readable {v : View} {a n : Nat} (hr : v.raced = []) (h : readable v a n = true) :
    touch v a n = .ok () := by
  refine touch_eq_ok.2 ?_
  simp only [readable, Bool.and_eq_true, Bool.or_eq_true, beq_iff_eq, decide_eq_true_eq, List.all_eq_true,
    Bool.not_eq_true'] at h
  refine ⟨h.1, ?_, by rw [hr]; rfl⟩
  rw [List.any_eq_false]
  intro g hg
  have hm := h.2 g hg
  unfold Range.meets at *
  simp only [Bool.and_eq_false_iff, bne_eq_false_iff_eq, decide_eq_false_iff_not,
    Bool.and_eq_true, bne_iff_ne, decide_eq_true_eq] at *
  omega

theorem readBytes_of_readable {v : View} {a n : Nat} (hr : v.raced = []) (h : readable v a n = true) :
    readBytes v a n = .ok (v.mem.read a n) := readBytes_eq_ok.2 ⟨touch_of_readable hr h, rfl⟩

theorem readNat_of_readable {v : View} {a n : Nat} (hr : v.raced = []) (h : readable v a n = true) :
    readNat v a n = .ok (num v a n) := by
  unfold readNat
  rw [readBytes_of_readable hr h]
  rfl

/-! ## Reads of bytes that the host did not write (20_memory.md R60) -/

/-- The view of a machine whose host wrote nothing during BUSY. -/
abbrev View.undisturbed (v : View) : View := { v with raced := [] }

theorem sense_of_unraced {v : View} {rg : Range} (h : ∀ a ∈ v.raced, rg.has a = false) :
    sense v rg = sense v.undisturbed rg := by
  simpa [sense, anyIn] using h

/-- A read of bytes that the host did not write does not see its other writes. -/
theorem touch_of_unraced {v : View} {a n : Nat} (h : ∀ x ∈ v.raced, amongBytes a n x = false) :
    touch v a n = touch v.undisturbed a n := by
  simp only [touch]
  rw [sense_of_unraced (rg := ⟨a, n⟩) h]

theorem readBytes_of_unraced {v : View} {a n : Nat} (h : ∀ x ∈ v.raced, amongBytes a n x = false) :
    readBytes v a n = readBytes v.undisturbed a n := by
  simp only [readBytes]
  rw [touch_of_unraced h]

theorem readNat_of_unraced {v : View} {a n : Nat} (h : ∀ x ∈ v.raced, amongBytes a n x = false) :
    readNat v a n = readNat v.undisturbed a n := by
  simp only [readNat]
  rw [readBytes_of_unraced h]

/-- The output of an action or layer command is let through exactly when it fits `OUT_CAP` and memory. -/
theorem writeOut_eq_ok {v : View} {r : Regs} {out : Bytes} {w : Nat × Bytes} :
    writeOut v r out = .ok w ↔
      out.length ≤ r.outCap.toNat ∧ (out.length = 0 ∨ r.dAddr.toNat + out.length ≤ v.size) ∧
        w = (r.dAddr.toNat, out) := by
  unfold writeOut
  by_cases h : r.outCap.toNat < out.length
  · simp only [if_pos h, raise_ne_ok, false_iff]; omega
  · simp only [if_neg h, bind_eq_ok]
    constructor
    · rintro ⟨u, hu, hw⟩
      cases u
      refine ⟨by omega, checkRange_eq_ok.1 hu, ?_⟩
      cases hw; rfl
    · rintro ⟨-, hr, rfl⟩
      exact ⟨(), checkRange_eq_ok.2 hr, rfl⟩

/-- Columns are let through exactly when they fit `CTX_SIZE` and memory (30_encoding.md R91). -/
theorem writeColumns_eq_ok {v : View} {r : Regs} {cols : List Col} {w : Nat × Bytes} :
    writeColumns v r cols = .ok w ↔
      ctxNeed cols ≤ r.ctxSize.toNat ∧ (ctxNeed cols = 0 ∨ r.ctxAddr.toNat + ctxNeed cols ≤ v.size) ∧
        w = (r.ctxAddr.toNat, colImage r.ctxAddr.toNat cols) := by
  unfold writeColumns
  by_cases h : r.ctxSize.toNat < ctxNeed cols
  · simp only [if_pos h, raise_ne_ok, false_iff]; omega
  · simp only [if_neg h, bind_eq_ok]
    constructor
    · rintro ⟨u, hu, hw⟩
      cases u
      refine ⟨by omega, checkRange_eq_ok.1 hu, ?_⟩
      cases hw; rfl
    · rintro ⟨-, hr, rfl⟩
      exact ⟨(), checkRange_eq_ok.2 hr, rfl⟩

theorem ctxNeed_eq_bytesUsed (cols : List Col) : ctxNeed cols = bytesUsed cols := by
  have h : valuesLen cols = (cols.map (fun c => c.val.length)).sum := by
    induction cols with
    | nil => rfl
    | cons c t ih => simp [valuesLen, ih]
  rw [ctxNeed, bytesUsed, h]

theorem length_colEntries (cols : List Col) : ∀ a, (colEntries a cols).length = 8 * cols.length := by
  induction cols with
  | nil => intro a; rfl
  | cons c t ih => intro a; simp only [colEntries, List.length_append, length_bytesBE, ih, List.length_cons]; omega

theorem length_colValues (cols : List Col) : (colValues cols).length = valuesLen cols := by
  induction cols with
  | nil => rfl
  | cons c t ih => simp [colValues, valuesLen, ih]

/-- The image of a column array has exactly the bytes used (30_encoding.md R90). -/
theorem length_colImage (base : Nat) (cols : List Col) : (colImage base cols).length = ctxNeed cols := by
  simp only [colImage, List.length_append, length_bytesBE, length_colEntries, length_colValues, ctxNeed]

theorem nodeIid_eq_iidOf (r : Regs) : nodeIid r = iidOf r := by
  apply be_injective_of_length
  · simp [nodeIid, iidOf]
  · have h2 := r.node2.isLt
    have h3 := r.node3.isLt
    rw [nodeIid, iidOf, be_append, be_bytesBE, be_bytesBE, be_bytesBE, length_bytesBE]
    omega

theorem applicable_eq_applying (rule : Rule) (dir : PacketDir) : applicable rule.fields dir = applying rule dir := by
  unfold applicable applying
  congr 1
  funext d
  cases hd : d.dir <;> cases dir <;> simp [Desc.applies, hd]

end Sys2Proof.Machine
end

