-- ==== Sys2Proof/Laws/PerInstr.lean ====
section
/-! SUPPORT. The family `RoundTrip`: what holds of each instruction's word, one lemma per constructor
(30_encoding.md R70, R73). -/

namespace Sys2Proof.Laws.RoundTrip

/-- The instruction is well-formed, its word is legal, and decoding the word gives it back. -/
def Statement (i : Instr) : Prop :=
  i.wellFormed = true ∧ wordWellFormed (encode i) = true ∧ decode (encode i) = .ok i

theorem getb : Statement .getb := ⟨rfl, rfl, rfl⟩
theorem setb : Statement .setb := ⟨rfl, rfl, rfl⟩
theorem clrb : Statement .clrb := ⟨rfl, rfl, rfl⟩
theorem cpyb : Statement .cpyb := ⟨rfl, rfl, rfl⟩
theorem cmpb : Statement .cmpb := ⟨rfl, rfl, rfl⟩
theorem shlb : Statement .shlb := ⟨rfl, rfl, rfl⟩
theorem shrb : Statement .shrb := ⟨rfl, rfl, rfl⟩
theorem xorb : Statement .xorb := ⟨rfl, rfl, rfl⟩
theorem andb : Statement .andb := ⟨rfl, rfl, rfl⟩
theorem meq : Statement .meq := ⟨rfl, rfl, rfl⟩
theorem mign : Statement .mign := ⟨rfl, rfl, rfl⟩
theorem mmsb : Statement .mmsb := ⟨rfl, rfl, rfl⟩
theorem mmap : Statement .mmap := ⟨rfl, rfl, rfl⟩
theorem mdisp : Statement .mdisp := ⟨rfl, rfl, rfl⟩
theorem cOmit : Statement .cOmit := ⟨rfl, rfl, rfl⟩
theorem cVal : Statement .cVal := ⟨rfl, rfl, rfl⟩
theorem cMap : Statement .cMap := ⟨rfl, rfl, rfl⟩
theorem cLsb : Statement .cLsb := ⟨rfl, rfl, rfl⟩
theorem cDlen : Statement .cDlen := ⟨rfl, rfl, rfl⟩
theorem cDchk : Statement .cDchk := ⟨rfl, rfl, rfl⟩
theorem cDeviid : Statement .cDeviid := ⟨rfl, rfl, rfl⟩
theorem cAppiid : Statement .cAppiid := ⟨rfl, rfl, rfl⟩
theorem dOmit : Statement .dOmit := ⟨rfl, rfl, rfl⟩
theorem dVal : Statement .dVal := ⟨rfl, rfl, rfl⟩
theorem dMap : Statement .dMap := ⟨rfl, rfl, rfl⟩
theorem dLsb : Statement .dLsb := ⟨rfl, rfl, rfl⟩
theorem dDlen : Statement .dDlen := ⟨rfl, rfl, rfl⟩
theorem dDchk : Statement .dDchk := ⟨rfl, rfl, rfl⟩
theorem dDeviid : Statement .dDeviid := ⟨rfl, rfl, rfl⟩
theorem dAppiid : Statement .dAppiid := ⟨rfl, rfl, rfl⟩
theorem rsel : Statement .rsel := ⟨rfl, rfl, rfl⟩
theorem clayer : Statement .clayer := ⟨rfl, rfl, rfl⟩
theorem dlayer : Statement .dlayer := ⟨rfl, rfl, rfl⟩
theorem flat6 : Statement .flat6 := ⟨rfl, rfl, rfl⟩
theorem flatu : Statement .flatu := ⟨rfl, rfl, rfl⟩
theorem flatc : Statement .flatc := ⟨rfl, rfl, rfl⟩
theorem ridpk : Statement .ridpk := ⟨rfl, rfl, rfl⟩
theorem ridunpk : Statement .ridunpk := ⟨rfl, rfl, rfl⟩
theorem comp : Statement .comp := ⟨rfl, rfl, rfl⟩
theorem decomp : Statement .decomp := ⟨rfl, rfl, rfl⟩
theorem plen : Statement .plen := ⟨rfl, rfl, rfl⟩
theorem pchk : Statement .pchk := ⟨rfl, rfl, rfl⟩

end Sys2Proof.Laws.RoundTrip
end

