-- ==== Sys2Proof/Laws/Step.lean ====
section
/-! SUPPORT. Everything one step can do, said once, and the canonical form of memory over it. -/

namespace Sys2Proof.Machine

/-! ## The step -/

theorem step_nil {s : State} (h : s.events = []) : step s = engineTurn s := by
  simp [step, stepOnce, h]

theorem step_cons {s : State} {e : Event} {rest : List Event} (h : s.events = e :: rest) :
    step s = doEvent e { s with events := rest } := by
  simp [step, stepOnce, h]

/-- What the engine's turn can do. -/
theorem engineTurn_cases {s t : State} (h : engineTurn s = .next t) :
    (s.fsm = .idle ∧ t = s) ∨
    (s.fsm = .busy ∧ ∃ i, decode s.snap.word = .ok i ∧ exec i s = .next t) ∨
    (s.fsm = .busy ∧ (∃ e, decode s.snap.word = .error e) ∧ t = s.completeError .illegalCmd) := by
  unfold engineTurn at h
  cases hf : s.fsm with
  | idle => rw [hf] at h; exact Or.inl ⟨rfl, by simpa using h.symm⟩
  | busy =>
    rw [hf] at h
    cases hd : decode s.snap.word with
    | ok i => rw [hd] at h; exact Or.inr (Or.inl ⟨rfl, i, rfl, h⟩)
    | error e => rw [hd] at h; exact Or.inr (Or.inr ⟨rfl, ⟨e, rfl⟩, by simpa using h.symm⟩)

/-- What a register write can do (10_state.md R29 to R31, R35, R36). -/
theorem writeRegister_cases (s : State) (o : Nat) (w : Word) :
    (regAt o = .cmd ∧ s.fsm = .idle ∧ writeRegister s o w = s.acceptIssue w) ∨
    (regAt o = .cmd ∧ s.fsm = .busy ∧ writeRegister s o w = s.dropIssue) ∨
    (∃ r, regAt o = .op r ∧ writeRegister s o w = { s with regs := s.regs.set w r }) ∨
    writeRegister s o w = s := by
  unfold writeRegister State.issue
  cases hr : regAt o with
  | cmd =>
    cases hf : s.fsm with
    | idle => exact Or.inl ⟨rfl, rfl, rfl⟩
    | busy => exact Or.inr (Or.inl ⟨rfl, rfl, rfl⟩)
  | op r => exact Or.inr (Or.inr (Or.inl ⟨r, rfl, rfl⟩))
  | status | result | result2 | id | version | unmapped => exact Or.inr (Or.inr (Or.inr rfl))

/-- What one event can do. -/
theorem doEvent_cases {e : Event} {s t : State} (h : doEvent e s = .next t) :
    (∃ a n w, e = .regWrite a n w ∧
      (t = s ∨ inWindow s a n = true ∧ accessOk s a n = true ∧ t = writeRegister s (a - s.params.regBase) w)) ∨
    (∃ a n, e = .regRead a n ∧ (t = s ∨ t = { s with readData := readRegister s (a - s.params.regBase) })) ∨
    (∃ a b, e = .memWrite a b ∧ a < s.params.memSize ∧
      t = { s with mem := s.mem.put a [b], raced := if s.fsm = .busy then (a, s.mem.get a) :: s.raced else s.raced }) ∨
    (∃ a, e = .memRead a ∧ a < s.params.memSize ∧
      t = { s with readData := t.readData, freeIdx := t.freeIdx }) ∨
    (e = .reset ∧ t = s.hostReset) ∨
    (e = .engine ∧ engineTurn s = .next t) := by
  cases e with
  | regWrite a n w =>
    refine Or.inl ⟨a, n, w, rfl, ?_⟩
    simp only [doEvent, hostRegWrite] at h
    split at h
    · split at h
      · exact Or.inr ⟨‹_›, ‹_›, by simpa using h.symm⟩
      · cases h
    · exact Or.inl (by simpa using h.symm)
  | regRead a n =>
    refine Or.inr (Or.inl ⟨a, n, rfl, ?_⟩)
    simp only [doEvent, hostRegRead] at h
    split at h
    · split at h
      · exact Or.inr (by simpa using h.symm)
      · cases h
    · exact Or.inl (by simpa using h.symm)
  | memWrite a b =>
    refine Or.inr (Or.inr (Or.inl ⟨a, b, rfl, ?_⟩))
    simp only [doEvent, hostMemWrite] at h
    split at h
    · refine ⟨‹_›, ?_⟩
      cases hf : s.fsm <;> rw [hf] at h <;> simpa using h.symm
    · cases h
  | memRead a =>
    refine Or.inr (Or.inr (Or.inr (Or.inl ⟨a, rfl, ?_⟩)))
    simp only [doEvent, hostMemRead] at h
    split at h
    · refine ⟨‹_›, ?_⟩
      split at h <;> cases h <;> rfl
    · cases h
  | reset => exact Or.inr (Or.inr (Or.inr (Or.inr (Or.inl ⟨rfl, by simpa [doEvent] using h.symm⟩))))
  | engine => exact Or.inr (Or.inr (Or.inr (Or.inr (Or.inr ⟨rfl, h⟩))))

/-! ## The canonical form of memory -/

/-- Reset memory has the canonical form. -/
theorem reset_wf : State.reset.mem.wf = true := Memory.wf_empty

/-- Every command keeps the canonical form. -/
theorem perform_wf {c : Command} {s t : State} (hw : s.mem.wf = true) (h : perform c s = .next t) :
    t.mem.wf = true := by
  rcases perform_cases c s with ⟨e, -, -, hp⟩ | ⟨e, -, -, hp⟩ | ⟨e, -, hp⟩ | ⟨-, hp⟩ | ⟨-, hp⟩ <;> rw [hp] at h
  · cases h; exact wf_storeAll _ (State.clobber_wf _ _ hw)
  · cases h; exact State.clobber_wf _ _ hw
  · cases h; exact State.clobber_wf _ _ hw
  · rcases performRaced_cases c s with ⟨_, _, _, _, -, -, -, -, hr⟩ | hr <;> rw [hr] at h <;> cases h
    exact State.clobber_wf _ _ hw
  · cases h

theorem exec_wf {i : Instr} {s t : State} (hw : s.mem.wf = true) (h : exec i s = .next t) : t.mem.wf = true :=
  perform_wf hw (by rw [← exec_eq_perform]; exact h)

end Sys2Proof.Machine
end

