-- ==== Sys2Proof/Tests/Slice0.lean ====
section
/-! SUPPORT. The model's own tests. The expected results of the vectors are those of 95_test_vectors.md, those of the
decodings the opcode map of 30_encoding.md R73 with the word of R70. A `witness_` theorem shows a concrete state and
operands that meet the hypotheses of the statement it is named after, one part for each clause. -/

namespace Sys2Proof.Tests

open Sys2Proof Sys2Proof.Machine

set_option Elab.async false

/-! ## Helpers -/

/-- Memory from (address, byte count, big-endian value) triples. -/
def memOf : List (Nat × Nat × Nat) → Memory
  | [] => Memory.empty
  | (a, n, v) :: rest => (memOf rest).put a (bytesBE n v)

/-- A register value. -/
def w (n : Nat) : Word := BitVec.ofNat 32 n

/-- A running command on a snapshot and a memory, all else as after reset. -/
def running (r : Regs) (m : List (Nat × Nat × Nat)) : State :=
  { State.reset with fsm := .busy, status := 0x1#32, snap := ⟨0#32, r⟩, mem := memOf m }

/-- Bit operands: A, A_POS, B, B_POS, D, D_POS, LEN. -/
def bits (a ap b bp d dp len : Nat) : Regs :=
  { Regs.zero with
    aAddr := w a, aPos := w ap, bAddr := w b, bPos := w bp, dAddr := w d, dPos := w dp, len := w len }

/-- The layout of 95_test_vectors.md 3.3 and 3.4: input at 0x100, descriptor at 0x200, output at 0x400, node
address 2001:db8::1. -/
def field (len cap : Nat) : Regs :=
  { Regs.zero with
    aAddr := w 0x100, bAddr := w 0x200, dAddr := w 0x400, len := w len, outCap := w cap,
    node0 := w 0x20010DB8, node3 := w 1 }

/-- What a completion leaves: STATUS, RESULT, RESULT2 and `n` bytes of memory at `a`. -/
def seen (a n : Nat) : Host.Outcome State Fault Refusal → Option (Nat × Nat × Nat × Nat)
  | .next t => some (t.status.toNat, t.result.toNat, t.result2.toNat, be (t.mem.read a n))
  | .fault _ => none
  | .refused _ => none

/-- Whether an outcome is a next state with a property. -/
def nextWith (p : State → Bool) : Host.Outcome State Fault Refusal → Bool
  | .next t => p t
  | .fault _ => false
  | .refused _ => false

/-- The refusal of an outcome. -/
def refusalOf : Host.Outcome State Fault Refusal → Option Refusal
  | .next _ => none
  | .fault _ => none
  | .refused f => some f

/-- The registers of the worked scenario (95_test_vectors.md S2). -/
def worked : Regs :=
  { Regs.zero with
    dir := w 1, devId := w 1, devtabAddr := w 0x1000, devtabN := w 1, ctxAddr := w 0x8000, ctxSize := w 0x400,
    node0 := w 0x20010DB8, node3 := w 1 }

/-- Small tables: of the worked scenario (95_test_vectors.md S2) only the UDP rule, at its address 0x2200, with its
targets and a device record that lists it alone. -/
def tables : List (Nat × Nat × Nat) :=
  [(0x1000, 19, 0x00000001000000000000110000000000000100), (0x1100, 4, 0x00002200), (0x301E, 4, 0x16301633)]

/-- The UDP rule (S2). -/
def udpRule : List (Nat × Nat × Nat) :=
  [(0x2200, 8, 0x0101000400040004), (0x2208, 16, 0x001103020010000c030000020000301e),
   (0x2218, 16, 0x00120300001000000000000200003020), (0x2228, 16, 0x00130301001000000400000000000000),
   (0x2238, 16, 0x00140301001000000500000000000000)]

/-- The worked packet (S1), at 0x4000. -/
def workedPacket : List (Nat × Nat × Nat) :=
  [(0x4000, 48,
    0x60000000001D114020010DB800000000000000000000000120010DB800000000000000000000000216331633001D7B2D),
   (0x4030, 21, 0x4401123421FA01FBB57573616765FF68656C6C6F21)]

/-- The columns of the worked UDP header (vector FU-1), as `FLATU` leaves them at 0x8000. -/
def udpColumns : List (Nat × Nat × Nat) :=
  [(0x8000, 24, 0x00040000000000300011000200008028001200020000802A),
   (0x8018, 24, 0x001300020000802C001400020000802E16331633001D7B2D)]

/-- A packet of the worked addresses and ports with two data bytes: its length fields by R256, its checksum by R257. -/
def smallPacket : Nat := 0x60000000000A114020010DB800000000000000000000000120010DB800000000000000000000000216331633000A0F966869

/-- That packet compressed with the small tables: rule id 4 (UDP rule 1), the IPv6 header verbatim, the UDP residue,
the two data bytes. -/
def smallCompressed : Nat := 0x0460000000000A114020010DB800000000000000000000000120010DB8000000000000000000000002036869

/-! ## Decoding (30_encoding.md R70, R73, R75) -/

/-- R73 -/
theorem test_decode_bitbuf :
    [0x00000010#32, 0x00000011#32, 0x00000012#32, 0x00000013#32, 0x00000014#32, 0x00000015#32, 0x00000016#32, 0x00000017#32, 0x00000018#32].map decode =
    [.ok .getb, .ok .setb, .ok .clrb, .ok .cpyb, .ok .cmpb, .ok .shlb, .ok .shrb, .ok .xorb, .ok .andb] := by decide +kernel

/-- R73 -/
theorem test_decode_predicates :
    [0x00000020#32, 0x00000021#32, 0x00000022#32, 0x00000023#32, 0x00000024#32].map decode =
    [.ok .meq, .ok .mign, .ok .mmsb, .ok .mmap, .ok .mdisp] := by decide +kernel

/-- R73 -/
theorem test_decode_compress :
    [0x00000030#32, 0x00000031#32, 0x00000032#32, 0x00000033#32, 0x00000034#32, 0x00000035#32, 0x00000036#32, 0x00000037#32].map decode =
    [.ok .cOmit, .ok .cVal, .ok .cMap, .ok .cLsb, .ok .cDlen, .ok .cDchk, .ok .cDeviid, .ok .cAppiid] := by decide +kernel

/-- R73 -/
theorem test_decode_decompress :
    [0x00000040#32, 0x00000041#32, 0x00000042#32, 0x00000043#32, 0x00000044#32, 0x00000045#32, 0x00000046#32, 0x00000047#32].map decode =
    [.ok .dOmit, .ok .dVal, .ok .dMap, .ok .dLsb, .ok .dDlen, .ok .dDchk, .ok .dDeviid, .ok .dAppiid] := by decide +kernel

/-- R73 -/
theorem test_decode_layers :
    [0x00000050#32, 0x00000051#32, 0x00000052#32, 0x00000058#32, 0x00000059#32, 0x0000005A#32].map decode =
    [.ok .rsel, .ok .clayer, .ok .dlayer, .ok .flat6, .ok .flatu, .ok .flatc] := by decide +kernel

/-- R73 -/
theorem test_decode_pipeline :
    [0x00000060#32, 0x00000061#32, 0x00000062#32, 0x00000063#32, 0x00000064#32, 0x00000065#32].map decode =
    [.ok .ridpk, .ok .ridunpk, .ok .comp, .ok .decomp, .ok .plen, .ok .pchk] := by decide +kernel

/-- R75; vectors W-1, W-3 -/
theorem test_decode_refuses_reserved :
    [0x00000000#32, 0x0000000F#32, 0x00000019#32, 0x0000005B#32, 0x00000066#32, 0x000000FF#32].map decode =
    List.replicate 6 (.error .reservedOpcode) := by decide +kernel

/-- R70; vector W-2 -/
theorem test_decode_refuses_zero_field :
    [0x00000110#32, 0x80000010#32].map decode = List.replicate 2 (.error .zeroFieldSet) := by decide +kernel

/-- R70 -/
theorem test_decodeTableWord_uses_nbits :
    decodeTableWord 32 0x65 = some .pchk ∧ decodeTableWord 8 0x165 = some .pchk ∧ decodeTableWord 32 0x165 = none := by decide +kernel

/-! ## WellFormed refuses the ill-formed -/

theorem smoke_word_reserved_opcode : wordWellFormed 0x00000025#32 = false := by decide +kernel

theorem smoke_word_zero_field : wordWellFormed 0x00010010#32 = false := by decide +kernel

theorem smoke_params_no_memory :
    ({ Config.defaultParams with memSize := 0 } : Params).wellFormed = false := by decide +kernel

theorem smoke_params_too_much_memory :
    ({ Config.defaultParams with memSize := 2 ^ 32 + 1 } : Params).wellFormed = false := by decide +kernel

theorem smoke_access_size : accessWellFormed 0x10 2 = false := by decide +kernel

theorem smoke_access_alignment : accessWellFormed 0x12 4 = false := by decide +kernel

/-- R72: a command has no field that could be ill-formed -/
theorem smoke_instr_has_no_ill_formed_term :
    [Instr.getb, .comp, .pchk].all Instr.wellFormed = true := by decide +kernel

/-! ## Bit-buffer primitives (vectors of 95_test_vectors.md 3.1) -/

/-- B-GET-1 -/
theorem test_getb :
    seen 0x100 2 (exec .getb (running (bits 0x100 2 0 0 0 0 10) [(0x100, 2, 0x1FC0)])) = some (0x2, 0x1FC, 0, 0x1FC0) := by decide +kernel

/-- B-GET-3 -/
theorem test_getb_over_limit :
    seen 0x100 0 (exec .getb (running (bits 0x100 4 0 0 0 0 33) [(0x100, 5, 0xA55AFF0012)])) = some (0x306, 0xFFFFFFFF, 0, 0) := by decide +kernel

/-- B-SET-1 -/
theorem test_setb :
    seen 0x100 2 (exec .setb (running (bits 0 0 0 0 0x100 3 7) [])) = some (0x2, 0, 0, 0x1FC0) := by decide +kernel

/-- B-CLR-1 -/
theorem test_clrb :
    seen 0x100 2 (exec .clrb (running (bits 0 0 0 0 0x100 5 6) [(0x100, 2, 0xFFFF)])) = some (0x2, 0, 0, 0xF81F) := by decide +kernel

/-- B-CPY-2 -/
theorem test_cpyb_accumulates :
    seen 0x100 2 (exec .cpyb (running (bits 0x200 0 0 0 0x100 0 8) [(0x200, 1, 0xB6), (0x100, 2, 0x0F00)])) = some (0x2, 0, 0, 0xBF00) := by decide +kernel

/-- B-CPY-3 -/
theorem test_cpyb_cascades :
    seen 0x100 2 (exec .cpyb (running (bits 0x100 0 0 0 0x100 1 9) [(0x100, 2, 0x8000)])) = some (0x2, 0, 0, 0xFFC0) := by decide +kernel

/-- B-CMP-1 -/
theorem test_cmpb_equal :
    seen 0x100 0 (exec .cmpb (running (bits 0x100 0 0x200 4 0 0 16) [(0x100, 2, 0xABCD), (0x200, 3, 0x0ABCD0)])) = some (0x2, 1, 0, 0) := by decide +kernel

/-- B-CMP-2 -/
theorem test_cmpb_unequal :
    seen 0x100 0 (exec .cmpb (running (bits 0x100 0 0x200 3 0 0 16) [(0x100, 2, 0xABCD), (0x200, 3, 0x0ABCD0)])) = some (0x2, 0, 0, 0) := by decide +kernel

/-- B-SHL-1 -/
theorem test_shlb :
    seen 0x100 4 (exec .shlb (running { bits 0 0 0 0 0x100 0 3 with aux := w 4 } [(0x100, 4, 0x12345677)])) = some (0x2, 0, 0, 0x23456077) := by decide +kernel

/-- B-SHR-2 -/
theorem test_shrb :
    seen 0x100 3 (exec .shrb (running { bits 0 0 0 0 0x100 0 3 with aux := w 9 } [(0x100, 3, 0x123456)])) = some (0x2, 0, 0, 0x00091A) := by decide +kernel

/-- B-XOR-3 -/
theorem test_xorb :
    seen 0x300 2 (exec .xorb (running (bits 0x100 4 0x200 0 0x300 6 4) [(0x100, 1, 0x0F), (0x200, 1, 0xA0)])) = some (0x2, 0, 0, 0x0140) := by decide +kernel

/-- B-AND-2 -/
theorem test_andb :
    seen 0x300 2 (exec .andb (running (bits 0x100 0 0x200 0 0x300 0 16)
      [(0x100, 2, 0xFF00), (0x200, 2, 0xF0F0), (0x300, 2, 0x0F00)])) = some (0x2, 0, 0, 0xFF00) := by decide +kernel

/-! ## Predicates (3.3): descriptor at 0x200, target at 0x300, column at 0x100 -/

/-- P-EQ-1 -/
theorem test_meq_match :
    seen 0x400 0 (exec .meq (running (field 2 16)
      [(0x200, 16, 0x00120300001000000100000200000300), (0x300, 2, 0x1633), (0x100, 2, 0x1633)])) = some (0x2, 1, 0, 0) := by decide +kernel

/-- P-EQ-3 -/
theorem test_meq_short_column :
    seen 0x400 0 (exec .meq (running (field 1 16)
      [(0x200, 16, 0x00120300001000000100000200000300), (0x300, 2, 0x1633), (0x100, 1, 0x16)])) = some (0x2, 0, 0, 0) := by decide +kernel

/-- P-IGN-1 -/
theorem test_mign :
    seen 0x400 0 (exec .mign (running (field 1 16)
      [(0x200, 16, 0x00120301001000000100000000000300), (0x100, 1, 0xAB)])) = some (0x2, 1, 0, 0) := by decide +kernel

/-- P-MSB-5 -/
theorem test_mmsb_top_bits :
    seen 0x400 0 (exec .mmsb (running (field 1 16)
      [(0x200, 16, 0x00210302000400020300000100000300), (0x300, 1, 0x0B), (0x100, 1, 0x0A)])) = some (0x2, 1, 0, 0) := by decide +kernel

/-- P-MSB-2 -/
theorem test_mmsb_differs :
    seen 0x400 0 (exec .mmsb (running (field 2 16)
      [(0x200, 16, 0x001103020010000C0300000200000300), (0x300, 2, 0x1630), (0x100, 2, 0x1643)])) = some (0x2, 0, 0, 0) := by decide +kernel

/-- P-MAP-5 -/
theorem test_mmap_smallest_index :
    seen 0x400 0 (exec .mmap (running (field 2 16)
      [(0x200, 16, 0x010B0303001000030201000700000300), (0x300, 7, 0x02616200026162), (0x100, 2, 0x6162)])) = some (0x2, 1, 0, 0) := by decide +kernel

/-- P-MAP-3 -/
theorem test_mmap_second :
    seen 0x400 0 (exec .mmap (running (field 5 16)
      [(0x200, 16, 0x010B0303002800020201000B00000300), (0x300, 11, 0x0474656D70057573616765), (0x100, 5, 0x7573616765)])) = some (0x2, 1, 1, 0) := by decide +kernel

/-- P-DISP-1 -/
theorem test_mdisp :
    seen 0x400 0 (exec .mdisp (running (field 2 16)
      [(0x200, 16, 0x001103020010000C0300000200000300), (0x300, 2, 0x1630), (0x100, 2, 0x1633)])) = some (0x2, 1, 0, 0) := by decide +kernel

/-! ## Compression actions (3.4) -/

/-- C-OMIT-1 -/
theorem test_cOmit :
    seen 0x400 1 (exec .cOmit (running (field 1 16)
      [(0x200, 16, 0x00010300000400000000000100000300), (0x300, 1, 0x06), (0x100, 1, 0x06)])) = some (0x2, 0, 0, 0) := by decide +kernel

/-- C-VAL-1 -/
theorem test_cVal :
    seen 0x400 2 (exec .cVal (running (field 2 16)
      [(0x200, 16, 0x00250301001000000100000000000300), (0x100, 2, 0x1234)])) = some (0x2, 2, 0, 0x1234) := by decide +kernel

/-- C-VAL-3 -/
theorem test_cVal_capacity :
    seen 0x400 2 (exec .cVal (running (field 2 1)
      [(0x200, 16, 0x00250301001000000100000000000300), (0x100, 2, 0x1234)])) = some (0x606, 0xFFFFFFFF, 0, 0) := by decide +kernel

/-- C-MAP-1 -/
theorem test_cMap :
    seen 0x400 1 (exec .cMap (running (field 1 16)
      [(0x200, 16, 0x00220303000200020200000200000300), (0x300, 2, 0x0001), (0x100, 1, 0x01)])) = some (0x2, 1, 0, 0x01) := by decide +kernel

/-- C-LSB-6 -/
theorem test_cLsb :
    seen 0x400 3 (exec .cLsb (running (field 3 16)
      [(0x200, 16, 0x00030302001400060300000300000300), (0x300, 3, 0x0F0000), (0x100, 3, 0x0FABCD)])) = some (0x2, 2, 0, 0x2BCD00) := by decide +kernel

/-- C-DLEN-1 -/
theorem test_cDlen :
    seen 0x400 0 (exec .cDlen (running (field 2 16)
      [(0x200, 16, 0x00040301001000000400000000000300), (0x100, 2, 0x001D)])) = some (0x2, 0, 0, 0) := by decide +kernel

/-- C-DCHK-1 -/
theorem test_cDchk :
    seen 0x400 0 (exec .cDchk (running (field 2 16)
      [(0x200, 16, 0x00140301001000000500000000000300), (0x100, 2, 0x7B2D)])) = some (0x2, 0, 0, 0) := by decide +kernel

/-- C-IID-1 -/
theorem test_cDeviid :
    seen 0x400 0 (exec .cDeviid (running (field 8 16)
      [(0x200, 16, 0x00080301004000000600000000000300), (0x100, 8, 0x0000000000000001)])) = some (0x2, 0, 0, 0) := by decide +kernel

/-- C-IID-2 -/
theorem test_cDeviid_other :
    seen 0x400 0 (exec .cDeviid (running (field 8 16)
      [(0x200, 16, 0x00080301004000000600000000000300), (0x100, 8, 0x0000000000000002)])) = some (0xB06, 0xFFFFFFFF, 0, 0) := by decide +kernel

/-- C-APP-1 -/
theorem test_cAppiid :
    seen 0x400 0 (exec .cAppiid (running (field 8 16)
      [(0x200, 16, 0x000A0301004000000700000000000300), (0x100, 8, 0x0000000000000000)])) = some (0xC06, 0xFFFFFFFF, 0, 0) := by decide +kernel

/-! ## Decompression actions (3.5) -/

/-- D-OMIT-1 -/
theorem test_dOmit :
    seen 0x400 1 (exec .dOmit (running (field 0 16)
      [(0x200, 16, 0x00010300000400000000000100000300), (0x300, 1, 0x06)])) = some (0x2, 0, 1, 0x06) := by decide +kernel

/-- D-VAL-1 -/
theorem test_dVal :
    seen 0x400 3 (exec .dVal (running (field 3 16)
      [(0x200, 16, 0x00250301001000000100000000000300), (0x100, 3, 0x123456)])) = some (0x2, 2, 2, 0x123400) := by decide +kernel

/-- D-MAP-1 -/
theorem test_dMap :
    seen 0x400 5 (exec .dMap (running (field 2 16)
      [(0x200, 16, 0x010B0303002800020201000B00000300), (0x300, 11, 0x0474656D70057573616765), (0x100, 2, 0x0109)])) = some (0x2, 1, 5, 0x7573616765) := by decide +kernel

/-- D-MAP-2 -/
theorem test_dMap_index_range :
    seen 0x400 0 (exec .dMap (running (field 1 16)
      [(0x200, 16, 0x010B0303002800020201000B00000300), (0x300, 11, 0x0474656D70057573616765), (0x100, 1, 0x02)])) = some (0xD06, 0xFFFFFFFF, 0, 0) := by decide +kernel

/-- D-LSB-2 -/
theorem test_dLsb_stray_bits :
    seen 0x400 2 (exec .dLsb (running (field 1 16)
      [(0x200, 16, 0x001103020010000C0300000200000300), (0x300, 2, 0x163F), (0x100, 1, 0xF3)])) = some (0x2, 1, 2, 0x1633) := by decide +kernel

/-- D-LSB-5 -/
theorem test_dLsb_straddle :
    seen 0x400 3 (exec .dLsb (running (field 3 16)
      [(0x200, 16, 0x00030302001400060300000300000300), (0x300, 3, 0x0F0000), (0x100, 3, 0xFFABCD)])) = some (0x2, 2, 3, 0x0F3FAB) := by decide +kernel

/-- D-DLEN-1 -/
theorem test_dDlen :
    seen 0x400 0 (exec .dDlen (running (field 0 16)
      [(0x200, 16, 0x00040301001000000400000000000300)])) = some (0x2, 0, 2, 0) := by decide +kernel

/-- D-DCHK-1 -/
theorem test_dDchk :
    seen 0x400 0 (exec .dDchk (running (field 0 16)
      [(0x200, 16, 0x00140301001000000500000000000300)])) = some (0x2, 0, 2, 0) := by decide +kernel

/-- D-IID-1 -/
theorem test_dDeviid :
    seen 0x400 8 (exec .dDeviid (running (field 0 16)
      [(0x200, 16, 0x00080301004000000600000000000300)])) = some (0x2, 0, 8, 0x0000000000000001) := by decide +kernel

/-- D-APP-1 -/
theorem test_dAppiid :
    seen 0x400 0 (exec .dAppiid (running (field 0 16)
      [(0x200, 16, 0x000A0301004000000700000000000300)])) = some (0xC06, 0xFFFFFFFF, 0, 0) := by decide +kernel

/-! ## Layers, flatteners and the pipeline (Part 2, 3.6) -/

/-- L-1 -/
theorem test_rsel :
    seen 0 0 (exec .rsel (running { worked with aux := w 1 } (udpColumns ++ tables ++ udpRule))) = some (0x2, 1, 0x2200, 0) := by decide +kernel

/-- L-10 -/
theorem test_rsel_direction :
    seen 0 0 (exec .rsel (running { worked with aux := w 2, dir := w 0 } [])) = some (0x306, 0xFFFFFFFF, 0, 0) := by decide +kernel

/-- L-2 -/
theorem test_clayer :
    seen 0x5000 1 (exec .clayer (running { worked with aux := w 1, bAddr := w 0x2200, dAddr := w 0x5000, outCap := w 16 }
      (udpColumns ++ tables ++ udpRule))) = some (0x2, 1, 0, 0x03) := by decide +kernel

/-- L-12 -/
theorem test_dlayer :
    seen 0x5200 8 (exec .dlayer (running
      { worked with
        aux := w 1, bAddr := w 0x2200, aAddr := w 0x5100, len := w 1, dAddr := w 0x5200, outCap := w 16 }
      ((0x5100, 1, 0x03) :: (tables ++ udpRule)))) = some (0x2, 1, 8, 0x1633163300000000) := by decide +kernel

/-- F6-1 -/
theorem test_flat6 :
    seen 0x8058 9 (exec .flat6 (running { worked with aAddr := w 0x4000 } workedPacket)) = some (0x2, 0xA, 0x81, 0x0600000000001D1140) := by decide +kernel

/-- FU-1 -/
theorem test_flatu :
    seen 0x8018 24 (exec .flatu (running { worked with aAddr := w 0x4028 } workedPacket)) = some (0x2, 4, 0x30, 0x001300020000802C001400020000802E16331633001D7B2D) := by decide +kernel

/-- FC-1: eight columns, their values from 0x8048 -/
theorem test_flatc :
    seen 0x8048 15 (exec .flatc (running { worked with aAddr := w 0x4030, len := w 21 } workedPacket)) = some (0x2, 8, 0xF, 0x01000401123421FA01FB7573616765) := by decide +kernel

/-- R250 -/
theorem test_ridpk :
    seen 0 0 (exec .ridpk (running { Regs.zero with aux := w 0x01070303 } [])) = some (0x2, 0xFF, 0, 0) := by decide +kernel

/-- R251 -/
theorem test_ridunpk :
    seen 0 0 (exec .ridunpk (running { Regs.zero with aux := w 0x15 } [])) = some (0x2, 0x00010101, 0, 0) := by decide +kernel

/-- R252 -/
theorem test_comp :
    seen 0x5000 44 (exec .comp (running
      { worked with aAddr := w 0x4000, len := w 50, dAddr := w 0x5000, outCap := w 44, ctxSize := w 129 }
      ((0x4000, 50, smallPacket) :: (tables ++ udpRule)))) = some (0x2, 44, 4, smallCompressed) := by decide +kernel

/-- R255 -/
theorem test_decomp :
    seen 0x6000 50 (exec .decomp (running
      { worked with aAddr := w 0x7000, len := w 44, dAddr := w 0x6000, outCap := w 50, ctxSize := w 56 }
      ((0x7000, 44, smallCompressed) :: (tables ++ udpRule)))) = some (0x2, 50, 4, smallPacket) := by decide +kernel

/-- PL-1 -/
theorem test_plen :
    seen 0x4000 8 (exec .plen (running { Regs.zero with aAddr := w 0x4000, len := w 69 }
      ((0x4004, 2, 0) :: (0x402C, 2, 0) :: workedPacket))) = some (0x2, 3, 0, 0x60000000001D1140) := by decide +kernel

/-- PC-1 -/
theorem test_pchk :
    seen 0x4028 8 (exec .pchk (running { Regs.zero with aAddr := w 0x4000, len := w 69 }
      ((0x402E, 2, 0) :: workedPacket))) = some (0x2, 1, 0x7B2D, 0x16331633001D7B2D) := by decide +kernel

/-! ## The host's side (3.2) -/

/-- W-7 -/
theorem test_issue_then_drop :
    nextWith (fun t => t.status == 0x1#32 && t.fsm == .busy && t.snap.word == 0x10#32)
      (step { State.reset with events := [.regWrite 0 4 0x10#32] }) = true ∧
    nextWith (fun t => t.status == 0x9#32 && t.snap.word == 0#32)
      (step { running Regs.zero [] with events := [.regWrite 0 4 0x11#32] }) = true := by decide +kernel

/-- W-9 -/
theorem test_snapshot_is_kept :
    nextWith (fun t => t.snap.regs.len == 4#32 && t.regs.len == 8#32)
      (step { running (bits 0 0 0 0 0 0 4) [] with events := [.regWrite 0x28 4 8#32] }) = true := by decide +kernel

/-- W-10 -/
theorem test_status_write_ignored :
    nextWith (fun t => t.status == 0x2#32)
      (step { State.reset with status := 0x2#32, events := [.regWrite 4 4 0xFFFFFFFF#32] }) = true := by decide +kernel

/-- R251 with AUX = 0 -/
theorem test_step_runs_word :
    seen 0x100 2 (step ((running Regs.zero []).withFetchWord 32 0x61)) = some (0x2, 0, 0, 0) := by decide +kernel

/-! ## Witnesses: the hypotheses of each statement are met, clause by clause

A variable that a hypothesis only names (`s.snap.regs = r`, `x = …`) is replaced by what it names. -/

/-- Whether an outcome is a refusal. -/
def isRefusal (o : Host.Outcome State Fault Refusal) : Bool := (refusalOf o).isSome

/-- The state with events to come. -/
def hostDoes (es : List Event) (s : State) : State := { s with events := es }

/-- The state with another memory size. -/
def sized (n : Nat) (s : State) : State := { s with params := { s.params with memSize := n } }

/-- A running illegal word. -/
def illegalWord (n : Nat) : State := { running Regs.zero [] with snap := ⟨w n, Regs.zero⟩ }

/-- The worked UDP rule (95_test_vectors.md S2). -/
def udpFields : List Desc :=
  [⟨0x11, .bi, .msb, 16, 12, .sendLsb, .single, 2, 0x301E⟩, ⟨0x12, .bi, .equal, 16, 0, .omit, .single, 2, 0x3020⟩,
   ⟨0x13, .bi, .ignore, 16, 0, .deferLength, .single, 0, 0⟩, ⟨0x14, .bi, .ignore, 16, 0, .deferChecksum, .single, 0, 0⟩]

/-- The columns of `udpColumns`. -/
def udpCols : List Col :=
  [⟨0x11, [0x16#8, 0x33#8]⟩, ⟨0x12, [0x16#8, 0x33#8]⟩, ⟨0x13, [0x00#8, 0x1D#8]⟩, ⟨0x14, [0x7B#8, 0x2D#8]⟩]

/-- A descriptor as 16 bytes at `a` (30_encoding.md R84). -/
def descImage (a : Nat) (d : Desc) : Nat × Nat × Nat :=
  (a, 16, d.fid * 2 ^ 112 + d.dir.code * 2 ^ 104 + d.mo.code * 2 ^ 96 + d.bits * 2 ^ 80 + d.par * 2 ^ 64 +
    d.cda.code * 2 ^ 56 + d.form.code * 2 ^ 48 + d.tlen * 2 ^ 32 + d.taddr)

/-- A running command with the descriptor `d` at 0x200 and `len` input bytes at 0x100. -/
def onField (d : Desc) (len cap : Nat) (m : List (Nat × Nat × Nat)) : State :=
  running (field len cap) (descImage 0x200 d :: m)

/-- The hypotheses that the statements about predicates and actions share. -/
def fieldHyps (i : Instr) (s : State) (d : Desc) (c : Bytes) : Bool :=
  decide (Undisturbed s) && descAt (viewOf i s) s.snap.regs.bAddr.toNat d && inputIs (viewOf i s) s.snap.regs c

/-- A 16-bit field with a two-byte target at 0x300. -/
def d16 (mo : Mo) (par : Nat) (cda : Cda) : Desc := ⟨0x11, .bi, mo, 16, par, cda, .single, 2, 0x300⟩

/-- A field with the candidates 61 and 62 at 0x300. -/
def dMap2 (cda : Cda) : Desc := ⟨0x10B, .bi, .map, 8, 2, cda, .single, 2, 0x300⟩

theorem witness_StepKeepsLegal :
    Legal (hostDoes [.regWrite 0 4 0x10#32] State.reset) ∧
    nextWith (fun t => t.fsm == .busy) (step (hostDoes [.regWrite 0 4 0x10#32] State.reset)) = true ∧
    Legal (illegalWord 0x19) ∧ nextWith (fun t => t.fsm == .idle) (step (illegalWord 0x19)) = true := by
  decide +kernel

theorem witness_IllegalWordCompletes :
    ∀ n ∈ [256, 0xFFFFFFFF, 0, 0x0F, 0x19, 0x1F, 0x25, 0x2F, 0x38, 0x3F, 0x48, 0x4F, 0x53, 0x57, 0x5B, 0x5F, 0x66,
        0xFF],
      (illegalWord n).events = [] ∧ (illegalWord n).fsm = .busy ∧ (illegalWord n).snap.word.toNat = n := by
  decide +kernel

theorem witness_StepRunsIssuedCommand :
    (running Regs.zero []).fsm = .busy ∧ decode ({ running Regs.zero [] with snap := ⟨0x65#32, Regs.zero⟩ }).snap.word =
      .ok .pchk ∧ (hostDoes [.engine] (running Regs.zero [])).events = [.engine] := by
  decide +kernel

theorem witness_FsmTransitions :
    State.reset.fsm = .idle ∧ State.reset.events = [] ∧
    nextWith (fun t => t.fsm == .busy) (step (hostDoes [.regWrite 0 4 0x10#32] State.reset)) = true ∧
    nextWith (fun t => t.fsm == .idle) (step (illegalWord 0x19)) = true ∧
    nextWith (fun t => t.fsm == .idle) (step (hostDoes [.reset] (illegalWord 0x19))) = true := by
  decide +kernel

theorem witness_IssueAcceptedOrDropped :
    (hostDoes [.regWrite 0 4 0x10#32] State.reset).fsm = .idle ∧
    (hostDoes [.regWrite 0 4 0x10#32] (running Regs.zero [])).fsm = .busy ∧
    (hostDoes [.regWrite 0 4 0x10#32] (running Regs.zero [])).params.regBase = 0 ∧
    nextWith (fun t => t.fsm == .idle) (step { illegalWord 0x19 with status := 0x9#32 }) = true ∧
    (0x9#32 : Word).getLsbD 3 = true := by
  decide +kernel

theorem witness_OperandRegisters :
    (hostDoes [.regWrite 0x10 4 1#32] (running Regs.zero [])).events =
      [.regWrite (State.reset.params.regBase + OpReg.aAddr.offset) 4 1#32] ∧
    (hostDoes [.regRead 0x58 4] State.reset).events =
      [.regRead (State.reset.params.regBase + OpReg.node3.offset) 4] ∧
    nextWith (fun _ => true) (exec .getb (running Regs.zero [])) = true ∧
    isRefusal (exec .comp (running { worked with dAddr := w 0x8000, outCap := w 1 } [])) = true := by
  decide +kernel

theorem witness_FixedRegisters :
    (∀ o ∈ [0x04, 0x08, 0x0C, 0x5C, 0x60, 0xFC],
      (hostDoes [.regWrite o 4 1#32] State.reset).events = [.regWrite (State.reset.params.regBase + o) 4 1#32]) ∧
    (∀ o ∈ [0x00, 0x04, 0x08, 0x0C, 0x5C, 0x60, 0x64, 0xFC],
      (hostDoes [.regRead o 4] State.reset).events = [.regRead (State.reset.params.regBase + o) 4]) := by
  decide +kernel

theorem witness_AccessShapeRefused :
    ∀ an ∈ [(0x10FF, 1), (0x0FFF, 4), (0x1002, 4), (0x1000, 2)],
      an.1 < 0x1000 + 256 ∧ 0x1000 < an.1 + an.2 ∧ (an.2 ≠ 4 ∨ an.1 < 0x1000 ∨ (an.1 - 0x1000) % 4 ≠ 0) ∧
      ({ State.reset with params := { State.reset.params with regBase := 0x1000 } }).params.regBase = 0x1000 := by
  decide +kernel

theorem witness_ResultRegistersKept :
    nextWith (fun t => t.result != 0#32) (step (illegalWord 0x19)) = true ∧
    nextWith (fun t => t.result != 5#32) (step (hostDoes [.reset] { State.reset with result := 5#32 })) = true ∧
    Undisturbed (running (bits 0 0 0 0 0 0 33) []) ∧
    nextWith (fun t => statusErr t.status) (exec .getb (running (bits 0 0 0 0 0 0 33) [])) = true := by
  decide +kernel

theorem witness_HostMemoryAccess :
    (hostDoes [.memWrite 0xFFFF 1#8] State.reset).fsm = .idle ∧
    (hostDoes [.memWrite 0xFFFF 1#8] (running Regs.zero [])).fsm = .busy ∧ 0xFFFF < State.reset.params.memSize ∧
    (hostDoes [.memRead 0xFFFF] State.reset).events = [.memRead 0xFFFF] ∧ State.reset.params.memSize ≤ 0x10000 := by
  decide +kernel

/-- A running `SETB` of 8 bits at 0x100, with a reset to come. -/
def abandoned : State :=
  hostDoes [.reset] { running (bits 0 0 0 0 0x100 0 8) [] with snap := ⟨0x11#32, bits 0 0 0 0 0x100 0 8⟩ }

/-- A running `C_OMIT` that may write the 4 bytes at 0x400 and writes none of them. -/
def omitting : State := { onField (d16 .equal 0 .omit) 2 4 [] with snap := ⟨0x30#32, field 2 4⟩ }

/-- Reads while BUSY: an illegal word; bytes that the command may not write, writes, and may write but does not. -/
theorem witness_HostMemoryAccess_busy :
    (hostDoes [.memRead 0xFFFF] (illegalWord 0x19)).fsm = .busy ∧
    decode (illegalWord 0x19).snap.word = .error .reservedOpcode ∧
    decode abandoned.snap.word = .ok .setb ∧ mayWrite .setb abandoned.snap.regs 0xFF = false ∧
    mayWrite .setb abandoned.snap.regs 0x101 = false ∧
    nextWith (fun u => wroteIn .setb abandoned.snap.regs u 0x100) (exec .setb abandoned) = true ∧
    omitting.fsm = .busy ∧ Undisturbed omitting ∧ decode omitting.snap.word = .ok .cOmit ∧
    mayWrite .cOmit omitting.snap.regs 0x403 = true ∧
    nextWith (fun u => !wroteIn .cOmit omitting.snap.regs u 0x403) (exec .cOmit omitting) = true := by
  decide +kernel

theorem witness_ResetEvent :
    (hostDoes [.reset] State.reset).fsm = .idle ∧ (hostDoes [.reset] (illegalWord 0x19)).fsm = .busy ∧
    decode (illegalWord 0x19).snap.word = .error .reservedOpcode ∧ abandoned.fsm = .busy ∧
    decode abandoned.snap.word = .ok .setb ∧ mayWrite .setb abandoned.snap.regs 0x101 = false ∧
    Undisturbed abandoned ∧
    nextWith (fun u => u.mem.get 0x100 != abandoned.mem.get 0x100 && wroteIn .setb abandoned.snap.regs u 0x100 &&
      !wroteIn .setb abandoned.snap.regs u 0x101) (exec .setb abandoned) = true ∧
    nextWith (fun u => !statusErr u.status && !wroteIn .cOmit omitting.snap.regs u 0x400) (exec .cOmit omitting) = true ∧
    nextWith (fun u => statusErr u.status) (exec .setb { abandoned with snap := ⟨0x11#32, bits 0 0 0 0 0xFFFF 1 8⟩ }) =
      true := by
  decide +kernel

/-- A reset of a `GETB` whose input the host wrote, where the mix is the memory as it stands or the byte before. -/
theorem witness_ResetEvent_mix :
    (commandOf .getb).compute { running (bits 0x100 0 0 0 0 0 8) [] with raced := [(0x100, 0xFF#8)] } =
      .error .raced := by
  decide +kernel

/-- The three ways to complete: a raced byte that `GETB` does not read, one that `SETB` writes, one that `GETB` reads. -/
theorem witness_RacedCompletion :
    nextWith (fun t => t.freeIdx == 0)
      (exec .getb { running (bits 0x100 0 0 0 0 0 8) [] with raced := [(0x101, 0xFF#8)] }) = true ∧
    nextWith (fun t => t.freeIdx == 1 && (t.result == 0#32 && t.status == 0x2#32))
      (exec .setb { running (bits 0 0 0 0 0x100 0 8) [] with raced := [(0x100, 0xFF#8)] }) = true ∧
    nextWith (fun t => t.freeIdx == 4 && t.result2 == 0#32)
      (exec .getb { running (bits 0x100 0 0 0 0 0 8) [] with raced := [(0x100, 0xFF#8)] }) = true ∧
    nextWith (fun t => wroteIn .setb (bits 0 0 0 0 0x100 0 8) t 0x100 && !wroteIn .setb (bits 0 0 0 0 0x100 0 8) t 0x101)
      (exec .setb (running (bits 0 0 0 0 0x100 0 8) [])) = true := by
  decide +kernel

/-- What a command may read, at the ends of its ranges: the bytes a bit range touches; a header of fixed length; the
device record, the rule list, the rule, its last target and the column values of a selection. -/
theorem witness_RacedCompletion_reads :
    ([0xFF, 0x100, 0x101, 0x102].map (mayRead .getb (running (bits 0x100 7 0 0 0 0 2) [])) = [false, true, true, false]) ∧
    ([0x1FF, 0x200, 0x201, 0x202].map (mayRead .xorb (running (bits 0x100 0 0x200 1 0x300 0 8) [])) =
      [false, true, true, false]) ∧
    ([0x3FFF, 0x4000, 0x4027, 0x4028].map (mayRead .flat6 (running { worked with aAddr := w 0x4000 } [])) =
      [false, true, true, false]) ∧
    ([0x1000, 0x101F, 0x1020, 0x1100, 0x1103, 0x1104, 0x2200, 0x2247, 0x2248, 0x301E, 0x3021, 0x3022].map
        (mayRead .comp (running worked (tables ++ udpRule))) =
      [true, true, false, true, true, false, true, true, false, true, true, false]) ∧
    ([0x8000, 0x802F, 0x8030].map (mayRead .rsel (running { worked with aux := w 1 } udpColumns)) = [true, true, false]) ∧
    (mayRead .setb (running (bits 0 0 0 0 0x100 0 8) []) 0x101 = false ∧
      mayWrite .setb (bits 0 0 0 0 0x100 0 8) 0x101 = false) := by
  decide +kernel

/-- A window at the top of memory with its last byte raced; bit ranges that end one bit above memory. -/
theorem witness_RacedCompletion_ranges :
    ((bits 0 0 0 0 0xFFFE 0 2).dAddr.toNat ≤ 0xFFFF ∧ 0xFFFF < 0xFFFE + (bits 0 0 0 0 0xFFFE 0 2).len.toNat ∧
      0xFFFE + (bits 0 0 0 0 0xFFFE 0 2).len.toNat ≤ State.reset.params.memSize) ∧
    ¬ BitsFit (running (bits 0xFFFC 1 0 0 0 0 32) []) (w 0xFFFC) (w 1) (w 32) ∧
    (bits 0xFFFC 1 0 0 0 0 32).len.toNat ≤ 32 := by
  decide +kernel

theorem witness_EveryCommandCompletes :
    guardOf .getb Regs.zero = [] ∧
    ¬ RegionsApart { worked with dAddr := w 0x83FF, outCap := w 1 } ∧
    ((field 0 16).bAddr.toNat + 16 ≤ State.reset.params.memSize ∧ ({ field 0 1 with dAddr := w 0x20F }).outCap.toNat ≠ 0 ∧
      ({ field 0 1 with dAddr := w 0x20F }).dAddr.toNat < (field 0 1).bAddr.toNat + 16 ∧
      (field 0 1).bAddr.toNat < ({ field 0 1 with dAddr := w 0x20F }).dAddr.toNat + 1) := by
  decide +kernel

theorem witness_CompletionFrame :
    nextWith (fun t => t.status == 0x2#32) (exec .ridpk (running Regs.zero [])) = true ∧
    Undisturbed (running Regs.zero []) ∧
    nextWith (fun t => t.status == 0x306#32) (exec .ridpk (running { Regs.zero with aux := w 4 } [])) = true := by
  decide +kernel

theorem witness_ErrorsArePrecise :
    nextWith (fun t => statusErr t.status) (exec .ridpk (running { Regs.zero with aux := w 4 } [])) = true ∧
    Undisturbed (running { Regs.zero with aux := w 4 } []) ∧
    nextWith (fun t => statusErr t.status && t.freeIdx == 1)
      (exec .comp (running { Regs.zero with outCap := w 1, dAddr := w 0x100 } [])) = true := by
  decide +kernel

theorem witness_MemoryFrame :
    nextWith (fun _ => true) (exec .setb (running (bits 0 0 0 0 0x100 0 8) [])) = true ∧
    mayWrite .setb (bits 0 0 0 0 0x100 0 8) 0xFF = false ∧ mayWrite .setb (bits 0 0 0 0 0x100 0 8) 0x101 = false ∧
    nextWith (fun _ => true) (exec .cmpb (running (bits 0 0 0 0 0 0 8) [])) = true := by
  decide +kernel

theorem witness_ReadsOnlyItsOperands :
    (∀ q ∈ readsOf .getb, ({ bits 0x100 2 0 0 0 0 10 with aux := w 7 }).get q = (bits 0x100 2 0 0 0 0 10).get q) ∧
    nextWith (fun _ => true) (exec .getb (running (bits 0x100 2 0 0 0 0 10) [])) = true ∧
    (∀ q ∈ readsOf .decomp, ({ worked with aux := w 7, dAddr := w 0x8000, outCap := w 1 }).get q =
      ({ worked with dAddr := w 0x8000, outCap := w 1 }).get q) ∧
    isRefusal (exec .decomp (running { worked with dAddr := w 0x8000, outCap := w 1 } [])) = true := by
  decide +kernel

theorem witness_GetbResult :
    Undisturbed (running (bits 0xFFFC 0 0 0 0 0 32) []) ∧ (bits 0xFFFC 0 0 0 0 0 32).len.toNat ≤ 32 ∧
    BitsFit (running (bits 0xFFFC 0 0 0 0 0 32) []) (w 0xFFFC) (w 0) (w 32) ∧
    32 < (bits 0 0 0 0 0 0 33).len.toNat ∧
    ¬ BitsFit (running (bits 0xFFFC 1 0 0 0 0 32) []) (w 0xFFFC) (w 1) (w 32) := by
  decide +kernel

theorem witness_SetbClrbResult :
    Undisturbed (running (bits 0 0 0 0 0xFFFC 5 27) []) ∧
    BitsFit (running (bits 0 0 0 0 0xFFFC 5 27) []) (w 0xFFFC) (w 5) (w 27) ∧
    BitsFit (running (bits 0 0 0 0 0xFFFFFFFF 5 0) []) (w 0xFFFFFFFF) (w 5) (w 0) ∧
    ¬ BitsFit (running (bits 0 0 0 0 0xFFFC 5 28) []) (w 0xFFFC) (w 5) (w 28) := by
  decide +kernel

theorem witness_CpybCascade :
    BitsFit (running (bits 0xFFFC 0 0 0 0xFFFC 1 31) []) (w 0xFFFC) (w 0) (w 31) ∧
    BitsFit (running (bits 0xFFFC 0 0 0 0xFFFC 1 31) []) (w 0xFFFC) (w 1) (w 31) ∧
    Undisturbed (running (bits 0xFFFC 0 0 0 0xFFFC 1 31) []) ∧
    ¬ BitsFit (running (bits 0xFFFC 0 0 0 0xFFFC 1 32) []) (w 0xFFFC) (w 1) (w 32) := by
  decide +kernel

theorem witness_XorbAndbCascade :
    BitsFit (running (bits 0xFFFC 0 0x10 3 0xFFFC 1 31) []) (w 0xFFFC) (w 0) (w 31) ∧
    BitsFit (running (bits 0xFFFC 0 0x10 3 0xFFFC 1 31) []) (w 0x10) (w 3) (w 31) ∧
    BitsFit (running (bits 0xFFFC 0 0x10 3 0xFFFC 1 31) []) (w 0xFFFC) (w 1) (w 31) ∧
    Undisturbed (running (bits 0xFFFC 0 0x10 3 0xFFFC 1 31) []) ∧
    ¬ BitsFit (running (bits 0xFFFC 0 0x10 3 0xFFFC 1 32) []) (w 0xFFFC) (w 1) (w 32) := by
  decide +kernel

/-- Two equal ranges, then two that differ in their last bit, then one out of memory. -/
theorem witness_CmpbResult :
    Undisturbed (running (bits 0x100 0 0x200 4 0 0 4) [(0x100, 1, 0xA0), (0x200, 1, 0x0A)]) ∧
    BitsFit (running (bits 0x100 0 0x200 4 0 0 4) []) (w 0x200) (w 4) (w 4) ∧
    (∀ k < 4, gbit (memOf [(0x100, 1, 0xA0), (0x200, 1, 0x0A)]) (startA (bits 0x100 0 0x200 4 0 0 4) + k) =
      gbit (memOf [(0x100, 1, 0xA0), (0x200, 1, 0x0A)]) (startB (bits 0x100 0 0x200 4 0 0 4) + k)) ∧
    gbit (memOf [(0x100, 1, 0xA0), (0x200, 1, 0x0B)]) (startA (bits 0x100 0 0x200 4 0 0 4) + 3) ≠
      gbit (memOf [(0x100, 1, 0xA0), (0x200, 1, 0x0B)]) (startB (bits 0x100 0 0x200 4 0 0 4) + 3) ∧
    ¬ BitsFit (running (bits 0x10000 0 0 0 0 0 1) []) (w 0x10000) (w 0) (w 1) := by
  decide +kernel

theorem witness_ShiftWindow :
    Undisturbed (running (bits 0 0 0 0 0xFFFE 0 2) []) ∧ BytesFit (running Regs.zero []) 0xFFFE 2 ∧
    BytesFit (running Regs.zero []) 0xFFFFFFFF 0 ∧ ¬ BytesFit (running Regs.zero []) 0xFFFE 3 := by
  decide +kernel

theorem witness_SetThenGet :
    Undisturbed (running (bits 0xFFFC 0 0 0 0xFFFC 0 32) []) ∧
    (bits 0xFFFC 0 0 0 0xFFFC 0 32).aAddr = (bits 0xFFFC 0 0 0 0xFFFC 0 32).dAddr ∧
    (bits 0xFFFC 0 0 0 0xFFFC 0 32).aPos = (bits 0xFFFC 0 0 0 0xFFFC 0 32).dPos ∧
    (bits 0xFFFC 0 0 0 0xFFFC 0 32).len.toNat ≤ 32 ∧
    BitsFit (running (bits 0xFFFC 0 0 0 0xFFFC 0 32) []) (w 0xFFFC) (w 0) (w 32) := by
  decide +kernel

/-- The descriptor fields dir 0, mo 4, cda 8 and form 2 are each illegal. -/
def illegalDescriptors : List Nat :=
  [0x00110000001000000100000200000300, 0x00110304001000000100000200000300, 0x00110300001000000800000200000300,
   0x00110300001000000102000200000300]

theorem witness_DescriptorChecks :
    Undisturbed (running { field 0 0 with bAddr := w 0xFFF1 } []) ∧
    State.reset.params.memSize < ({ field 0 0 with bAddr := w 0xFFF1 }).bAddr.toNat + 16 ∧
    (∀ n ∈ illegalDescriptors, readable (viewOf .cVal (running (field 0 16) [(0x200, 16, n)])) 0x200 16 = true ∧
      descIllegal (viewOf .cVal (running (field 0 16) [(0x200, 16, n)])) 0x200 = true) ∧
    descAt (viewOf .dVal (onField (d16 .equal 0 .omit) 0xFF01 16 [])) 0x200 (d16 .equal 0 .omit) = true ∧
    ¬ BytesFit (onField (d16 .equal 0 .omit) 0xFF01 16 []) 0x100 0xFF01 := by
  decide +kernel

theorem witness_MeqResult :
    fieldHyps .meq (onField (d16 .equal 0 .omit) 2 16 [(0x300, 2, 0x1633), (0x100, 2, 0x1633)]) (d16 .equal 0 .omit)
      [0x16#8, 0x33#8] = true ∧
    targetIs (viewOf .meq (onField (d16 .equal 0 .omit) 2 16 [(0x300, 2, 0x1633), (0x100, 2, 0x1633)]))
      (d16 .equal 0 .omit) [0x16#8, 0x33#8] = true ∧
    fieldHyps .meq (onField { d16 .equal 0 .omit with tlen := 3 } 0 16 []) { d16 .equal 0 .omit with tlen := 3 } [] = true ∧
    fieldHyps .meq (onField { d16 .equal 0 .omit with taddr := 0xFFFF } 0 16 []) { d16 .equal 0 .omit with taddr := 0xFFFF }
      [] = true ∧
    ¬ BytesFit (onField { d16 .equal 0 .omit with taddr := 0xFFFF } 0 16 []) 0xFFFF 2 := by
  decide +kernel

theorem witness_MignMdispResult :
    fieldHyps .mign (onField (d16 .ignore 0 .omit) 2 16 [(0x100, 2, 0x1633)]) (d16 .ignore 0 .omit) [0x16#8, 0x33#8] = true ∧
    nextWith (fun _ => true) (exec .mmsb (onField (d16 .msb 12 .omit) 2 16 [(0x100, 2, 0x1633)])) = true := by
  decide +kernel

theorem witness_MmsbResult :
    (∀ par ∈ [17, 16, 15, 0], fieldHyps .mmsb (onField (d16 .msb par .sendLsb) 2 16 [(0x300, 2, 0x1630), (0x100, 2, 0x1633)])
      (d16 .msb par .sendLsb) [0x16#8, 0x33#8] = true) ∧
    targetIs (viewOf .mmsb (onField (d16 .msb 15 .sendLsb) 2 16 [(0x300, 2, 0x1630)])) (d16 .msb 15 .sendLsb)
      [0x16#8, 0x30#8] = true ∧
    fieldHyps .mmsb (onField { d16 .msb 15 .omit with tlen := 1 } 0 16 []) { d16 .msb 15 .omit with tlen := 1 } [] = true ∧
    fieldHyps .mmsb (onField { d16 .msb 15 .omit with taddr := 0xFFFF } 0 16 []) { d16 .msb 15 .omit with taddr := 0xFFFF }
      [] = true := by
  decide +kernel

theorem witness_MmapResult :
    fieldHyps .mmap (onField (dMap2 .sendIndex) 1 16 [(0x300, 2, 0x6162), (0x100, 1, 0x62)]) (dMap2 .sendIndex) [0x62#8] = true ∧
    candidatesAre (viewOf .mmap (onField (dMap2 .sendIndex) 1 16 [(0x300, 2, 0x6162), (0x100, 1, 0x62)])) (dMap2 .sendIndex)
      [[0x61#8], [0x62#8]] = true ∧
    ([[0x61#8], [0x62#8]] : List Bytes)[1]? = some [0x62#8] ∧ ([[0x61#8], [0x62#8]] : List Bytes)[0]? ≠ some [0x62#8] ∧
    [0x63#8] ∉ ([[0x61#8], [0x62#8]] : List Bytes) := by
  decide +kernel

/-- Candidates out of range, and too many, for each command that reads a candidate list. -/
theorem witness_candidate_errors :
    ∀ i ∈ [Instr.mmap, .cMap, .dMap],
      fieldHyps i (onField { dMap2 .sendIndex with taddr := 0xFFFF } 0 16 []) { dMap2 .sendIndex with taddr := 0xFFFF }
        [] = true ∧
      fieldHyps i (onField { dMap2 .sendIndex with par := 257 } 0 16 []) { dMap2 .sendIndex with par := 257 } [] = true ∧
      ¬ BytesFit (onField { dMap2 .sendIndex with taddr := 0xFFFF } 0 16 []) 0xFFFF 2 := by
  decide +kernel

/-- No candidates, but one target byte: no list of candidates spells it (`MMAP`, `C_MAP` and `D_MAP`). -/
theorem witness_no_candidate_list :
    (∀ i ∈ [Instr.mmap, .cMap, .dMap], fieldHyps i (onField { dMap2 .sendIndex with par := 0, tlen := 1 } 0 16 [])
      { dMap2 .sendIndex with par := 0, tlen := 1 } [] = true ∧
      readable (viewOf i (onField { dMap2 .sendIndex with par := 0, tlen := 1 } 0 16 [])) 0x300 1 = true) ∧
    ∀ ks : List Bytes, ks.length = 0 → spells .single ks ((memOf []).read 0x300 1) = false := by
  refine ⟨by decide +kernel, fun ks h => ?_⟩
  rw [List.eq_nil_of_length_eq_zero h]
  decide +kernel

theorem witness_OmittedResidue :
    ∀ i ∈ [Instr.cOmit, .cDlen, .cDchk], fieldHyps i (onField (d16 .equal 0 .omit) 2 0 [(0x100, 2, 0x1633)])
      (d16 .equal 0 .omit) [0x16#8, 0x33#8] = true := by
  decide +kernel

theorem witness_CValResult :
    fieldHyps .cVal (onField (d16 .ignore 0 .sendValue) 2 2 [(0x100, 2, 0x1633)]) (d16 .ignore 0 .sendValue)
      [0x16#8, 0x33#8] = true ∧
    RoomFor (onField (d16 .ignore 0 .sendValue) 2 2 []) (field 2 2) 2 ∧ (field 2 1).outCap.toNat < 2 ∧
    ([0x16#8] : Bytes).length ≠ (16 + 7) / 8 ∧
    ¬ BytesFit (running { field 2 2 with dAddr := w 0xFFFF } []) 0xFFFF 2 := by
  decide +kernel

theorem witness_CMapResult :
    fieldHyps .cMap (onField (dMap2 .sendIndex) 1 1 [(0x300, 2, 0x6162), (0x100, 1, 0x62)]) (dMap2 .sendIndex) [0x62#8] = true ∧
    candidatesAre (viewOf .cMap (onField (dMap2 .sendIndex) 1 1 [(0x300, 2, 0x6162), (0x100, 1, 0x62)])) (dMap2 .sendIndex)
      [[0x61#8], [0x62#8]] = true ∧
    RoomFor (onField (dMap2 .sendIndex) 1 1 []) (field 1 1) 1 ∧ (field 1 0).outCap.toNat < 1 ∧
    [0x63#8] ∉ ([[0x61#8], [0x62#8]] : List Bytes) := by
  decide +kernel

theorem witness_CLsbResult :
    (∀ par ∈ [17, 16, 15, 0], fieldHyps .cLsb (onField (d16 .msb par .sendLsb) 2 2 [(0x100, 2, 0x1633)])
      (d16 .msb par .sendLsb) [0x16#8, 0x33#8] = true) ∧
    fieldHyps .cLsb (onField (d16 .msb 16 .sendLsb) 1 2 [(0x100, 1, 0x16)]) (d16 .msb 16 .sendLsb) [0x16#8] = true ∧
    RoomFor (onField (d16 .msb 0 .sendLsb) 2 2 []) (field 2 2) 2 := by
  decide +kernel

/-- A 64-bit field for the IID actions. -/
def d64 (bits : Nat) (cda : Cda) : Desc := ⟨0x08, .bi, .ignore, bits, 0, cda, .single, 0, 0⟩

theorem witness_CIidResult :
    fieldHyps .cDeviid (onField (d64 64 .deriveDevIid) 8 0 [(0x100, 8, 1)]) (d64 64 .deriveDevIid) (iidOf (field 8 0)) = true ∧
    fieldHyps .cDeviid (onField (d64 63 .deriveDevIid) 8 0 [(0x100, 8, 1)]) (d64 63 .deriveDevIid) (iidOf (field 8 0)) = true ∧
    fieldHyps .cDeviid (onField (d64 64 .deriveDevIid) 7 0 []) (d64 64 .deriveDevIid) (zeros 7) = true ∧
    fieldHyps .cDeviid (onField (d64 64 .deriveDevIid) 8 0 []) (d64 64 .deriveDevIid) (zeros 8) = true ∧
    zeros 8 ≠ iidOf (field 8 0) ∧
    fieldHyps .cAppiid (onField (d64 64 .deriveAppIid) 0 0 []) (d64 64 .deriveAppIid) [] = true := by
  decide +kernel

theorem witness_RestoredValue :
    fieldHyps .dOmit (onField (d16 .equal 0 .omit) 0 2 [(0x300, 2, 0x1633)]) (d16 .equal 0 .omit) [] = true ∧
    targetIs (viewOf .dOmit (onField (d16 .equal 0 .omit) 0 2 [(0x300, 2, 0x1633)])) (d16 .equal 0 .omit)
      [0x16#8, 0x33#8] = true ∧
    RoomFor (onField (d16 .equal 0 .omit) 0 2 []) (field 0 2) 2 ∧
    fieldHyps .dOmit (onField { d16 .equal 0 .omit with tlen := 3 } 0 2 []) { d16 .equal 0 .omit with tlen := 3 } [] = true ∧
    fieldHyps .dOmit (onField { d16 .equal 0 .omit with taddr := 0xFFFF } 0 2 []) { d16 .equal 0 .omit with taddr := 0xFFFF }
      [] = true ∧ ¬ BytesFit (onField (d16 .equal 0 .omit) 0 2 []) 0xFFFF 2 ∧
    fieldHyps .dDlen (onField (d16 .ignore 0 .deferLength) 0 2 []) (d16 .ignore 0 .deferLength) [] = true ∧
    fieldHyps .dDchk (onField (d16 .ignore 0 .deferChecksum) 0 2 []) (d16 .ignore 0 .deferChecksum) [] = true ∧
    fieldHyps .dDeviid (onField (d64 64 .deriveDevIid) 0 8 []) (d64 64 .deriveDevIid) [] = true ∧
    RoomFor (onField (d64 64 .deriveDevIid) 0 8 []) (field 0 8) 8 ∧
    fieldHyps .dDeviid (onField (d64 65 .deriveDevIid) 0 8 []) (d64 65 .deriveDevIid) [] = true ∧
    fieldHyps .dAppiid (onField (d64 64 .deriveAppIid) 0 8 []) (d64 64 .deriveAppIid) [] = true := by
  decide +kernel

theorem witness_DValResult :
    fieldHyps .dVal (onField (d16 .ignore 0 .sendValue) 2 2 [(0x100, 2, 0x1633)]) (d16 .ignore 0 .sendValue)
      [0x16#8, 0x33#8] = true ∧
    fieldHyps .dVal (onField (d16 .ignore 0 .sendValue) 1 2 [(0x100, 1, 0x16)]) (d16 .ignore 0 .sendValue) [0x16#8] = true ∧
    RoomFor (onField (d16 .ignore 0 .sendValue) 2 2 []) (field 2 2) 2 ∧ (field 2 1).outCap.toNat < 2 := by
  decide +kernel

theorem witness_DMapResult :
    (∀ b ∈ [0, 1, 2, 255], fieldHyps .dMap (onField (dMap2 .sendIndex) 1 1 [(0x300, 2, 0x6162), (0x100, 1, b)])
      (dMap2 .sendIndex) [BitVec.ofNat 8 b] = true) ∧
    fieldHyps .dMap (onField (dMap2 .sendIndex) 0 1 [(0x300, 2, 0x6162)]) (dMap2 .sendIndex) [] = true ∧
    candidatesAre (viewOf .dMap (onField (dMap2 .sendIndex) 0 1 [(0x300, 2, 0x6162)])) (dMap2 .sendIndex)
      [[0x61#8], [0x62#8]] = true ∧
    RoomFor (onField (dMap2 .sendIndex) 1 1 []) (field 1 1) 1 := by
  decide +kernel

theorem witness_DLsbResult :
    (∀ par ∈ [17, 16, 15, 0], fieldHyps .dLsb (onField (d16 .msb par .sendLsb) 2 2 [(0x300, 2, 0x1630), (0x100, 2, 0x1633)])
      (d16 .msb par .sendLsb) [0x16#8, 0x33#8] = true) ∧
    targetIs (viewOf .dLsb (onField (d16 .msb 15 .sendLsb) 2 2 [(0x300, 2, 0x1630)])) (d16 .msb 15 .sendLsb)
      [0x16#8, 0x30#8] = true ∧
    fieldHyps .dLsb (onField (d16 .msb 15 .sendLsb) 0 2 []) (d16 .msb 15 .sendLsb) [] = true ∧
    fieldHyps .dLsb (onField { d16 .msb 16 .sendLsb with tlen := 1 } 0 2 []) { d16 .msb 16 .sendLsb with tlen := 1 } [] = true ∧
    fieldHyps .dLsb (onField { d16 .msb 16 .sendLsb with taddr := 0xFFFF } 0 2 []) { d16 .msb 16 .sendLsb with taddr := 0xFFFF }
      [] = true ∧ ¬ BytesFit (onField (d16 .equal 0 .omit) 0 2 []) 0xFFFF 2 ∧
    RoomFor (onField (d16 .msb 0 .sendLsb) 2 2 []) (field 2 2) 2 := by
  decide +kernel

/-- What the field functions see: the target 16 30, then the candidates 16 30 of one byte each, at 0x300. -/
def targets : View := viewOf .meq (running Regs.zero [(0x300, 2, 0x1630)])

theorem witness_ResidueSizeAgrees :
    compressField targets (zeros 8) [0x16#8, 0x33#8] (d16 .msb 12 .sendLsb) = .ok [0x03#8] ∧
    decompressField targets (zeros 8) [0x03#8, 0xFF#8] (d16 .msb 12 .sendLsb) = .ok (1, [0x16#8, 0x33#8]) ∧
    decompressLayer targets (zeros 8) ⟨1, [d16 .msb 12 .sendLsb]⟩ [0x03#8] .down = .ok (1, [⟨0x11, [0x16#8, 0x33#8]⟩]) := by
  decide +kernel

theorem witness_FieldRoundTrip :
    (predDispatch targets [0x16#8, 0x30#8] (d16 .equal 0 .omit) = .ok (true, 0) ∧
      compressField targets (zeros 8) [0x16#8, 0x30#8] (d16 .equal 0 .omit) = .ok []) ∧
    (predDispatch targets [0x16#8, 0x30#8] (d16 .msb 16 .omit) = .ok (true, 0) ∧
      compressField targets (zeros 8) [0x16#8, 0x30#8] (d16 .msb 16 .omit) = .ok []) ∧
    (predDispatch targets [0x16#8, 0x33#8] (d16 .msb 12 .sendLsb) = .ok (true, 0) ∧
      compressField targets (zeros 8) [0x16#8, 0x33#8] (d16 .msb 12 .sendLsb) = .ok [0x03#8] ∧
      be [0x16#8, 0x33#8] < 2 ^ 16 ∧ num targets 0x300 2 < 2 ^ 16) ∧
    (predDispatch targets [0x30#8] (dMap2 .sendIndex) = .ok (true, 1) ∧
      compressField targets (zeros 8) [0x30#8] (dMap2 .sendIndex) = .ok [0x01#8]) ∧
    (predDispatch targets (zeros 8) (d64 64 .deriveDevIid) = .ok (true, 0) ∧
      compressField targets (zeros 8) (zeros 8) (d64 64 .deriveDevIid) = .ok []) := by
  decide +kernel

/-- Two rules in declared order: one without fields (id 2, at 0x2300), then the UDP rule. -/
def twoRules : List (Nat × Nat × Nat) :=
  [(0x1000, 19, 0x00000001000000000000110000000000000200), (0x1100, 8, 0x0000230000002200), (0x301E, 4, 0x16301633),
   (0x2300, 8, 0x0201000000000000)] ++ udpRule

/-- `RSEL` over them. -/
def selecting : State := running { worked with aux := w 1 } (udpColumns ++ twoRules)

theorem witness_RselFirstMatch :
    Undisturbed selecting ∧ auxIs selecting.snap.regs .udp = true ∧ dirIs selecting.snap.regs .up = true ∧
    noDevice (viewOf .rsel selecting) { worked with devId := w 2 } = true ∧
    deviceIs (viewOf .rsel selecting) worked 0 = true ∧ columnsAre (viewOf .rsel selecting) worked udpCols = true ∧
    rulesListed (viewOf .rsel selecting) worked 0 .udp [0x2300, 0x2200] = true := by
  decide +kernel

/-- Its second rule matches and its first does not; without the second no rule matches. -/
theorem witness_RselFirstMatch_rules :
    ruleAt (viewOf .rsel selecting) 0x2200 .udp ⟨1, udpFields⟩ = true ∧
    ruleMatches (viewOf .rsel selecting) ⟨1, udpFields⟩ udpCols .up = .ok true ∧
    ruleAt (viewOf .rsel selecting) 0x2300 .udp ⟨2, []⟩ = true ∧
    ruleMatches (viewOf .rsel selecting) ⟨2, []⟩ udpCols .up = .ok false ∧
    rulesListed (viewOf .rsel (running worked ((0x1011, 1, 1) :: twoRules))) worked 0 .udp [0x2300] = true := by
  decide +kernel

/-- A device table, then columns, that cannot be read. -/
theorem witness_RselFirstMatch_records :
    deviceFault (viewOf .rsel selecting) { worked with devtabAddr := w 0xFFFD } 0 = true ∧
    deviceFault (viewOf .rsel selecting) { worked with devtabAddr := w 0xFFDD, devtabN := w 2 } 1 = true ∧
    ColumnsFail (viewOf .rsel selecting) { worked with ctxAddr := w 0xFFFF } .busFault ∧
    ColumnsFail (viewOf .rsel selecting) { worked with ctxSize := w 39 } .ctxOverflow :=
  ⟨by decide +kernel, by decide +kernel, .inl ⟨by decide +kernel, rfl⟩,
    .inr (.inl ⟨by decide +kernel, by decide +kernel, rfl⟩)⟩

/-- A rule list whose one rule record starts at 0x2300, and whose rule has the field `d` and fails on its column. -/
def failing (d : Desc) : State :=
  running { worked with aux := w 1 }
    [(0x1000, 19, 0x00000001000000000000110000000000000100), (0x1100, 4, 0x2300), (0x2300, 8, 0x0101000100010001),
     descImage 0x2308 d, (0x8000, 2, 1), (0x8008, 8, 0x0011000200008010)]

/-- A rule record of another layer; a predicate that raises `RULE_FORMAT`. -/
theorem witness_RselFirstMatch_fatal :
    rulesListed (viewOf .rsel (failing (d16 .equal 0 .omit))) worked 0 .ip6 [] = true ∧
    RuleFails (viewOf .rsel (failing (d16 .equal 0 .omit))) 0x2300 .ip6 .ruleFormat ∧
    rulesListed (viewOf .rsel (failing (d16 .msb 17 .omit))) worked 0 .udp [0x2300] = true ∧
    ruleAt (viewOf .rsel (failing (d16 .msb 17 .omit))) 0x2300 .udp ⟨1, [d16 .msb 17 .omit]⟩ = true ∧
    columnsAre (viewOf .rsel (failing (d16 .msb 17 .omit))) worked [⟨0x11, zeros 2⟩] = true ∧
    ruleMatches (viewOf .rsel (failing (d16 .msb 17 .omit))) ⟨1, [d16 .msb 17 .omit]⟩ [⟨0x11, zeros 2⟩] .up =
      .error (.err .ruleFormat) :=
  ⟨by decide +kernel, .inr (.inl ⟨by decide +kernel, by decide +kernel, rfl⟩), by decide +kernel, by decide +kernel,
    by decide +kernel, by decide +kernel⟩

theorem witness_FindRuleFirst :
    (viewOf .decomp selecting).raced = [] ∧
    rulesListed (viewOf .decomp selecting) worked 0 .udp [0x2300, 0x2200] = true ∧
    ruleAt (viewOf .decomp selecting) 0x2200 .udp ⟨1, udpFields⟩ = true ∧
    ruleAt (viewOf .decomp selecting) 0x2300 .udp ⟨2, []⟩ = true ∧ (2 ≠ 1 ∧ 2 ≠ 3 ∧ 1 ≠ 3) := by
  decide +kernel

/-- `CLAYER` with the UDP rule. -/
def compressing : State :=
  running { worked with aux := w 1, bAddr := w 0x2200, dAddr := w 0x5000, outCap := w 1 } (udpColumns ++ tables ++ udpRule)

theorem witness_ClayerResult :
    Undisturbed compressing ∧ RegionsApart compressing.snap.regs ∧ auxIs compressing.snap.regs .udp = true ∧ dirIs compressing.snap.regs .up = true ∧
    ruleAt (viewOf .clayer compressing) 0x2200 .udp ⟨1, udpFields⟩ = true ∧
    columnsAre (viewOf .clayer compressing) compressing.snap.regs udpCols = true ∧
    udpFields.length = udpCols.length ∧ (∀ p ∈ List.zip udpFields udpCols, p.1.fid = p.2.fid ∧ p.1.fid ∈ [0x11, 0x12, 0x13, 0x14]) ∧
    (List.zipWith (fun f c => compressField (viewOf .clayer compressing) (iidOf worked) c.val f) udpFields udpCols) =
      [.ok [0x03#8], .ok [], .ok [], .ok []] ∧
    RoomFor compressing compressing.snap.regs 1 := by
  decide +kernel

/-- R310: `CLAYER` with its output byte the last of the context region, far past its columns, then just after it. -/
theorem test_clayer_regions :
    refusalOf (exec .clayer { compressing with
      snap := ⟨0#32, { compressing.snap.regs with dAddr := w 0x83FF }⟩ }) = some .regionOverlap ∧
    seen 0x8400 1 (exec .clayer { compressing with
      snap := ⟨0#32, { compressing.snap.regs with dAddr := w 0x8400 }⟩ }) = some (2, 1, 0, 0x03) := by
  decide +kernel

/-- A rule of one 16-bit send-value field at 0x200, with one column at 0x8000 whose id and value are the arguments. -/
def oneField (fid len : Nat) : State :=
  running { worked with aux := w 1, bAddr := w 0x200, dAddr := w 0x5000, outCap := w 1 }
    [(0x200, 8, 0x0101000100010001), descImage 0x208 (d16 .ignore 0 .sendValue), (0x8000, 2, 1),
     (0x8008, 8, fid * 2 ^ 48 + len * 2 ^ 32 + 0x8010)]

/-- A field id that differs; an action that fails; a count that differs; a residue above `OUT_CAP`. -/
theorem witness_ClayerResult_errors :
    (∀ fl ∈ [(0x12, 2), (0x11, 1), (0x11, 2)],
      ruleAt (viewOf .clayer (oneField fl.1 fl.2)) 0x200 .udp ⟨1, [d16 .ignore 0 .sendValue]⟩ = true ∧
      columnsAre (viewOf .clayer (oneField fl.1 fl.2)) (oneField fl.1 fl.2).snap.regs [⟨fl.1, zeros fl.2⟩] = true) ∧
    compressField (viewOf .clayer (oneField 0x11 1)) (iidOf worked) (zeros 1) (d16 .ignore 0 .sendValue) =
      .error (.err .fieldLength) ∧
    compressField (viewOf .clayer (oneField 0x11 2)) (iidOf worked) (zeros 2) (d16 .ignore 0 .sendValue) = .ok (zeros 2) ∧
    (oneField 0x11 2).snap.regs.outCap.toNat < (zeros 2).length ∧ udpFields.length ≠ (udpCols.take 3).length := by
  decide +kernel

/-- A rule record whose header and first descriptor are the arguments, at 0x200, its second descriptor legal. -/
def badRule (header : Nat) (d : Nat × Nat × Nat) : View :=
  viewOf .clayer (running { worked with aux := w 1, bAddr := w 0x200 }
    [(0x200, 8, header), d, descImage 0x218 (d16 .ignore 0 .sendValue)])

/-- Each way in which a rule record fails (30_encoding.md R87): out of memory by one byte, another layer, the ids 0 and
4, an illegal descriptor, a descriptor out of memory, a wrong UP count, a wrong DOWN count. -/
theorem witness_ClayerResult_records :
    RuleFails (badRule 0 (0, 0, 0)) 0xFFF9 .udp .busFault ∧
    (∀ h ∈ [0x0102000000000000, 0x0001000000000000, 0x0401000000000000],
      RuleFails (badRule h (0, 0, 0)) 0x200 .udp .ruleFormat) ∧
    RuleFails (badRule 0x0101000200020002 (descImage 0x208 (d16 .ignore 0 .sendValue))) 0x200 .coap .ruleFormat ∧
    RuleFails (badRule 0x0101000100010001 (0x208, 16, 0x00110000001000000100000200000300)) 0x200 .udp .ruleFormat ∧
    RuleFails (viewOf .clayer (running worked [(0xFFE1, 8, 0x0101000200020002),
      descImage 0xFFE9 (d16 .ignore 0 .sendValue)])) 0xFFE1 .udp .busFault ∧
    (∀ h ∈ [0x0101000100000001, 0x0101000100010002],
      RuleFails (badRule h (descImage 0x208 (d16 .ignore 0 .sendValue))) 0x200 .udp .ruleFormat) := by
  refine ⟨.inl ⟨by decide +kernel, rfl⟩, ?_, .inr (.inl ⟨by decide +kernel, by decide +kernel, rfl⟩),
    .inr (.inr ⟨by decide +kernel, by decide +kernel, [], rfl,
      .inl ⟨by decide +kernel, .inr ⟨by decide +kernel, by decide +kernel, rfl⟩⟩⟩),
    .inr (.inr ⟨by decide +kernel, by decide +kernel, [d16 .ignore 0 .sendValue], by decide +kernel,
      .inl ⟨by decide +kernel, .inl ⟨by decide +kernel, rfl⟩⟩⟩), ?_⟩
  · intro h hh
    refine .inr (.inl ⟨?_, ?_, rfl⟩) <;> revert h <;> decide +kernel
  · intro h hh
    refine .inr (.inr ⟨?_, ?_, [d16 .ignore 0 .sendValue], ?_, .inr ⟨?_, rfl, ?_⟩⟩) <;> revert h <;> decide +kernel

/-- Columns that cannot be read: an entry one byte out of memory, a value one byte out of memory. -/
theorem witness_ClayerResult_columns :
    ColumnsFail (viewOf .clayer (running worked [(0xFFF1, 2, 1)])) { worked with ctxAddr := w 0xFFF1 } .busFault ∧
    ColumnsFail (viewOf .clayer (running worked [(0x8000, 2, 1), (0x8008, 8, 0x001100020000FFFF)])) worked .busFault :=
  ⟨.inr (.inr ⟨by decide +kernel, by decide +kernel, rfl, [], 0xFFF9, rfl, by decide +kernel, by decide +kernel,
      .inl (by decide +kernel)⟩),
    .inr (.inr ⟨by decide +kernel, by decide +kernel, rfl, [], 0x8008, rfl, by decide +kernel, by decide +kernel,
      .inr (by decide +kernel)⟩)⟩

/-- A rule and a column with one unassigned id, 0x15: they do not pair (44_rule_selection.md R201). -/
def unassigned : State :=
  running { worked with aux := w 1, bAddr := w 0x200, dAddr := w 0x5000, outCap := w 2 }
    [(0x200, 8, 0x0101000100010001), descImage 0x208 { d16 .ignore 0 .sendValue with fid := 0x15 }, (0x8000, 2, 1),
     (0x8008, 8, 0x0015000200008010)]

theorem witness_ClayerResult_unassigned :
    ruleAt (viewOf .clayer unassigned) 0x200 .udp ⟨1, [{ d16 .ignore 0 .sendValue with fid := 0x15 }]⟩ = true ∧
    columnsAre (viewOf .clayer unassigned) unassigned.snap.regs [⟨0x15, zeros 2⟩] = true ∧
    0x15 ∉ [0x01, 0x02, 0x03, 0x04, 0x05, 0x06, 0x07, 0x08, 0x09, 0x0A, 0x11, 0x12, 0x13, 0x14,
      0x21, 0x22, 0x23, 0x24, 0x25, 0x26, 0x27] ∧
    (∀ n ∈ unassigned.params.optionTable, 0x15 ≠ 0x100 + n) := by
  decide +kernel

/-- R201, R204, R205: a column of an unassigned id pairs with no descriptor. -/
theorem test_clayer_unassigned : seen 0x5000 2 (exec .clayer unassigned) = some (0xB06, 0xFFFFFFFF, 0, 0) := by
  decide +kernel

/-- A rule of four UDP fields, the first a send-value of 12 bits, the residue F6 33 at 0x5100. -/
def padding : State :=
  running
    { worked with
      aux := w 1, bAddr := w 0x200, aAddr := w 0x5100, len := w 2, dAddr := w 0x5200, outCap := w 8, ctxSize := w 48 }
    [(0x200, 8, 0x0101000400040004), descImage 0x208 { d16 .ignore 0 .sendValue with bits := 12 },
     descImage 0x218 { d16 .ignore 0 .deferLength with fid := 0x12 },
     descImage 0x228 { d16 .ignore 0 .deferLength with fid := 0x13 },
     descImage 0x238 { d16 .ignore 0 .deferLength with fid := 0x14 }, (0x5100, 2, 0xF633)]

/-- R83: the column's pad bits are 0; R182: the header has the bytes as they came. -/
theorem test_dlayer_pads :
    seen 0x8028 2 (exec .dlayer padding) = some (2, 2, 8, 0x0633) ∧
    seen 0x5200 2 (exec .dlayer padding) = some (2, 2, 8, 0xF633) := by
  decide +kernel

/-- `DLAYER` with the UDP rule, the residue 03 at 0x5100. -/
def decompressing (ctx cap : Nat) : State :=
  running
    { worked with
      aux := w 1, bAddr := w 0x2200, aAddr := w 0x5100, len := w 1, dAddr := w 0x5200, outCap := w cap, ctxSize := w ctx }
    ((0x5100, 1, 0x03) :: (tables ++ udpRule))

/-- The columns it restores. -/
def restoredCols : List Col := [⟨0x11, [0x16#8, 0x33#8]⟩, ⟨0x12, [0x16#8, 0x33#8]⟩, ⟨0x13, zeros 2⟩, ⟨0x14, zeros 2⟩]

theorem witness_DlayerResult :
    Undisturbed (decompressing 48 8) ∧ RegionsApart (decompressing 48 8).snap.regs ∧
    auxIs (decompressing 48 8).snap.regs .udp = true ∧ dirIs (decompressing 48 8).snap.regs .up = true ∧
    ruleAt (viewOf .dlayer (decompressing 48 8)) 0x2200 .udp ⟨1, udpFields⟩ = true ∧
    inputIs (viewOf .dlayer (decompressing 48 8)) (decompressing 48 8).snap.regs [0x03#8] = true ∧
    restoredCols.map Col.fid = udpFields.map Desc.fid ∧ assembles Config.defaultOptionTable .udp restoredCols = true ∧
    List.zipWith unpadded udpFields (restoredCols.map Col.val) = restoredCols.map Col.val ∧
    decompressField (viewOf .dlayer (decompressing 48 8)) (iidOf worked) [0x03#8] (d16 .msb 12 .sendLsb) =
      .ok (1, [0x00#8, 0x03#8]) ∧
    (udpFields.map (fun f => decompressField (viewOf .dlayer (decompressing 48 8)) (iidOf worked) [0x03#8] f)) =
      [.ok (1, [0x16#8, 0x33#8]), .ok (0, [0x16#8, 0x33#8]), .ok (0, zeros 2), .ok (0, zeros 2)] ∧
    assemble (viewOf .dlayer (decompressing 48 8)) .udp restoredCols .up =
      .ok ([0x16#8, 0x33#8, 0x16#8, 0x33#8] ++ zeros 4) ∧
    bytesUsed restoredCols = 48 ∧ BytesFit (decompressing 48 8) 0x8000 48 ∧
    RoomFor (decompressing 48 8) (decompressing 48 8).snap.regs 8 ∧
    (decompressing 47 8).snap.regs.ctxSize.toNat < 48 ∧ (decompressing 48 7).snap.regs.outCap.toNat < 8 := by
  decide +kernel

/-- An input out of memory, a rule record out of memory, regions out of memory, the first action that fails. -/
theorem witness_DlayerResult_errors :
    ¬ BytesFit (decompressing 48 8) 0xFFFF 2 ∧ RuleFails (viewOf .dlayer (decompressing 48 8)) 0xFFF9 .udp .busFault ∧
    ¬ BytesFit (decompressing 48 8) 0xFFF9 8 ∧ ¬ BytesFit (decompressing 48 8) 0xFFD1 48 ∧
    decompressField (viewOf .dlayer (decompressing 48 8)) (iidOf worked) [] (d16 .ignore 0 .sendValue) =
      .error (.err .cursorOverrun) := by
  refine ⟨by decide +kernel, .inl ⟨by decide +kernel, rfl⟩, by decide +kernel, by decide +kernel, by decide +kernel⟩

/-- CoAP columns with the options given, the TKL value 1 and a token of `n` bytes. -/
def coapCols (n : Nat) (rest : List Col) : List Col :=
  [⟨0x21, [1#8]⟩, ⟨0x22, [0#8]⟩, ⟨0x23, [1#8]⟩, ⟨0x24, [1#8]⟩, ⟨0x25, zeros 2⟩, ⟨0x26, zeros n⟩] ++ rest

/-- Columns that assemble, and each way in which they do not: an id, a width, a missing column, a token too long, a
marker value, a marker before an option, an option outside the table, numbers that decrease. -/
theorem witness_DlayerResult_columns :
    assembles Config.defaultOptionTable .coap (coapCols 1 [⟨0x10B, []⟩, ⟨0x10B, []⟩, ⟨0x27, [0xFF#8]⟩]) = true ∧
    assembles Config.defaultOptionTable .ip6 (flatten6 (zeros 40) .up) = true ∧
    assembles Config.defaultOptionTable .ip6 (flatten6 (zeros 40) .up).tail = false ∧
    assembles Config.defaultOptionTable .udp (restoredCols.set 3 ⟨0x15, zeros 2⟩) = false ∧
    assembles Config.defaultOptionTable .udp (restoredCols.set 3 ⟨0x14, zeros 3⟩) = false ∧
    (∀ cols ∈ [coapCols 2 [], coapCols 1 [⟨0x27, [0xFE#8]⟩], coapCols 1 [⟨0x27, [0xFF#8]⟩, ⟨0x10B, []⟩],
        coapCols 1 [⟨0x102, []⟩], coapCols 1 [⟨0x10B, []⟩, ⟨0x101, []⟩], (coapCols 1 []).take 5],
      assembles Config.defaultOptionTable .coap cols = false) := by
  decide +kernel

theorem witness_DirectionChecked :
    ({ Regs.zero with dir := w 1 }).dir.toNat = 1 ∧ ({ Regs.zero with dir := w 2 }).dir.toNat = 2 ∧
    (∀ n ∈ [0, 3, 0xFFFFFFFF], RegionsApart { Regs.zero with dir := w n, aux := w n } ∧
      ({ Regs.zero with dir := w n }).dir.toNat ≠ 1 ∧ ({ Regs.zero with dir := w n }).dir.toNat ≠ 2) ∧
    ¬ RegionsApart { worked with dAddr := w 0x83FF, outCap := w 1, dir := w 3 } ∧
    RegionsApart { worked with dAddr := w 0x8400, outCap := w 1, dir := w 3 } ∧
    RegionsApart { worked with dAddr := w 0x7FFF, outCap := w 1, dir := w 3 } ∧
    2 < ({ Regs.zero with aux := w 3 }).aux.toNat := by
  decide +kernel

theorem witness_FlattenResult :
    Undisturbed (running { worked with aAddr := w 0x4000, ctxSize := w 129 } workedPacket) ∧ dirIs worked .up = true ∧
    dirIs { worked with dir := w 2 } .down = true ∧
    readable (viewOf .flat6 (running { worked with aAddr := w 0x4000, ctxSize := w 129 } workedPacket)) 0x4000 40 = true ∧
    readable (viewOf .flatu (running { worked with aAddr := w 0x4028, ctxSize := w 48 } workedPacket)) 0x4028 8 = true ∧
    ({ worked with ctxSize := w 128 }).ctxSize.toNat < 129 ∧ 129 ≤ ({ worked with ctxSize := w 129 }).ctxSize.toNat ∧
    BytesFit (running worked []) 0x8000 129 ∧ ¬ BytesFit (running worked []) 0xFFFF 129 ∧
    ¬ BytesFit (running worked []) 0xFFD9 40 ∧ ¬ BytesFit (running worked []) 0xFFF9 8 ∧
    ¬ BytesFit (running worked []) 0xFFD1 48 ∧
    ({ worked with ctxSize := w 47 }).ctxSize.toNat < 48 ∧ 48 ≤ ({ worked with ctxSize := w 48 }).ctxSize.toNat ∧
    BytesFit (running worked []) 0xFFD0 48 := by
  decide +kernel

/-- A CoAP message: version 1, no token, one empty If-Match option, a marker and one payload byte. -/
def coapBytes : Bytes := [0x40#8, 0x01#8, 0x12#8, 0x34#8, 0x10#8, 0xFF#8, 0x41#8]

/-- `FLATC` of that message at 0x100. -/
def parsing (ctx : Nat) : State :=
  running { worked with aAddr := w 0x100, len := w 7, ctxSize := w ctx } [(0x100, 7, 0x4001123410FF41)]

/-- What it parses to. -/
def coapParsed : CoapMessage :=
  { header := { ver := 1, typ := 0, tkl := 0, code := 0x01#8, mid := [0x12#8, 0x34#8], token := [], opts := [(1, [])],
                marker := true },
    hlen := 6 }

theorem witness_FlatcResult :
    Undisturbed (parsing 79) ∧ inputIs (viewOf .flatc (parsing 79)) (parsing 79).snap.regs coapBytes = true ∧
    coapParse (viewOf .flatc (parsing 79)) coapBytes = some coapParsed ∧ bytesUsed (flattenC coapParsed.header) = 79 ∧
    (parsing 78).snap.regs.ctxSize.toNat < 79 ∧ 79 ≤ (parsing 79).snap.regs.ctxSize.toNat ∧
    BytesFit (parsing 79) 0x8000 79 ∧ ¬ BytesFit (parsing 79) 0xFFB2 79 ∧ ¬ BytesFit (parsing 79) 0xFFFF 7 ∧
    inputIs (viewOf .flatc (running worked [])) { worked with len := w 4 } (zeros 4) = true ∧
    coapParse (viewOf .flatc (parsing 79)) (zeros 4) = none := by
  decide +kernel

/-- A header of one option 1, without a marker. -/
def plainHeader : CoapHeader := { coapParsed.header with marker := false }

/-- Messages that R227 and R228 refuse, by their bytes: too short, version 2, TKL 9, a token one byte short; after an
option a nibble of 15, missing extension bytes, a value one byte short, a value of 0x10000 bytes, the option 2, a marker
with nothing after it. -/
theorem witness_FlatcResult_codec :
    (viewOf .flatc (parsing 79)).codec = .reference ∧ (zeros 3).length < 4 ∧ (0x80#8 : Byte).toNat / 64 ≠ 1 ∧
    8 < (0x49#8 : Byte).toNat % 16 ∧ (zeros 10).length < 3 + (0x48#8 : Byte).toNat % 16 ∧
    (0x70#8 : Byte).toNat / 64 = 1 ∧ (0x70#8 : Byte).toNat % 16 = 0 ∧
    headerAllowed (viewOf .flatc (parsing 79)).table plainHeader = true ∧ plainHeader.marker = false ∧
    (0xF0#8 : Byte).toNat / 16 = 15 ∧ (0x0F#8 : Byte).toNat % 16 = 15 ∧
    0 < extensionBytes ((0xD0#8 : Byte).toNat / 16) + extensionBytes ((0xD0#8 : Byte).toNat % 16) ∧
    1 < extensionBytes ((0xE0#8 : Byte).toNat / 16) + extensionBytes ((0xE0#8 : Byte).toNat % 16) ∧
    (zeros 12).length < 13 ∧ 0xFFFF < 0x10000 ∧ 0x10000 ≤ 65804 ∧
    (plainHeader.opts.map Prod.fst).getLastD 0 + 1 ∉ (viewOf .flatc (parsing 79)).table := by
  decide +kernel

/-- The accepted message is spelled as the statement says. -/
theorem witness_FlatcResult_spelled :
    coapBytes = spellHeader coapParsed.header ++ [0x41#8] ∧
    headerAllowed (viewOf .flatc (parsing 79)).table coapParsed.header = true ∧
    (spellHeader coapParsed.header).length = 6 := by
  decide +kernel

theorem witness_AssembleInvertsFlatten :
    (zeros 40).length = 40 ∧ (zeros 8).length = 8 ∧ (viewOf .flatc (parsing 79)).codec = .reference ∧
    coapParse (viewOf .flatc (parsing 79)) coapBytes = some coapParsed := by
  decide +kernel

/-- IPv6 columns with bits above the widths of V and FL, as no flattener gives them. -/
def overfull : List Col :=
  [⟨0x01, [0xF6#8]⟩, ⟨0x02, [0xAB#8]⟩, ⟨0x03, [0xF1#8, 0x23#8, 0x45#8]⟩, ⟨0x04, [0x00#8, 0x1D#8]⟩, ⟨0x05, [17#8]⟩,
   ⟨0x06, [64#8]⟩, ⟨0x07, bytesBE 8 1⟩, ⟨0x08, bytesBE 8 2⟩, ⟨0x09, bytesBE 8 3⟩, ⟨0x0A, bytesBE 8 4⟩]

/-- 45_flatten.md R233, R235: the bits above the widths are dropped, DOWN puts App first; worked by hand. -/
theorem witness_AssembleInvertsFlatten_columns :
    assembles Config.defaultOptionTable .ip6 overfull = true ∧
    be (assembled (viewOf .dlayer (running worked [])) .ip6 overfull .down) =
      0x6AB12345001D11400000000000000003000000000000000400000000000000010000000000000002 ∧
    assembles Config.defaultOptionTable .udp (restoredCols.take 3) = false ∧
    be (assembled (viewOf .dlayer (running worked [])) .udp udpCols .up) = 0x16331633001D7B2D ∧
    assembles Config.defaultOptionTable .coap
      [⟨0x21, [0xFD#8]⟩, ⟨0x22, [0xFE#8]⟩, ⟨0x23, [0xF1#8]⟩, ⟨0x24, [1#8]⟩, ⟨0x25, [0x12#8, 0x34#8]⟩, ⟨0x26, [7#8]⟩,
       ⟨0x10B, [0x61#8]⟩] = true ∧
    assembled (viewOf .dlayer (running worked [])) .coap
      [⟨0x21, [0xFD#8]⟩, ⟨0x22, [0xFE#8]⟩, ⟨0x23, [0xF1#8]⟩, ⟨0x24, [1#8]⟩, ⟨0x25, [0x12#8, 0x34#8]⟩, ⟨0x26, [7#8]⟩,
       ⟨0x10B, [0x61#8]⟩] .up = [0x61#8, 0x01#8, 0x12#8, 0x34#8, 0x07#8, 0xB1#8, 0x61#8] := by
  decide +kernel

theorem witness_ColumnsRoundTrip :
    (viewOf .rsel (running worked [])).size ≤ 2 ^ 32 ∧ (viewOf .rsel (running worked [])).guard = [] ∧
    (viewOf .rsel (running worked [])).raced = [] ∧ udpCols.length < 2 ^ 16 ∧
    (∀ c ∈ udpCols, c.fid < 2 ^ 16 ∧ c.val.length < 2 ^ 16) ∧
    bytesUsed udpCols ≤ ({ worked with ctxSize := w 48 }).ctxSize.toNat ∧
    ({ worked with ctxAddr := w 0xFFD0 }).ctxAddr.toNat + bytesUsed udpCols ≤ (viewOf .rsel (running worked [])).size := by
  decide +kernel

theorem witness_RuleIdPacking :
    (w 0x01070303).toNat = 1 * 2 ^ 24 + 7 * 2 ^ 16 + 3 * 2 ^ 8 + 3 ∧ (w 0xFF).toNat = 1 * 128 + 7 * 16 + 3 * 4 + 3 ∧
    (w 0x02080404).toNat = 2 * 2 ^ 24 + 8 * 2 ^ 16 + 4 * 2 ^ 8 + 4 ∧ 0xFF < (w 0x100).toNat ∧
    Undisturbed (running { Regs.zero with aux := w 0x100 } []) := by
  decide +kernel

/-- A memory of 128 KiB, so that a packet of 65576 bytes fits. -/
theorem witness_PlenResult :
    Undisturbed (running { Regs.zero with len := w 48 } []) ∧ BytesFit (running Regs.zero []) 0 48 ∧
    BytesFit (running Regs.zero []) 0 47 ∧ BytesFit (sized 0x20000 (running Regs.zero [])) 0 65575 ∧
    65575 - 40 ≤ 0xFFFF ∧ 0xFFFF < 65576 - 40 ∧ BytesFit (sized 0x20000 (running Regs.zero [])) 0 65576 ∧
    ¬ BytesFit (running Regs.zero []) 0xFFFF 48 := by
  decide +kernel

theorem witness_PchkResult :
    Undisturbed (running { Regs.zero with aAddr := w 0x4000, len := w 69 } workedPacket) ∧
    be ((memOf workedPacket).read 0x402E 2) ≠ 0 ∧ be ((memOf []).read 0x402E 2) = 0 ∧
    BytesFit (running Regs.zero []) 0x4000 48 ∧ BytesFit (running Regs.zero []) 0 47 ∧
    BytesFit (sized 0x20000 (running Regs.zero [])) 0 65576 ∧ 0xFFFF < 65576 - 40 ∧
    ¬ BytesFit (running Regs.zero []) 0xFFFF 48 := by
  decide +kernel

/-- `COMP` of the small packet. -/
def packing (cap : Nat) : State :=
  running { worked with aAddr := w 0x4000, len := w 50, dAddr := w 0x5000, outCap := w cap, ctxSize := w 129 }
    ((0x4000, 50, smallPacket) :: (tables ++ udpRule))

/-- The small packet. -/
def smallBytes : Bytes := bytesBE 50 smallPacket

theorem witness_CompResult :
    Undisturbed (packing 44) ∧ RegionsApart (packing 44).snap.regs ∧ dirIs worked .up = true ∧
    2 ≤ ({ worked with aux := w 2 }).aux.toNat ∧ ({ worked with len := w 47 }).len.toNat < 48 ∧
    (packing 44).snap.regs.aux.toNat < 2 ∧ 48 ≤ (packing 44).snap.regs.len.toNat ∧
    BytesFit (packing 44) 0x5000 44 ∧ BytesFit (packing 44) 0x8000 129 ∧
    inputIs (viewOf .comp (packing 44)) (packing 44).snap.regs smallBytes = true ∧
    deviceIs (viewOf .comp (packing 44)) (packing 44).snap.regs 0 = true ∧
    coapParse (viewOf .comp (packing 44)) (smallBytes.drop 48) = none ∧ (packing 43).snap.regs.outCap.toNat < 44 := by
  decide +kernel

/-- Its layers: IPv6 verbatim, UDP by its rule. -/
theorem witness_CompResult_layers :
    LayerPacked (viewOf .comp (packing 44)) (packing 44).snap.regs 0x1000 .ip6 (flatten6 (smallBytes.take 40) .up) .up none ∧
    LayerPacked (viewOf .comp (packing 44)) (packing 44).snap.regs 0x1000 .udp
      (flattenU ((smallBytes.drop 40).take 8) .up) .up (some (1, [0x03#8])) :=
  ⟨⟨by decide +kernel, .inl (by decide +kernel)⟩,
    ⟨by decide +kernel, 0x2200, ⟨1, udpFields⟩, by decide +kernel, rfl, by decide +kernel⟩⟩

/-- A layer whose action raises `FIELD_LENGTH` goes verbatim: a 16-bit send-value field with one byte. -/
theorem witness_CompResult_caught :
    LayerPacked
      (viewOf .comp (running { worked with devtabAddr := w 0x600 }
        [(0x600, 19, 0x00000001000000000000070000000000000100), (0x700, 4, 0x200), (0x200, 8, 0x0101000100010001),
         descImage 0x208 (d16 .ignore 0 .sendValue)]))
      worked 0x600 .udp [⟨0x11, [0x16#8]⟩] .up none :=
  ⟨by decide +kernel, .inr ⟨0x200, ⟨1, [d16 .ignore 0 .sendValue]⟩, .fieldLength, by decide +kernel, by decide +kernel,
    .inl rfl⟩⟩

/-- Regions and a packet one byte out of memory; no device; a device table out of memory. -/
theorem witness_CompResult_memory :
    ¬ BytesFit (packing 44) 0xFFD5 44 ∧ ¬ BytesFit (packing 44) 0xFF80 129 ∧ ¬ BytesFit (packing 44) 0xFFCF 50 ∧
    noDevice (viewOf .comp (packing 44)) { (packing 44).snap.regs with devId := w 2 } = true ∧
    deviceFault (viewOf .comp (packing 44)) { (packing 44).snap.regs with devtabAddr := w 0xFFFD } 0 = true := by
  decide +kernel

/-- Layers that fail: columns above `CTX_SIZE`, a rule record of another layer, an action that is not caught. -/
theorem witness_CompResult_fatal :
    LayerFails (viewOf .comp (packing 44)) { (packing 44).snap.regs with ctxSize := w 128 } 0x1000 .ip6
      (flatten6 (smallBytes.take 40) .up) .up .ctxOverflow ∧
    LayerFails
      (viewOf .comp (running { worked with devtabAddr := w 0x600 }
        [(0x600, 19, 0x00000001000000000000070000000000000100), (0x700, 4, 0x200), (0x200, 8, 0x0100000000000000)]))
      worked 0x600 .udp udpCols .up .ruleFormat ∧
    LayerFails
      (viewOf .comp (running { worked with devtabAddr := w 0x600 }
        [(0x600, 19, 0x00000001000000000000070000000000000100), (0x700, 4, 0x200), (0x200, 8, 0x0101000100010001),
         descImage 0x208 (d16 .ignore 257 .sendIndex)]))
      worked 0x600 .udp [⟨0x11, [0x16#8]⟩] .up .ruleFormat :=
  ⟨.inl ⟨by decide +kernel, rfl⟩, .inr ⟨by decide +kernel, .inl (by decide +kernel)⟩,
    .inr ⟨by decide +kernel, .inr ⟨0x200, ⟨1, [d16 .ignore 257 .sendIndex]⟩, by decide +kernel, by decide +kernel,
      by decide, by decide, by decide⟩⟩⟩

/-- An accepted CoAP message as the tail of a packet. -/
theorem witness_CompResult_coap :
    coapParse (viewOf .comp (packing 44)) coapBytes = some coapParsed ∧
    LayerFails (viewOf .comp (packing 44)) { worked with ctxSize := w 78 } 0x1000 .coap (flattenC coapParsed.header) .up
      .ctxOverflow :=
  ⟨by decide +kernel, .inl ⟨by decide +kernel, rfl⟩⟩

/-- `DECOMP` of it. -/
def unpacking (cap : Nat) : State :=
  running { worked with aAddr := w 0x7000, len := w 44, dAddr := w 0x6000, outCap := w cap, ctxSize := w 48 }
    ((0x7000, 44, smallCompressed) :: (tables ++ udpRule))

/-- The compressed packet. -/
def smallOut : Bytes := bytesBE 44 smallCompressed

theorem witness_DecompResult :
    Undisturbed (unpacking 50) ∧ RegionsApart (unpacking 50).snap.regs ∧ dirIs worked .up = true ∧
    ({ worked with len := w 0 }).len.toNat = 0 ∧ BytesFit (unpacking 50) 0x6000 50 ∧ BytesFit (unpacking 50) 0x8000 48 ∧
    1 ≤ (unpacking 50).snap.regs.len.toNat ∧
    inputIs (viewOf .decomp (unpacking 50)) (unpacking 50).snap.regs smallOut = true ∧
    deviceIs (viewOf .decomp (unpacking 50)) (unpacking 50).snap.regs 0 = true ∧ (smallOut.headD 0#8).toNat = 4 ∧
    1 + 40 + 1 ≤ smallOut.length ∧ (smallOut.take 41).length < 1 + 40 + 1 ∧
    (unpacking 49).snap.regs.outCap.toNat < 50 := by
  decide +kernel

/-- Its layers: CoAP and IPv6 verbatim, UDP by rule 1, whose residue is one byte. -/
theorem witness_DecompResult_layers :
    LayerNamed (viewOf .decomp (unpacking 50)) 0x1000 .coap (4 / 16 % 8) none ∧
    LayerNamed (viewOf .decomp (unpacking 50)) 0x1000 .udp (4 / 4 % 4) (some ⟨1, udpFields⟩) ∧
    LayerNamed (viewOf .decomp (unpacking 50)) 0x1000 .ip6 (4 % 4) none ∧
    PartSized 40 none .up 40 ∧ PartSized 8 (some ⟨1, udpFields⟩) .up 1 ∧
    LayerUnpacked (viewOf .decomp (unpacking 50)) (unpacking 50).snap.regs .udp (some ⟨1, udpFields⟩) [0x03#8] .up 1
      ([0x16#8, 0x33#8, 0x16#8, 0x33#8] ++ zeros 4) :=
  ⟨rfl, ⟨by decide, by decide +kernel⟩, rfl, rfl,
    (by decide +kernel : residueSum (applying ⟨1, udpFields⟩ .up) = .ok 1),
    ⟨restoredCols, by decide +kernel, by decide +kernel, by decide +kernel⟩⟩

/-- Regions and an input one byte out of memory; no device; a rule that no list has; parts and layers that fail. -/
theorem witness_DecompResult_errors :
    ¬ BytesFit (unpacking 50) 0xFFCF 50 ∧ ¬ BytesFit (unpacking 50) 0xFFD1 48 ∧ ¬ BytesFit (unpacking 50) 0xFFD5 44 ∧
    noDevice (viewOf .decomp (unpacking 50)) { worked with devId := w 2 } = true ∧
    deviceFault (viewOf .decomp (unpacking 50)) { worked with devtabAddr := w 0xFFFD } 0 = true ∧
    (∀ layer ∈ [Layer.coap, .udp, .ip6], NameFails (viewOf .decomp (unpacking 50)) 0x1000 layer 2 .ruleNotFound) ∧
    SizeFails (some ⟨1, [d16 .msb 17 .sendLsb]⟩) .up .ruleFormat :=
  ⟨by decide +kernel, by decide +kernel, by decide +kernel, by decide +kernel, by decide +kernel,
    by
      intro layer h
      refine ⟨by decide, ?_⟩
      revert layer
      decide +kernel,
    ⟨_, rfl, (by decide +kernel : residueSum (applying ⟨1, [d16 .msb 17 .sendLsb]⟩ .up) = .error (.err .ruleFormat))⟩⟩

/-- A target of the wrong length, columns above `CTX_SIZE`, columns that make no header. -/
theorem witness_DecompResult_layer_errors :
    UnpackFails (viewOf .decomp (unpacking 50)) worked .udp (some ⟨1, [{ d16 .equal 0 .omit with tlen := 3 }]⟩) [] .up
      .ruleFormat ∧
    UnpackFails (viewOf .decomp (unpacking 50)) { worked with ctxSize := w 47 } .udp (some ⟨1, udpFields⟩) [0x03#8] .up
      .ctxOverflow ∧
    UnpackFails (viewOf .decomp (unpacking 50)) worked .coap (some ⟨1, udpFields⟩) [0x03#8] .up .ruleFormat :=
  ⟨⟨_, rfl, .inl (by decide +kernel)⟩,
    ⟨_, rfl, .inr ⟨1, restoredCols, by decide +kernel, .inl ⟨by decide +kernel, rfl⟩⟩⟩,
    ⟨_, rfl, .inr ⟨1, restoredCols, by decide +kernel, .inr ⟨by decide +kernel, by decide +kernel⟩⟩⟩⟩

/-- Memory with nothing listed reads as zeros. -/
theorem read_empty (n : Nat) : ∀ a, Memory.empty.read a n = List.replicate n 0#8 := by
  induction n with
  | zero => intro a; rfl
  | succ n ih => intro a; rw [Memory.read, ih, List.replicate_succ]; rfl

/-- `DECOMP` of 65577 zero bytes, all verbatim: a packet of 65576 bytes, one too long to patch. -/
theorem witness_DecompResult_long :
    let s := sized 0x100000 (running { worked with
      devId := w 0, aAddr := w 0x20000, len := w 65577, dAddr := w 0x40000, outCap := w 65576 } [])
    Undisturbed s ∧ RegionsApart s.snap.regs ∧ BytesFit s 0x40000 65576 ∧ BytesFit s 0x8000 0x400 ∧
    inputIs (viewOf .decomp s) s.snap.regs (List.replicate 65577 0#8) = true ∧
    deviceIs (viewOf .decomp s) s.snap.regs 0 = true ∧ 0xFFFF < 65576 - 40 := by
  refine ⟨rfl, by decide +kernel, by decide +kernel, by decide +kernel, ?_, by decide +kernel, by decide⟩
  rw [inputIs, Bool.and_eq_true, beq_iff_eq]
  exact ⟨by decide +kernel, read_empty 65577 0x20000⟩

/-- The rules of the small tables, layer by layer. -/
def smallRules : Layer → List (Nat × Rule)
  | .ip6 => []
  | .udp => [(0x2200, ⟨1, udpFields⟩)]
  | .coap => []

theorem witness_PacketRoundTrip_rules :
    (viewOf .rsel (packing 44)).codec = .reference ∧ (viewOf .rsel (packing 44)).raced = [] ∧
    ∀ layer, roundTripRules (viewOf .rsel (packing 44)) (packing 44).snap.regs 0 layer (smallRules layer) = true :=
  ⟨rfl, rfl, fun layer => by cases layer <;> decide +kernel⟩

theorem witness_PacketRoundTrip :
    48 ≤ smallBytes.length ∧ smallBytes.length - 40 ≤ 0xFFFF ∧
    be ((smallBytes.drop 4).take 2) = smallBytes.length - 40 ∧ be ((smallBytes.drop 44).take 2) = smallBytes.length - 40 ∧
    be ((smallBytes.drop 46).take 2) = checksum (smallBytes.take 46 ++ [0#8, 0#8] ++ smallBytes.drop 48) ∧
    (packing 44).snap.regs.aux.toNat < 2 ∧
    compressPacket (viewOf .rsel (packing 44)) (packing 44).snap.regs 0x1000 smallBytes .up = .ok (4, smallOut) ∧
    ({ (packing 44).snap.regs with len := w 44 }).len.toNat = smallOut.length := by
  decide +kernel

end Sys2Proof.Tests
end

section
/-! How a command's computation can end, said once for every function of memory that the commands are made of: in a
value of a stated kind, by `raise`, by a read of the command's own regions (20_memory.md R65) where it has regions, or
by a read of a byte that the host wrote (R60) where it wrote one. -/

namespace Sys2Proof.Machine

/-- `x` ends in a value with `P`, or stops for a reason that the view gives. -/
def Ends {α : Type} (v : View) (P : α → Prop) : Comp α → Prop
  | .ok a => P a
  | .error (.err _) => True
  | .error .overlap => v.guard ≠ []
  | .error .raced => v.raced ≠ []

/-- `x` stops, if it stops, for a reason that the view gives. -/
abbrev Stops {α : Type} (v : View) (x : Comp α) : Prop := Ends v (fun _ => True) x

/-- A write covers only bytes that exist (R50). -/
def WriteFits (size : Nat) (w : Nat × Bytes) : Prop := w.2 = [] ∨ w.1 + w.2.length ≤ size

/-- Every write of an effect covers only bytes that exist. -/
def Effect.Fits (size : Nat) (e : Effect) : Prop := ∀ w ∈ e.writes, WriteFits size w

section
variable {α β : Type} {v : View} {P Q : α → Prop} {R : β → Prop} {x y : Comp α}

/-! ## Sequences and choices -/

@[simp] theorem ends_ok {a : α} : Ends v P (.ok a) ↔ P a := Iff.rfl
@[simp] theorem ends_pure {a : α} : Ends v P (pure a) ↔ P a := Iff.rfl
@[simp] theorem ends_raise (e : Err) : Ends v P (raise e) := trivial

theorem Ends.bind {f : α → Comp β} (h : Ends v P x) (hf : ∀ a, P a → Ends v R (f a)) : Ends v R (x >>= f) := by
  cases x with
  | ok a => exact hf a h
  | error st => cases st <;> exact h

/-- A sequence whose second part does not use what the first has found. -/
theorem Ends.seq {f : α → Comp β} (h : Ends v P x) (hf : ∀ a, Ends v R (f a)) : Ends v R (x >>= f) :=
  h.bind fun a _ => hf a

theorem Ends.mono (h : Ends v P x) (hPQ : ∀ a, P a → Q a) : Ends v Q x := by
  cases x with
  | ok a => exact hPQ a h
  | error st => cases st <;> exact h

theorem Ends.stops (h : Ends v P x) : Stops v x := h.mono fun _ _ => trivial

theorem Ends.ite {p : Prop} [Decidable p] (hx : p → Ends v P x) (hy : ¬ p → Ends v P y) :
    Ends v P (if p then x else y) := by
  split
  · exact hx ‹_›
  · exact hy ‹_›

/-- `if p: raise e`. -/
theorem Ends.unless {p : Prop} [Decidable p] {e : Err} (hy : ¬ p → Ends v P y) :
    Ends v P (if p then raise e else y) := Ends.ite (fun _ => ends_raise e) hy

/-- `if p: raise e`, before a computation that does not depend on it. -/
theorem Ends.orRaise {p : Prop} [Decidable p] {e : Err} (hy : Ends v P y) : Ends v P (if p then raise e else y) :=
  Ends.unless fun _ => hy

theorem Ends.value_of_ok {a : α} (h : Ends v P x) (hx : x = .ok a) : P a := by
  rw [hx] at h; exact h

theorem Ends.guard_of_overlap (h : Ends v P x) (hx : x = .error .overlap) : v.guard ≠ [] := by
  rw [hx] at h; exact h

theorem Ends.raced_of_raced (h : Ends v P x) (hx : x = .error .raced) : v.raced ≠ [] := by
  rw [hx] at h; exact h

end

section
variable (v : View) (r : Regs)

/-! ## Range checks and reads -/

theorem ends_checkRange (a n : Nat) : Ends v (fun _ => n = 0 ∨ a + n ≤ v.size) (checkRange v a n) :=
  Ends.unless fun h => by simp only [ends_ok]; omega

theorem stops_sense (rg : Range) : Stops v (sense v rg) :=
  Ends.ite (fun h hv => by simp [hv, anyIn] at h) fun _ => trivial

theorem ends_touch (a n : Nat) : Ends v (fun _ => n = 0 ∨ a + n ≤ v.size) (touch v a n) :=
  Ends.unless fun h =>
    Ends.ite (fun hg hv => by simp [hv] at hg) fun _ => (stops_sense v _).mono fun _ _ => by omega

theorem ends_readBytes (a n : Nat) :
    Ends v (fun s => s.length = n ∧ (n = 0 ∨ a + n ≤ v.size)) (readBytes v a n) :=
  (ends_touch v a n).bind fun _ h => ⟨Memory.length_read _ _ _, h⟩

theorem stops_readBytes (a n : Nat) : Stops v (readBytes v a n) := (ends_readBytes v a n).stops

theorem stops_readNat (a n : Nat) : Stops v (readNat v a n) := (stops_readBytes v a n).seq fun _ => trivial

theorem stops_checkBits (base pos len : Nat) : Stops v (checkBits v base pos len) := (ends_checkRange v _ _).stops

/-! ## The records of 30_encoding.md -/

theorem stops_checkDir : Stops v (checkDir r) :=
  Ends.ite (fun _ => trivial) fun _ => Ends.ite (fun _ => trivial) fun _ => ends_raise _

theorem stops_checkLayer : Stops v (checkLayer r) :=
  Ends.ite (fun _ => trivial) fun _ => Ends.ite (fun _ => trivial) fun _ =>
    Ends.ite (fun _ => trivial) fun _ => ends_raise _

theorem stops_parseDesc (s : Bytes) : Stops v (parseDesc s) := by
  unfold parseDesc
  split <;> exact trivial

theorem stops_readDesc (a : Nat) : Stops v (readDesc v a) := (stops_readBytes v a 16).seq (stops_parseDesc v)

theorem stops_targetValue (d : Desc) : Stops v (targetValue v d) := Ends.orRaise (stops_readBytes v _ _)

theorem stops_singleCandidates (k : Nat) (t : Bytes) : Stops v (singleCandidates k t) := Ends.orRaise trivial

theorem stops_prefixedCandidates : ∀ (k : Nat) (t : Bytes), Stops v (prefixedCandidates k t)
  | 0, [] => trivial
  | 0, _ :: _ => trivial
  | _ + 1, [] => trivial
  | k + 1, _ :: _ => Ends.orRaise ((stops_prefixedCandidates k _).seq fun _ => trivial)

theorem stops_candidates (d : Desc) : Stops v (candidates v d) :=
  Ends.orRaise <| (stops_readBytes v _ _).seq fun t => by
    cases d.form with
    | single => exact stops_singleCandidates v _ t
    | prefixed => exact stops_prefixedCandidates v _ t

theorem stops_readDescs : ∀ a n : Nat, Stops v (readDescs v a n)
  | _, 0 => trivial
  | a, n + 1 => (stops_readDesc v a).seq fun _ => (stops_readDescs (a + 16) n).seq fun _ => trivial

theorem stops_readRule (a : Nat) (layer : Layer) : Stops v (readRule v a layer) :=
  (stops_readBytes v a 8).seq fun _ => Ends.orRaise <| Ends.orRaise <|
    (stops_readDescs v _ _).seq fun _ => Ends.orRaise trivial

theorem stops_findDevice (id : Nat) : ∀ a n : Nat, Stops v (findDevice v id a n)
  | _, 0 => trivial
  | a, n + 1 => (stops_readNat v a 4).seq fun _ => Ends.ite (fun _ => trivial) fun _ => stops_findDevice id (a + 32) n

theorem stops_lookupDevice : Stops v (lookupDevice v r) := stops_findDevice v _ _ _

theorem stops_ruleList (dev : Nat) (layer : Layer) : Stops v (ruleList v dev layer) :=
  (stops_readNat v _ _).seq fun _ => (stops_readNat v _ _).seq fun _ => trivial

theorem stops_readEntries : ∀ a n : Nat, Stops v (readEntries v a n)
  | _, 0 => trivial
  | a, n + 1 =>
    (stops_readBytes v a 8).seq fun _ => (stops_readBytes v _ _).seq fun _ =>
      (stops_readEntries (a + 8) n).seq fun _ => trivial

theorem stops_readColumns : Stops v (readColumns v r) :=
  (stops_readNat v _ _).seq fun _ => Ends.orRaise (stops_readEntries v _ _)

/-- What `WriteColumns` lets through is in memory. -/
theorem ends_writeColumns (cols : List Col) : Ends v (WriteFits v.size) (writeColumns v r cols) :=
  Ends.orRaise <| (ends_checkRange v _ _).bind fun _ h => by
    right
    rcases h with h | h
    · simp [ctxNeed] at h
    · simpa [length_colImage] using h

/-- What the output check lets through is in memory. -/
theorem ends_writeOut (out : Bytes) : Ends v (WriteFits v.size) (writeOut v r out) :=
  Ends.orRaise <| (ends_checkRange v _ _).bind fun _ h => h.imp_left List.eq_nil_of_length_eq_zero

/-! ## Actions and predicates -/

theorem stops_cactIndex (c : Bytes) (d : Desc) : Stops v (cactIndex v c d) :=
  (stops_candidates v d).seq fun _ => by split <;> exact trivial

theorem stops_cactLsb (c : Bytes) (d : Desc) : Stops v (cactLsb c d) :=
  Ends.orRaise <| Ends.orRaise <| Ends.ite (fun _ => trivial) fun _ => trivial

theorem stops_cactDevIid (iid c : Bytes) (d : Desc) : Stops v (cactDevIid iid c d) :=
  Ends.orRaise <| Ends.orRaise <| Ends.orRaise trivial

theorem stops_cactValue (c : Bytes) (d : Desc) : Stops v (cactValue c d) := Ends.orRaise trivial

theorem stops_compressField (iid c : Bytes) (d : Desc) : Stops v (compressField v iid c d) := by
  unfold compressField
  match d.cda with
  | .sendValue => exact stops_cactValue v c d
  | .sendIndex => exact stops_cactIndex v c d
  | .sendLsb => exact stops_cactLsb v c d
  | .deriveDevIid => exact stops_cactDevIid v iid c d
  | .omit | .deferLength | .deferChecksum | .deriveAppIid => trivial

theorem stops_residueSize (d : Desc) : Stops v (residueSize d) := by
  unfold residueSize
  match d.cda with
  | .sendLsb => exact Ends.orRaise (Ends.ite (fun _ => trivial) fun _ => trivial)
  | .omit | .sendValue | .sendIndex | .deferLength | .deferChecksum | .deriveDevIid | .deriveAppIid => trivial

theorem stops_dactOmit (src : Bytes) (d : Desc) : Stops v (dactOmit v src d) :=
  (stops_targetValue v d).seq fun _ => trivial

theorem stops_dactValue (src : Bytes) (d : Desc) : Stops v (dactValue src d) := Ends.orRaise trivial

theorem stops_dactIndex (src : Bytes) (d : Desc) : Stops v (dactIndex v src d) :=
  (stops_candidates v d).seq fun _ => by
    cases src with
    | nil => trivial
    | cons i _ => dsimp only; split <;> exact trivial

theorem stops_dactLsb (src : Bytes) (d : Desc) : Stops v (dactLsb v src d) :=
  Ends.orRaise <| (stops_targetValue v d).seq fun _ => Ends.ite (fun _ => trivial) fun _ => Ends.orRaise trivial

theorem stops_dactDevIid (iid src : Bytes) (d : Desc) : Stops v (dactDevIid iid src d) := Ends.orRaise trivial

theorem stops_decompressField (iid src : Bytes) (d : Desc) : Stops v (decompressField v iid src d) := by
  unfold decompressField
  match d.cda with
  | .omit => exact stops_dactOmit v src d
  | .sendValue => exact stops_dactValue v src d
  | .sendIndex => exact stops_dactIndex v src d
  | .sendLsb => exact stops_dactLsb v src d
  | .deriveDevIid => exact stops_dactDevIid v iid src d
  | .deferLength | .deferChecksum | .deriveAppIid => trivial

theorem stops_predEqual (c : Bytes) (d : Desc) : Stops v (predEqual v c d) :=
  (stops_targetValue v d).seq fun _ => trivial

theorem stops_predMsb (c : Bytes) (d : Desc) : Stops v (predMsb v c d) :=
  Ends.orRaise <| Ends.ite (fun _ => stops_predEqual v c d) fun _ => (stops_targetValue v d).seq fun _ => trivial

theorem stops_predMap (c : Bytes) (d : Desc) : Stops v (predMap v c d) :=
  (stops_candidates v d).seq fun _ => by split <;> exact trivial

theorem stops_predDispatch (c : Bytes) (d : Desc) : Stops v (predDispatch v c d) := by
  unfold predDispatch
  cases d.mo with
  | equal => exact stops_predEqual v c d
  | ignore => trivial
  | msb => exact stops_predMsb v c d
  | map => exact stops_predMap v c d

/-! ## Headers -/

theorem stops_assemble6 (cols : List Col) (dir : PacketDir) : Stops v (assemble6 cols dir) :=
  Ends.orRaise <| by split <;> exact trivial

theorem stops_assembleU (cols : List Col) (dir : PacketDir) : Stops v (assembleU cols dir) :=
  Ends.orRaise <| by split <;> exact trivial

theorem stops_splitMarker (rest : List Col) : Stops v (splitMarker rest) := by
  unfold splitMarker
  split
  · exact Ends.ite (fun _ => Ends.ite (fun _ => trivial) fun _ => trivial) fun _ => trivial
  · trivial

theorem stops_columnOptions (table : List Nat) : ∀ (prev : Nat) (cols : List Col),
    Stops v (columnOptions table prev cols)
  | _, [] => trivial
  | _, _ :: rest =>
    Ends.ite (fun _ => (stops_columnOptions table _ rest).seq fun _ => trivial) fun _ => trivial

theorem stops_assembleC (cols : List Col) : Stops v (assembleC v cols) := by
  unfold assembleC
  split
  · exact Ends.orRaise <| Ends.orRaise <| Ends.orRaise <| (stops_splitMarker v _).seq fun _ =>
      (stops_columnOptions v _ _ _).seq fun _ => trivial
  · trivial

theorem stops_assemble (layer : Layer) (cols : List Col) (dir : PacketDir) : Stops v (assemble v layer cols dir) := by
  cases layer with
  | ip6 => exact stops_assemble6 v cols dir
  | udp => exact stops_assembleU v cols dir
  | coap => exact stops_assembleC v cols

/-! ## Rules and layers -/

theorem stops_fieldsMatch : ∀ (fs : List Desc) (cs : List Col), Stops v (fieldsMatch v fs cs)
  | [], [] => trivial
  | [], _ :: _ => trivial
  | _ :: _, [] => trivial
  | f :: fs, c :: cs =>
    Ends.ite (fun _ => trivial) fun _ => (stops_predDispatch v c.val f).seq fun _ =>
      Ends.ite (fun _ => stops_fieldsMatch fs cs) fun _ => trivial

theorem stops_ruleMatches (rule : Rule) (cols : List Col) (dir : PacketDir) : Stops v (ruleMatches v rule cols dir) :=
  Ends.ite (fun _ => trivial) fun _ => stops_fieldsMatch v _ _

theorem stops_selectFrom (layer : Layer) (cols : List Col) (dir : PacketDir) : ∀ list n : Nat,
    Stops v (selectFrom v layer cols dir list n)
  | _, 0 => trivial
  | list, n + 1 =>
    (stops_readNat v list 4).seq fun a => (stops_readRule v a layer).seq fun rule =>
      (stops_ruleMatches v rule cols dir).seq fun _ =>
        Ends.ite (fun _ => trivial) fun _ => stops_selectFrom layer cols dir (list + 4) n

theorem stops_selectRule (dev : Nat) (layer : Layer) (cols : List Col) (dir : PacketDir) :
    Stops v (selectRule v dev layer cols dir) :=
  (stops_ruleList v dev layer).seq fun _ => stops_selectFrom v layer cols dir _ _

theorem stops_compressFields (iid : Bytes) : ∀ (fs : List Desc) (cs : List Col), Stops v (compressFields v iid fs cs)
  | [], _ => trivial
  | _ :: _, [] => trivial
  | f :: fs, c :: cs =>
    Ends.orRaise <| (stops_compressField v iid c.val f).seq fun _ =>
      (stops_compressFields iid fs cs).seq fun _ => trivial

theorem stops_compressLayer (iid : Bytes) (rule : Rule) (cols : List Col) (dir : PacketDir) :
    Stops v (compressLayer v iid rule cols dir) := Ends.orRaise (stops_compressFields v iid _ _)

theorem stops_decompressFields (iid : Bytes) : ∀ (fs : List Desc) (src : Bytes), Stops v (decompressFields v iid fs src)
  | [], _ => trivial
  | f :: fs, src =>
    (stops_decompressField v iid src f).seq fun _ => (stops_decompressFields iid fs _).seq fun _ => trivial

theorem stops_decompressLayer (iid : Bytes) (rule : Rule) (src : Bytes) (dir : PacketDir) :
    Stops v (decompressLayer v iid rule src dir) := stops_decompressFields v iid _ src

theorem stops_findRuleFrom (layer : Layer) (id : Nat) : ∀ list n : Nat, Stops v (findRuleFrom v layer id list n)
  | _, 0 => trivial
  | list, n + 1 =>
    (stops_readNat v list 4).seq fun a => (stops_readRule v a layer).seq fun _ =>
      Ends.ite (fun _ => trivial) fun _ => stops_findRuleFrom layer id (list + 4) n

theorem stops_findRule (dev : Nat) (layer : Layer) (id : Nat) : Stops v (findRule v dev layer id) :=
  (stops_ruleList v dev layer).seq fun _ => stops_findRuleFrom v layer id _ _

/-! ## Packets -/

/-- The patch of a packet goes through only where it has both headers (46_pipeline.md R256, R257). -/
theorem ends_checkPatchLength (n : Nat) : Ends v (fun _ => 48 ≤ n) (checkPatchLength n) :=
  Ends.unless fun h => by simp only [ends_ok]; omega

theorem ends_patchLen (buf : Bytes) : Ends v (fun _ => 48 ≤ buf.length) (patchLen buf) :=
  (ends_checkPatchLength v _).bind fun _ h => h

theorem ends_patchChk (buf : Bytes) : Ends v (fun _ => 48 ≤ buf.length) (patchChk buf) :=
  (ends_checkPatchLength v _).bind fun _ h => Ends.ite (fun _ => h) fun _ => h

/-- The three errors that `COMP` catches (R252) are errors it could have come to. -/
theorem stops_packLayer (dev : Nat) (layer : Layer) (cols : List Col) (dir : PacketDir) :
    Stops v (packLayer v r dev layer cols dir) :=
  Ends.orRaise <| (stops_selectRule v dev layer cols dir).seq fun found => by
    cases found with
    | none => trivial
    | some p =>
      have h := stops_compressLayer v (nodeIid r) p.2 cols dir
      dsimp only
      split
      · trivial
      · exact Ends.ite (fun _ => trivial) fun _ => trivial
      · next stop hne hx => rw [hx] at h; cases stop <;> exact h

theorem stops_compressPacket (dev : Nat) (pkt : Bytes) (dir : PacketDir) :
    Stops v (compressPacket v r dev pkt dir) := by
  dsimp only [compressPacket]
  cases coapParse v (pkt.drop 48) with
  | none =>
    exact Ends.seq (P := fun _ => True) trivial fun _ => (stops_packLayer v r dev .udp _ dir).seq fun _ =>
      (stops_packLayer v r dev .ip6 _ dir).seq fun _ => trivial
  | some p =>
    exact (stops_packLayer v r dev .coap _ dir).seq fun _ => (stops_packLayer v r dev .udp _ dir).seq fun _ =>
      (stops_packLayer v r dev .ip6 _ dir).seq fun _ => trivial

theorem stops_checkRegions : Stops v (checkRegions v r) :=
  (ends_checkRange v _ _).seq fun _ => (ends_checkRange v _ _).stops

theorem stops_namedRule (dev : Nat) (layer : Layer) (id : Nat) : Stops v (namedRule v dev layer id) :=
  Ends.ite (fun _ => trivial) fun _ => (stops_findRule v dev layer id).seq fun _ => trivial

theorem stops_residueSum : ∀ fs : List Desc, Stops v (residueSum fs)
  | [] => trivial
  | f :: fs => (stops_residueSize v f).seq fun _ => (stops_residueSum fs).seq fun _ => trivial

theorem stops_partSize (n : Nat) (rule : Option Rule) (dir : PacketDir) : Stops v (partSize n rule dir) := by
  cases rule with
  | none => trivial
  | some rl => exact stops_residueSum v _

theorem stops_unpackLayer (layer : Layer) (rule : Option Rule) (src : Bytes) (dir : PacketDir) :
    Stops v (unpackLayer v r layer rule src dir) := by
  cases rule with
  | none => trivial
  | some rl =>
    exact (stops_decompressLayer v _ rl src dir).seq fun _ => Ends.orRaise <|
      (stops_assemble v layer _ dir).seq fun _ => trivial

theorem stops_decompressPacket (dev : Nat) (src : Bytes) (dir : PacketDir) :
    Stops v (decompressPacket v r dev src dir) :=
  (stops_namedRule v dev .coap _).seq fun _ => (stops_namedRule v dev .udp _).seq fun _ =>
    (stops_namedRule v dev .ip6 _).seq fun _ => (stops_partSize v _ _ _).seq fun _ =>
      (stops_partSize v _ _ _).seq fun _ => Ends.orRaise <| (stops_unpackLayer v r .coap _ _ dir).seq fun _ =>
        (stops_unpackLayer v r .udp _ _ dir).seq fun _ => (stops_unpackLayer v r .ip6 _ _ dir).seq fun _ => trivial

end
end Sys2Proof.Machine
end

section
/-! What every command's computation and every completion can do, whatever the command. -/

namespace Sys2Proof.Machine

/-! ## The writes of an effect -/

theorem fits_nil {size a b : Nat} : Effect.Fits size ⟨[], a, b⟩ := by simp [Effect.Fits]

theorem fits_cons {size a b : Nat} {w : Nat × Bytes} {ws : List (Nat × Bytes)} (h : WriteFits size w)
    (ht : Effect.Fits size ⟨ws, a, b⟩) : Effect.Fits size ⟨w :: ws, a, b⟩ := by
  simpa [Effect.Fits] using And.intro h ht

theorem fits_single {size a b : Nat} {w : Nat × Bytes} (h : WriteFits size w) : Effect.Fits size ⟨[w], a, b⟩ :=
  fits_cons h fits_nil

/-- Stores of bytes that exist list no other byte. -/
theorem within_storeAll {size : Nat} (ws : List (Nat × Bytes)) : ∀ {m : Memory}, m.within size = true →
    (∀ w ∈ ws, WriteFits size w) → (storeAll m ws).within size = true := by
  induction ws with
  | nil => intro m h _; exact h
  | cons w rest ih =>
    intro m h hw
    exact ih (Memory.within_put _ _ h (hw w (by simp))) fun x hx => hw x (by simp [hx])

/-! ## The computation of every command -/

/-- Every byte of a range exists (R50), or it has none (R52). -/
def Range.Fits (size : Nat) (g : Range) : Prop := g.len = 0 ∨ g.base + g.len ≤ size

section
variable (v : View) (r : Regs)

/-- A bit command that has checked its destination writes bytes that exist. -/
theorem ends_bitWriter {checks : View → Regs → Comp Unit} {result : Memory → Regs → Memory}
    (h : Ends v (fun _ => (rangeD r).Fits v.size) (checks v r)) :
    Ends v (Effect.Fits v.size) ((bitWriter checks result).run v r) :=
  h.bind fun _ hd => fits_single (by
    rcases hd with hd | hd
    · left; simp [hd, Memory.read]
    · right; simpa [Memory.length_read] using hd)

theorem ends_checkD : Ends v (fun _ => (rangeD r).Fits v.size) (checkD v r) :=
  ends_checkRange v _ _

theorem ends_checkABD :
    Ends v (fun _ => (rangeD r).Fits v.size) (checkABD v r) :=
  (stops_checkBits v _ _ _).seq fun _ => (stops_checkBits v _ _ _).seq fun _ => (ends_checkD v r).bind fun _ hd =>
    (stops_sense v _).seq fun _ => (stops_sense v _).mono fun _ _ => hd

theorem ends_shifter (f : Nat → Nat → Nat → Nat) : Ends v (Effect.Fits v.size) ((shifter f).run v r) :=
  (ends_readBytes v _ _).bind fun _ h => fits_single (by
    rcases h.2 with h | h
    · left; simp [h, bytesBE]
    · right; simpa using h)

theorem ends_predicateCommand {p : View → Bytes → Desc → Comp (Bool × Nat)} (h : ∀ c d, Stops v (p v c d)) :
    Ends v (Effect.Fits v.size) ((predicateCommand p).run v r) :=
  (stops_readDesc v _).seq fun d => (stops_readBytes v _ _).seq fun c => (h c d).seq fun _ => fits_nil

theorem ends_compressCommand {act : View → Regs → Bytes → Desc → Comp Bytes} (h : ∀ c d, Stops v (act v r c d)) :
    Ends v (Effect.Fits v.size) ((compressCommand act).run v r) :=
  (stops_readDesc v _).seq fun d => (stops_readBytes v _ _).seq fun c => (h c d).seq fun res =>
    (ends_writeOut v r res).bind fun _ hw => fits_single hw

theorem ends_decompressCommand {act : View → Regs → Bytes → Desc → Comp (Nat × Bytes)}
    (h : ∀ c d, Stops v (act v r c d)) : Ends v (Effect.Fits v.size) ((decompressCommand act).run v r) :=
  (stops_readDesc v _).seq fun d => (stops_readBytes v _ _).seq fun c => (h c d).seq fun res =>
    (ends_writeOut v r res.2).bind fun _ hw => fits_single hw

theorem ends_flattenCommand (n : Nat) (f : Bytes → PacketDir → List Col) :
    Ends v (Effect.Fits v.size) ((flattenCommand n f).run v r) :=
  (stops_checkDir v r).seq fun _ => (stops_readBytes v _ _).seq fun _ =>
    (ends_writeColumns v r _).bind fun _ hw => fits_single hw

theorem ends_flatc : Ends v (Effect.Fits v.size) (cmdFlatc.run v r) :=
  (stops_readBytes v _ _).seq fun m => by
    cases coapParse v m with
    | none => trivial
    | some p => exact (ends_writeColumns v r _).bind fun _ hw => fits_single hw

theorem ends_getb : Ends v (Effect.Fits v.size) (cmdGetb.run v r) :=
  Ends.orRaise <| (stops_checkBits v _ _ _).seq fun _ => (stops_sense v _).seq fun _ => fits_nil

theorem ends_cmpb : Ends v (Effect.Fits v.size) (cmdCmpb.run v r) :=
  (stops_checkBits v _ _ _).seq fun _ => (stops_checkBits v _ _ _).seq fun _ => (stops_sense v _).seq fun _ =>
    (stops_sense v _).seq fun _ => fits_nil

theorem ends_cpyb : Ends v (Effect.Fits v.size) (cmdCpyb.run v r) :=
  ends_bitWriter v r <| (stops_checkBits v _ _ _).seq fun _ => (ends_checkD v r).bind fun _ hd =>
    (stops_sense v _).mono fun _ _ => hd

theorem ends_rsel : Ends v (Effect.Fits v.size) (cmdRsel.run v r) :=
  (stops_checkLayer v r).seq fun layer => (stops_checkDir v r).seq fun dir => (stops_lookupDevice v r).seq fun dev =>
    (stops_readColumns v r).seq fun cols => (stops_selectRule v dev layer cols dir).seq fun found => by
      cases found with
      | none => exact fits_nil
      | some p => exact fits_nil

theorem ends_clayer : Ends v (Effect.Fits v.size) (cmdClayer.run v r) :=
  (stops_checkLayer v r).seq fun layer => (stops_checkDir v r).seq fun dir => (stops_readRule v _ layer).seq fun rule =>
    (stops_readColumns v r).seq fun cols => (stops_compressLayer v _ rule cols dir).seq fun res =>
      (ends_writeOut v r res).bind fun _ hw => fits_single hw

theorem ends_dlayer : Ends v (Effect.Fits v.size) (cmdDlayer.run v r) :=
  (stops_checkLayer v r).seq fun layer => (stops_checkDir v r).seq fun dir => (stops_readRule v _ layer).seq fun rule =>
    (stops_readBytes v _ _).seq fun src => (stops_decompressLayer v _ rule src dir).seq fun p =>
      (stops_assemble v layer p.2 dir).seq fun h => Ends.orRaise <| (ends_writeOut v r h).bind fun _ ho =>
        (ends_writeColumns v r _).bind fun _ hc => fits_cons hc (fits_single ho)

theorem ends_comp : Ends v (Effect.Fits v.size) (cmdComp.run v r) :=
  (stops_checkDir v r).seq fun dir => Ends.orRaise <| Ends.orRaise <| (stops_checkRegions v r).seq fun _ =>
    (stops_readBytes v _ _).seq fun pkt => (stops_lookupDevice v r).seq fun dev =>
      (stops_compressPacket v r dev pkt dir).seq fun p =>
        (ends_writeOut v r p.2).bind fun _ hw => fits_single hw

theorem ends_decomp : Ends v (Effect.Fits v.size) (cmdDecomp.run v r) :=
  (stops_checkDir v r).seq fun dir => Ends.orRaise <| (stops_checkRegions v r).seq fun _ =>
    (stops_readBytes v _ _).seq fun src => (stops_lookupDevice v r).seq fun dev =>
      (stops_decompressPacket v r dev src dir).seq fun out => Ends.orRaise <| (ends_patchLen v out).seq fun p =>
        (ends_patchChk v p.1).seq fun q => (ends_writeOut v r q.1).bind fun _ hw => fits_single hw

theorem ends_ridpk : Ends v (Effect.Fits v.size) (cmdRidpk.run v r) := Ends.orRaise fits_nil

theorem ends_ridunpk : Ends v (Effect.Fits v.size) (cmdRidunpk.run v r) := Ends.orRaise fits_nil

/-- The patched bytes of a packet of at least 48 bytes lie in the packet. -/
theorem writeFits_slice {size a n i j : Nat} {buf : Bytes} (ha : n = 0 ∨ a + n ≤ size) (hn : 48 ≤ n) (hi : i ≤ 46) :
    WriteFits size (a + i, slice buf j 2) := by
  right
  have : (slice buf j 2).length ≤ 2 := List.length_take_le _ _
  simp only; omega

theorem ends_plen : Ends v (Effect.Fits v.size) (cmdPlen.run v r) :=
  (ends_readBytes v _ _).bind fun buf ⟨hl, ha⟩ => (ends_patchLen v buf).bind fun _ hp =>
    fits_cons (writeFits_slice ha (hl ▸ hp) (by decide)) (fits_single (writeFits_slice ha (hl ▸ hp) (by decide)))

theorem ends_pchk : Ends v (Effect.Fits v.size) (cmdPchk.run v r) :=
  (ends_readBytes v _ _).bind fun buf ⟨hl, ha⟩ => (ends_patchChk v buf).bind fun _ hp =>
    fits_single (writeFits_slice ha (hl ▸ hp) (by decide))

end

/-- Every command's computation ends in writes of bytes that exist, or stops for a reason that the view gives. -/
theorem ends_run (i : Instr) (v : View) (r : Regs) : Ends v (Effect.Fits v.size) ((commandOf i).run v r) := by
  cases i with
  | getb => exact ends_getb v r
  | setb | clrb => exact ends_bitWriter v r (ends_checkD v r)
  | cpyb => exact ends_cpyb v r
  | cmpb => exact ends_cmpb v r
  | shlb | shrb => exact ends_shifter v r _
  | xorb | andb => exact ends_bitWriter v r (ends_checkABD v r)
  | meq => exact ends_predicateCommand v r (stops_predEqual v)
  | mign => exact ends_predicateCommand v r fun _ _ => trivial
  | mmsb => exact ends_predicateCommand v r (stops_predMsb v)
  | mmap => exact ends_predicateCommand v r (stops_predMap v)
  | mdisp => exact ends_predicateCommand v r (stops_predDispatch v)
  | cVal => exact ends_compressCommand v r (stops_cactValue v)
  | cMap => exact ends_compressCommand v r (stops_cactIndex v)
  | cLsb => exact ends_compressCommand v r (stops_cactLsb v)
  | cDeviid => exact ends_compressCommand v r (stops_cactDevIid v _)
  | cOmit | cDlen | cDchk | cAppiid => exact ends_compressCommand v r fun _ _ => trivial
  | dOmit => exact ends_decompressCommand v r (stops_dactOmit v)
  | dVal => exact ends_decompressCommand v r (stops_dactValue v)
  | dMap => exact ends_decompressCommand v r (stops_dactIndex v)
  | dLsb => exact ends_decompressCommand v r (stops_dactLsb v)
  | dDeviid => exact ends_decompressCommand v r (stops_dactDevIid v _)
  | dDlen | dDchk | dAppiid => exact ends_decompressCommand v r fun _ _ => trivial
  | rsel => exact ends_rsel v r
  | clayer => exact ends_clayer v r
  | dlayer => exact ends_dlayer v r
  | flat6 | flatu => exact ends_flattenCommand v r _ _
  | flatc => exact ends_flatc v r
  | ridpk => exact ends_ridpk v r
  | ridunpk => exact ends_ridunpk v r
  | comp => exact ends_comp v r
  | decomp => exact ends_decomp v r
  | plen => exact ends_plen v r
  | pchk => exact ends_pchk v r

theorem rangesMeet_guardOf_nil {i : Instr} {r : Regs} (h : guardOf i r = []) : rangesMeet (regionsOf i r) = false := by
  unfold regionsOf
  split
  · next hi => subst hi; cases h
  · rw [h]; rfl

/-- In a state, every command computes writes of bytes that exist, or stops for a reason that its view gives. -/
theorem ends_compute (i : Instr) (s : State) :
    Ends (viewOf i s) (Effect.Fits s.params.memSize) ((commandOf i).compute s) := by
  cases hm : rangesMeet (regionsOf i s.snap.regs) with
  | false => rw [compute_eq_run i s hm]; exact ends_run i (viewOf i s) s.snap.regs
  | true =>
    unfold Command.compute
    rw [view_eq_viewOf]
    refine Ends.ite (fun _ hg => ?_) fun _ => ends_run i (viewOf i s) s.snap.regs
    rw [rangesMeet_guardOf_nil hg] at hm
    exact Bool.noConfusion hm

/-- A command whose host kept its duty reads no byte that the host wrote. -/
theorem compute_ne_raced {i : Instr} {s : State} (h : s.raced = []) : (commandOf i).compute s ≠ .error .raced :=
  fun hc => (ends_compute i s).raced_of_raced hc (by rw [viewOf, h]; rfl)

/-- A command without a region of its own meets none. -/
theorem compute_ne_overlap {i : Instr} {s : State} (h : guardOf i s.snap.regs = []) :
    (commandOf i).compute s ≠ .error .overlap :=
  fun hc => (ends_compute i s).guard_of_overlap hc h

end Sys2Proof.Machine
end

section
/-! `STATUS` after a completion, and everything a completion leaves. -/

namespace Sys2Proof.Machine

/-! ## `STATUS` (10_state.md R30 to R33, 60_exceptions.md R280, R283) -/

theorem and_ovr_bit (w : Word) : w &&& 0x8#32 = if w.getLsbD 3 then 0x8#32 else 0#32 := by
  apply BitVec.eq_of_getLsbD_eq
  intro k _
  rw [BitVec.getLsbD_and, show (0x8#32 : Word) = BitVec.twoPow 32 3 from rfl, BitVec.getLsbD_twoPow]
  by_cases h : 3 = k
  · subst h; cases w.getLsbD 3 <;> decide
  · simp [h]; split <;> simp [h]

theorem statusError_eq (w : Word) (e : Err) :
    statusError w e.code = BitVec.ofNat 32 (0x6 + e.code * 0x100 + if w.getLsbD 3 then 0x8 else 0) := by
  unfold statusError
  rw [and_ovr_bit]
  split <;> cases e <;> decide

theorem failedState_status (s : State) (e : Err) : (failedState s e).status = statusError s.status e.code :=
  (statusError_eq s.status e).symm

@[simp] theorem statusDone_statusOk (w : Word) : statusDone (statusOk w) = true := by
  rw [statusOk_eq]; split <;> rfl

@[simp] theorem statusErr_statusOk (w : Word) : statusErr (statusOk w) = false := by
  rw [statusOk_eq]; split <;> rfl

theorem statusOvr_statusOk (w : Word) : statusOvr (statusOk w) = statusOvr w := by
  rw [statusOk_eq, statusOvr, statusOvr]; cases w.getLsbD 3 <;> rfl

@[simp] theorem statusDone_statusError (w : Word) (e : Err) : statusDone (statusError w e.code) = true := by
  rw [statusError_eq]; split <;> cases e <;> rfl

theorem statusOvr_statusError (w : Word) (e : Err) : statusOvr (statusError w e.code) = statusOvr w := by
  rw [statusError_eq, statusOvr, statusOvr]; cases w.getLsbD 3 <;> cases e <;> rfl

/-- `STATUS` after a completion: R32's without an error, or R283's with one of the codes of R280. -/
def CompletedStatus (old new : Word) : Prop := new = statusOk old ∨ ∃ e : Err, new = statusError old e.code

namespace CompletedStatus

variable {old new : Word}

theorem done (h : CompletedStatus old new) : statusDone new = true := by
  rcases h with rfl | ⟨e, rfl⟩ <;> simp

theorem ovr (h : CompletedStatus old new) : statusOvr new = statusOvr old := by
  rcases h with rfl | ⟨e, rfl⟩
  · exact statusOvr_statusOk old
  · exact statusOvr_statusError old e

/-- Such a `STATUS` is as R33 says, in an idle engine. -/
theorem legal {t : State} (h : CompletedStatus old t.status) (hf : t.fsm = .idle) : StatusLegal t := by
  unfold StatusLegal
  rw [hf]
  rcases h with h | ⟨e, h⟩ <;> rw [h]
  · rw [statusOk_eq]; split <;> decide
  · rw [statusError_eq]; split <;> cases e <;> decide

end CompletedStatus

/-- The ERRCODE that a computation reports is none or one of R280. -/
theorem completedStatus_of_report {x : Comp Effect} {q : Report} (w : Word) (h : reportOf x = some q) :
    CompletedStatus w (statusOfCode w q.code) := by
  rcases reportOf_cases x with ⟨e, -, hr⟩ | ⟨e, -, hr⟩ | ⟨-, hr⟩ | ⟨-, hr⟩ <;> rw [hr] at h <;> cases h
  · exact Or.inl rfl
  · exact Or.inr ⟨e, by cases e <;> rfl⟩

/-! A dropped issue sets OVR and nothing else (R31). -/

theorem statusOvr_statusDropped (w : Word) : statusOvr (statusDropped w) = true := by
  simp [statusOvr, statusDropped]

theorem getLsbD_statusDropped (w : Word) {k : Nat} (hk : k ≠ 3) : (statusDropped w).getLsbD k = w.getLsbD k := by
  rw [statusDropped, BitVec.getLsbD_or, show (0x8#32 : Word) = BitVec.twoPow 32 3 from rfl, BitVec.getLsbD_twoPow]
  simp [hk.symm]

theorem statusErrCode_eq (w : Word) : statusErrCode w = (w.extractLsb' 8 8).toNat := by
  simp [statusErrCode, BitVec.extractLsb'_toNat, Nat.shiftRight_eq_div_pow]

theorem statusErrCode_statusDropped (w : Word) : statusErrCode (statusDropped w) = statusErrCode w := by
  rw [statusErrCode_eq, statusErrCode_eq]
  congr 1
  ext k hk
  simp [BitVec.getElem_extractLsb', getLsbD_statusDropped w (k := 8 + k) (by omega)]

theorem statusReserved_statusDropped (w : Word) : statusReserved (statusDropped w) = statusReserved w := by
  apply BitVec.eq_of_getLsbD_eq
  intro k _
  rw [statusReserved, statusReserved, BitVec.getLsbD_and, BitVec.getLsbD_and]
  by_cases h3 : k = 3
  · subst h3; simp
  · rw [getLsbD_statusDropped w h3]

theorem statusLegal_dropIssue {s : State} (h : StatusLegal s) : StatusLegal s.dropIssue := by
  unfold StatusLegal
  simp only [statusBusy, statusDone, statusErr, State.dropIssue_status, State.dropIssue_fsm,
    statusErrCode_statusDropped, statusReserved_statusDropped, getLsbD_statusDropped s.status (k := 0) (by decide),
    getLsbD_statusDropped s.status (k := 1) (by decide), getLsbD_statusDropped s.status (k := 2) (by decide)]
  exact h

/-! ## Completion -/

/-- What the completion of a running command leaves, whatever the command: an idle engine with the registers, the
parameters and the host's side as they were. -/
structure Completes (s t : State) : Prop where
  fsm : t.fsm = .idle
  raced : t.raced = []
  status : CompletedStatus s.status t.status
  params : t.params = s.params
  regs : t.regs = s.regs
  snap : t.snap = s.snap
  events : t.events = s.events
  readData : t.readData = s.readData
  mem : MemoryLegal s → MemoryLegal t

theorem State.clobber_memoryLegal (s : State) (rs : List Range) (h : MemoryLegal s) : MemoryLegal (s.clobber rs) :=
  ⟨State.clobber_wf rs s h.1, by rw [State.clobber_params]; exact State.clobber_within rs s h.2⟩

/-- Letting bytes hold any value first makes no difference to what a completion leaves. -/
theorem Completes.of_clobber {s t : State} {k : Nat} {rs : List Range}
    (h : Completes (State.clobber { s with freeIdx := k } rs) t) : Completes s t where
  fsm := h.fsm
  raced := h.raced
  status := by simpa using h.status
  params := by simpa using h.params
  regs := by simpa using h.regs
  snap := by simpa using h.snap
  events := by simpa using h.events
  readData := by simpa using h.readData
  mem hs := h.mem (State.clobber_memoryLegal _ rs hs)

theorem completes_completeOk {s : State} {e : Effect} (he : e.Fits s.params.memSize) : Completes s (s.completeOk e) :=
  ⟨rfl, rfl, Or.inl rfl, rfl, rfl, rfl, rfl, rfl, fun hs => ⟨wf_storeAll _ hs.1, within_storeAll _ hs.2 he⟩⟩

theorem completes_completeError (s : State) (e : Err) : Completes s (s.completeError e) :=
  ⟨rfl, rfl, Or.inr ⟨e, rfl⟩, rfl, rfl, rfl, rfl, rfl, id⟩

theorem completes_completeRaced {s : State} {result result2 : Word} {code : Nat}
    (h : CompletedStatus s.status (statusOfCode s.status code)) : Completes s (s.completeRaced result result2 code) :=
  ⟨rfl, rfl, h, rfl, rfl, rfl, rfl, rfl, id⟩

/-- A command's next state is a completion. -/
theorem exec_completes {i : Instr} {s t : State} (h : exec i s = .next t) : Completes s t := by
  rw [exec_eq_perform] at h
  have hfit := ends_compute i s
  rcases perform_cases (commandOf i) s with ⟨e, hc, -, hp⟩ | ⟨e, hc, -, hp⟩ | ⟨e, hc, hp⟩ | ⟨-, hp⟩ | ⟨-, hp⟩ <;>
    rw [hp] at h
  · cases h
    exact .of_clobber (completes_completeOk (by simpa using hfit.value_of_ok hc))
  · cases h
    exact .of_clobber (completes_completeOk fits_nil)
  · cases h
    exact .of_clobber (completes_completeError _ e)
  · rcases performRaced_cases (commandOf i) s with ⟨x, y, z, q, -, -, hz, -, hr⟩ | hr <;> rw [hr] at h <;> cases h
    exact .of_clobber (completes_completeRaced (completedStatus_of_report _ hz))
  · cases h

/-- What a command reports whose host kept its duty (20_memory.md R60): its results, or an error's (R32, R283). -/
theorem exec_report {i : Instr} {s t : State} (hu : Undisturbed s) (h : exec i s = .next t) :
    t.status = statusOk s.status ∨
    ∃ e : Err, t.status = statusError s.status e.code ∧ t.result = 0xFFFFFFFF#32 ∧ t.result2 = 0#32 := by
  rw [exec_eq_perform] at h
  rcases perform_cases (commandOf i) s with ⟨e, -, -, hp⟩ | ⟨e, -, -, hp⟩ | ⟨e, -, hp⟩ | ⟨hc, -⟩ | ⟨-, hp⟩
  · rw [hp] at h; cases h; left; simp
  · rw [hp] at h; cases h; left; simp
  · rw [hp] at h; cases h; right; exact ⟨e, by simp, rfl, rfl⟩
  · exact absurd hc (compute_ne_raced hu)
  · rw [hp] at h; cases h

/-- Every command completes, or is refused for R65. -/
theorem exec_next_or_refused (i : Instr) (s : State) :
    (∃ t, exec i s = .next t) ∨ exec i s = .refused .regionOverlap := by
  rw [exec_eq_perform]
  rcases perform_cases (commandOf i) s with ⟨e, -, -, hp⟩ | ⟨e, -, -, hp⟩ | ⟨e, -, hp⟩ | ⟨-, hp⟩ | ⟨-, hp⟩ <;> rw [hp]
  case inr.inr.inr.inl =>
    rcases performRaced_cases (commandOf i) s with ⟨_, _, _, _, -, -, -, -, hr⟩ | hr <;> rw [hr]
    · exact Or.inl ⟨_, rfl⟩
    · exact Or.inr rfl
  case inr.inr.inr.inr => exact Or.inr rfl
  all_goals exact Or.inl ⟨_, rfl⟩

/-- A computation on a state without a race that meets no region has a report. -/
theorem reportOf_isSome {i : Instr} {s : State} (hr : s.raced = []) (hg : guardOf i s.snap.regs = []) :
    ∃ q, reportOf ((commandOf i).compute s) = some q := by
  rcases reportOf_cases ((commandOf i).compute s) with ⟨e, -, h⟩ | ⟨e, -, h⟩ | ⟨h, -⟩ | ⟨h, -⟩
  · exact ⟨_, h⟩
  · exact ⟨_, h⟩
  · exact absurd h (compute_ne_overlap hg)
  · exact absurd h (compute_ne_raced hr)

/-- A command without a region of its own completes, whatever the host wrote. -/
theorem exec_next_of_no_guard {i : Instr} {s : State} (hg : guardOf i s.snap.regs = []) : ∃ t, exec i s = .next t := by
  rw [exec_eq_perform]
  rcases perform_cases (commandOf i) s with ⟨e, -, -, hp⟩ | ⟨e, -, -, hp⟩ | ⟨e, -, hp⟩ | ⟨-, hp⟩ | ⟨hc, -⟩
  · exact ⟨_, hp⟩
  · exact ⟨_, hp⟩
  · exact ⟨_, hp⟩
  · have hq : ∀ k, ∃ q, reportOf ((commandOf i).compute (s.mixed k)) = some q := fun k => reportOf_isSome rfl hg
    obtain ⟨x, hx⟩ := hq s.freeIdx
    obtain ⟨y, hy⟩ := hq (s.freeIdx + 1)
    obtain ⟨z, hz⟩ := hq (s.freeIdx + 2)
    obtain ⟨q, hq⟩ := hq (s.freeIdx + 3)
    rw [hp, performRaced, hx, hy, hz, hq]
    exact ⟨_, rfl⟩
  · exact absurd hc (compute_ne_overlap hg)

/-- A computation that raises `e` completes with `e`. -/
theorem failsWith_of_compute {i : Instr} {s : State} {e : Err} (h : (commandOf i).compute s = .error (.err e)) :
    FailsWith (exec i s) s e :=
  ⟨_, (exec_eq_perform i s).trans (perform_of_err h), rfl, by simp [failedState_status], rfl, rfl⟩

/-- A computation that meets the command's own regions is refused. -/
theorem refused_of_compute {i : Instr} {s : State} (h : (commandOf i).compute s = .error .overlap) :
    exec i s = .refused .regionOverlap := by
  rw [exec_eq_perform, perform, h]

/-! ## The registers of the window -/

/-- The state with other registers at 0x10 to 0x58. -/
def State.withRegs (s : State) (g : Regs) : State := { s with regs := g }

/-- The outcome with other registers at 0x10 to 0x58, if it is a next state. -/
def outcomeWithRegs (g : Regs) : Host.Outcome State Fault Refusal → Host.Outcome State Fault Refusal
  | .next t => .next (t.withRegs g)
  | .fault f => .fault f
  | .refused f => .refused f

theorem clobber_withRegs (g : Regs) (rs : List Range) : ∀ s : State,
    (s.withRegs g).clobber rs = (s.clobber rs).withRegs g := by
  induction rs with
  | nil => intro s; rfl
  | cons r rest ih => intro s; rw [State.clobber, State.clobber, ← ih]; rfl

/-- A completion leaves the registers, so it is the same whatever they hold. -/
theorem performRaced_withRegs (c : Command) (s : State) (g : Regs) :
    performRaced c (s.withRegs g) = outcomeWithRegs g (performRaced c s) := by
  have hm : ∀ k, c.compute ((s.withRegs g).mixed k) = c.compute (s.mixed k) := fun _ => rfl
  have hf : (s.withRegs g).freeIdx = s.freeIdx := rfl
  unfold performRaced
  simp only [hm, hf]
  split
  · next x y z q _ _ _ _ =>
    exact congrArg (fun u : State => Host.Outcome.next (u.completeRaced x.result y.result2 z.code))
      (clobber_withRegs g (c.written (s.mixed (s.freeIdx + 3))) { s with freeIdx := s.freeIdx + 4 })
  · rfl

theorem perform_withRegs (c : Command) (s : State) (g : Regs) :
    perform c (s.withRegs g) = outcomeWithRegs g (perform c s) := by
  have hc : c.compute (s.withRegs g) = c.compute s := rfl
  have hw : c.written (s.withRegs g) = c.written s := rfl
  have hr : (s.withRegs g).raced = s.raced := rfl
  unfold perform
  rw [hc, hw, hr]
  cases c.compute s with
  | ok e =>
    dsimp only
    split <;> rw [clobber_withRegs] <;> rfl
  | error st =>
    cases st with
    | err e => dsimp only; rw [clobber_withRegs]; rfl
    | overlap => rfl
    | raced => exact performRaced_withRegs c s g

end Sys2Proof.Machine
end

section
/-! Every step is one of six kinds, and the statements about the state follow kind by kind. -/

namespace Sys2Proof.Machine

/-! ## The register window (10_state.md R23, R35 to R38) -/

theorem regAt_offset (q : OpReg) : regAt q.offset = .op q := by cases q <;> rfl

theorem offset_lt (q : OpReg) : q.offset < 256 := by cases q <;> decide

theorem offset_aligned (q : OpReg) : q.offset % 4 = 0 := by cases q <;> rfl

theorem eq_zero_of_regAt_cmd {o : Nat} (h : regAt o = .cmd) : o = 0 := by
  unfold regAt at h
  split at h
  · rfl
  all_goals cases h

theorem regAt_unmapped {o : Nat} (h : 0x60 < o) : regAt o = .unmapped := by
  unfold regAt
  split <;> simp at h ⊢

theorem accessOk_iff {s : State} {a n : Nat} :
    accessOk s a n = true ↔ s.params.regBase ≤ a ∧ n = 4 ∧ (a - s.params.regBase) % 4 = 0 := by
  simp [accessOk, accessWellFormed]

theorem inWindow_iff {s : State} {a n : Nat} :
    inWindow s a n = true ↔ a < s.params.regBase + 256 ∧ s.params.regBase < a + n := by
  simp [inWindow]

/-- An aligned 32-bit access at an offset of the window is let through. -/
theorem access_at (s : State) {o : Nat} (ho : o < 256) (ha : o % 4 = 0) :
    inWindow s (s.params.regBase + o) 4 = true ∧ accessOk s (s.params.regBase + o) 4 = true :=
  ⟨inWindow_iff.2 ⟨by omega, by omega⟩, accessOk_iff.2 ⟨by omega, rfl, by simpa using ha⟩⟩

section
variable {s : State} {o : Nat} {rest : List Event}

theorem step_regWrite {w : Word} (ho : o < 256) (ha : o % 4 = 0)
    (h : s.events = .regWrite (s.params.regBase + o) 4 w :: rest) :
    step s = .next (writeRegister { s with events := rest } o w) := by
  obtain ⟨hw, hk⟩ := access_at { s with events := rest } ho ha
  rw [step_cons h, doEvent, hostRegWrite, if_pos hw, if_pos hk, Nat.add_sub_cancel_left]

theorem step_regRead (ho : o < 256) (ha : o % 4 = 0) (h : s.events = .regRead (s.params.regBase + o) 4 :: rest) :
    step s = .next { s with events := rest, readData := readRegister s o } := by
  obtain ⟨hw, hk⟩ := access_at { s with events := rest } ho ha
  rw [step_cons h, doEvent, hostRegRead, if_pos hw, if_pos hk, Nat.add_sub_cancel_left]
  rfl

end

/-! ## The kinds of a step -/

/-- What a step from `s` to `t` can be. -/
inductive StepKind (s t : State) : Prop
  /-- the host reads, writes a register that is not `CMD`, or accesses what is not the engine's; or the engine waits -/
  | quiet (events : List Event) (regs : Regs) (readData : Word) (freeIdx : Nat)
      (next : t = { s with events := events, regs := regs, readData := readData, freeIdx := freeIdx })
  | accepted (w : Word) (rest : List Event) (event : s.events = .regWrite s.params.regBase 4 w :: rest)
      (idle : s.fsm = .idle) (next : t = State.acceptIssue { s with events := rest } w)
  | dropped (rest : List Event) (busy : s.fsm = .busy) (next : t = State.dropIssue { s with events := rest })
  | stored (a : Nat) (b : Byte) (rest : List Event) (inMemory : a < s.params.memSize)
      (next : t = { s with events := rest, mem := s.mem.put a [b],
                           raced := if s.fsm = .busy then (a, s.mem.get a) :: s.raced else s.raced })
  | reset (rest : List Event) (event : s.events = .reset :: rest) (next : t = State.hostReset { s with events := rest })
  | completed (events : List Event) (turn : s.events = [] ∨ ∃ rest, s.events = .engine :: rest) (busy : s.fsm = .busy)
      (completes : Completes { s with events := events } t)

/-- In its turn an idle engine waits, and a running command completes. -/
theorem engineTurn_waits_or_completes {s t : State} (h : engineTurn s = .next t) :
    t = s ∨ s.fsm = .busy ∧ Completes s t := by
  rcases engineTurn_cases h with ⟨-, rfl⟩ | ⟨hf, i, -, hx⟩ | ⟨hf, -, rfl⟩
  · exact Or.inl rfl
  · exact Or.inr ⟨hf, exec_completes hx⟩
  · exact Or.inr ⟨hf, completes_completeError s _⟩

theorem stepKind_of_engineTurn {s t : State} {events : List Event}
    (turn : s.events = [] ∨ ∃ rest, s.events = .engine :: rest)
    (h : engineTurn { s with events := events } = .next t) : StepKind s t := by
  rcases engineTurn_waits_or_completes h with rfl | ⟨hf, hc⟩
  · exact .quiet _ _ _ _ rfl
  · exact .completed events turn hf hc

/-- A register write that is let through is an issue, or quiet. -/
theorem stepKind_of_writeRegister {s : State} {a n : Nat} {w : Word} {rest : List Event}
    (he : s.events = .regWrite a n w :: rest) (hk : accessOk { s with events := rest } a n = true) :
    StepKind s (writeRegister { s with events := rest } (a - s.params.regBase) w) := by
  obtain ⟨hle, hn, -⟩ := accessOk_iff.1 hk
  rcases writeRegister_cases { s with events := rest } (a - s.params.regBase) w with
    ⟨hc, hf, hw⟩ | ⟨-, hf, hw⟩ | ⟨r, -, hw⟩ | hw <;> rw [hw]
  · have hz := eq_zero_of_regAt_cmd hc
    have ha : a = s.params.regBase := by dsimp only at hle; omega
    exact .accepted w rest (by rw [he, ha, hn]) hf rfl
  · exact .dropped rest hf rfl
  · exact .quiet _ _ _ _ rfl
  · exact .quiet _ _ _ _ rfl

theorem stepKind_of_step {s t : State} (h : step s = .next t) : StepKind s t := by
  cases he : s.events with
  | nil =>
    rw [step_nil he] at h
    exact stepKind_of_engineTurn (events := s.events) (Or.inl he) h
  | cons e rest =>
    rw [step_cons he] at h
    rcases doEvent_cases h with ⟨a, n, w, rfl, rfl | ⟨-, hk, rfl⟩⟩ | ⟨a, n, rfl, rfl | rfl⟩ | ⟨a, b, rfl, ha, rfl⟩ |
      ⟨a, rfl, -, ht⟩ | ⟨rfl, rfl⟩ | ⟨rfl, ht⟩
    · exact .quiet _ _ _ _ rfl
    · exact stepKind_of_writeRegister he hk
    · exact .quiet _ _ _ _ rfl
    · exact .quiet _ _ _ _ rfl
    · exact .stored a b rest ha rfl
    · exact .quiet _ _ _ _ ht
    · exact .reset rest he rfl
    · exact stepKind_of_engineTurn (Or.inr ⟨rest, he⟩) ht

/-! ## The invariant -/

/-- Settles O2: reset has no STATUS bit, no listed byte, no race, and the parameters of log 1 to 4. -/
theorem resetIsLegal : Obligations.ResetIsLegal := by
  unfold Obligations.ResetIsLegal
  decide

/-- Settles O3, kind by kind of step. -/
theorem stepKeepsLegal : Obligations.StepKeepsLegal := by
  intro s t ⟨hs, hm, hr⟩ h
  cases stepKind_of_step h with
  | quiet events regs readData freeIdx ht => subst ht; exact ⟨hs, hm, hr⟩
  | accepted w rest _ _ ht =>
    subst ht
    exact ⟨by simp only [StatusLegal, State.acceptIssue_status, State.acceptIssue_fsm]; decide, hm, fun _ => rfl⟩
  | dropped rest _ ht => subst ht; exact ⟨statusLegal_dropIssue hs, hm, hr⟩
  | stored a b rest ha ht =>
    subst ht
    refine ⟨hs, ⟨Memory.wf_put a [b] hm.1, Memory.within_put a [b] hm.2 (Or.inr ha)⟩, fun hi => ?_⟩
    rw [if_neg (by rw [show s.fsm = .idle from hi]; decide)]
    exact hr hi
  | reset rest _ ht =>
    subst ht
    exact ⟨resetIsLegal.1.1, ⟨State.clobber_wf _ _ hm.1, State.clobber_within _ _ hm.2⟩, fun _ => rfl⟩
  | completed events _ _ hc => exact ⟨hc.status.legal hc.fsm, hc.mem hm, fun _ => hc.raced⟩

/-! ## Issue and completion -/

/-- Settles O8: of the kinds of a step only an accepted issue leaves IDLE, only a completion and reset leave BUSY. -/
theorem fsmTransitions : Obligations.FsmTransitions := by
  refine ⟨fun s hf he => ?_, fun s t hf h hb => ?_, fun s t hf h hi => ?_⟩
  · rw [step_nil he, engineTurn, hf]
  · cases stepKind_of_step h with
    | quiet | stored => subst t; exact absurd (hf.symm.trans hb) (by decide)
    | accepted w rest he _ ht => exact ⟨w, rest, he, by rw [ht]; rfl⟩
    | dropped _ hb' | completed _ _ hb' => exact absurd (hf.symm.trans hb') (by decide)
    | reset _ _ ht => subst ht; cases hb
  · cases stepKind_of_step h with
    | quiet | stored | dropped => subst t; exact absurd (hf.symm.trans hi) (by decide)
    | accepted _ _ _ hi' => exact absurd (hf.symm.trans hi') (by decide)
    | reset rest he => exact Or.inr ⟨rest, he⟩
    | completed _ turn _ hc => exact Or.inl ⟨hc.status.done, turn⟩

/-- Settles O9: a write at offset 0 is an issue, and a kind of step that is no accepted issue and no reset keeps OVR. -/
theorem issueAcceptedOrDropped : Obligations.IssueAcceptedOrDropped := by
  refine ⟨fun s w rest hf he => ?_, fun s w rest hf he => ?_, fun s t h hv => ?_⟩
  · rw [step_regWrite (o := 0) (by decide) rfl he, writeRegister, regAt, State.issue, hf]
    rfl
  · rw [step_regWrite (o := 0) (by decide) rfl he, writeRegister, regAt, State.issue, hf]
    rfl
  · cases stepKind_of_step h with
    | quiet _ _ _ _ ht => subst ht; exact Or.inl hv
    | stored _ _ _ _ ht => subst ht; exact Or.inl hv
    | accepted _ _ _ hi ht => exact Or.inr (Or.inl ⟨hi, by rw [ht]; rfl⟩)
    | dropped _ _ ht => subst ht; exact Or.inl (statusOvr_statusDropped s.status)
    | reset rest he => exact Or.inr (Or.inr ⟨rest, he⟩)
    | completed _ _ _ hc => exact Or.inl (hc.status.ovr.trans hv)

/-- Settles O13: no kind of step but a completion and reset touches the results, and an error reports fixed ones. -/
theorem resultRegistersKept : Obligations.ResultRegistersKept := by
  refine ⟨fun s t h hne => ?_, fun i s t hu h he => ?_⟩
  · cases stepKind_of_step h with
    | quiet | accepted | dropped | stored => subst t; simp at hne
    | reset rest he => exact Or.inr ⟨rest, he⟩
    | completed _ _ hb hc => exact Or.inl ⟨hb, hc.fsm, hc.status.done⟩
  · rcases exec_report hu h with hs | ⟨e, -, hr⟩
    · rw [hs, statusErr_statusOk] at he
      exact absurd he (by decide)
    · exact hr

/-! ## Registers -/

/-- Settles O10: the window stores and reads `Regs`, and a completion commutes with a change of them. -/
theorem operandRegisters : Obligations.OperandRegisters := by
  refine ⟨fun s q w rest he => ?_, fun s q rest he => ?_, fun i s g => ?_⟩
  · rw [step_regWrite (offset_lt q) (offset_aligned q) he, writeRegister, regAt_offset]
    exact ⟨_, rfl, rfl, Regs.get_set_self w s.regs q, fun p hp => Regs.get_set_of_ne w s.regs hp⟩
  · rw [step_regRead (offset_lt q) (offset_aligned q) he, readRegister, regAt_offset]
  · have hx : exec i { s with regs := g } = outcomeWithRegs g (exec i s) := by
      rw [exec_eq_perform, exec_eq_perform]; exact perform_withRegs _ s g
    exact ⟨fun t ht => by rw [hx, ht]; rfl, fun f hf => by rw [hx, hf]; rfl⟩

/-- Settles O11, register by register of the map; every offset above 0x60 is unmapped. -/
theorem fixedRegisters : Obligations.FixedRegisters := by
  refine ⟨fun s o w rest ho he => ?_, fun s o rest he => ⟨fun ho => ?_, ?_, ?_, ?_, ?_, ?_⟩⟩
  · rw [step_regWrite (by omega) (by omega) he]
    rcases ho with rfl | rfl | rfl | rfl | ⟨hlo, -, -⟩
    iterate 4 rfl
    rcases Nat.eq_or_lt_of_le hlo with rfl | hlt
    · rfl
    · rw [writeRegister, regAt_unmapped hlt]
  · rw [step_regRead (by omega) (by omega) he]
    rcases ho with ⟨hlo, -, -⟩ | rfl
    · rw [readRegister, regAt_unmapped (by omega)]
      rfl
    · rfl
  all_goals
    rintro rfl
    rw [step_regRead (by decide) rfl he]
    rfl

/-- Settles O12: such an access touches the window and is not one that `accessOk` lets through. -/
theorem accessShapeRefused : Obligations.AccessShapeRefused := by
  intro s a n w rest hlo hhi hbad
  have hw : inWindow { s with events := rest } a n = true := inWindow_iff.2 ⟨hlo, hhi⟩
  have hk : ¬ accessOk { s with events := rest } a n = true := fun h => by
    have := accessOk_iff.1 h
    dsimp only at this
    omega
  constructor
  · intro he
    rw [step_cons he, doEvent, hostRegWrite, if_pos hw, if_neg hk]
  · intro he
    rw [step_cons he, doEvent, hostRegRead, if_pos hw, if_neg hk]

/-! ## Commands -/

/-- An action whose descriptor lies in its output range meets that range at its first read (20_memory.md R65). -/
theorem readDesc_overlap {v : View} {g : Range} {a : Nat} (hfit : a + 16 ≤ v.size) (hg : v.guard = [g])
    (hn : g.len ≠ 0) (hlo : g.base < a + 16) (hhi : a < g.base + g.len) : readDesc v a = .error .overlap := by
  have ht : touch v a 16 = .error .overlap := by
    rw [touch, if_neg (by omega), if_pos]
    simp [hg, Range.meets, hn, hlo, hhi]
  rw [readDesc, readBytes, ht]
  rfl

/-- An action's one region is its output range, and its first read is the descriptor's (42_compress_actions.md R160,
43_decompress_actions.md R180). -/
theorem action_shape {i : Instr} (hi : i ∈ [.cOmit, .cVal, .cMap, .cLsb, .cDlen, .cDchk, .cDeviid, .cAppiid,
      .dOmit, .dVal, .dMap, .dLsb, .dDlen, .dDchk, .dDeviid, .dAppiid]) (r : Regs) :
    regionsOf i r = [outRange r] ∧ guardOf i r = [outRange r] ∧
    ∀ v st, readDesc v r.bAddr.toNat = .error st → (commandOf i).run v r = .error st := by
  have hc : ∀ act v st, readDesc v r.bAddr.toNat = .error st → (compressCommand act).run v r = .error st :=
    fun _ _ _ h => bind_eq_error.2 (Or.inl h)
  have hd : ∀ act v st, readDesc v r.bAddr.toNat = .error st → (decompressCommand act).run v r = .error st :=
    fun _ _ _ h => bind_eq_error.2 (Or.inl h)
  simp only [List.mem_cons, List.not_mem_nil, or_false] at hi
  rcases hi with rfl | rfl | rfl | rfl | rfl | rfl | rfl | rfl | rfl | rfl | rfl | rfl | rfl | rfl | rfl | rfl
  iterate 8 exact ⟨rfl, rfl, hc _⟩
  iterate 8 exact ⟨rfl, rfl, hd _⟩

/-- Settles O17: a computation stops for R65 only where the command has a region, and does so where its two regions
meet or its first read meets its output range. -/
theorem everyCommandCompletes : Obligations.EveryCommandCompletes := by
  refine ⟨fun i s => ?_, fun i s => exec_next_of_no_guard, fun i s hi hr => ?_, fun i s hi hfit hcap hlo hhi => ?_⟩
  · refine (exec_next_or_refused i s).imp_left fun ⟨t, ht⟩ => ⟨t, ht, ?_⟩
    have hc := exec_completes ht
    exact ⟨hc.fsm, hc.status.done⟩
  · rw [exec_eq_perform]
    simp only [List.mem_cons, List.not_mem_nil, or_false] at hi
    rcases hi with rfl | rfl | rfl | rfl <;> exact perform_of_not_apart rfl rfl hr
  · obtain ⟨hregions, hguard, hrun⟩ := action_shape hi s.snap.regs
    apply refused_of_compute
    rw [compute_eq_run i s (by rw [hregions, rangesMeet_singleton])]
    exact hrun _ _ (readDesc_overlap (v := viewOf i s) (g := outRange s.snap.regs) hfit hguard hcap hlo hhi)

/-- Settles O18: a next state of `exec` is a completion, and without a race it reports the command's own result. -/
theorem completionFrame : Obligations.CompletionFrame := by
  intro i s t h
  have hc := exec_completes h
  refine ⟨hc.fsm, hc.params, hc.regs, hc.snap, hc.events, hc.readData, hc.raced, fun hu => ?_⟩
  rcases exec_report hu h with hs | ⟨e, hs, hr⟩
  · exact Or.inl (hs.trans (statusOk_eq _))
  · exact Or.inr ⟨e, hs.trans (failedState_status s e).symm, hr⟩

/-- A direction-dependent command on reset's registers raises `OPERAND`, whatever it sees: `AUX` is a layer, `DIR` is no
direction, and no region has a byte. -/
theorem compute_on_reset_regs {i : Instr} (hi : i ∈ [.rsel, .clayer, .dlayer, .flat6, .flatu, .comp, .decomp])
    {s : State} (hs : s.snap.regs = Regs.zero) : (commandOf i).compute s = .error (.err .operand) := by
  simp only [List.mem_cons, List.not_mem_nil, or_false] at hi
  rw [compute_eq_run i s (by rw [hs]; rcases hi with rfl | rfl | rfl | rfl | rfl | rfl | rfl <;> decide), hs]
  rcases hi with rfl | rfl | rfl | rfl | rfl | rfl | rfl <;> rfl

/-- Settles O1: on the registers of reset the direction check is the first to raise. -/
theorem resetRegisters : Obligations.ResetRegisters := by
  refine ⟨rfl, rfl, rfl, rfl, fun r => by cases r <;> rfl, rfl, rfl, fun i s m hi hs => ?_⟩
  exact failsWith_of_compute (compute_on_reset_regs hi (by rw [hs]; rfl))

theorem decode_encode (i : Instr) : decode (encode i) = .ok i := by cases i <;> rfl

/-- In its turn a busy engine runs the instruction that its snapshotted word decodes to (10_state.md R32). -/
theorem engineTurn_runs {s : State} {i : Instr} (hf : s.fsm = .busy) (hd : decode s.snap.word = .ok i) :
    engineTurn s = exec i s := by
  rw [engineTurn, hf]
  simp only [hd]

/-- Settles O7: the engine's turn runs the decoded snapshot, and the word of an instruction decodes to it. -/
theorem stepRunsIssuedCommand : Obligations.StepRunsIssuedCommand := by
  refine ⟨fun s i he hf hd => ?_, fun s i rest he hf hd => ?_, fun s i => ?_⟩
  · rw [step_nil he, engineTurn_runs hf hd]
  · rw [step_cons he]
    exact engineTurn_runs (s := { s with events := rest }) hf hd
  · have hw : tableWord 32 (encode i).toNat = encode i := by
      rw [tableWord, Nat.mod_eq_of_lt (encode i).isLt, BitVec.ofNat_toNat, BitVec.setWidth_eq]
    rw [State.withFetchWord, hw, step_nil rfl]
    exact engineTurn_runs rfl (decode_encode i)

end Sys2Proof.Machine
end

section
/-! Which bytes a command reads (20_memory.md R60): its computation stops for a byte that the host wrote only where it
reads one, and else it is the computation of a command whose host wrote none. Said once for every function of memory
that the commands are made of, along with what it finds of the addresses that are read next. -/

namespace Sys2Proof.Machine

/-- Every byte of `Q` is one of `R`. -/
abbrev Within (Q R : Nat → Bool) : Prop := ∀ x, Q x = true → R x = true

/-- `x`, computed on the view `v`, stops for a byte of `R` that the host wrote, or it is `y`, in a value with `P` if it
is a value. -/
def Agrees {α : Type} (v : View) (R : Nat → Bool) (P : α → Prop) (x y : Comp α) : Prop :=
  (x = .error .raced ∧ ∃ a ∈ v.raced, R a = true) ∨ (x = y ∧ ∀ a, x = .ok a → P a)

/-- On the view `v`, `f` stops for a byte of `R` that the host wrote, or it ends as on the view without the host's
writes. -/
abbrev Reads {α : Type} (v : View) (R : Nat → Bool) (P : α → Prop) (f : View → Comp α) : Prop :=
  Agrees v R P (f v) (f v.undisturbed)

section
variable {α β : Type} {v : View} {R : Nat → Bool} {P Q : α → Prop} {S : β → Prop} {x y x' y' : Comp α}

/-! ## Sequences and choices -/

theorem Agrees.of_eq (h : x = y) : Agrees v R (fun _ => True) x y := Or.inr ⟨h, fun _ _ => trivial⟩

theorem Agrees.ok {a : α} (h : P a) : Agrees v R P (.ok a) (.ok a) :=
  Or.inr ⟨rfl, fun b hb => by cases hb; exact h⟩

theorem Agrees.raise (e : Err) : Agrees v R P (raise e) (raise e) :=
  Or.inr ⟨rfl, fun a ha => absurd ha (raise_ne_ok e a)⟩

theorem Agrees.bind {k l : α → Comp β} (h : Agrees v R P x y) (hk : ∀ a, P a → Agrees v R S (k a) (l a)) :
    Agrees v R S (x >>= k) (y >>= l) := by
  rcases h with ⟨rfl, hr⟩ | ⟨rfl, hP⟩
  · exact Or.inl ⟨rfl, hr⟩
  · cases x with
    | error st => exact Or.inr ⟨rfl, fun b hb => by cases hb⟩
    | ok a => exact hk a (hP a rfl)

/-- A sequence whose second part does not use what the first has found. -/
theorem Agrees.seq {k l : α → Comp β} (h : Agrees v R P x y) (hk : ∀ a, Agrees v R S (k a) (l a)) :
    Agrees v R S (x >>= k) (y >>= l) := h.bind fun a _ => hk a

/-- A sequence whose second part does not see what the host wrote. -/
theorem Agrees.andThen {k l : α → Comp β} (h : Agrees v R P x y) (hk : ∀ a, k a = l a) :
    Agrees v R (fun _ => True) (x >>= k) (y >>= l) := h.seq fun a => .of_eq (hk a)

theorem Agrees.mono (h : Agrees v R P x y) (hPQ : ∀ a, P a → Q a) : Agrees v R Q x y :=
  h.imp_right fun ⟨he, hP⟩ => ⟨he, fun a ha => hPQ a (hP a ha)⟩

theorem Agrees.ite {p : Prop} [Decidable p] (hx : p → Agrees v R P x y) (hy : ¬ p → Agrees v R P x' y') :
    Agrees v R P (if p then x else x') (if p then y else y') := by
  split
  · exact hx ‹_›
  · exact hy ‹_›

/-- `if p: raise e`. -/
theorem Agrees.unless {p : Prop} [Decidable p] {e : Err} (h : ¬ p → Agrees v R P x y) :
    Agrees v R P (if p then Machine.raise e else x) (if p then Machine.raise e else y) :=
  .ite (fun _ => .raise e) h

/-! ## Reads of bytes -/

theorem reads_sense {rg : Range} (h : Within rg.has R) : Reads v R (fun _ => True) (fun w => sense w rg) := by
  by_cases hr : ∃ a ∈ v.raced, rg.has a = true
  · obtain ⟨a, ha, hx⟩ := hr
    exact Or.inl ⟨if_pos (by simpa [anyIn] using ⟨a, ha, hx⟩), a, ha, h a hx⟩
  · exact .of_eq (sense_of_unraced fun a ha => by simpa using fun hx => hr ⟨a, ha, hx⟩)

theorem reads_touch {a n : Nat} (h : Within (amongBytes a n) R) :
    Reads v R (fun _ => True) (fun w => touch w a n) :=
  .unless fun _ => .ite (fun _ => .of_eq rfl) fun _ => reads_sense h

theorem reads_readBytes {a n : Nat} (h : Within (amongBytes a n) R) :
    Reads v R (fun s => s = v.mem.read a n) (fun w => readBytes w a n) :=
  (reads_touch h).seq fun _ => .ok rfl

theorem reads_readNat {a n : Nat} (h : Within (amongBytes a n) R) :
    Reads v R (fun k => k = num v a n) (fun w => readNat w a n) :=
  (reads_readBytes h).bind fun s hs => .ok (by rw [hs, num])

theorem within_amongBytes {a n b k : Nat} (h : Within (amongBytes a n) R) (hlo : a ≤ b) (hhi : b + k ≤ a + n) :
    Within (amongBytes b k) R :=
  fun x hx => h x (by simp only [amongBytes, Bool.and_eq_true, decide_eq_true_eq] at *; omega)

/-- What holds at each step from `a` on holds at `a`, and at each step from the next on. -/
theorem forall_steps_succ {p : Nat → Prop} {a c n : Nat} (h : ∀ j < n + 1, p (a + c * j)) :
    p a ∧ ∀ j < n, p (a + c + c * j) :=
  ⟨h 0 (by omega), fun j hj => by
    simpa only [Nat.mul_add, Nat.mul_one, Nat.add_assoc, Nat.add_comm] using h (j + 1) (by omega)⟩

end

section
variable {v : View} {R : Nat → Bool}

/-! ## Descriptors and targets (30_encoding.md R84, R85) -/

theorem slice_read (m : Memory) {a n i k : Nat} (h : i + k ≤ n) : slice (m.read a n) i k = m.read (a + i) k := by
  apply List.ext_getElem?
  intro j
  rw [slice, List.getElem?_take, List.getElem?_drop, Memory.getElem?_read, Memory.getElem?_read]
  split
  · rw [if_pos (by omega), Nat.add_assoc]
  · rfl

/-- A field of a record is the integer at its place. -/
theorem fieldAt_read (w : View) {a n i k : Nat} (h : i + k ≤ n) : fieldAt (w.mem.read a n) i k = num w (a + i) k := by
  rw [fieldAt, slice_read _ h, num]

/-- The target of a descriptor is of `R`. -/
abbrev TargetIn (R : Nat → Bool) (d : Desc) : Prop := Within (amongBytes d.taddr d.tlen) R

/-- The targets of descriptors are of `R`. -/
abbrev TargetsIn (R : Nat → Bool) (fs : List Desc) : Prop := ∀ d ∈ fs, TargetIn R d

theorem parseDesc_target {s : Bytes} {d : Desc} (h : parseDesc s = .ok d) :
    d.taddr = fieldAt s 12 4 ∧ d.tlen = fieldAt s 10 2 := by
  unfold parseDesc at h
  split at h
  · cases h; exact ⟨rfl, rfl⟩
  · cases h

theorem reads_readDesc {a : Nat} (h : Within (amongBytes a 16) R) :
    Reads v R (fun d => d.taddr = num v (a + 12) 4 ∧ d.tlen = num v (a + 10) 2) (fun w => readDesc w a) :=
  (reads_readBytes h).bind fun s hs => Or.inr ⟨rfl, fun d hd => by
    obtain ⟨ha, hl⟩ := parseDesc_target hd
    subst hs
    rw [ha, hl, fieldAt_read v (by decide), fieldAt_read v (by decide)]
    exact ⟨rfl, rfl⟩⟩

/-- A descriptor whose target is read too. -/
theorem reads_field {a : Nat} (h : Within (fieldReads v a) R) : Reads v R (TargetIn R) (fun w => readDesc w a) := by
  refine (reads_readDesc fun x hx => h x ?_).mono fun d ⟨ha, hl⟩ x hx => h x ?_
  · rw [fieldReads, hx, Bool.true_or]
  · rw [fieldReads, ← ha, ← hl, hx, Bool.or_true]

theorem reads_targetValue {d : Desc} (h : TargetIn R d) : Reads v R (fun _ => True) (fun w => targetValue w d) :=
  .unless fun _ => (reads_readBytes h).mono fun _ _ => trivial

theorem reads_candidates {d : Desc} (h : TargetIn R d) : Reads v R (fun _ => True) (fun w => candidates w d) :=
  .unless fun _ => (reads_readBytes h).andThen fun _ => rfl

/-! ## Actions and predicates -/

theorem reads_predEqual (c : Bytes) {d : Desc} (h : TargetIn R d) :
    Reads v R (fun _ => True) (fun w => predEqual w c d) := (reads_targetValue h).andThen fun _ => rfl

theorem reads_predMsb (c : Bytes) {d : Desc} (h : TargetIn R d) :
    Reads v R (fun _ => True) (fun w => predMsb w c d) :=
  .unless fun _ => .ite (fun _ => reads_predEqual c h) fun _ =>
    (reads_targetValue h).andThen fun _ => rfl

theorem reads_predMap (c : Bytes) {d : Desc} (h : TargetIn R d) :
    Reads v R (fun _ => True) (fun w => predMap w c d) := (reads_candidates h).andThen fun _ => rfl

theorem reads_predDispatch (c : Bytes) {d : Desc} (h : TargetIn R d) :
    Reads v R (fun _ => True) (fun w => predDispatch w c d) := by
  unfold predDispatch
  cases d.mo with
  | equal => exact reads_predEqual c h
  | ignore => exact .of_eq rfl
  | msb => exact reads_predMsb c h
  | map => exact reads_predMap c h

theorem reads_cactIndex (c : Bytes) {d : Desc} (h : TargetIn R d) :
    Reads v R (fun _ => True) (fun w => cactIndex w c d) := (reads_candidates h).andThen fun _ => rfl

theorem reads_compressField (iid c : Bytes) {d : Desc} (h : TargetIn R d) :
    Reads v R (fun _ => True) (fun w => compressField w iid c d) := by
  unfold compressField
  match d.cda with
  | .sendIndex => exact reads_cactIndex c h
  | .omit | .sendValue | .sendLsb | .deferLength | .deferChecksum | .deriveDevIid | .deriveAppIid => exact .of_eq rfl

theorem reads_dactOmit (src : Bytes) {d : Desc} (h : TargetIn R d) :
    Reads v R (fun _ => True) (fun w => dactOmit w src d) := (reads_targetValue h).andThen fun _ => rfl

theorem reads_dactIndex (src : Bytes) {d : Desc} (h : TargetIn R d) :
    Reads v R (fun _ => True) (fun w => dactIndex w src d) := (reads_candidates h).andThen fun _ => rfl

theorem reads_dactLsb (src : Bytes) {d : Desc} (h : TargetIn R d) :
    Reads v R (fun _ => True) (fun w => dactLsb w src d) :=
  .unless fun _ => (reads_targetValue h).andThen fun _ => rfl

theorem reads_decompressField (iid src : Bytes) {d : Desc} (h : TargetIn R d) :
    Reads v R (fun _ => True) (fun w => decompressField w iid src d) := by
  unfold decompressField
  match d.cda with
  | .omit => exact reads_dactOmit src h
  | .sendIndex => exact reads_dactIndex src h
  | .sendLsb => exact reads_dactLsb src h
  | .sendValue | .deferLength | .deferChecksum | .deriveDevIid | .deriveAppIid => exact .of_eq rfl

/-! ## Rules and columns (30_encoding.md R86, R87, R92) -/

theorem reads_readDescs : ∀ {a n : Nat}, (∀ j < n, Within (fieldReads v (a + 16 * j)) R) →
    Reads v R (fun ds => TargetsIn R ds) (fun w => readDescs w a n)
  | _, 0, _ => .ok (List.forall_mem_nil _)
  | a, n + 1, h => by
    obtain ⟨h0, hs⟩ := forall_steps_succ (p := fun b => Within (fieldReads v b) R) h
    exact (reads_field h0).bind fun d hd => (reads_readDescs hs).bind fun rest hr =>
      .ok (List.forall_mem_cons.2 ⟨hd, hr⟩)

theorem reads_readRule {a : Nat} (layer : Layer) (h : Within (ruleReads v a) R) :
    Reads v R (fun rule => TargetsIn R rule.fields) (fun w => readRule w a layer) := by
  have hd : ∀ j < num v (a + 2) 2, Within (fieldReads v (a + 8 + 16 * j)) R := fun j hj x hx => h x (by
    rw [ruleReads, List.any_eq_true.2 ⟨j, List.mem_range.2 hj, hx⟩, Bool.or_true])
  refine (reads_readBytes fun x hx => h x (by rw [ruleReads, hx, Bool.true_or])).bind fun hdr hh =>
    .unless fun _ => .unless fun _ => ?_
  rw [show fieldAt hdr 2 2 = num v (a + 2) 2 by rw [hh, fieldAt_read v (by decide)]]
  exact (reads_readDescs hd).bind fun fields hf => .unless fun _ =>
    .ok hf

/-- The descriptors that apply in a direction are the rule's. -/
theorem targetIn_applicable {fields : List Desc} (dir : PacketDir) (h : TargetsIn R fields) :
    TargetsIn R (applicable fields dir) := fun d hd => h d (List.mem_of_mem_filter hd)

/-- The column entry at `b` and the value that it addresses are of `R`. -/
def EntryIn (v : View) (R : Nat → Bool) (b : Nat) : Prop :=
  Within (amongBytes b 8) R ∧ Within (amongBytes (num v (b + 4) 4) (num v (b + 2) 2)) R

theorem reads_readEntries : ∀ {a n : Nat}, (∀ j < n, EntryIn v R (a + 8 * j)) →
    Reads v R (fun _ => True) (fun w => readEntries w a n)
  | _, 0, _ => .of_eq rfl
  | a, n + 1, h => by
    obtain ⟨⟨h0, hv⟩, hs⟩ := forall_steps_succ h
    refine (reads_readBytes h0).bind fun e he => ?_
    rw [show fieldAt e 4 4 = num v (a + 4) 4 by rw [he, fieldAt_read v (by decide)],
      show fieldAt e 2 2 = num v (a + 2) 2 by rw [he, fieldAt_read v (by decide)]]
    exact (reads_readBytes hv).seq fun _ => (reads_readEntries hs).andThen fun _ => rfl

theorem reads_readColumns {r : Regs} (h : Within (columnsRead v r) R) :
    Reads v R (fun _ => True) (fun w => readColumns w r) := by
  have ha : Within (amongBytes r.ctxAddr.toNat (8 + 8 * num v r.ctxAddr.toNat 2)) R := fun x hx => h x (by
    rw [columnsRead, hx, Bool.true_or])
  refine (reads_readNat (within_amongBytes ha (by omega) (by omega))).bind fun n hn =>
    .unless fun _ => reads_readEntries fun j hj => ?_
  subst hn
  refine ⟨within_amongBytes ha (by omega) (by omega), fun x hx => h x ?_⟩
  rw [show r.ctxAddr.toNat + 8 + 8 * j + 4 = r.ctxAddr.toNat + 12 + 8 * j by omega,
    show r.ctxAddr.toNat + 8 + 8 * j + 2 = r.ctxAddr.toNat + 10 + 8 * j by omega] at hx
  rw [columnsRead, List.any_eq_true.2 ⟨j, List.mem_range.2 hj, hx⟩, Bool.or_true]

/-! ## The device table and the rules that it leads to (30_encoding.md R88, R89, 44_rule_selection.md R201 to R208) -/

/-- An entry of a rule list at `b` and the rule that it addresses are of `R`. -/
def ListedIn (v : View) (R : Nat → Bool) (b : Nat) : Prop :=
  Within (amongBytes b 4) R ∧ Within (ruleReads v (num v b 4)) R

/-- The device record at `dev` and what its rule lists lead to are of `R`. -/
def DeviceIn (v : View) (R : Nat → Bool) (dev : Nat) : Prop :=
  Within (amongBytes dev 32) R ∧ ∀ layer : Layer, ∀ j < num v (dev + 16 + layer.number) 1,
    ListedIn v R (num v (dev + 4 + 4 * layer.number) 4 + 4 * j)

theorem reads_findDevice (id : Nat) : ∀ {a n : Nat},
    (∀ j < n, Within (amongBytes (a + 32 * j) 4) R ∧ (num v (a + 32 * j) 4 = id → DeviceIn v R (a + 32 * j))) →
    Reads v R (DeviceIn v R) (fun w => findDevice w id a n)
  | _, 0, _ => .raise _
  | a, n + 1, h => by
    obtain ⟨⟨h0, hd⟩, hs⟩ := forall_steps_succ
      (p := fun b => Within (amongBytes b 4) R ∧ (num v b 4 = id → DeviceIn v R b)) h
    exact (reads_readNat h0).bind fun k hk => .ite
      (fun hid => .ok (hd (hk ▸ hid))) fun _ => reads_findDevice id hs

theorem number_mem (layer : Layer) : layer.number ∈ [0, 1, 2] := by cases layer <;> decide

theorem reads_lookupDevice {r : Regs} (h : Within (deviceReads v r) R) :
    Reads v R (DeviceIn v R) (fun w => lookupDevice w r) := by
  have ht : Within (amongBytes r.devtabAddr.toNat (32 * r.devtabN.toNat)) R := fun x hx => h x (by
    rw [deviceReads, hx, Bool.true_or])
  refine reads_findDevice _ fun k hk => ⟨within_amongBytes ht (by omega) (by omega), fun hid => ?_⟩
  have hrules : ∀ (layer : Layer) (x : Nat),
      (amongBytes (num v (r.devtabAddr.toNat + 32 * k + 4 + 4 * layer.number) 4)
          (4 * num v (r.devtabAddr.toNat + 32 * k + 16 + layer.number) 1) x ||
        (List.range (num v (r.devtabAddr.toNat + 32 * k + 16 + layer.number) 1)).any fun j =>
          ruleReads v (num v (num v (r.devtabAddr.toNat + 32 * k + 4 + 4 * layer.number) 4 + 4 * j) 4) x) = true →
      R x = true := fun layer x hx => h x (by
    rw [deviceReads, Bool.or_eq_true, List.any_eq_true]
    refine Or.inr ⟨k, List.mem_range.2 hk, ?_⟩
    rw [beq_iff_eq.2 hid, Bool.true_and, List.any_eq_true]
    exact ⟨_, number_mem layer, hx⟩)
  refine ⟨within_amongBytes ht (by omega) (by omega), fun layer j hj => ⟨?_, fun x hx => hrules layer x ?_⟩⟩
  · exact within_amongBytes (fun x hx => hrules layer x (by rw [hx, Bool.true_or])) (by omega) (by omega)
  · rw [List.any_eq_true.2 ⟨j, List.mem_range.2 hj, hx⟩, Bool.or_true]

theorem reads_ruleList {dev : Nat} (layer : Layer) (h : DeviceIn v R dev) :
    Reads v R (fun p => ∀ j < p.2, ListedIn v R (p.1 + 4 * j)) (fun w => ruleList w dev layer) := by
  have hn : layer.number ≤ 2 := by cases layer <;> decide
  exact (reads_readNat (within_amongBytes h.1 (by omega) (by omega))).bind fun list hl =>
    (reads_readNat (within_amongBytes h.1 (by omega) (by omega))).bind fun cnt hc =>
      .ok (by rw [hl, hc]; exact h.2 layer)

theorem reads_fieldsMatch : ∀ {fs : List Desc} (cs : List Col), (TargetsIn R fs) →
    Reads v R (fun _ => True) (fun w => fieldsMatch w fs cs)
  | [], [], _ => .of_eq rfl
  | [], _ :: _, _ => .of_eq rfl
  | _ :: _, [], _ => .of_eq rfl
  | _ :: _, c :: cs, h => by
    obtain ⟨h0, hs⟩ := List.forall_mem_cons.1 h
    exact .ite (fun _ => .of_eq rfl) fun _ => (reads_predDispatch c.val h0).seq fun _ =>
      .ite (fun _ => reads_fieldsMatch cs hs) fun _ => .of_eq rfl

theorem reads_ruleMatches {rule : Rule} (cols : List Col) (dir : PacketDir) (h : TargetsIn R rule.fields) :
    Reads v R (fun _ => True) (fun w => ruleMatches w rule cols dir) :=
  .ite (fun _ => .of_eq rfl) fun _ => reads_fieldsMatch cols (targetIn_applicable dir h)

theorem reads_selectFrom (layer : Layer) (cols : List Col) (dir : PacketDir) : ∀ {list n : Nat},
    (∀ j < n, ListedIn v R (list + 4 * j)) →
    Reads v R (fun o => ∀ p, o = some p → TargetsIn R p.2.fields) (fun w => selectFrom w layer cols dir list n)
  | _, 0, _ => .ok (by simp)
  | list, n + 1, h => by
    obtain ⟨⟨h0, hr⟩, hs⟩ := forall_steps_succ h
    refine (reads_readNat h0).bind fun a ha => ?_
    subst ha
    exact (reads_readRule layer hr).bind fun rule hd => (reads_ruleMatches cols dir hd).seq fun ok =>
      .ite (fun _ => .ok fun p hp => by cases hp; exact hd) fun _ =>
        reads_selectFrom layer cols dir hs

theorem reads_selectRule {dev : Nat} (layer : Layer) (cols : List Col) (dir : PacketDir) (h : DeviceIn v R dev) :
    Reads v R (fun o => ∀ p, o = some p → TargetsIn R p.2.fields)
      (fun w => selectRule w dev layer cols dir) :=
  (reads_ruleList layer h).bind fun _ hl => reads_selectFrom layer cols dir hl

theorem reads_findRuleFrom (layer : Layer) (id : Nat) : ∀ {list n : Nat}, (∀ j < n, ListedIn v R (list + 4 * j)) →
    Reads v R (fun rule => TargetsIn R rule.fields) (fun w => findRuleFrom w layer id list n)
  | _, 0, _ => .raise _
  | list, n + 1, h => by
    obtain ⟨⟨h0, hr⟩, hs⟩ := forall_steps_succ h
    refine (reads_readNat h0).bind fun a ha => ?_
    subst ha
    exact (reads_readRule layer hr).bind fun rule hd => .ite
      (fun _ => .ok hd) fun _ => reads_findRuleFrom layer id hs

theorem reads_findRule {dev : Nat} (layer : Layer) (id : Nat) (h : DeviceIn v R dev) :
    Reads v R (fun rule => TargetsIn R rule.fields) (fun w => findRule w dev layer id) :=
  (reads_ruleList layer h).bind fun _ hl => reads_findRuleFrom layer id hl

theorem reads_compressFields (iid : Bytes) : ∀ {fs : List Desc} (cs : List Col), (TargetsIn R fs) →
    Reads v R (fun _ => True) (fun w => compressFields w iid fs cs)
  | [], _, _ => .of_eq rfl
  | _ :: _, [], _ => .of_eq rfl
  | _ :: _, c :: cs, h => by
    obtain ⟨h0, hs⟩ := List.forall_mem_cons.1 h
    exact .unless fun _ => (reads_compressField iid c.val h0).seq fun _ =>
      (reads_compressFields iid cs hs).andThen fun _ => rfl

theorem reads_compressLayer (iid : Bytes) {rule : Rule} (cols : List Col) (dir : PacketDir)
    (h : TargetsIn R rule.fields) : Reads v R (fun _ => True) (fun w => compressLayer w iid rule cols dir) :=
  .unless fun _ => reads_compressFields iid cols (targetIn_applicable dir h)

theorem reads_decompressFields (iid : Bytes) : ∀ {fs : List Desc} (src : Bytes), (TargetsIn R fs) →
    Reads v R (fun _ => True) (fun w => decompressFields w iid fs src)
  | [], _, _ => .of_eq rfl
  | _ :: _, src, h => by
    obtain ⟨h0, hs⟩ := List.forall_mem_cons.1 h
    exact (reads_decompressField iid src h0).seq fun _ => (reads_decompressFields iid _ hs).andThen fun _ => rfl

theorem reads_decompressLayer (iid : Bytes) {rule : Rule} (src : Bytes) (dir : PacketDir)
    (h : TargetsIn R rule.fields) :
    Reads v R (fun _ => True) (fun w => decompressLayer w iid rule src dir) :=
  reads_decompressFields iid src (targetIn_applicable dir h)

/-! ## Packets (46_pipeline.md R252 to R255) -/

/-- What catches some errors of `CompressLayer` lets a read of a byte that the host wrote through (R252). -/
theorem reads_packLayer {dev : Nat} (r : Regs) (layer : Layer) (cols : List Col) (dir : PacketDir)
    (h : DeviceIn v R dev) : Reads v R (fun _ => True) (fun w => packLayer w r dev layer cols dir) :=
  .unless fun _ => (reads_selectRule layer cols dir h).bind fun found hf => by
    cases found with
    | none => exact .of_eq rfl
    | some p =>
      rcases reads_compressLayer (nodeIid r) cols dir (hf p rfl) with ⟨he, hx⟩ | ⟨he, -⟩
      · exact Or.inl ⟨by simp only [he], hx⟩
      · exact .of_eq (by simp only [he])

theorem reads_compressPacket {dev : Nat} (r : Regs) (pkt : Bytes) (dir : PacketDir) (h : DeviceIn v R dev) :
    Reads v R (fun _ => True) (fun w => compressPacket w r dev pkt dir) := by
  dsimp only [Reads, compressPacket]
  cases hp : coapParse v (pkt.drop 48) with
  | none =>
    have hu : coapParse v.undisturbed (pkt.drop 48) = none := hp
    rw [hu]
    exact (Agrees.of_eq rfl).seq fun _ => (reads_packLayer r .udp _ dir h).seq fun _ =>
      (reads_packLayer r .ip6 _ dir h).andThen fun _ => rfl
  | some p =>
    have hu : coapParse v.undisturbed (pkt.drop 48) = some p := hp
    rw [hu]
    exact (reads_packLayer r .coap _ dir h).seq fun _ => (reads_packLayer r .udp _ dir h).seq fun _ =>
      (reads_packLayer r .ip6 _ dir h).andThen fun _ => rfl

theorem reads_namedRule {dev : Nat} (layer : Layer) (id : Nat) (h : DeviceIn v R dev) :
    Reads v R (fun o => ∀ rule, o = some rule → TargetsIn R rule.fields)
      (fun w => namedRule w dev layer id) :=
  .ite (fun _ => .ok (by simp)) fun _ =>
    (reads_findRule layer id h).bind fun rule hr =>
      .ok fun q hq => by cases hq; exact hr

theorem reads_unpackLayer (r : Regs) (layer : Layer) {rule : Option Rule} (src : Bytes) (dir : PacketDir)
    (h : ∀ rl, rule = some rl → TargetsIn R rl.fields) :
    Reads v R (fun _ => True) (fun w => unpackLayer w r layer rule src dir) := by
  cases rule with
  | none => exact .of_eq rfl
  | some rl => exact (reads_decompressLayer (nodeIid r) src dir (h rl rfl)).andThen fun _ => rfl

theorem reads_decompressPacket {dev : Nat} (r : Regs) (src : Bytes) (dir : PacketDir) (h : DeviceIn v R dev) :
    Reads v R (fun _ => True) (fun w => decompressPacket w r dev src dir) :=
  (reads_namedRule .coap _ h).bind fun _ h2 => (reads_namedRule .udp _ h).bind fun _ h1 =>
    (reads_namedRule .ip6 _ h).bind fun _ h0 => (Agrees.of_eq rfl).seq fun _ => (Agrees.of_eq rfl).seq fun _ =>
      .unless fun _ => (reads_unpackLayer r .coap _ dir h2).seq fun _ =>
        (reads_unpackLayer r .udp _ dir h1).seq fun _ => (reads_unpackLayer r .ip6 _ dir h0).andThen fun _ => rfl

end
end Sys2Proof.Machine
end

section
/-! Every command reads no byte but those that `mayRead` names (30_encoding.md R74, 20_memory.md R60). -/

namespace Sys2Proof.Machine

theorem within_left {Q Q' : Nat → Bool} : Within Q (fun x => Q x || Q' x) := fun x hx => by simp [hx]

theorem within_right {Q Q' : Nat → Bool} : Within Q' (fun x => Q x || Q' x) := fun x hx => by simp [hx]

/-- The bytes of a checked bit range are those of 20_memory.md R54. -/
theorem bitRange_has (addr pos len : Word) (x : Nat) :
    (bitRange addr.toNat pos.toNat len.toNat).has x = bitsTouch addr pos len x := by
  rw [Bool.eq_iff_iff]
  simp only [Range.has, bitsTouch, Bool.and_eq_true, decide_eq_true_eq, bne_iff_ne]
  unfold bitRange
  split <;> simp only <;> omega

section
variable {v : View} {R : Nat → Bool} {T : Desc → Prop} {r : Regs}

/-! ## The families of commands -/

/-- Reading a bit operand reads the bytes it touches (R54). -/
theorem reads_senseBits {addr pos len : Word} (h : Within (bitsTouch addr pos len) R) :
    Reads v R (fun _ => True) (fun w => sense w (bitRange addr.toNat pos.toNat len.toNat)) :=
  reads_sense fun x hx => h x (by rw [← bitRange_has, hx])

theorem reads_bitWriter {checks : View → Regs → Comp Unit} {result : Memory → Regs → Memory}
    (h : Reads v R (fun _ => True) (fun w => checks w r)) :
    Reads v R (fun _ => True) (fun w => (bitWriter checks result).run w r) := h.andThen fun _ => rfl

theorem reads_checkABD (ha : Within (bitsTouch r.aAddr r.aPos r.len) R)
    (hb : Within (bitsTouch r.bAddr r.bPos r.len) R) : Reads v R (fun _ => True) (fun w => checkABD w r) :=
  (Agrees.of_eq rfl).seq fun _ => (Agrees.of_eq rfl).seq fun _ => (Agrees.of_eq rfl).seq fun _ =>
    (reads_senseBits ha).seq fun _ => reads_senseBits hb

theorem reads_shifter (f : Nat → Nat → Nat → Nat) (h : Within (amongBytes r.dAddr.toNat r.len.toNat) R) :
    Reads v R (fun _ => True) (fun w => (shifter f).run w r) := (reads_readBytes h).andThen fun _ => rfl

theorem reads_predicateCommand {p : View → Bytes → Desc → Comp (Bool × Nat)}
    (hd : Reads v R T (fun w => readDesc w r.bAddr.toNat)) (hc : Within (amongBytes r.aAddr.toNat r.len.toNat) R)
    (hp : ∀ c d, T d → Reads v R (fun _ => True) (fun w => p w c d)) :
    Reads v R (fun _ => True) (fun w => (predicateCommand p).run w r) :=
  hd.bind fun d ht => (reads_readBytes hc).seq fun c => (hp c d ht).andThen fun _ => rfl

theorem reads_compressCommand {act : View → Regs → Bytes → Desc → Comp Bytes}
    (hd : Reads v R T (fun w => readDesc w r.bAddr.toNat)) (hc : Within (amongBytes r.aAddr.toNat r.len.toNat) R)
    (ha : ∀ c d, T d → Reads v R (fun _ => True) (fun w => act w r c d)) :
    Reads v R (fun _ => True) (fun w => (compressCommand act).run w r) :=
  hd.bind fun d ht => (reads_readBytes hc).seq fun c => (ha c d ht).andThen fun _ => rfl

theorem reads_decompressCommand {act : View → Regs → Bytes → Desc → Comp (Nat × Bytes)}
    (hd : Reads v R T (fun w => readDesc w r.bAddr.toNat)) (hc : Within (amongBytes r.aAddr.toNat r.len.toNat) R)
    (ha : ∀ c d, T d → Reads v R (fun _ => True) (fun w => act w r c d)) :
    Reads v R (fun _ => True) (fun w => (decompressCommand act).run w r) :=
  hd.bind fun d ht => (reads_readBytes hc).seq fun c => (ha c d ht).andThen fun _ => rfl

theorem reads_flattenCommand {n : Nat} (f : Bytes → PacketDir → List Col)
    (h : Within (amongBytes r.aAddr.toNat n) R) :
    Reads v R (fun _ => True) (fun w => (flattenCommand n f).run w r) :=
  (Agrees.of_eq rfl).seq fun _ => (reads_readBytes h).andThen fun _ => rfl

/-! ## The commands of layers and packets -/

theorem reads_rsel (hd : Within (deviceReads v r) R) (hc : Within (columnsRead v r) R) :
    Reads v R (fun _ => True) (fun w => cmdRsel.run w r) :=
  (Agrees.of_eq rfl).seq fun layer => (Agrees.of_eq rfl).seq fun dir => (reads_lookupDevice hd).bind fun _ hdev =>
    (reads_readColumns hc).seq fun cols => (reads_selectRule layer cols dir hdev).andThen fun _ => rfl

theorem reads_clayer (hr : Within (ruleReads v r.bAddr.toNat) R) (hc : Within (columnsRead v r) R) :
    Reads v R (fun _ => True) (fun w => cmdClayer.run w r) :=
  (Agrees.of_eq rfl).seq fun layer => (Agrees.of_eq rfl).seq fun dir => (reads_readRule layer hr).bind fun _ ht =>
    (reads_readColumns hc).seq fun cols => (reads_compressLayer (nodeIid r) cols dir ht).andThen fun _ => rfl

theorem reads_dlayer (hi : Within (amongBytes r.aAddr.toNat r.len.toNat) R)
    (hr : Within (ruleReads v r.bAddr.toNat) R) : Reads v R (fun _ => True) (fun w => cmdDlayer.run w r) :=
  (Agrees.of_eq rfl).seq fun layer => (Agrees.of_eq rfl).seq fun dir => (reads_readRule layer hr).bind fun _ ht =>
    (reads_readBytes hi).seq fun src => (reads_decompressLayer (nodeIid r) src dir ht).andThen fun _ => rfl

theorem reads_comp (hi : Within (amongBytes r.aAddr.toNat r.len.toNat) R) (hd : Within (deviceReads v r) R) :
    Reads v R (fun _ => True) (fun w => cmdComp.run w r) :=
  (Agrees.of_eq rfl).seq fun dir => .unless fun _ => .unless fun _ => (Agrees.of_eq rfl).seq fun _ =>
    (reads_readBytes hi).seq fun pkt => (reads_lookupDevice hd).bind fun _ hdev =>
      (reads_compressPacket r pkt dir hdev).andThen fun _ => rfl

theorem reads_decomp (hi : Within (amongBytes r.aAddr.toNat r.len.toNat) R) (hd : Within (deviceReads v r) R) :
    Reads v R (fun _ => True) (fun w => cmdDecomp.run w r) :=
  (Agrees.of_eq rfl).seq fun dir => .unless fun _ => (Agrees.of_eq rfl).seq fun _ =>
    (reads_readBytes hi).seq fun src => (reads_lookupDevice hd).bind fun _ hdev =>
      (reads_decompressPacket r src dir hdev).andThen fun _ => rfl

end

/-- Every command's computation stops for a byte that the host wrote only where that is one it may read, and else does
not see the host's writes. -/
theorem reads_run (i : Instr) (s : State) :
    Reads (viewOf i s) (mayRead i s) (fun _ => True) (fun w => (commandOf i).run w s.snap.regs) := by
  cases i with
  | getb => exact .unless fun _ => (Agrees.of_eq rfl).seq fun _ => (reads_senseBits fun _ => id).andThen fun _ => rfl
  | setb | clrb => exact reads_bitWriter (.of_eq rfl)
  | cpyb =>
    exact reads_bitWriter <| (Agrees.of_eq rfl).seq fun _ => (Agrees.of_eq rfl).seq fun _ => reads_senseBits fun _ => id
  | cmpb =>
    exact (Agrees.of_eq rfl).seq fun _ => (Agrees.of_eq rfl).seq fun _ => (reads_senseBits within_left).seq fun _ =>
      (reads_senseBits within_right).andThen fun _ => rfl
  | shlb | shrb => exact reads_shifter _ fun _ => id
  | xorb | andb => exact reads_bitWriter (reads_checkABD within_left within_right)
  | meq => exact reads_predicateCommand (reads_field within_right) within_left fun c _ => reads_predEqual c
  | mign => exact reads_predicateCommand (reads_readDesc within_right) within_left fun _ _ _ => .of_eq rfl
  | mmsb => exact reads_predicateCommand (reads_field within_right) within_left fun c _ => reads_predMsb c
  | mmap => exact reads_predicateCommand (reads_field within_right) within_left fun c _ => reads_predMap c
  | mdisp => exact reads_predicateCommand (reads_field within_right) within_left fun c _ => reads_predDispatch c
  | cMap => exact reads_compressCommand (reads_field within_right) within_left fun c _ => reads_cactIndex c
  | cOmit | cVal | cLsb | cDlen | cDchk | cDeviid | cAppiid =>
    exact reads_compressCommand (reads_readDesc within_right) within_left fun _ _ _ => .of_eq rfl
  | dOmit => exact reads_decompressCommand (reads_field within_right) within_left fun c _ => reads_dactOmit c
  | dMap => exact reads_decompressCommand (reads_field within_right) within_left fun c _ => reads_dactIndex c
  | dLsb => exact reads_decompressCommand (reads_field within_right) within_left fun c _ => reads_dactLsb c
  | dVal | dDlen | dDchk | dDeviid | dAppiid =>
    exact reads_decompressCommand (reads_readDesc within_right) within_left fun _ _ _ => .of_eq rfl
  | rsel => exact reads_rsel within_left within_right
  | clayer => exact reads_clayer within_left within_right
  | dlayer => exact reads_dlayer within_left within_right
  | flat6 | flatu => exact reads_flattenCommand _ fun _ => id
  | flatc => exact (reads_readBytes fun _ => id).andThen fun _ => rfl
  | ridpk | ridunpk => exact .of_eq rfl
  | comp => exact reads_comp within_left within_right
  | decomp => exact reads_decomp within_left within_right
  | plen | pchk => exact (reads_readBytes fun _ => id).andThen fun _ => rfl

/-- In a state, every command computes as if the host had written nothing, or reads a byte that the host wrote. -/
theorem compute_raced_or_eq (i : Instr) (s : State) :
    ((commandOf i).compute s = .error .raced ∧ ∃ p ∈ s.raced, mayRead i s p.1 = true) ∨
    (commandOf i).compute s = (commandOf i).compute { s with raced := [] } := by
  have h := reads_run i s
  unfold Command.compute
  rw [view_eq_viewOf, view_eq_viewOf]
  split
  · exact Or.inr rfl
  · rcases h with ⟨he, x, hx, hr⟩ | ⟨he, -⟩
    · obtain ⟨p, hp, rfl⟩ := List.mem_map.1 hx
      exact Or.inl ⟨he, p, hp, hr⟩
    · exact Or.inr he

/-- A command that does not stop for a byte that the host wrote computes as if the host had written none. -/
theorem compute_of_not_raced {i : Instr} {s : State} (h : (commandOf i).compute s ≠ .error .raced) :
    (commandOf i).compute { s with raced := [] } = (commandOf i).compute s :=
  ((compute_raced_or_eq i s).resolve_left fun hr => h hr.1).symm

/-- A command that may read none of the bytes that the host wrote does not stop for one. -/
theorem compute_ne_raced_of_unread {i : Instr} {s : State} (h : ∀ p ∈ s.raced, mayRead i s p.1 = false) :
    (commandOf i).compute s ≠ .error .raced := fun hc => by
  rcases compute_raced_or_eq i s with ⟨-, p, hp, hx⟩ | he
  · rw [h p hp] at hx; cases hx
  · exact compute_ne_raced (s := { s with raced := [] }) rfl (he ▸ hc)

end Sys2Proof.Machine
end

section
/-! Which bytes a command writes: those that `wroteIn` tells from its completion, all of them among those that
`mayWrite` names (20_memory.md R65, 30_encoding.md R74, 60_exceptions.md R282). -/

namespace Sys2Proof.Machine

/-- Byte `x` lies in one of the ranges. -/
abbrev inRanges (rs : List Range) (x : Nat) : Bool := rs.any fun g => g.has x

/-! ## The writes of a computation -/

/-- What a command that succeeds writes. -/
def WriteShape (i : Instr) (r : Regs) (e : Effect) : Prop :=
  match i with
  | .setb | .clrb | .cpyb | .xorb | .andb => e.ranges = [rangeD r]
  | .shlb | .shrb => e.ranges = [⟨r.dAddr.toNat, r.len.toNat⟩]
  | .cOmit | .cVal | .cMap | .cLsb | .cDlen | .cDchk | .cDeviid | .cAppiid | .clayer =>
    ∃ out, e.writes = [(r.dAddr.toNat, out)] ∧ out.length ≤ r.outCap.toNat ∧ e.result = out.length
  | .dOmit | .dVal | .dMap | .dLsb | .dDlen | .dDchk | .dDeviid | .dAppiid =>
    ∃ out, e.writes = [(r.dAddr.toNat, out)] ∧ out.length ≤ r.outCap.toNat ∧ e.result2 = out.length
  | .comp | .decomp => ∃ out, e.writes = [(r.dAddr.toNat, out)] ∧ out.length ≤ r.outCap.toNat
  | .flat6 | .flatu | .flatc =>
    ∃ cols, e.writes = [(r.ctxAddr.toNat, colImage r.ctxAddr.toNat cols)] ∧ ctxNeed cols ≤ r.ctxSize.toNat
  | .dlayer =>
    ∃ cols out, e.writes = [(r.ctxAddr.toNat, colImage r.ctxAddr.toNat cols), (r.dAddr.toNat, out)] ∧
      ctxNeed cols ≤ r.ctxSize.toNat ∧ out.length ≤ r.outCap.toNat ∧ e.result2 = out.length
  | .plen => e.ranges = [⟨r.aAddr.toNat + 4, 2⟩, ⟨r.aAddr.toNat + 44, 2⟩]
  | .pchk => e.ranges = [⟨r.aAddr.toNat + 46, 2⟩]
  | .getb | .cmpb | .meq | .mign | .mmsb | .mmap | .mdisp | .rsel | .ridpk | .ridunpk => e.writes = []

theorem ite_raise_eq_ok {α : Type} {p : Prop} [Decidable p] {e : Err} {x : Comp α} {a : α} :
    (if p then raise e else x) = .ok a ↔ ¬ p ∧ x = .ok a := by
  split <;> simp [*]

section
variable {v : View} {r : Regs} {e : Effect}

theorem writes_of_bitWriter {checks : View → Regs → Comp Unit} {result : Memory → Regs → Memory}
    (h : (bitWriter checks result).run v r = .ok e) : e.ranges = [rangeD r] := by
  obtain ⟨_, -, he⟩ := bind_eq_ok.1 h
  cases he
  simp [Effect.ranges, writeBack, Memory.length_read]

theorem writes_of_shifter {f : Nat → Nat → Nat → Nat} (h : (shifter f).run v r = .ok e) :
    e.ranges = [⟨r.dAddr.toNat, r.len.toNat⟩] := by
  obtain ⟨_, -, he⟩ := bind_eq_ok.1 h
  cases he
  simp [Effect.ranges]

theorem writes_of_predicateCommand {p : View → Bytes → Desc → Comp (Bool × Nat)}
    (h : (predicateCommand p).run v r = .ok e) : e.writes = [] := by
  simp only [predicateCommand, bind_eq_ok] at h
  obtain ⟨_, -, _, -, _, -, he⟩ := h
  cases he; rfl

theorem writes_of_compressCommand {act : View → Regs → Bytes → Desc → Comp Bytes}
    (h : (compressCommand act).run v r = .ok e) :
    ∃ out, e.writes = [(r.dAddr.toNat, out)] ∧ out.length ≤ r.outCap.toNat ∧ e.result = out.length := by
  simp only [compressCommand, bind_eq_ok, writeOut_eq_ok] at h
  obtain ⟨_, -, _, -, out, -, _, ⟨hcap, -, rfl⟩, he⟩ := h
  cases he
  exact ⟨out, rfl, hcap, rfl⟩

theorem writes_of_clayer (h : cmdClayer.run v r = .ok e) :
    ∃ out, e.writes = [(r.dAddr.toNat, out)] ∧ out.length ≤ r.outCap.toNat ∧ e.result = out.length := by
  simp only [cmdClayer, bind_eq_ok, writeOut_eq_ok] at h
  obtain ⟨_, -, _, -, _, -, _, -, out, -, _, ⟨hcap, -, rfl⟩, he⟩ := h
  cases he
  exact ⟨out, rfl, hcap, rfl⟩

theorem writes_of_decompressCommand {act : View → Regs → Bytes → Desc → Comp (Nat × Bytes)}
    (h : (decompressCommand act).run v r = .ok e) :
    ∃ out, e.writes = [(r.dAddr.toNat, out)] ∧ out.length ≤ r.outCap.toNat ∧ e.result2 = out.length := by
  simp only [decompressCommand, bind_eq_ok, writeOut_eq_ok] at h
  obtain ⟨_, -, _, -, ⟨_, out⟩, -, _, ⟨hcap, -, rfl⟩, he⟩ := h
  cases he
  exact ⟨out, rfl, hcap, rfl⟩

theorem writes_of_flattenCommand {n : Nat} {f : Bytes → PacketDir → List Col}
    (h : (flattenCommand n f).run v r = .ok e) :
    ∃ cols, e.writes = [(r.ctxAddr.toNat, colImage r.ctxAddr.toNat cols)] ∧ ctxNeed cols ≤ r.ctxSize.toNat := by
  simp only [flattenCommand, bind_eq_ok, writeColumns_eq_ok] at h
  obtain ⟨_, -, _, -, _, ⟨hsize, -, rfl⟩, he⟩ := h
  cases he
  exact ⟨_, rfl, hsize⟩

theorem writes_of_flatc (h : cmdFlatc.run v r = .ok e) :
    ∃ cols, e.writes = [(r.ctxAddr.toNat, colImage r.ctxAddr.toNat cols)] ∧ ctxNeed cols ≤ r.ctxSize.toNat := by
  obtain ⟨m, -, h⟩ := bind_eq_ok.1 h
  cases hp : coapParse v m with
  | none => rw [hp] at h; cases h
  | some p =>
    rw [hp] at h
    obtain ⟨_, hw, he⟩ := bind_eq_ok.1 h
    obtain ⟨hsize, -, rfl⟩ := writeColumns_eq_ok.1 hw
    cases he
    exact ⟨_, rfl, hsize⟩

theorem writes_of_dlayer (h : cmdDlayer.run v r = .ok e) :
    ∃ cols out, e.writes = [(r.ctxAddr.toNat, colImage r.ctxAddr.toNat cols), (r.dAddr.toNat, out)] ∧
      ctxNeed cols ≤ r.ctxSize.toNat ∧ out.length ≤ r.outCap.toNat ∧ e.result2 = out.length := by
  simp only [cmdDlayer, bind_eq_ok, ite_raise_eq_ok, writeOut_eq_ok, writeColumns_eq_ok] at h
  obtain ⟨_, -, _, -, _, -, _, -, _, -, out, -, -, _, ⟨hcap, -, rfl⟩, _, ⟨hsize, -, rfl⟩, he⟩ := h
  cases he
  exact ⟨_, out, rfl, hsize, hcap, rfl⟩

theorem writes_of_rsel (h : cmdRsel.run v r = .ok e) : e.writes = [] := by
  simp only [cmdRsel, bind_eq_ok] at h
  obtain ⟨_, -, _, -, _, -, _, -, found, -, he⟩ := h
  cases found <;> cases he <;> rfl

theorem writes_of_comp (h : cmdComp.run v r = .ok e) :
    ∃ out, e.writes = [(r.dAddr.toNat, out)] ∧ out.length ≤ r.outCap.toNat := by
  simp only [cmdComp, bind_eq_ok, ite_raise_eq_ok, writeOut_eq_ok] at h
  obtain ⟨_, -, -, -, _, -, _, -, _, -, ⟨_, out⟩, -, _, ⟨hcap, -, rfl⟩, he⟩ := h
  cases he
  exact ⟨out, rfl, hcap⟩

theorem writes_of_decomp (h : cmdDecomp.run v r = .ok e) :
    ∃ out, e.writes = [(r.dAddr.toNat, out)] ∧ out.length ≤ r.outCap.toNat := by
  simp only [cmdDecomp, bind_eq_ok, ite_raise_eq_ok, writeOut_eq_ok] at h
  obtain ⟨_, -, -, _, -, _, -, _, -, _, -, -, _, -, ⟨out, _⟩, -, _, ⟨hcap, -, rfl⟩, he⟩ := h
  cases he
  exact ⟨out, rfl, hcap⟩

/-! Patching keeps the length of a packet (46_pipeline.md R256, R257). -/

theorem length_patchAt {buf s : Bytes} {k : Nat} (h : k + s.length ≤ buf.length) :
    (patchAt buf k s).length = buf.length := by
  simp only [patchAt, List.length_append, List.length_take, List.length_drop]; omega

theorem length_patchLenAt {buf : Bytes} {k : Nat} (h : k + 2 ≤ buf.length) :
    (patchLenAt buf k).1.length = buf.length := by
  unfold patchLenAt
  split
  · exact length_patchAt (by simpa using h)
  · rfl

theorem length_of_patchLen {buf : Bytes} {p : Bytes × Nat} (hl : 48 ≤ buf.length) (h : patchLen buf = .ok p) :
    p.1.length = buf.length := by
  obtain ⟨_, -, hp⟩ := bind_eq_ok.1 h
  cases hp
  have h1 : (patchLenAt buf 4).1.length = buf.length := length_patchLenAt (by omega)
  have h2 : (patchLenAt (patchLenAt buf 4).1 44).1.length = (patchLenAt buf 4).1.length := length_patchLenAt (by omega)
  exact h2.trans h1

theorem length_of_patchChk {buf : Bytes} {p : Bytes × Nat × Nat} (hl : 48 ≤ buf.length) (h : patchChk buf = .ok p) :
    p.1.length = buf.length := by
  obtain ⟨_, -, hp⟩ := bind_eq_ok.1 h
  split at hp <;> cases hp
  · rfl
  · exact length_patchAt (by simp only [length_bytesBE]; omega)

theorem writes_of_plen (h : cmdPlen.run v r = .ok e) :
    e.ranges = [⟨r.aAddr.toNat + 4, 2⟩, ⟨r.aAddr.toNat + 44, 2⟩] := by
  simp only [cmdPlen, bind_eq_ok] at h
  obtain ⟨buf, -, p, hp, he⟩ := h
  have h48 := (ends_patchLen v buf).value_of_ok hp
  have hl := length_of_patchLen h48 hp
  cases he
  simp only [Effect.ranges, List.map_cons, List.map_nil]
  rw [length_slice _ _ _ (by omega), length_slice _ _ _ (by omega)]

theorem writes_of_pchk (h : cmdPchk.run v r = .ok e) : e.ranges = [⟨r.aAddr.toNat + 46, 2⟩] := by
  simp only [cmdPchk, bind_eq_ok] at h
  obtain ⟨buf, -, p, hp, he⟩ := h
  have h48 := (ends_patchChk v buf).value_of_ok hp
  have hl := length_of_patchChk h48 hp
  cases he
  simp only [Effect.ranges, List.map_cons, List.map_nil]
  rw [length_slice _ _ _ (by omega)]

theorem writeShape_of_run {i : Instr} (h : (commandOf i).run v r = .ok e) : WriteShape i r e := by
  cases i with
  | setb | clrb | cpyb | xorb | andb => exact writes_of_bitWriter h
  | shlb | shrb => exact writes_of_shifter h
  | cOmit | cVal | cMap | cLsb | cDlen | cDchk | cDeviid | cAppiid => exact writes_of_compressCommand h
  | clayer => exact writes_of_clayer h
  | dOmit | dVal | dMap | dLsb | dDlen | dDchk | dDeviid | dAppiid => exact writes_of_decompressCommand h
  | comp => exact writes_of_comp h
  | decomp => exact writes_of_decomp h
  | flat6 | flatu => exact writes_of_flattenCommand h
  | flatc => exact writes_of_flatc h
  | dlayer => exact writes_of_dlayer h
  | plen => exact writes_of_plen h
  | pchk => exact writes_of_pchk h
  | meq | mign | mmsb | mmap | mdisp => exact writes_of_predicateCommand h
  | rsel => exact writes_of_rsel h
  | getb =>
    simp only [commandOf, cmdGetb, ite_raise_eq_ok, bind_eq_ok] at h
    obtain ⟨-, _, -, _, -, he⟩ := h
    cases he; rfl
  | cmpb =>
    simp only [commandOf, cmdCmpb, bind_eq_ok] at h
    obtain ⟨_, -, _, -, _, -, _, -, he⟩ := h
    cases he; rfl
  | ridpk =>
    obtain ⟨-, he⟩ := ite_raise_eq_ok.1 h
    cases he; rfl
  | ridunpk =>
    obtain ⟨-, he⟩ := ite_raise_eq_ok.1 h
    cases he; rfl

end

theorem not_meet_of_compute {i : Instr} {s : State} (h : (commandOf i).compute s ≠ .error .overlap) :
    rangesMeet (regionsOf i s.snap.regs) = false := by
  rw [← Bool.not_eq_true]
  intro hm
  rw [← apart_eq_regionsOf] at hm
  refine h ?_
  unfold Command.compute
  cases hg : (commandOf i).guarded with
  | false => rw [hg] at hm; exact Bool.noConfusion hm
  | true =>
    rw [hg, if_pos rfl] at hm
    rw [hm]
    rfl

theorem writeShape_of_compute {i : Instr} {s : State} {e : Effect} (h : (commandOf i).compute s = .ok e) :
    WriteShape i s.snap.regs e :=
  writeShape_of_run (by rwa [compute_eq_run i s (not_meet_of_compute (by rw [h]; nofun))] at h)

end Sys2Proof.Machine
end

section
/-! The bytes that a command writes are those that `wroteIn` tells from its completion (60_exceptions.md R282,
30_encoding.md R74, R90), and they are among those that it may write (20_memory.md R65). -/

namespace Sys2Proof.Machine

/-! ## Bytes of ranges -/

theorem anyIn_singleton (x : Nat) (rs : List Range) : anyIn [x] rs = inRanges rs x := by simp [anyIn]

theorem anyIn_eq_true {l : List (Nat × Byte)} {rs : List Range} :
    anyIn (l.map Prod.fst) rs = true ↔ ∃ p ∈ l, inRanges rs p.1 = true := by
  simp [anyIn]

theorem anyIn_eq_false {l : List (Nat × Byte)} {rs : List Range} :
    anyIn (l.map Prod.fst) rs = false ↔ ∀ p ∈ l, inRanges rs p.1 = false := by
  simp [anyIn]

/-! ## The bytes used of a context region -/

/-- A part of what was stored reads back. -/
theorem read_put_part (m : Memory) {a i k : Nat} {s : Bytes} (h : i + k ≤ s.length) :
    (m.put a s).read (a + i) k = slice s i k := by
  rw [← slice_read _ h, Memory.read_put]

theorem slice_colImage (base : Nat) (cols : List Col) : slice (colImage base cols) 4 4 = bytesBE 4 (ctxNeed cols) := by
  simp [slice, colImage, bytesBE]

/-- The second word of a column array counts the bytes used (30_encoding.md R90). -/
theorem be_read_colImage (m : Memory) {base : Nat} {cols : List Col} (h : ctxNeed cols < 2 ^ 32) :
    be ((m.put base (colImage base cols)).read (base + 4) 4) = ctxNeed cols := by
  rw [read_put_part m (by rw [length_colImage, ctxNeed]; omega), slice_colImage, be_bytesBE]
  exact Nat.mod_eq_of_lt h

/-! ## Completions without a race -/

/-- A command whose host kept its duty completes with its effect or with its error. -/
theorem exec_unraced_cases {i : Instr} {s u : State} (hr : s.raced = []) (h : exec i s = .next u) :
    (∃ e, (commandOf i).compute s = .ok e ∧
      u = (s.clobber ((commandOf i).scratch s.snap.regs)).completeOk e) ∨
    (∃ e, (commandOf i).compute s = .error (.err e) ∧
      u = (s.clobber ((commandOf i).scratch s.snap.regs)).completeError e) := by
  rw [exec_eq_perform] at h
  rcases perform_cases (commandOf i) s with
    ⟨e, hc, -, hp⟩ | ⟨e, -, ha, -⟩ | ⟨e, hc, hp⟩ | ⟨hc, -⟩ | ⟨-, hp⟩
  · rw [hp] at h; cases h; exact Or.inl ⟨e, hc, rfl⟩
  · rw [hr] at ha; cases ha
  · rw [hp] at h; cases h; exact Or.inr ⟨e, hc, rfl⟩
  · exact absurd hc (compute_ne_raced hr)
  · rw [hp] at h; cases h

/-- A refusal without a race is that of a computation that meets the command's own regions. -/
theorem compute_of_refused {i : Instr} {s : State} (hr : s.raced = [])
    (h : exec i s = .refused .regionOverlap) : (commandOf i).compute s = .error .overlap := by
  rw [exec_eq_perform] at h
  rcases perform_cases (commandOf i) s with
    ⟨e, -, -, hp⟩ | ⟨e, -, -, hp⟩ | ⟨e, -, hp⟩ | ⟨hc, -⟩ | ⟨hc, -⟩
  · rw [hp] at h; cases h
  · rw [hp] at h; cases h
  · rw [hp] at h; cases h
  · exact absurd hc (compute_ne_raced hr)
  · exact hc

theorem statusErr_statusError (w : Word) (e : Err) : statusErr (statusError w e.code) = true := by
  rw [statusError_eq]; split <;> cases e <;> rfl

/-- After an error only `COMP` and `DECOMP` have written, and these both their regions. -/
theorem scratch_eq_wroteIn {i : Instr} {r : Regs} {u : State} (h : statusErr u.status = true) (x : Nat) :
    inRanges ((commandOf i).scratch r) x = wroteIn i r u x := by
  cases i
  case comp | decomp => rfl
  all_goals simp only [wroteIn, h]; rfl

/-- What a successful completion with the effect `e` leaves, as far as `wroteIn` looks. -/
structure Succeeds (e : Effect) (u : State) : Prop where
  noErr : statusErr u.status = false
  result : u.result = BitVec.ofNat 32 e.result
  result2 : u.result2 = BitVec.ofNat 32 e.result2
  mem : ∃ m, u.mem = storeAll m e.writes

theorem succeeds_completeOk (s : State) (e : Effect) : Succeeds e (s.completeOk e) :=
  ⟨statusErr_statusOk _, rfl, rfl, s.mem, rfl⟩

theorem toNat_ofNat_of_le {n : Nat} {w : Word} (h : n ≤ w.toNat) : (BitVec.ofNat 32 n).toNat = n := by
  rw [BitVec.toNat_ofNat]; exact Nat.mod_eq_of_lt (by have := w.isLt; omega)

/-- The bytes of a column array in memory are the bytes used that its second word counts (R90). -/
theorem bytesUsed_in {e : Effect} {u : State} {r : Regs} {cols : List Col} (hu : Succeeds e u)
    (hw : e.writes = [(r.ctxAddr.toNat, colImage r.ctxAddr.toNat cols)]) (hs : ctxNeed cols ≤ r.ctxSize.toNat) :
    be (u.mem.read (r.ctxAddr.toNat + 4) 4) = ctxNeed cols := by
  obtain ⟨m, hm⟩ := hu.mem
  rw [hm, hw]
  exact be_read_colImage m (by have := r.ctxSize.isLt; omega)

/-- A header written to an output range apart from the context region leaves the column array there. -/
theorem bytesUsed_in_beside {e : Effect} {u : State} {r : Regs} {cols : List Col} {out : Bytes} (hu : Succeeds e u)
    (hw : e.writes = [(r.ctxAddr.toNat, colImage r.ctxAddr.toNat cols), (r.dAddr.toNat, out)])
    (hs : ctxNeed cols ≤ r.ctxSize.toNat) (hc : out.length ≤ r.outCap.toNat) (ha : RegionsApart r) :
    be (u.mem.read (r.ctxAddr.toNat + 4) 4) = ctxNeed cols := by
  obtain ⟨m, hm⟩ := hu.mem
  have h8 : 8 ≤ ctxNeed cols := by rw [ctxNeed]; omega
  rw [hm, hw]
  refine (congrArg be (Memory.read_congr fun j hj => ?_)).trans
    (be_read_colImage m (by have := r.ctxSize.isLt; omega))
  exact Memory.get_put_of_not_mem _ _ _ _ (by unfold RegionsApart at ha; omega)

theorem has_two (a x : Nat) : (Range.mk a 2).has x = (x == a || x == a + 1) := by
  rw [Bool.eq_iff_iff]
  simp only [Range.has, Bool.and_eq_true, Bool.or_eq_true, decide_eq_true_eq, beq_iff_eq]
  omega

/-- A range that starts where another does, and is no longer, is part of it. -/
theorem has_of_shorter {a n k x : Nat} (h : k ≤ n) (hx : (Range.mk a k).has x = true) :
    (Range.mk a n).has x = true := by
  simp only [Range.has, Bool.and_eq_true, decide_eq_true_eq] at hx ⊢
  omega

/-- A command that succeeds has written what `wroteIn` tells. -/
theorem writes_eq_wroteIn {i : Instr} {s u : State} {e : Effect} (hc : (commandOf i).compute s = .ok e)
    (hu : Succeeds e u) (x : Nat) :
    inRanges ((commandOf i).scratch s.snap.regs ++ e.ranges) x = wroteIn i s.snap.regs u x := by
  have hw := writeShape_of_compute hc
  cases i with
  | setb | clrb | cpyb | xorb | andb =>
    rw [show e.ranges = _ from hw, wroteIn, hu.noErr]
    exact (Bool.or_false _).trans (bitRange_has _ _ _ x)
  | shlb | shrb =>
    rw [show e.ranges = _ from hw, wroteIn, hu.noErr]
    exact Bool.or_false _
  | plen =>
    rw [show e.ranges = _ from hw, wroteIn, hu.noErr]
    simp [mayWrite, commandOf, cmdPlen, has_two, Bool.or_assoc]
  | pchk =>
    rw [show e.ranges = _ from hw, wroteIn, hu.noErr]
    exact (Bool.or_false _).trans (has_two _ x)
  | cOmit | cVal | cMap | cLsb | cDlen | cDchk | cDeviid | cAppiid | clayer =>
    obtain ⟨out, hw, hcap, hr⟩ := hw
    rw [Effect.ranges, hw, wroteIn, hu.noErr, hu.result, hr, toNat_ofNat_of_le hcap]
    exact Bool.or_false _
  | dOmit | dVal | dMap | dLsb | dDlen | dDchk | dDeviid | dAppiid =>
    obtain ⟨out, hw, hcap, hr⟩ := hw
    rw [Effect.ranges, hw, wroteIn, hu.noErr, hu.result2, hr, toNat_ofNat_of_le hcap]
    exact Bool.or_false _
  | flat6 | flatu | flatc =>
    obtain ⟨cols, hw, hsize⟩ := hw
    rw [Effect.ranges, hw, wroteIn, hu.noErr, bytesUsed_in hu hw hsize, ← length_colImage s.snap.regs.ctxAddr.toNat]
    exact Bool.or_false _
  | dlayer =>
    obtain ⟨cols, out, hw, hsize, hcap, hr⟩ := hw
    have ha : RegionsApart s.snap.regs :=
      (rangesMeet_out_ctx _).1 (not_meet_of_compute (i := .dlayer) (by rw [hc]; nofun))
    rw [Effect.ranges, hw, wroteIn, hu.noErr, hu.result2, hr, toNat_ofNat_of_le hcap,
      bytesUsed_in_beside hu hw hsize hcap ha, ← length_colImage s.snap.regs.ctxAddr.toNat, Bool.or_comm]
    exact congrArg _ (Bool.or_false _)
  | comp | decomp =>
    obtain ⟨out, hw, hcap⟩ := hw
    rw [Effect.ranges, hw, inRanges, List.any_append, Bool.eq_iff_iff, Bool.or_eq_true]
    exact or_iff_left_of_imp fun hx => List.any_eq_true.2
      ⟨outRange _, List.mem_cons_self, has_of_shorter hcap (by simpa using hx)⟩
  | getb | cmpb | meq | mign | mmsb | mmap | mdisp | rsel | ridpk | ridunpk =>
    rw [Effect.ranges, show e.writes = _ from hw, wroteIn, hu.noErr]
    rfl

/-! ## What may be written -/

/-- A range that starts where one of the regions does, and is no longer, is of what the command may write. -/
theorem inRanges_guardOf_of_shorter {i : Instr} {r : Regs} {g : Range} {x n : Nat} (hg : g ∈ guardOf i r)
    (hn : n ≤ g.len) (hx : (Range.mk g.base n).has x = true) : inRanges (guardOf i r) x = true :=
  List.any_eq_true.2 ⟨g, hg, has_of_shorter hn hx⟩

/-- The regions of a command are of what it may write; of a command with regions of its own they are all of it. -/
theorem regions_within_mayWrite (i : Instr) (r : Regs) :
    Within (inRanges ((commandOf i).regions r)) (mayWrite i r) ∧
    ((commandOf i).guarded = true → inRanges ((commandOf i).regions r) = mayWrite i r) := by
  have hpatch : ∀ k x, (patchRegion r k).has x = true →
      (x == r.aAddr.toNat + k || x == r.aAddr.toNat + k + 1) = true :=
    fun k x hx => has_two _ x ▸ has_of_shorter (by split <;> decide) hx
  cases i with
  | setb | clrb | cpyb | xorb | andb =>
    exact ⟨fun x hx => ((Bool.or_false _).trans (bitRange_has _ _ _ x)).symm.trans hx, nofun⟩
  | shlb | shrb => exact ⟨fun x hx => (Bool.or_false _).symm.trans hx, nofun⟩
  | plen =>
    refine ⟨fun x hx => ?_, nofun⟩
    rw [mayWrite, Bool.or_assoc, Bool.or_eq_true]
    obtain ⟨g, hg, hx⟩ := List.any_eq_true.1 hx
    rcases List.mem_pair.1 hg with rfl | rfl
    · exact Or.inl (hpatch 4 x hx)
    · exact Or.inr (hpatch 44 x hx)
  | pchk => exact ⟨fun x hx => hpatch 46 x ((Bool.or_false _).symm.trans hx), nofun⟩
  | _ => exact ⟨fun _ => id, fun _ => rfl⟩

/-- A command that succeeds has written bytes that it may write. -/
theorem ranges_within_mayWrite {i : Instr} {r : Regs} {e : Effect} (hw : WriteShape i r e) :
    Within (inRanges e.ranges) (mayWrite i r) := by
  intro x hx
  obtain ⟨g, hg, hx⟩ := List.any_eq_true.1 hx
  cases i with
  | setb | clrb | cpyb | xorb | andb =>
    rw [show e.ranges = _ from hw, List.mem_singleton] at hg
    subst hg
    exact (bitRange_has _ _ _ x).symm.trans hx
  | shlb | shrb =>
    rw [show e.ranges = _ from hw, List.mem_singleton] at hg
    subst hg
    exact hx
  | plen =>
    rw [show e.ranges = _ from hw, List.mem_pair] at hg
    rw [mayWrite, Bool.or_assoc, Bool.or_eq_true]
    rcases hg with rfl | rfl
    · exact Or.inl ((has_two _ x).symm.trans hx)
    · exact Or.inr ((has_two _ x).symm.trans hx)
  | pchk =>
    rw [show e.ranges = _ from hw, List.mem_singleton] at hg
    subst hg
    exact (has_two _ x).symm.trans hx
  | cOmit | cVal | cMap | cLsb | cDlen | cDchk | cDeviid | cAppiid | clayer
  | dOmit | dVal | dMap | dLsb | dDlen | dDchk | dDeviid | dAppiid =>
    obtain ⟨out, hw, hcap, -⟩ := hw
    rw [Effect.ranges, hw, List.map_singleton, List.mem_singleton] at hg
    subst hg
    exact inRanges_guardOf_of_shorter (g := outRange r) List.mem_cons_self hcap hx
  | comp | decomp =>
    obtain ⟨out, hw, hcap⟩ := hw
    rw [Effect.ranges, hw, List.map_singleton, List.mem_singleton] at hg
    subst hg
    exact inRanges_guardOf_of_shorter (g := outRange r) List.mem_cons_self hcap hx
  | flat6 | flatu | flatc =>
    obtain ⟨cols, hw, hsize⟩ := hw
    rw [Effect.ranges, hw, List.map_singleton, List.mem_singleton] at hg
    subst hg
    exact inRanges_guardOf_of_shorter (g := ctxRange r) List.mem_cons_self ((length_colImage _ _).trans_le hsize) hx
  | dlayer =>
    obtain ⟨cols, out, hw, hsize, hcap, -⟩ := hw
    rw [Effect.ranges, hw, List.map_cons, List.map_singleton, List.mem_pair] at hg
    rcases hg with rfl | rfl
    · exact inRanges_guardOf_of_shorter (g := ctxRange r) (List.mem_cons_of_mem _ List.mem_cons_self)
        ((length_colImage _ _).trans_le hsize) hx
    · exact inRanges_guardOf_of_shorter (g := outRange r) List.mem_cons_self hcap hx
  | getb | cmpb | meq | mign | mmsb | mmap | mdisp | rsel | ridpk | ridunpk =>
    rw [Effect.ranges, show e.writes = _ from hw] at hg
    cases hg

theorem scratch_within_mayWrite (i : Instr) (r : Regs) :
    Within (inRanges ((commandOf i).scratch r)) (mayWrite i r) := by
  cases i
  case comp | decomp => exact fun _ => id
  all_goals exact nofun

/-! ## The bytes that a command is writing -/

/-- Whatever the command computes, it writes bytes that it may write. -/
theorem writtenBy_within_mayWrite (i : Instr) (s : State) :
    Within (inRanges ((commandOf i).writtenBy s.snap.regs ((commandOf i).compute s))) (mayWrite i s.snap.regs) := by
  intro x hx
  cases hc : (commandOf i).compute s with
  | ok e =>
    rw [hc, Command.writtenBy, inRanges, List.any_append, Bool.or_eq_true] at hx
    exact hx.elim (scratch_within_mayWrite i _ x) (ranges_within_mayWrite (writeShape_of_compute hc) x)
  | error st =>
    rw [hc] at hx
    cases st with
    | err e => exact scratch_within_mayWrite i _ x hx
    | overlap | raced => exact (regions_within_mayWrite i _).1 x hx

theorem written_of_not_raced {c : Command} {s : State} (h : c.compute s ≠ .error .raced) :
    c.written s = c.writtenBy s.snap.regs (c.compute s) := by
  unfold Command.written
  split
  · exact absurd ‹_› h
  · rfl

theorem written_of_raced {c : Command} {s : State} (h : c.compute s = .error .raced) :
    c.written s = c.writtenBy s.snap.regs (c.compute (s.mixed s.freeIdx)) := by
  unfold Command.written
  rw [h]

/-- The bytes that a running command writes are of those that it may write. -/
theorem written_within_mayWrite (i : Instr) (s : State) :
    Within (inRanges ((commandOf i).written s)) (mayWrite i s.snap.regs) := by
  by_cases h : (commandOf i).compute s = .error .raced
  · rw [written_of_raced h]
    exact writtenBy_within_mayWrite i (s.mixed s.freeIdx)
  · rw [written_of_not_raced h]
    exact writtenBy_within_mayWrite i s

/-- The bytes that a command without a race writes are those that its completion tells. -/
theorem writtenBy_eq_wroteIn {i : Instr} {s u : State} (hr : s.raced = []) (h : exec i s = .next u) (x : Nat) :
    inRanges ((commandOf i).writtenBy s.snap.regs ((commandOf i).compute s)) x = wroteIn i s.snap.regs u x := by
  rcases exec_unraced_cases hr h with ⟨e, hc, rfl⟩ | ⟨e, hc, rfl⟩ <;> rw [hc]
  · exact writes_eq_wroteIn hc (succeeds_completeOk _ e) x
  · exact scratch_eq_wroteIn (statusErr_statusError _ e) x

/-- A refused command would write, as far as the registers tell, every byte that it may write. -/
theorem writtenBy_of_overlap {i : Instr} {s : State} (h : (commandOf i).compute s = .error .overlap) :
    inRanges ((commandOf i).writtenBy s.snap.regs ((commandOf i).compute s)) = mayWrite i s.snap.regs := by
  rw [h]
  refine (regions_within_mayWrite i _).2 ?_
  cases hg : (commandOf i).guarded with
  | true => rfl
  | false => exact absurd h (compute_ne_overlap (by rw [← guard_eq_guardOf, hg]; rfl))

end Sys2Proof.Machine
end

section
/-! Host accesses to buffer memory, and what a command is writing meanwhile (20_memory.md R50, R56, R60). -/

namespace Sys2Proof.Machine

/-! ## The bytes that a command may be writing -/

theorem mixOf_mixed (s : State) (k : Nat) : MixOf s (s.mixed k).mem := mixOf_get k s.raced 0 s.mem

/-- A mix of `s` on which a command computes what it writes in `s`. -/
theorem written_on_mix (i : Instr) (s : State) :
    ∃ m, MixOf s m ∧ ((commandOf i).compute s ≠ .error .raced → m = s.mem) ∧
      (commandOf i).written s =
        (commandOf i).writtenBy s.snap.regs ((commandOf i).compute { s with mem := m, raced := [] }) := by
  by_cases h : (commandOf i).compute s = .error .raced
  · exact ⟨_, mixOf_mixed s s.freeIdx, fun hn => absurd h hn, written_of_raced h⟩
  · refine ⟨s.mem, fun x => Or.inl rfl, fun _ => rfl, ?_⟩
    rw [written_of_not_raced h, ← compute_of_not_raced h]

/-- The set of bytes that a running command writes is one that it may be writing. -/
theorem mayBeWriting_written (i : Instr) (s : State) : MayBeWriting i s (inRanges ((commandOf i).written s)) := by
  obtain ⟨m, hm, hs, hw⟩ := written_on_mix i s
  refine ⟨m, hm, hs, ?_⟩
  rw [hw]
  rcases exec_next_or_refused i { s with mem := m, raced := [] } with ⟨u, hu⟩ | hu
  · exact Or.inl ⟨u, hu, writtenBy_eq_wroteIn (s := { s with mem := m, raced := [] }) rfl hu⟩
  · exact Or.inr ⟨hu, fun x => congrFun
      (writtenBy_of_overlap (s := { s with mem := m, raced := [] }) (compute_of_refused rfl hu)) x⟩

/-! ## Host reads -/

theorem runningWrites_of_error {s : State} {e : DecodeError} (hf : s.fsm = .busy)
    (hd : decode s.snap.word = .error e) : runningWrites s = [] := by
  rw [runningWrites, hf]
  simp only [hd]

theorem runningWrites_of_ok {s : State} {i : Instr} (hf : s.fsm = .busy) (hd : decode s.snap.word = .ok i) :
    runningWrites s = (commandOf i).written s := by
  rw [runningWrites, hf]
  simp only [hd]

/-- What a host reads of a byte while a command runs. -/
def busyRead (s : State) (x : Nat) : Byte :=
  if inRanges (runningWrites s) x then Config.freeByte s.freeIdx else s.mem.get x

theorem step_memRead_idle {s : State} {x : Nat} {rest : List Event} (he : s.events = .memRead x :: rest)
    (hx : x < s.params.memSize) (hf : s.fsm = .idle) :
    step s = .next { s with events := rest, readData := (s.mem.get x).setWidth 32 } := by
  rw [step_cons he, doEvent, hostMemRead, if_pos hx]
  simp only [hf]

theorem step_memRead_busy {s : State} {x : Nat} {rest : List Event} (he : s.events = .memRead x :: rest)
    (hx : x < s.params.memSize) (hf : s.fsm = .busy) :
    step s = .next { s with events := rest, readData := (busyRead s x).setWidth 32, freeIdx := s.freeIdx + 1 } := by
  have hw : runningWrites { s with events := rest } = runningWrites s := rfl
  rw [step_cons he, doEvent, hostMemRead, if_pos hx, hw, anyIn_singleton]
  simp only [hf]
  rfl

theorem step_memWrite {s : State} {x : Nat} {b : Byte} {rest : List Event} (he : s.events = .memWrite x b :: rest)
    (hx : x < s.params.memSize) :
    step s = .next
      { s with events := rest, mem := s.mem.put x [b],
               raced := if s.fsm = .busy then (x, s.mem.get x) :: s.raced else s.raced } := by
  rw [step_cons he, doEvent, hostMemWrite, if_pos hx]
  cases s.fsm <;> rfl

/-- A byte that the running command writes reads as a free value (log 13). -/
theorem busyRead_of_written {s : State} {x : Nat} (h : inRanges (runningWrites s) x = true) :
    (busyRead s x).setWidth 32 = (Config.freeByte s.freeIdx).setWidth 32 := by
  rw [busyRead, h]; rfl

/-- A byte that the running command does not write reads as it stands. -/
theorem busyRead_of_not_written {s : State} {x : Nat} (h : inRanges (runningWrites s) x = false) :
    (busyRead s x).setWidth 32 = (s.mem.get x).setWidth 32 := by
  rw [busyRead, h]; rfl

theorem stored_put (m : Memory) (a : Nat) (out : Bytes) : Stored m (m.put a out) a out := by
  intro x
  split
  · next h =>
    rw [Memory.get_put_of_mem _ _ _ _ h.1 (by omega), List.getD_eq_getElem?_getD, List.getElem?_eq_getElem (by omega)]
    rfl
  · next h => exact Memory.get_put_of_not_mem _ _ _ _ h

/-- Settles O14: what a read while BUSY returns is told by the bytes that the command writes, which are those of a
completion and among those that it may write. -/
theorem hostMemoryAccess : Obligations.HostMemoryAccess := by
  refine ⟨fun s x b rest he hx => ?_, fun s x rest he hx hf => step_memRead_idle he hx hf,
    fun s x rest he hx hf => ?_, fun s x b rest hx he => ?_⟩
  · exact ⟨_, step_memWrite he hx, stored_put _ _ _, rfl, fun hf => by simp [hf], fun hf => by simp [hf]⟩
  · refine ⟨_, step_memRead_busy he hx hf, rfl, fun e hd => busyRead_of_not_written ?_, fun i hd =>
      ⟨fun hm => busyRead_of_not_written ?_, fun u hu hexec hw => busyRead_of_not_written ?_,
        _, mayBeWriting_written i s, ?_⟩⟩
    · rw [runningWrites_of_error hf hd]
      rfl
    · rw [runningWrites_of_ok hf hd, ← Bool.not_eq_true]
      exact fun hin => absurd (written_within_mayWrite i s x hin) (by rw [hm]; decide)
    · rw [runningWrites_of_ok hf hd, written_of_not_raced (compute_ne_raced hu), writtenBy_eq_wroteIn hu hexec, hw]
    · rw [← runningWrites_of_ok hf hd]
      split
      · next hw => exact ⟨s.freeIdx, Nat.le_refl _, Nat.lt_succ_self _, busyRead_of_written hw⟩
      · next hw => exact busyRead_of_not_written (Bool.not_eq_true _ ▸ hw)
  · have hn : ¬ x < s.params.memSize := Nat.not_lt.2 hx
    rcases he with he | he <;> rw [step_cons he, doEvent]
    · rw [hostMemWrite, if_neg hn]
    · rw [hostMemRead, if_neg hn]

end Sys2Proof.Machine
end

section
/-! Completions of a command whose host broke the duty of 20_memory.md R60. -/

namespace Sys2Proof.Machine

/-! ## Free bytes (log 9) -/

/-- Every byte of one range that exists takes a free value. -/
def State.clobberRange (s : State) (g : Range) : State :=
  { s with mem := s.mem.clobber g.base (min g.len (s.params.memSize - g.base)) s.freeIdx,
           freeIdx := s.freeIdx + min g.len (s.params.memSize - g.base) }

theorem State.clobber_cons (s : State) (g : Range) (rest : List Range) :
    s.clobber (g :: rest) = (s.clobberRange g).clobber rest := rfl

theorem State.le_freeIdx_clobber (rs : List Range) : ∀ s : State, s.freeIdx ≤ (s.clobber rs).freeIdx := by
  induction rs with
  | nil => exact fun s => Nat.le_refl _
  | cons g rest ih => exact fun s => (Nat.le_add_right _ _).trans (ih (s.clobberRange g))

/-- A byte that does not exist takes no free value (R50). -/
theorem State.clobber_get_of_ge {x : Nat} (rs : List Range) : ∀ s : State, s.params.memSize ≤ x →
    (s.clobber rs).mem.get x = s.mem.get x := by
  induction rs with
  | nil => exact fun s _ => rfl
  | cons g rest ih =>
    intro s hx
    rw [State.clobber_cons, ih (s.clobberRange g) hx]
    exact (Memory.get_clobber _ _ _ _ _).trans (if_neg (by omega))

/-- A byte that exists and lies in one of the ranges takes a free value. -/
theorem State.holdsFree_clobber {x : Nat} (rs : List Range) : ∀ s : State, x < s.params.memSize →
    inRanges rs x = true → HoldsFree s (s.clobber rs) x := by
  induction rs with
  | nil => exact fun s _ hin => nomatch hin
  | cons g rest ih =>
    intro s hx hin
    rw [State.clobber_cons]
    by_cases hrest : inRanges rest x = true
    · obtain ⟨k, hlo, hhi, hk⟩ := ih (s.clobberRange g) hx hrest
      exact ⟨k, (Nat.le_add_right _ _).trans hlo, hhi, hk⟩
    · have hg : g.has x = true := by simpa [inRanges, hrest] using hin
      have hout : ∀ q ∈ rest, q.has x = false := by simpa [inRanges] using hrest
      simp only [Range.has, Bool.and_eq_true, decide_eq_true_eq] at hg
      have hlt : s.freeIdx + (x - g.base) < (s.clobberRange g).freeIdx := by simp only [State.clobberRange]; omega
      refine ⟨s.freeIdx + (x - g.base), by omega, hlt.trans_le (State.le_freeIdx_clobber rest _), ?_⟩
      rw [State.clobber_get rest _ x hout]
      exact (Memory.get_clobber _ _ _ _ _).trans (if_pos (by omega))

/-- Where memory is that of `s` with the bytes of some ranges free, only these took a free value. -/
theorem freesOnly_of_clobber {s t : State} {rs : List Range} {W : Nat → Bool} {k : Nat} (hk : s.freeIdx ≤ k)
    (hm : t.mem = (State.clobber { s with freeIdx := k } rs).mem)
    (hf : t.freeIdx = (State.clobber { s with freeIdx := k } rs).freeIdx) (hW : ∀ x, inRanges rs x = W x) :
    FreesOnly s t W := by
  intro x
  split
  · next h =>
    obtain ⟨j, hlo, hhi, hj⟩ := State.holdsFree_clobber rs { s with freeIdx := k } h.2 (by rw [hW, h.1])
    exact ⟨j, hk.trans hlo, hf ▸ hhi, hm ▸ hj⟩
  · next h =>
    rw [hm]
    by_cases hx : x < s.params.memSize
    · exact State.clobber_get rs { s with freeIdx := k } x
        (by simpa [inRanges] using (hW x).trans (Bool.eq_false_iff.2 fun hw => h ⟨hw, hx⟩))
    · exact State.clobber_get_of_ge rs { s with freeIdx := k } (Nat.not_lt.1 hx)

/-! ## Completion on the state without the breach -/

theorem clobber_unraced (rs : List Range) : ∀ s : State,
    State.clobber { s with raced := [] } rs = { s.clobber rs with raced := [] } := by
  induction rs with
  | nil => exact fun s => rfl
  | cons g rest ih => exact fun s => ih (s.clobberRange g)

/-- A command that succeeds without a breach. -/
theorem exec_unraced_of_ok {i : Instr} {s : State} {e : Effect} (hc : (commandOf i).compute s = .ok e) :
    exec i { s with raced := [] } = .next ((s.clobber ((commandOf i).scratch s.snap.regs)).completeOk e) := by
  rw [exec_eq_perform, perform_of_ok rfl ((compute_of_not_raced (by rw [hc]; nofun)).trans hc), clobber_unraced]
  rfl

/-- A command that raises an error without a breach. -/
theorem exec_unraced_of_err {i : Instr} {s : State} {e : Err} (hc : (commandOf i).compute s = .error (.err e)) :
    exec i { s with raced := [] } = .next ((s.clobber ((commandOf i).scratch s.snap.regs)).completeError e) := by
  rw [exec_eq_perform, perform_of_err ((compute_of_not_raced (by rw [hc]; nofun)).trans hc), clobber_unraced]
  rfl

/-- A command that reads and writes no byte that the host wrote completes as if the host had written none. -/
theorem exec_eq_unraced {i : Instr} {s : State} (hn : (commandOf i).compute s ≠ .error .raced)
    (hw : ∀ p ∈ s.raced, inRanges ((commandOf i).written s) p.1 = false) :
    exec i s = exec i { s with raced := [] } := by
  rw [exec_eq_perform i s]
  rcases perform_cases (commandOf i) s with
    ⟨e, hc, -, hp⟩ | ⟨e, -, ha, -⟩ | ⟨e, hc, hp⟩ | ⟨hc, -⟩ | ⟨hc, hp⟩
  · rw [hp, exec_unraced_of_ok hc]
  · rw [anyIn_eq_false.2 hw] at ha; cases ha
  · rw [hp, exec_unraced_of_err hc]
  · exact absurd hc hn
  · rw [hp, refused_of_compute ((compute_of_not_raced hn).trans hc)]

/-- The completion on a mix is one that reports what the computation there does. -/
theorem exec_mixed_of_report {i : Instr} {s : State} {k : Nat} {q : Report}
    (h : reportOf ((commandOf i).compute (s.mixed k)) = some q) :
    ∃ u, exec i (s.mixed k) = .next u ∧ u.result = q.result ∧ u.result2 = q.result2 ∧
      u.status = statusOfCode s.status q.code := by
  rcases reportOf_cases ((commandOf i).compute (s.mixed k)) with
    ⟨e, hc, hq⟩ | ⟨e, hc, hq⟩ | ⟨-, hq⟩ | ⟨-, hq⟩ <;> rw [hq] at h <;> cases h
  · exact ⟨_, exec_unraced_of_ok hc, rfl, rfl, by simp [statusOfCode]⟩
  · exact ⟨_, exec_unraced_of_err hc, rfl, rfl, by cases e <;> simp [statusOfCode, Err.code]⟩

theorem written_of_mixed {i : Instr} {s u : State} {k : Nat} (h : exec i (s.mixed k) = .next u) (x : Nat) :
    inRanges ((commandOf i).written (s.mixed k)) x = wroteIn i s.snap.regs u x := by
  rw [written_of_not_raced (compute_ne_raced rfl)]
  exact writtenBy_eq_wroteIn rfl h x

/-- A command that succeeds is writing what its completion without the breach tells. -/
theorem written_of_ok {i : Instr} {s : State} {e : Effect} (hc : (commandOf i).compute s = .ok e) (x : Nat) :
    inRanges ((commandOf i).written s) x =
      wroteIn i s.snap.regs ((s.clobber ((commandOf i).scratch s.snap.regs)).completeOk e) x := by
  rw [written_of_not_raced (by rw [hc]; nofun), hc]
  exact writes_eq_wroteIn hc (succeeds_completeOk _ e) x

/-! ## Shifts (40_bitbuf.md R118, R119) -/

/-- A shift of a window in memory reads a byte that the host wrote in it. -/
theorem run_shifter_raced {f : Nat → Nat → Nat → Nat} {v : View} {r : Regs} {a : Nat} (hg : v.guard = [])
    (ha : a ∈ v.raced) (hin : amongBytes r.dAddr.toNat r.len.toNat a = true)
    (hfit : r.dAddr.toNat + r.len.toNat ≤ v.size) : (shifter f).run v r = .error .raced := by
  have ht : touch v r.dAddr.toNat r.len.toNat = .error .raced := by
    rw [touch, if_neg (by omega), if_neg (by simp [hg]), sense, if_pos]
    simpa [anyIn] using ⟨a, ha, hin⟩
  exact bind_eq_error.2 (Or.inl (bind_eq_error.2 (Or.inl ht)))

/-- A shift of a window in memory whose host wrote nothing gives 0 in both results and writes the window. -/
theorem run_shifter_ok {f : Nat → Nat → Nat → Nat} {v : View} {r : Regs} (hg : v.guard = []) (hr : v.raced = [])
    (hfit : r.dAddr.toNat + r.len.toNat ≤ v.size) :
    ∃ ws, (shifter f).run v r = .ok ⟨ws, 0, 0⟩ ∧
      Effect.ranges ⟨ws, 0, 0⟩ = [⟨r.dAddr.toNat, r.len.toNat⟩] := by
  have ht : touch v r.dAddr.toNat r.len.toNat = .ok () :=
    touch_eq_ok.2 ⟨Or.inr hfit, by simp [hg], by simp [hr, anyIn]⟩
  refine ⟨_, bind_eq_ok.2 ⟨_, readBytes_eq_ok.2 ⟨ht, rfl⟩, rfl⟩, ?_⟩
  simp [Effect.ranges]

/-- A raced shift gives 0 in both results, without an error, and frees its window alone. -/
theorem exec_shifter_raced {i : Instr} {f : Nat → Nat → Nat → Nat} (hi : commandOf i = shifter f) {s : State}
    {p : Nat × Byte} (hp : p ∈ s.raced)
    (hin : amongBytes s.snap.regs.dAddr.toNat s.snap.regs.len.toNat p.1 = true)
    (hfit : s.snap.regs.dAddr.toNat + s.snap.regs.len.toNat ≤ s.params.memSize) :
    ∃ t, exec i s = .next t ∧ t = { doneState s t.mem 0 0 with freeIdx := t.freeIdx } ∧
      FreesOnly s t (amongBytes s.snap.regs.dAddr.toNat s.snap.regs.len.toNat) := by
  have hraced : (commandOf i).compute s = .error .raced := by
    rw [hi]
    exact run_shifter_raced (v := (shifter f).view s) rfl (List.mem_map_of_mem hp) hin hfit
  have hmix : ∀ k, ∃ ws, (commandOf i).compute (s.mixed k) = .ok ⟨ws, 0, 0⟩ ∧
      Effect.ranges ⟨ws, 0, 0⟩ = [⟨s.snap.regs.dAddr.toNat, s.snap.regs.len.toNat⟩] := fun k => by
    rw [hi]
    exact run_shifter_ok (v := (shifter f).view (s.mixed k)) rfl rfl hfit
  have hrep : ∀ k, reportOf ((commandOf i).compute (s.mixed k)) = some ⟨0, 0, 0⟩ := fun k => by
    obtain ⟨ws, hc, -⟩ := hmix k
    rw [hc]; rfl
  have hexec : exec i s = .next ((State.clobber { s with freeIdx := s.freeIdx + 4 }
      ((commandOf i).written (s.mixed (s.freeIdx + 3)))).completeRaced 0 0 0) := by
    rw [exec_eq_perform, perform, hraced]
    simp only [performRaced, hrep]
  refine ⟨_, hexec, ?_, freesOnly_of_clobber (Nat.le_add_right _ 4) rfl rfl fun x => ?_⟩
  · simp [State.completeRaced, doneState, statusOfCode, statusOk_eq]
  · obtain ⟨ws, hc, hw⟩ := hmix (s.freeIdx + 3)
    rw [written_of_not_raced (compute_ne_raced rfl), hc, Command.writtenBy, hi, hw]
    exact Bool.or_false _

/-! ## Bit ranges out of memory (20_memory.md R54) -/

theorem completeError_eq_failedState (s : State) (e : Err) : s.completeError e = failedState s e := by
  simp only [State.completeError, ← failedState_status]
  rfl

/-- A command without a region of its own that raises an error leaves memory alone, whatever the host wrote. -/
theorem exec_of_run_raise {i : Instr} {s : State} {e : Err} (hg : guardOf i s.snap.regs = [])
    (hs : (commandOf i).scratch s.snap.regs = [])
    (h : (commandOf i).run (viewOf i s) s.snap.regs = raise e) : exec i s = .next (failedState s e) := by
  rw [exec_eq_perform, perform_of_err_precise hs ((compute_eq_run i s (rangesMeet_guardOf_nil hg)).trans h),
    completeError_eq_failedState]

theorem checkBits_of_not_fit {s : State} (i : Instr) {addr pos len : Word} (h : ¬ BitsFit s addr pos len) :
    checkBits (viewOf i s) addr.toNat pos.toNat len.toNat = raise .busFault := by
  have hn : checkBits (viewOf i s) addr.toNat pos.toNat len.toNat ≠ .ok () := fun hok => h (checkBits_eq_ok.1 hok)
  unfold checkBits checkRange at hn ⊢
  split
  · rfl
  · next hc => rw [if_neg hc] at hn; exact absurd rfl hn

/-- A range check lets through or raises `BUS_FAULT`, so an error of a later one is the error of both. -/
theorem raise_after_checkBits {α : Type} {v : View} {base pos len : Nat} {f : Unit → Comp α}
    (h : f () = raise .busFault) : (checkBits v base pos len >>= f) = raise .busFault := by
  unfold checkBits checkRange
  split
  · rfl
  · exact h

theorem raise_first {α β : Type} {x : Comp α} {f : α → Comp β} {e : Err} (h : x = raise e) :
    (x >>= f) = raise e := by
  rw [h]; rfl

section
variable {v : View} {r : Regs}

theorem run_raise_of_checkA {i : Instr} (hi : i ∈ [.cpyb, .cmpb, .xorb, .andb]) (h : checkA v r = raise .busFault) :
    (commandOf i).run v r = raise .busFault := by
  simp only [List.mem_cons, List.not_mem_nil, or_false] at hi
  rcases hi with rfl | rfl | rfl | rfl
  · exact raise_first (raise_first h)
  · exact raise_first h
  iterate 2 exact raise_first (raise_first h)

theorem run_raise_of_checkB {i : Instr} (hi : i ∈ [.cmpb, .xorb, .andb]) (h : checkB v r = raise .busFault) :
    (commandOf i).run v r = raise .busFault := by
  simp only [List.mem_cons, List.not_mem_nil, or_false] at hi
  rcases hi with rfl | rfl | rfl
  · exact raise_after_checkBits (raise_first h)
  iterate 2 exact raise_first (raise_after_checkBits (raise_first h))

theorem run_raise_of_checkD {i : Instr} (hi : i ∈ [.setb, .clrb, .cpyb, .xorb, .andb])
    (h : checkD v r = raise .busFault) : (commandOf i).run v r = raise .busFault := by
  simp only [List.mem_cons, List.not_mem_nil, or_false] at hi
  rcases hi with rfl | rfl | rfl | rfl | rfl
  iterate 2 exact raise_first h
  · exact raise_first (raise_after_checkBits (raise_first h))
  iterate 2 exact raise_first (raise_after_checkBits (raise_after_checkBits (raise_first h)))

end

/-- No bit command has a region of its own, or leaves a byte free. -/
theorem bit_command_shape {i : Instr} (hi : i ∈ [.getb, .setb, .clrb, .cpyb, .cmpb, .xorb, .andb]) (r : Regs) :
    guardOf i r = [] ∧ (commandOf i).scratch r = [] := by
  simp only [List.mem_cons, List.not_mem_nil, or_false] at hi
  rcases hi with rfl | rfl | rfl | rfl | rfl | rfl | rfl <;> exact ⟨rfl, rfl⟩

/-- A bit command that raises `BUS_FAULT` completes so, memory as before. -/
theorem exec_bit_busFault {i : Instr} {s : State} (hi : i ∈ [.getb, .setb, .clrb, .cpyb, .cmpb, .xorb, .andb])
    (h : (commandOf i).run (viewOf i s) s.snap.regs = raise .busFault) :
    exec i s = .next (failedState s .busFault) :=
  exec_of_run_raise (bit_command_shape hi _).1 (bit_command_shape hi _).2 h

/-! ## The completion of a raced command -/

/-- A command that reads a byte that the host wrote completes with registers of completions on mixes, and frees what
another such completion writes (R60). -/
theorem performRaced_on_mixes {i : Instr} {s t : State} (h : performRaced (commandOf i) s = .next t) :
    ∃ u1 u2 u3 u4, exec i (s.mixed s.freeIdx) = .next u1 ∧ exec i (s.mixed (s.freeIdx + 1)) = .next u2 ∧
      exec i (s.mixed (s.freeIdx + 2)) = .next u3 ∧ exec i (s.mixed (s.freeIdx + 3)) = .next u4 ∧
      t.result = u1.result ∧ t.result2 = u2.result2 ∧ t.status = u3.status ∧
      FreesOnly s t (wroteIn i s.snap.regs u4) := by
  rcases performRaced_cases (commandOf i) s with ⟨q1, q2, q3, q4, h1, h2, h3, h4, hr⟩ | hr <;>
    rw [hr] at h <;> cases h
  obtain ⟨u1, hu1, hr1, -, -⟩ := exec_mixed_of_report h1
  obtain ⟨u2, hu2, -, hr2, -⟩ := exec_mixed_of_report h2
  obtain ⟨u3, hu3, -, -, hs3⟩ := exec_mixed_of_report h3
  obtain ⟨u4, hu4, -, -, -⟩ := exec_mixed_of_report h4
  exact ⟨u1, u2, u3, u4, hu1, hu2, hu3, hu4, hr1.symm, hr2.symm, by simp [hs3],
    freesOnly_of_clobber (Nat.le_add_right _ 4) rfl rfl (written_of_mixed hu4)⟩

/-- Settles O16: by the ways a computation ends, and by whether the bytes it writes are among those the host wrote. -/
theorem racedCompletion : Obligations.RacedCompletion := by
  refine ⟨fun i s t h => ?_, fun i s hread => ?_, fun s r p i hi hr hp hlo hhi hfit => ?_, fun s r hr => ?_⟩
  · rw [exec_eq_perform i s] at h
    rcases perform_cases (commandOf i) s with
      ⟨e, hc, ha, hp⟩ | ⟨e, hc, ha, hp⟩ | ⟨e, hc, hp⟩ | ⟨hc, hp⟩ | ⟨-, hp⟩ <;> rw [hp] at h
    · cases h
      exact Or.inl ⟨by rw [hc]; nofun, exec_unraced_of_ok hc,
        Or.inr fun p hp => (written_of_ok hc p.1).symm.trans (anyIn_eq_false.1 ha p hp)⟩
    · cases h
      obtain ⟨p, hp, hx⟩ := anyIn_eq_true.1 ha
      exact Or.inr (Or.inl ⟨by rw [hc]; nofun, _, exec_unraced_of_ok hc, by simp [State.completeOk],
        ⟨p, hp, (written_of_ok hc p.1).symm.trans hx⟩,
        freesOnly_of_clobber (Nat.le_refl _) rfl rfl (written_of_ok hc)⟩)
    · cases h
      exact Or.inl ⟨by rw [hc]; nofun, exec_unraced_of_err hc, Or.inl (statusErr_statusError _ e)⟩
    · obtain ⟨u1, u2, u3, u4, hmixes⟩ := performRaced_on_mixes h
      exact Or.inr (Or.inr ⟨hc, _, _, _, _, u1, u2, u3, u4, mixOf_mixed s _, mixOf_mixed s _, mixOf_mixed s _,
        mixOf_mixed s _, hmixes⟩)
    · cases h
  · have hn := compute_ne_raced_of_unread hread
    exact ⟨hn, fun hwrite => exec_eq_unraced hn fun p hp => Bool.eq_false_iff.2 fun hx =>
      absurd (written_within_mayWrite i s p.1 hx) (by rw [hwrite p hp]; decide)⟩
  · subst hr
    have hin : amongBytes s.snap.regs.dAddr.toNat s.snap.regs.len.toNat p.1 = true := by simp [amongBytes, hlo, hhi]
    obtain ⟨f, hf⟩ : ∃ f, commandOf i = shifter f := by rcases hi with rfl | rfl <;> exact ⟨_, rfl⟩
    obtain ⟨t, ht, hd, hfree⟩ := exec_shifter_raced hf hp hin hfit
    refine ⟨t, ht, hd, fun x => ?_⟩
    have hx := hfree x
    simp only [amongBytes, Bool.and_eq_true, decide_eq_true_eq] at hx
    split
    · next h => rwa [if_pos ⟨h, by omega⟩] at hx
    · next h => rwa [if_neg fun hw => h hw.1] at hx
  · subst hr
    have hbit : ∀ l ⊆ [.getb, .setb, .clrb, .cpyb, .cmpb, .xorb, .andb], ∀ i ∈ l,
        (commandOf i).run (viewOf i s) s.snap.regs = raise .busFault →
        exec i s = .next (failedState s .busFault) := fun l hl i hi => exec_bit_busFault (hl hi)
    refine ⟨fun ha hlen => ?_, fun i hi ha => ?_, fun i hi hb => ?_, fun i hi hd => ?_⟩
    · exact exec_bit_busFault (by decide) ((if_neg (by omega)).trans (raise_first (checkBits_of_not_fit .getb ha)))
    · exact hbit _ (by decide) i hi (run_raise_of_checkA hi (checkBits_of_not_fit i ha))
    · exact hbit _ (by decide) i hi (run_raise_of_checkB hi (checkBits_of_not_fit i hb))
    · exact hbit _ (by decide) i hi (run_raise_of_checkD hi (checkBits_of_not_fit i hd))

end Sys2Proof.Machine
end

section
/-! The opcode map in both directions, and the words that are no command's (30_encoding.md R70, R71, R73, R75). -/

namespace Sys2Proof.Machine

/-- What is found under an opcode is a row of the map. -/
theorem mem_of_findOpcode {n : Nat} {i : Instr} : ∀ {rows : List (Nat × Instr)},
    findOpcode n rows = some i → (n, i) ∈ rows
  | (k, j) :: rest, h => by
    rw [findOpcode] at h
    split at h
    · next hk => cases h; subst hk; exact List.mem_cons_self
    · exact List.mem_cons_of_mem _ (mem_of_findOpcode h)

/-- The decoder's rows and the encoder's opcodes are the same map. -/
theorem opcodeOf_of_mem_rows : ∀ p ∈ opcodeRows, opcodeOf p.2 = p.1 := by decide

/-- A word that decodes is the opcode of its command, zeros above. -/
theorem toNat_of_decode {w : Word} {i : Instr} (h : decode w = .ok i) : w.toNat = opcodeOf i := by
  unfold decode at h
  split at h
  · cases h
  · next hz =>
    split at h
    · next j hj =>
      cases h
      have hrow := opcodeOf_of_mem_rows _ (mem_of_findOpcode hj)
      dsimp only at hrow
      omega
    · cases h

/-- Settles O5: the rows decode to the commands whose opcodes they are, and no other word decodes. -/
theorem decodeEncodeAgree : Obligations.DecodeEncodeAgree := by
  refine fun w i => ⟨fun h => ?_, fun h => h ▸ decode_encode i⟩
  rw [encode, ← toNat_of_decode h, BitVec.ofNat_toNat, BitVec.setWidth_eq]

/-- Settles O4: each row's word is the one that the encoder gives for its command. -/
theorem decodeOpcodeMap : Obligations.DecodeOpcodeMap := by
  intro p hp
  refine (decodeEncodeAgree p.1 p.2).2 ?_
  revert p
  decide

/-- A listed opcode lies in none of the reserved ranges (R75), and in one byte. -/
theorem opcodeListed_opcodeOf (i : Instr) : opcodeListed (opcodeOf i) = true := by cases i <;> rfl

/-- Settles O6: a word that decoded would be a listed opcode, and the reserved ranges leave out exactly those. -/
theorem illegalWordCompletes : Obligations.IllegalWordCompletes := by
  intro s w he hf hw hbad
  rw [step_nil he, engineTurn, hf]
  cases hd : decode s.snap.word with
  | ok i =>
    have hop := opcodeListed_opcodeOf i
    rw [← toNat_of_decode hd, hw] at hop
    simp only [opcodeListed, Bool.or_eq_true, Bool.and_eq_true, decide_eq_true_eq] at hop
    omega
  | error _ => exact congrArg _ (completeError_eq_failedState s .illegalCmd)

end Sys2Proof.Machine
end

section
/-! The memory frame of every command (30_encoding.md R74, 20_memory.md R65). -/

namespace Sys2Proof.Machine

/-- Stores leave a byte outside all of them alone. -/
theorem storeAll_get (x : Nat) (ws : List (Nat × Bytes)) : ∀ m : Memory,
    inRanges (ws.map fun w => ⟨w.1, w.2.length⟩) x = false → (storeAll m ws).get x = m.get x := by
  induction ws with
  | nil => exact fun m _ => rfl
  | cons w rest ih =>
    intro m h
    obtain ⟨hw, hrest⟩ := Bool.or_eq_false_iff.1 h
    rw [storeAll, ih _ hrest]
    refine Memory.get_put_of_not_mem m w.1 w.2 x fun hin => ?_
    rw [← Bool.not_eq_true] at hw
    exact hw (by simpa [Range.has] using hin)

/-- The memory that a completion leaves: what the command leaves holding any value is freed, and after a success
stored to; or all that it writes is freed, of a state with its snapshot (20_memory.md R60). -/
theorem mem_of_exec {i : Instr} {s t : State} (h : exec i s = .next t) :
    (∃ e, (commandOf i).compute s = .ok e ∧
      t.mem = storeAll (s.clobber ((commandOf i).scratch s.snap.regs)).mem e.writes) ∨
    t.mem = (s.clobber ((commandOf i).scratch s.snap.regs)).mem ∨
    ∃ (k : Nat) (u : State), u.snap = s.snap ∧
      t.mem = (State.clobber { s with freeIdx := k } ((commandOf i).written u)).mem := by
  rw [exec_eq_perform] at h
  rcases perform_cases (commandOf i) s with ⟨e, hc, -, hp⟩ | ⟨e, -, -, hp⟩ | ⟨e, -, hp⟩ | ⟨-, hp⟩ | ⟨-, hp⟩ <;>
    rw [hp] at h
  · cases h; exact Or.inl ⟨e, hc, rfl⟩
  · cases h; exact Or.inr (Or.inr ⟨s.freeIdx, s, rfl, rfl⟩)
  · cases h; exact Or.inr (Or.inl rfl)
  · rcases performRaced_cases (commandOf i) s with ⟨_, _, _, _, -, -, -, -, hr⟩ | hr <;> rw [hr] at h <;> cases h
    exact Or.inr (Or.inr ⟨s.freeIdx + 4, s.mixed (s.freeIdx + 3), rfl, rfl⟩)
  · cases h

/-- Freeing ranges of bytes that a command may write leaves a byte that it may not write alone. -/
theorem clobber_get_of_within {i : Instr} {s : State} {rs : List Range} {x : Nat}
    (hw : Within (inRanges rs) (mayWrite i s.snap.regs)) (hx : mayWrite i s.snap.regs x = false) :
    (s.clobber rs).mem.get x = s.mem.get x :=
  State.clobber_get rs s x fun g hg => Bool.eq_false_iff.2 fun hgx =>
    Bool.eq_false_iff.1 hx (hw x (List.any_eq_true.2 ⟨g, hg, hgx⟩))

/-- The commands that R74 lists as writing no memory. -/
abbrev writesNone : List Instr := [.getb, .cmpb, .meq, .mign, .mmsb, .mmap, .mdisp, .rsel, .ridpk, .ridunpk]

/-- Such a command has no region, leaves no byte holding any value, and succeeds without a store. -/
theorem writesNone_shape {i : Instr} (hi : i ∈ writesNone) (r : Regs) :
    (commandOf i).regions r = [] ∧ (commandOf i).scratch r = [] ∧ ∀ e, WriteShape i r e → e.writes = [] := by
  simp only [List.mem_cons, List.not_mem_nil, or_false] at hi
  rcases hi with rfl | rfl | rfl | rfl | rfl | rfl | rfl | rfl | rfl | rfl <;> exact ⟨rfl, rfl, fun _ => id⟩

/-- Whatever it computes, it writes no byte. -/
theorem writtenBy_of_writesNone {i : Instr} (hi : i ∈ writesNone) (s : State) :
    (commandOf i).writtenBy s.snap.regs ((commandOf i).compute s) = [] := by
  obtain ⟨hregions, hscratch, hwrites⟩ := writesNone_shape hi s.snap.regs
  cases hc : (commandOf i).compute s with
  | ok e => rw [Command.writtenBy, hscratch, Effect.ranges, hwrites e (writeShape_of_compute hc)]; rfl
  | error st =>
    cases st with
    | err _ => exact hscratch
    | overlap | raced => exact hregions

theorem written_of_writesNone {i : Instr} (hi : i ∈ writesNone) (s : State) : (commandOf i).written s = [] := by
  by_cases h : (commandOf i).compute s = .error .raced
  · rw [written_of_raced h]; exact writtenBy_of_writesNone hi (s.mixed s.freeIdx)
  · rw [written_of_not_raced h]; exact writtenBy_of_writesNone hi s

/-- Settles O20: what a completion frees and stores is of what the command may write, and nothing at all for a command
that writes none. -/
theorem memoryFrame : Obligations.MemoryFrame := by
  refine ⟨fun i s t x h hx => ?_, fun i s t hi h => ?_⟩
  · have hscratch := clobber_get_of_within (scratch_within_mayWrite i s.snap.regs) hx
    rcases mem_of_exec h with ⟨e, hc, hm⟩ | hm | ⟨k, u, hu, hm⟩ <;> rw [hm]
    · have hstores : inRanges e.ranges x = false := Bool.eq_false_iff.2 fun hr =>
        Bool.eq_false_iff.1 hx (ranges_within_mayWrite (writeShape_of_compute hc) x hr)
      rw [storeAll_get x e.writes _ hstores, hscratch]
    · exact hscratch
    · exact clobber_get_of_within (s := { s with freeIdx := k }) (hu ▸ written_within_mayWrite i u) hx
  · obtain ⟨-, hscratch, hwrites⟩ := writesNone_shape hi s.snap.regs
    rcases mem_of_exec h with ⟨e, hc, hm⟩ | hm | ⟨k, u, -, hm⟩ <;> rw [hm]
    · rw [hwrites e (writeShape_of_compute hc), hscratch]; rfl
    · rw [hscratch]; rfl
    · rw [written_of_writesNone hi]; rfl

end Sys2Proof.Machine
end

section
/-! A command reads no register but those that 30_encoding.md R74 lists. -/

namespace Sys2Proof.Machine

/-- On the registers `g` a command is the same as on the registers `r`. -/
structure Command.SameOn (c : Command) (g r : Regs) : Prop where
  run : ∀ v, c.run v g = c.run v r
  regions : c.regions g = c.regions r
  apart : c.apart g = c.apart r
  scratch : c.scratch g = c.scratch r

/-- The definition of a command names only registers that R74 lists for it: where these agree, it is the same. -/
theorem sameOn_of_agree {i : Instr} {g r : Regs} (h : ∀ q ∈ readsOf i, g.get q = r.get q) :
    (commandOf i).SameOn g r := by
  cases i
  all_goals
    simp only [readsOf, List.forall_mem_cons, Regs.get] at h
    cases g
    cases r
    dsimp only at h
    casesm* _ ∧ _
    subst_vars
    exact ⟨fun _ => rfl, rfl, rfl, rfl⟩

/-- The state with other registers in its snapshot. -/
def State.withSnapRegs (s : State) (g : Regs) : State := { s with snap := { s.snap with regs := g } }

/-- The outcome with other registers in the snapshot, if it is a next state. -/
def outcomeWithSnapRegs (g : Regs) : Host.Outcome State Fault Refusal → Host.Outcome State Fault Refusal
  | .next t => .next (t.withSnapRegs g)
  | .fault f => .fault f
  | .refused f => .refused f

theorem clobber_withSnapRegs (g : Regs) (rs : List Range) : ∀ s : State,
    (s.withSnapRegs g).clobber rs = (s.clobber rs).withSnapRegs g := by
  induction rs with
  | nil => exact fun _ => rfl
  | cons r rest ih => exact fun s => ih (s.clobberRange r)

namespace Command.SameOn

variable {c : Command} {s : State} {g : Regs}

theorem compute (h : c.SameOn g s.snap.regs) : c.compute (s.withSnapRegs g) = c.compute s := by
  have hview : c.view (s.withSnapRegs g) = c.view s := congrArg
    (fun rs => { c.view s with guard := if c.guarded then rs else [] }) h.regions
  have hregs : (s.withSnapRegs g).snap.regs = g := rfl
  rw [Command.compute, Command.compute, hview, hregs, h.apart, h.run]

theorem writtenBy {r : Regs} (h : c.SameOn g r) (x : Comp Effect) : c.writtenBy g x = c.writtenBy r x := by
  cases x with
  | ok e => rw [Command.writtenBy, Command.writtenBy, h.scratch]
  | error st =>
    cases st with
    | err _ => exact h.scratch
    | overlap | raced => exact h.regions

theorem mixed (h : c.SameOn g s.snap.regs) (k : Nat) :
    c.compute ((s.withSnapRegs g).mixed k) = c.compute (s.mixed k) :=
  compute (s := s.mixed k) h

theorem written (h : c.SameOn g s.snap.regs) : c.written (s.withSnapRegs g) = c.written s := by
  by_cases hr : c.compute s = .error .raced
  · rw [written_of_raced hr, written_of_raced (h.compute.trans hr)]
    exact (h.writtenBy _).trans (congrArg _ (h.mixed s.freeIdx))
  · rw [written_of_not_raced hr, written_of_not_raced (h.compute ▸ hr), h.compute]
    exact h.writtenBy _

/-- A completion on mixes keeps the snapshot, and is else the same. -/
theorem performRaced (h : c.SameOn g s.snap.regs) :
    performRaced c (s.withSnapRegs g) = outcomeWithSnapRegs g (performRaced c s) := by
  have hf : (s.withSnapRegs g).freeIdx = s.freeIdx := rfl
  have hw : c.written ((s.withSnapRegs g).mixed (s.freeIdx + 3)) = c.written (s.mixed (s.freeIdx + 3)) :=
    written (s := s.mixed (s.freeIdx + 3)) h
  unfold Machine.performRaced
  simp only [hf, h.mixed, hw]
  split
  · next x y z q _ _ _ _ =>
    exact congrArg (fun u : State => Host.Outcome.next (u.completeRaced x.result y.result2 z.code))
      (clobber_withSnapRegs g _ { s with freeIdx := s.freeIdx + 4 })
  · rfl

/-- A completion keeps the snapshot, and is else the same. -/
theorem perform (h : c.SameOn g s.snap.regs) :
    perform c (s.withSnapRegs g) = outcomeWithSnapRegs g (perform c s) := by
  have hscratch : c.scratch (s.withSnapRegs g).snap.regs = c.scratch s.snap.regs := h.scratch
  have hr : (s.withSnapRegs g).raced = s.raced := rfl
  unfold Machine.perform
  rw [h.compute, h.written, hscratch, hr]
  cases c.compute s with
  | ok e => dsimp only; split <;> rw [clobber_withSnapRegs] <;> rfl
  | error st =>
    cases st with
    | err e => dsimp only; rw [clobber_withSnapRegs]; rfl
    | overlap => rfl
    | raced => exact h.performRaced

end Command.SameOn

/-- Settles O21: a command is the same on registers that agree where it reads, and so is its completion. -/
theorem readsOnlyItsOperands : Obligations.ReadsOnlyItsOperands := by
  intro i s g h
  have hx : exec i (s.withSnapRegs g) = outcomeWithSnapRegs g (exec i s) := by
    rw [exec_eq_perform, exec_eq_perform]; exact (sameOn_of_agree h).perform
  exact ⟨fun t ht => hx.trans (by rw [ht]; rfl), fun f hf => hx.trans (by rw [hf]; rfl)⟩

end Sys2Proof.Machine
end

section
/-! What predicates and actions check first (30_encoding.md R84, 41_predicates.md R140, 42_compress_actions.md R160,
43_decompress_actions.md R180): the descriptor, then the input. -/

namespace Sys2Proof.Machine

section
variable {v : View} {a n : Nat}

/-- The range check comes before any other check of a read (20_memory.md R52). -/
theorem readBytes_of_not_fit (hn : n ≠ 0) (h : v.size < a + n) : readBytes v a n = raise .busFault :=
  raise_first (if_pos ⟨hn, h⟩)

/-! ## The fields of a descriptor -/

theorem fieldDirOf_code (d : FieldDir) : fieldDirOf d.code = some d := by cases d <;> rfl
theorem moOf_code (m : Mo) : moOf m.code = some m := by cases m <;> rfl
theorem cdaOf_code (c : Cda) : cdaOf c.code = some c := by cases c <;> rfl
theorem formOf_code (f : Form) : formOf f.code = some f := by cases f <;> rfl

theorem fieldDirOf_eq_none {k : Nat} (h : ¬ (k = 1 ∨ k = 2 ∨ k = 3)) : fieldDirOf k = none := by
  unfold fieldDirOf; split <;> simp_all
theorem moOf_eq_none {k : Nat} (h : 3 < k) : moOf k = none := by
  unfold moOf; split <;> simp_all
theorem cdaOf_eq_none {k : Nat} (h : 7 < k) : cdaOf k = none := by
  unfold cdaOf; split <;> simp_all
theorem formOf_eq_none {k : Nat} (h : 1 < k) : formOf k = none := by
  unfold formOf; split <;> simp_all

/-- A descriptor with an illegal field is no descriptor. -/
theorem parseDesc_of_none {s : Bytes} (h : fieldDirOf (fieldAt s 2 1) = none ∨ moOf (fieldAt s 3 1) = none ∨
    cdaOf (fieldAt s 8 1) = none ∨ formOf (fieldAt s 9 1) = none) : parseDesc s = raise .ruleFormat := by
  unfold parseDesc
  split
  · next hdir hmo hcda hform => simp [hdir, hmo, hcda, hform] at h
  · rfl

/-- A readable descriptor with a value that R84 does not list raises `RULE_FORMAT`. -/
theorem readDesc_of_illegal (hr : v.raced = []) (h : readable v a 16 = true) (hi : descIllegal v a = true) :
    readDesc v a = raise .ruleFormat := by
  refine bind_eq_error.2 (Or.inr ⟨_, readBytes_of_readable hr h, parseDesc_of_none ?_⟩)
  simp only [fieldAt_read v (show 2 + 1 ≤ 16 by decide), fieldAt_read v (show 3 + 1 ≤ 16 by decide),
    fieldAt_read v (show 8 + 1 ≤ 16 by decide), fieldAt_read v (show 9 + 1 ≤ 16 by decide)]
  simp only [descIllegal, Bool.or_eq_true, Bool.not_eq_true', Bool.or_eq_false_iff, beq_eq_false_iff_ne,
    decide_eq_true_eq] at hi
  rcases hi with ((hi | hi) | hi) | hi
  · exact Or.inl (fieldDirOf_eq_none (by omega))
  · exact Or.inr (Or.inl (moOf_eq_none hi))
  · exact Or.inr (Or.inr (Or.inl (cdaOf_eq_none hi)))
  · exact Or.inr (Or.inr (Or.inr (formOf_eq_none hi)))

/-- A descriptor that stands in memory is read. -/
theorem readDesc_of_descAt (hr : v.raced = []) {d : Desc} (h : descAt v a d = true) : readDesc v a = .ok d := by
  simp only [descAt, Bool.and_eq_true, beq_iff_eq] at h
  obtain ⟨⟨⟨⟨⟨⟨⟨⟨⟨hread, hfid⟩, hdir⟩, hmo⟩, hbits⟩, hpar⟩, hcda⟩, hform⟩, htlen⟩, htaddr⟩ := h
  have field : ∀ {i k : Nat}, i + k ≤ 16 → fieldAt (v.mem.read a 16) i k = num v (a + i) k := fieldAt_read v
  refine bind_eq_ok.2 ⟨_, readBytes_of_readable hr hread, ?_⟩
  rw [parseDesc, field (by decide), field (by decide), field (by decide), field (by decide), field (by decide),
    field (by decide), field (by decide), field (by decide), field (by decide), hdir, hmo, hcda, hform,
    fieldDirOf_code, moOf_code, cdaOf_code, formOf_code, hbits, hpar, htlen, htaddr, Nat.add_zero, hfid]

end

/-! ## The commands -/

/-- The predicates and the actions. -/
abbrev fieldCommands : List Instr :=
  [.meq, .mign, .mmsb, .mmap, .mdisp,
   .cOmit, .cVal, .cMap, .cLsb, .cDlen, .cDchk, .cDeviid, .cAppiid,
   .dOmit, .dVal, .dMap, .dLsb, .dDlen, .dDchk, .dDeviid, .dAppiid]

/-- A computation that starts by reading a descriptor, and then the input. -/
def StartsWithField (f : View → Regs → Comp Effect) : Prop :=
  ∃ k : View → Regs → Desc → Bytes → Comp Effect, ∀ v r, f v r = (do
    let d ← readDesc v r.bAddr.toNat
    let c ← readBytes v r.aAddr.toNat r.len.toNat
    k v r d c)

/-- Predicates and actions start so, have at most one region, and leave no byte holding any value. -/
theorem fieldCommand_shape {i : Instr} (hi : i ∈ fieldCommands) :
    StartsWithField (commandOf i).run ∧ ∀ r, rangesMeet (regionsOf i r) = false ∧ (commandOf i).scratch r = [] := by
  have hp : ∀ p, StartsWithField (predicateCommand p).run := fun _ => ⟨_, fun _ _ => rfl⟩
  have hc : ∀ act, StartsWithField (compressCommand act).run := fun _ => ⟨_, fun _ _ => rfl⟩
  have hd : ∀ act, StartsWithField (decompressCommand act).run := fun _ => ⟨_, fun _ _ => rfl⟩
  simp only [List.mem_cons, List.not_mem_nil, or_false] at hi
  rcases hi with rfl | rfl | rfl | rfl | rfl | rfl | rfl | rfl | rfl | rfl | rfl | rfl | rfl | rfl | rfl | rfl | rfl |
    rfl | rfl | rfl | rfl
  iterate 5 exact ⟨hp _, fun _ => ⟨rfl, rfl⟩⟩
  iterate 8 exact ⟨hc _, fun _ => ⟨rangesMeet_singleton _, rfl⟩⟩
  iterate 8 exact ⟨hd _, fun _ => ⟨rangesMeet_singleton _, rfl⟩⟩

/-- A predicate or an action that raises an error completes with it, memory as before. -/
theorem exec_fieldCommand_raise {i : Instr} (hi : i ∈ fieldCommands) {s : State} {e : Err}
    (h : (commandOf i).run (viewOf i s) s.snap.regs = raise e) : exec i s = .next (failedState s e) := by
  obtain ⟨hmeet, hscratch⟩ := (fieldCommand_shape hi).2 s.snap.regs
  rw [exec_eq_perform, perform_of_err_precise hscratch ((compute_eq_run i s hmeet).trans h),
    completeError_eq_failedState]

/-- Settles O29: the first read is the descriptor's, and with a legal descriptor the second is the input's. -/
theorem descriptorChecks : Obligations.DescriptorChecks := by
  rintro i s r rfl hu hi
  have hr : (viewOf i s).raced = [] := by rw [viewOf, hu]; rfl
  obtain ⟨k, hk⟩ := (fieldCommand_shape hi).1
  refine ⟨fun hb => ?_, fun hb hill => ?_, fun d hd ha => ?_⟩ <;> refine exec_fieldCommand_raise hi ?_ <;> rw [hk]
  · exact raise_first (raise_first (readBytes_of_not_fit (by decide) hb))
  · exact raise_first (readDesc_of_illegal hr hb hill)
  · obtain ⟨hn, hlt⟩ := not_or.1 ha
    have hin := readBytes_of_not_fit (v := viewOf i s) hn (Nat.not_le.1 hlt)
    exact bind_eq_error.2 (Or.inr ⟨d, readDesc_of_descAt hr hd, bind_eq_error.2 (Or.inl hin)⟩)

end Sys2Proof.Machine
end

section
/-! `ReadColumns` after `WriteColumns` (30_encoding.md R90 to R92). -/

namespace Sys2Proof.Machine

theorem Memory.read_append (m : Memory) (a n k : Nat) : m.read a (n + k) = m.read a n ++ m.read (a + n) k := by
  induction n generalizing a with
  | zero => simp [Memory.read]
  | succ n ih => rw [Nat.succ_add, Memory.read, Memory.read, ih, List.cons_append, Nat.add_right_comm, Nat.add_assoc]

/-- Bytes that read as `s ++ t` read as `s`, and after it as `t`. -/
theorem Memory.read_eq_append {m : Memory} {a : Nat} {s t : Bytes} {n k : Nat} (hn : s.length = n)
    (h : m.read a (n + k) = s ++ t) : m.read a n = s ∧ m.read (a + n) k = t :=
  List.append_inj (by rw [← Memory.read_append, h]) (by rw [Memory.length_read, hn])

/-- A read in memory that has no region to avoid and no race. -/
theorem readBytes_of_fit {v : View} (hg : v.guard = []) (hr : v.raced = []) {a n : Nat}
    (h : n = 0 ∨ a + n ≤ v.size) : readBytes v a n = .ok (v.mem.read a n) :=
  readBytes_eq_ok.2 ⟨touch_eq_ok.2 ⟨h, by simp [hg], by simp [hr, anyIn]⟩, rfl⟩

/-- The entry of one column whose value stands at `a` (R90). -/
def colEntry (a : Nat) (c : Col) : Bytes := bytesBE 2 c.fid ++ bytesBE 2 c.val.length ++ bytesBE 4 a

theorem colEntries_cons (a : Nat) (c : Col) (rest : List Col) :
    colEntries a (c :: rest) = colEntry a c ++ colEntries (a + c.val.length) rest := rfl

@[simp] theorem length_colEntry (a : Nat) (c : Col) : (colEntry a c).length = 8 := by simp [colEntry]

/-- The fields of an entry, each modulo the entry's size (log 22). -/
theorem fieldAt_colEntry (a : Nat) (c : Col) :
    fieldAt (colEntry a c) 0 2 = c.fid % 2 ^ 16 ∧ fieldAt (colEntry a c) 2 2 = c.val.length % 2 ^ 16 ∧
    fieldAt (colEntry a c) 4 4 = a % 2 ^ 32 :=
  ⟨be_bytesBE 2 c.fid, be_bytesBE 2 c.val.length, be_bytesBE 4 a⟩

/-- A column that fits the fields of its entry (R90). -/
abbrev Col.Fits (c : Col) : Prop := c.fid < 2 ^ 16 ∧ c.val.length < 2 ^ 16

/-- A value of a column reads back from the address that its entry holds: only that of an empty value can be the end of
a memory of 2^32 bytes, and an empty value reads back from anywhere. -/
theorem readBytes_value {v : View} (hg : v.guard = []) (hr : v.raced = []) (hs : v.size ≤ 2 ^ 32) {a n : Nat}
    (h : a + n ≤ v.size) : readBytes v (a % 2 ^ 32) n = .ok (v.mem.read a n) := by
  rcases Nat.eq_zero_or_pos n with rfl | hn
  · exact readBytes_zero v _
  · rw [Nat.mod_eq_of_lt (by omega), readBytes_of_fit hg hr (Or.inr h)]

/-- Entries at `e` whose values stand packed from `a` on read back as their columns. -/
theorem readEntries_of_entries {v : View} (hg : v.guard = []) (hr : v.raced = []) (hs : v.size ≤ 2 ^ 32) :
    ∀ {cols : List Col} {e a : Nat}, (∀ c ∈ cols, c.Fits) → e + 8 * cols.length ≤ v.size →
      a + valuesLen cols ≤ v.size → v.mem.read e (8 * cols.length) = colEntries a cols →
      v.mem.read a (valuesLen cols) = colValues cols → readEntries v e cols.length = .ok cols
  | [], _, _, _, _, _, _, _ => rfl
  | c :: rest, e, a, hfit, he, ha, hentries, hvalues => by
    obtain ⟨⟨hfid, hlen⟩, hfit⟩ := List.forall_mem_cons.1 hfit
    rw [List.length_cons] at he hentries
    rw [valuesLen] at ha hvalues
    rw [Nat.mul_add, Nat.add_comm, colEntries_cons] at hentries
    obtain ⟨hentry, hentries⟩ := Memory.read_eq_append (length_colEntry a c) hentries
    obtain ⟨hvalue, hvalues⟩ := Memory.read_eq_append rfl hvalues
    have hrest := readEntries_of_entries hg hr hs hfit (by omega) (by omega) hentries hvalues
    obtain ⟨h0, h2, h4⟩ := fieldAt_colEntry a c
    rw [Nat.mod_eq_of_lt hfid] at h0
    rw [Nat.mod_eq_of_lt hlen] at h2
    refine bind_eq_ok.2 ⟨_, readBytes_of_fit hg hr (Or.inr (by omega)), ?_⟩
    rw [hentry, h0, h2, h4]
    refine bind_eq_ok.2 ⟨_, readBytes_value hg hr hs (by omega), bind_eq_ok.2 ⟨rest, hrest, ?_⟩⟩
    rw [hvalue]
    rfl

/-- The first 8 bytes of a column array: count, zero, bytes used (R90). -/
def colHeader (cols : List Col) : Bytes := bytesBE 2 cols.length ++ bytesBE 2 0 ++ bytesBE 4 (ctxNeed cols)

@[simp] theorem length_colHeader (cols : List Col) : (colHeader cols).length = 8 := by simp [colHeader]

/-- The count in a header, modulo the size of its entry (log 22). -/
theorem fieldAt_colHeader (cols : List Col) : fieldAt (colHeader cols) 0 2 = cols.length % 2 ^ 16 := by
  have hslice : slice (colHeader cols) 0 2 = bytesBE 2 cols.length := by simp [slice, colHeader, bytesBE]
  rw [fieldAt, hslice, be_bytesBE, show 256 ^ 2 = 2 ^ 16 by decide]

/-- A column array in memory: its header, its entries and its values, one after another (R90). -/
theorem read_of_colImage {m : Memory} {base : Nat} {cols : List Col}
    (h : m.read base (ctxNeed cols) = colImage base cols) :
    m.read base 8 = colHeader cols ∧
    m.read (base + 8) (8 * cols.length) = colEntries (base + 8 + 8 * cols.length) cols ∧
    m.read (base + 8 + 8 * cols.length) (valuesLen cols) = colValues cols := by
  have hlen : (colHeader cols ++ colEntries (base + 8 + 8 * cols.length) cols).length = 8 + 8 * cols.length := by
    rw [List.length_append, length_colHeader, length_colEntries]
  obtain ⟨hfront, hvalues⟩ := Memory.read_eq_append hlen h
  obtain ⟨hheader, hentries⟩ := Memory.read_eq_append (length_colHeader cols) hfront
  exact ⟨hheader, hentries, by rwa [Nat.add_assoc]⟩

/-- A column array in memory whose columns fit is what `ReadColumns` gives (R92). -/
theorem readColumns_of_colImage {v : View} (hg : v.guard = []) (hr : v.raced = []) (hs : v.size ≤ 2 ^ 32) {r : Regs}
    {cols : List Col} (hn : cols.length < 2 ^ 16) (hfit : ∀ c ∈ cols, c.Fits) (hcap : ctxNeed cols ≤ r.ctxSize.toNat)
    (hmem : r.ctxAddr.toNat + ctxNeed cols ≤ v.size)
    (h : v.mem.read r.ctxAddr.toNat (ctxNeed cols) = colImage r.ctxAddr.toNat cols) : readColumns v r = .ok cols := by
  obtain ⟨hheader, hentries, hvalues⟩ := read_of_colImage h
  unfold ctxNeed at hcap hmem
  have hcount : num v r.ctxAddr.toNat 2 = cols.length := calc
    num v r.ctxAddr.toNat 2 = fieldAt (colHeader cols) 0 2 := by rw [← hheader, fieldAt_read v (by decide), Nat.add_zero]
    _ = cols.length % 2 ^ 16 := fieldAt_colHeader cols
    _ = cols.length := Nat.mod_eq_of_lt hn
  have hread : readNat v r.ctxAddr.toNat 2 = .ok cols.length :=
    bind_eq_ok.2 ⟨_, readBytes_of_fit hg hr (Or.inr (by omega)), congrArg _ hcount⟩
  refine bind_eq_ok.2 ⟨_, hread, (if_neg (by omega)).trans ?_⟩
  exact readEntries_of_entries hg hr hs hfit (by omega) (by omega) hentries hvalues

/-- Settles O54: what is written is the column array, and it reads back as its columns. -/
theorem columnsRoundTrip : Obligations.ColumnsRoundTrip := by
  intro v r cols hs hg hr hn hfit hcap hmem
  rw [← ctxNeed_eq_bytesUsed] at hcap hmem
  have hlen := length_colImage r.ctxAddr.toNat cols
  refine ⟨_, writeColumns_eq_ok.2 ⟨hcap, Or.inr hmem, rfl⟩, rfl, hlen.trans (ctxNeed_eq_bytesUsed cols), ?_⟩
  exact readColumns_of_colImage (v := { v with mem := v.mem.put r.ctxAddr.toNat (colImage r.ctxAddr.toNat cols) })
    hg hr hs hn hfit hcap hmem (hlen ▸ Memory.read_put _ _ _)

end Sys2Proof.Machine
end

section
/-! The bits of memory (00_scope.md R8): one position each, counted over all of memory, and what writing bit after bit
makes of them (40_bitbuf.md R112). -/

namespace Sys2Proof.Machine

theorem Memory.bit_eq_gbit (m : Memory) (base p : Nat) : m.bit base p = gbit m (8 * base + p) := by
  rw [Memory.bit, gbit, Nat.mul_add_div (by decide), Nat.mul_add_mod]

/-- The mask of the bit that is `j` places below the most significant one. -/
theorem getLsbD_mask : ∀ j < 8, ∀ k < 8, (0x80#8 >>> j).getLsbD k = decide (k = 7 - j) := by decide

theorem getLsbD_setBitOf (v : Byte) (p : Nat) (b : Bool) {k : Nat} (hk : k < 8) :
    (setBitOf v p b).getLsbD k = if k = 7 - p % 8 then b else v.getLsbD k := by
  have hmask := getLsbD_mask _ (Nat.mod_lt p (by decide)) k hk
  cases b
  · simp only [setBitOf, Bool.false_eq_true, if_false, BitVec.getLsbD_and, BitVec.getLsbD_not, hk, hmask]
    split <;> simp [*]
  · simp only [setBitOf, if_true, BitVec.getLsbD_or, hmask]
    split <;> simp [*]

/-- `PutBit` changes the one bit that it names. -/
theorem gbit_putBit (m : Memory) (base p : Nat) (b : Bool) (q : Nat) :
    gbit (m.putBit base p b) q = if q = 8 * base + p then b else gbit m q := by
  rw [gbit, Memory.putBit]
  by_cases hbyte : q / 8 = base + p / 8
  · have hget : ∀ v, (m.put (base + p / 8) [v]).get (base + p / 8) = v := fun v => by simp [Memory.get_put]
    have hpos : 7 - q % 8 = 7 - p % 8 ↔ q = 8 * base + p := by omega
    rw [hbyte, hget, getLsbD_setBitOf _ _ _ (by omega), gbit, hbyte]
    simp only [hpos]
  · rw [Memory.get_put_of_not_mem _ _ _ _ (by simp only [List.length_singleton]; omega), if_neg (by omega), gbit]

/-! ## Bit after bit, in ascending order -/

section
variable {f : Nat → Memory → Memory} {d : Nat} {val : Memory → Nat → Bool}
  (hf : ∀ i m q, gbit (f i m) q = if q = d + i then val m i else gbit m q)
include hf

/-- Steps of which the `i`-th writes bit `d + i` leave each bit of the range as its own step wrote it. -/
theorem gbit_stepsUp (m : Memory) (n q : Nat) : gbit (stepsUp f n m) q =
    if d ≤ q ∧ q < d + n then val (stepsUp f (q - d) m) (q - d) else gbit m q := by
  induction n with
  | zero => rw [stepsUp, if_neg (by omega)]
  | succ n ih =>
    rw [stepsUp, hf]
    by_cases hq : q = d + n
    · rw [if_pos hq, if_pos (by omega), hq, Nat.add_sub_cancel_left]
    · rw [if_neg hq, ih]
      exact if_congr (by omega) rfl rfl

/-- What step `k` finds is told by memory before and after all of them. -/
theorem bitNow_stepsUp (m : Memory) {k n : Nat} (hk : k ≤ n) (q : Nat) :
    bitNow m (stepsUp f n m) d k q = gbit (stepsUp f k m) q := by
  rw [bitNow, gbit_stepsUp hf m k, gbit_stepsUp hf m n]
  split
  · exact if_pos (by omega)
  · rfl

end

/-! ## The bit commands' results -/

theorem gbit_fillBits (b : Bool) (m : Memory) (r : Regs) (q : Nat) :
    gbit (fillBits b m r) q = if startD r ≤ q ∧ q < startD r + r.len.toNat then b else gbit m q :=
  gbit_stepsUp (val := fun _ _ => b) (fun i m q => by rw [gbit_putBit, startD, Nat.add_assoc]) m _ q

/-- Step `i` of `orBits`. -/
def orBit (src : Memory → Regs → Nat → Bool) (r : Regs) (i : Nat) (m : Memory) : Memory :=
  if src m r i then m.putBit r.dAddr.toNat (r.dPos.toNat + i) true else m

theorem orBits_eq_stepsUp (src : Memory → Regs → Nat → Bool) (m : Memory) (r : Regs) :
    orBits src m r = stepsUp (orBit src r) r.len.toNat m := rfl

theorem gbit_orBit (src : Memory → Regs → Nat → Bool) (r : Regs) (i : Nat) (m : Memory) (q : Nat) :
    gbit (orBit src r i m) q = if q = startD r + i then gbit m (startD r + i) || src m r i else gbit m q := by
  cases hs : src m r i with
  | true => simp only [orBit, hs, if_true, gbit_putBit, startD, Nat.add_assoc, Bool.or_true]
  | false =>
    simp only [orBit, hs, Bool.false_eq_true, if_false, Bool.or_false]
    split <;> simp [*]

theorem gbit_orBits_of_not_mem (src : Memory → Regs → Nat → Bool) (m : Memory) (r : Regs) {q : Nat}
    (h : ¬ (startD r ≤ q ∧ q < startD r + r.len.toNat)) : gbit (orBits src m r) q = gbit m q := by
  rw [orBits_eq_stepsUp, gbit_stepsUp (gbit_orBit src r), if_neg h]

/-- Each destination bit is ORed with the source on the memory that the earlier indices left. -/
theorem gbit_orBits_of_mem (src : Memory → Regs → Nat → Bool) (m : Memory) (r : Regs) {k : Nat}
    (h : k < r.len.toNat) : gbit (orBits src m r) (startD r + k) =
      (gbit m (startD r + k) || src (stepsUp (orBit src r) k m) r k) := by
  rw [orBits_eq_stepsUp, gbit_stepsUp (gbit_orBit src r), if_pos (by omega), Nat.add_sub_cancel_left,
    gbit_stepsUp (gbit_orBit src r), if_neg (by omega)]

theorem bitA_eq_gbit (m : Memory) (r : Regs) (i : Nat) : bitA m r i = gbit m (startA r + i) := by
  rw [bitA, Memory.bit_eq_gbit, startA, Nat.add_assoc]

theorem bitB_eq_gbit (m : Memory) (r : Regs) (i : Nat) : bitB m r i = gbit m (startB r + i) := by
  rw [bitB, Memory.bit_eq_gbit, startB, Nat.add_assoc]

/-! ## The integer of a bit range (R113) -/

theorem Memory.bits_succ (m : Memory) (base pos n : Nat) :
    m.bits base pos (n + 1) = Nat.bit (gbit m (8 * base + pos + n)) (m.bits base pos n) := by
  rw [Nat.bit_val, Nat.add_assoc, ← Memory.bit_eq_gbit]
  rfl

theorem Memory.bits_lt (m : Memory) (base pos n : Nat) : m.bits base pos n < 2 ^ n := by
  induction n with
  | zero => exact Nat.one_pos
  | succ n ih =>
    rw [Memory.bits_succ]
    exact Nat.bit_lt_two_pow_succ_iff.2 ih

/-- The first bit is the most significant. -/
theorem Memory.testBit_bits (m : Memory) (base pos : Nat) {n k : Nat} (hk : k < n) :
    (m.bits base pos n).testBit (n - 1 - k) = gbit m (8 * base + pos + k) := by
  induction n with
  | zero => omega
  | succ n ih =>
    rw [Memory.bits_succ]
    rcases Nat.lt_succ_iff_lt_or_eq.1 hk with hlt | rfl
    · rw [show n + 1 - 1 - k = (n - 1 - k) + 1 by omega, Nat.testBit_bit_succ, ih hlt]
    · rw [show k + 1 - 1 - k = 0 by omega, Nat.testBit_bit_zero]

/-! ## The bytes of a bit range, written back (R110) -/

theorem Memory.get_put_read (m m' : Memory) (a n x : Nat) :
    (m.put a (m'.read a n)).get x = if a ≤ x ∧ x < a + n then m'.get x else m.get x := by
  split
  · rw [Memory.get_put, if_pos (by omega), Memory.getElem?_read, if_pos (by omega), Option.getD_some,
      Nat.add_sub_cancel' (by omega)]
  · exact Memory.get_put_of_not_mem _ _ _ _ (by rwa [Memory.length_read])

/-- Storing the bytes that a bit range touches stores every bit that differs in the range alone. -/
theorem gbit_writeBack {m m' : Memory} {base pos len : Nat}
    (h : ∀ q, ¬ (8 * base + pos ≤ q ∧ q < 8 * base + pos + len) → gbit m' q = gbit m q) (q : Nat) :
    gbit (storeAll m (writeBack m' (bitRange base pos len))) q = gbit m' q := by
  rw [writeBack, storeAll, storeAll, gbit, Memory.get_put_read]
  split
  · rfl
  · next hout =>
    refine (h q fun hin => hout ?_).symm
    rw [bitRange, if_neg (by omega)]
    dsimp only
    omega

end Sys2Proof.Machine
end

section
/-! The bit-buffer commands (40_bitbuf.md R113 to R123) whose host wrote nothing meanwhile. -/

namespace Sys2Proof.Machine

/-- A command without a region of its own that leaves no byte free completes with its own effect. -/
theorem exec_of_run_ok {i : Instr} {s : State} {e : Effect} (hu : Undisturbed s) (hg : guardOf i s.snap.regs = [])
    (hs : (commandOf i).scratch s.snap.regs = []) (h : (commandOf i).run (viewOf i s) s.snap.regs = .ok e) :
    exec i s = .next (doneState s (storeAll s.mem e.writes) e.result e.result2) := by
  rw [exec_eq_perform, perform_of_ok hu ((compute_eq_run i s (rangesMeet_guardOf_nil hg)).trans h), hs,
    State.clobber_nil, completeOk_eq_doneState]

theorem guardOf_of_unguarded {i : Instr} (h : (commandOf i).guarded = false) (r : Regs) : guardOf i r = [] := by
  rw [← guard_eq_guardOf, h]
  rfl

theorem viewOf_raced {i : Instr} {s : State} (hu : Undisturbed s) : (viewOf i s).raced = [] := by
  rw [viewOf, hu]
  rfl

theorem sense_undisturbed {i : Instr} {s : State} (hu : Undisturbed s) (rg : Range) :
    sense (viewOf i s) rg = .ok () :=
  sense_eq_ok.2 (by rw [viewOf_raced hu]; rfl)

/-- A check that lets through is followed by the rest. -/
theorem bind_of_ok {α β : Type} {x : Comp α} {a : α} {f : α → Comp β} (h : x = .ok a) : (x >>= f) = f a := by
  rw [h]
  rfl

/-! ## The checks -/

section
variable {i : Instr} {s : State} {r : Regs}

theorem checkA_of_fit (h : BitsFit s r.aAddr r.aPos r.len) : checkA (viewOf i s) r = .ok () := checkBits_eq_ok.2 h
theorem checkB_of_fit (h : BitsFit s r.bAddr r.bPos r.len) : checkB (viewOf i s) r = .ok () := checkBits_eq_ok.2 h
theorem checkD_of_fit (h : BitsFit s r.dAddr r.dPos r.len) : checkD (viewOf i s) r = .ok () := checkBits_eq_ok.2 h

theorem checkABD_of_fit (hu : Undisturbed s) (ha : BitsFit s r.aAddr r.aPos r.len)
    (hb : BitsFit s r.bAddr r.bPos r.len) (hd : BitsFit s r.dAddr r.dPos r.len) :
    checkABD (viewOf i s) r = .ok () := by
  rw [checkABD, bind_of_ok (checkA_of_fit ha), bind_of_ok (checkB_of_fit hb), bind_of_ok (checkD_of_fit hd),
    bind_of_ok (sense_undisturbed hu _)]
  exact sense_undisturbed hu _

end

/-! ## The bit writers -/

/-- A bit writer that changes bits of the destination alone leaves every bit as its result has it. -/
theorem exec_bitWriter {i : Instr} {checks : View → Regs → Comp Unit} {result : Memory → Regs → Memory}
    (hi : commandOf i = bitWriter checks result) {s : State} {r : Regs} (hr : s.snap.regs = r) (hu : Undisturbed s)
    (hc : checks (viewOf i s) r = .ok ())
    (hframe : ∀ q, ¬ (startD r ≤ q ∧ q < startD r + r.len.toNat) → gbit (result s.mem r) q = gbit s.mem q) :
    ∃ m, exec i s = .next (doneState s m 0 0) ∧ ∀ q, gbit m q = gbit (result s.mem r) q := by
  subst hr
  refine ⟨_, exec_of_run_ok (e := ⟨writeBack (result s.mem s.snap.regs) (rangeD s.snap.regs), 0, 0⟩) hu
    (guardOf_of_unguarded (by rw [hi]; rfl) _) (by rw [hi]; rfl) ?_, gbit_writeBack hframe⟩
  rw [hi]
  exact bind_of_ok hc

/-- A command that ORs into the destination ORs each bit with its source on a memory that reads as `bitNow` says. -/
theorem exec_orBits {i : Instr} {checks : View → Regs → Comp Unit} {src : Memory → Regs → Nat → Bool}
    (hi : commandOf i = bitWriter checks (orBits src)) {s : State} {r : Regs} (hr : s.snap.regs = r)
    (hu : Undisturbed s) (hc : checks (viewOf i s) r = .ok ()) :
    ∃ m, exec i s = .next (doneState s m 0 0) ∧
      (∀ q, ¬ (startD r ≤ q ∧ q < startD r + r.len.toNat) → gbit m q = gbit s.mem q) ∧
      ∀ k, k < r.len.toNat → ∃ now : Memory, (∀ q, gbit now q = bitNow s.mem m (startD r) k q) ∧
        gbit m (startD r + k) = (gbit s.mem (startD r + k) || src now r k) := by
  obtain ⟨m, hexec, hm⟩ := exec_bitWriter hi hr hu hc fun q => gbit_orBits_of_not_mem src s.mem r
  refine ⟨m, hexec, fun q hq => (hm q).trans (gbit_orBits_of_not_mem src s.mem r hq), fun k hk =>
    ⟨stepsUp (orBit src r) k s.mem, fun q => ?_, (hm _).trans (gbit_orBits_of_mem src s.mem r hk)⟩⟩
  rw [← bitNow_stepsUp (gbit_orBit src r) s.mem hk.le, ← orBits_eq_stepsUp, bitNow, bitNow, hm]

/-! ## GETB, SETB and CLRB

A bit range out of memory raises `BUS_FAULT` with or without a race, which is the last clause of O16. -/

/-- Settles O22: the integer of a range is built from its bits, each one place lower than those before it. -/
theorem getbResult : Obligations.GetbResult := by
  refine ⟨decode_encode .getb, fun s r hr hu => ⟨fun hlen hfit => ?_, fun hlen => ?_, fun hlen hfit => ?_⟩⟩
  · refine ⟨s.mem.bits r.aAddr.toNat r.aPos.toNat r.len.toNat, ?_, Memory.bits_lt _ _ _ _,
      fun k hk => Memory.testBit_bits _ _ _ hk⟩
    subst hr
    refine exec_of_run_ok (i := .getb) (e := ⟨[], _, 0⟩) hu rfl rfl ((if_neg (Nat.not_lt.2 hlen)).trans ?_)
    rw [bind_of_ok (checkA_of_fit hfit), bind_of_ok (sense_undisturbed hu _)]
    rfl
  · subst hr
    exact exec_of_run_raise rfl rfl (if_pos hlen)
  · obtain ⟨-, -, -, hfault⟩ := racedCompletion
    obtain ⟨hget, -, -, -⟩ := hfault s r hr
    exact hget hfit hlen

/-- Settles O23: both fill the destination, bit by bit. -/
theorem setbClrbResult : Obligations.SetbClrbResult := by
  refine ⟨decode_encode .setb, decode_encode .clrb, fun s r hr hu => ⟨fun hfit => ?_, fun hfit => ?_⟩⟩
  · have hfill : ∀ i b, commandOf i = bitWriter checkD (fillBits b) → ∃ m, exec i s = .next (doneState s m 0 0) ∧
        ∀ q, gbit m q = if startD r ≤ q ∧ q < startD r + r.len.toNat then b else gbit s.mem q := fun i b hi => by
      simp only [← gbit_fillBits]
      exact exec_bitWriter hi hr hu (checkD_of_fit hfit) fun q hq => (gbit_fillBits b s.mem r q).trans (if_neg hq)
    exact ⟨hfill .setb true rfl, hfill .clrb false rfl⟩
  · obtain ⟨-, -, -, hfault⟩ := racedCompletion
    obtain ⟨-, -, -, hD⟩ := hfault s r hr
    exact ⟨hD .setb (by decide) hfit, hD .clrb (by decide) hfit⟩

/-- On a range whose bits are all `b`, `GETB` returns `2^n - 1` or 0. -/
theorem exec_getb_of_filled {s : State} {r : Regs} (hr : s.snap.regs = r) (hu : Undisturbed s) (b : Bool)
    (hlen : r.len.toNat ≤ 32) (hfit : BitsFit s r.aAddr r.aPos r.len)
    (hb : ∀ k, k < r.len.toNat → gbit s.mem (startA r + k) = b) :
    exec .getb s = .next (doneState s s.mem (if b then 2 ^ r.len.toNat - 1 else 0) 0) := by
  obtain ⟨-, hgetb⟩ := getbResult
  obtain ⟨hok, -, -⟩ := hgetb s r hr hu
  obtain ⟨v, hexec, hlt, hbits⟩ := hok hlen hfit
  have hv : v = if b then 2 ^ r.len.toNat - 1 else 0 := by
    refine Nat.eq_of_testBit_eq fun j => ?_
    by_cases hj : j < r.len.toNat
    · have hbit := hbits (r.len.toNat - 1 - j) (by omega)
      rw [show r.len.toNat - 1 - (r.len.toNat - 1 - j) = j by omega, hb _ (by omega)] at hbit
      cases b <;> simp [hbit, hj]
    · rw [Nat.testBit_lt_two_pow (hlt.trans_le (Nat.pow_le_pow_right (by decide) (Nat.not_lt.1 hj)))]
      cases b <;> simp [hj]
  rw [hexec, hv]

/-- Settles O28: the state that SETB or CLRB leaves has the same snapshot, and the range filled. -/
theorem setThenGet : Obligations.SetThenGet := by
  intro s r hr hu haddr hpos hlen hfit
  obtain ⟨-, -, hwriters⟩ := setbClrbResult
  obtain ⟨hok, -⟩ := hwriters s r hr hu
  obtain ⟨⟨m1, hset, hm1⟩, m0, hclr, hm0⟩ := hok hfit
  have hread : ∀ m b, (∀ k, k < r.len.toNat → gbit m (startD r + k) = b) →
      exec .getb (doneState s m 0 0) =
        .next (doneState (doneState s m 0 0) m (if b then 2 ^ r.len.toNat - 1 else 0) 0) := fun m b hm => by
    refine exec_getb_of_filled (s := doneState s m 0 0) hr rfl b hlen (by rw [haddr, hpos]; exact hfit) ?_
    rw [startA, haddr, hpos]
    exact hm
  exact ⟨⟨_, _, hset, hread m1 true fun k hk => (hm1 _).trans (if_pos (by omega)), rfl⟩,
    _, _, hclr, hread m0 false fun k hk => (hm0 _).trans (if_pos (by omega)), rfl⟩

/-! ## CPYB, XORB, ANDB and CMPB -/

/-- Settles O24: step `k` reads the source bit on the memory that the steps before it left. -/
theorem cpybCascade : Obligations.CpybCascade := by
  refine ⟨decode_encode .cpyb, fun s r hr hu => ⟨fun ha hd => ?_, fun hfit => ?_⟩⟩
  · have hc : (do checkA (viewOf .cpyb s) r; checkD (viewOf .cpyb s) r; sense (viewOf .cpyb s) (rangeA r)) =
        .ok () := by
      rw [bind_of_ok (checkA_of_fit ha), bind_of_ok (checkD_of_fit hd)]
      exact sense_undisturbed hu _
    obtain ⟨m, hexec, hframe, hbits⟩ := exec_orBits (i := .cpyb) rfl hr hu hc
    refine ⟨m, hexec, hframe, fun k hk => ?_⟩
    obtain ⟨now, hnow, hbit⟩ := hbits k hk
    rw [hbit, bitA_eq_gbit, hnow]
  · obtain ⟨-, -, -, hfault⟩ := racedCompletion
    obtain ⟨-, hA, -, hD⟩ := hfault s r hr
    exact (not_and_or.1 hfit).elim (hA .cpyb (by decide)) (hD .cpyb (by decide))

/-- Settles O25: as for `CPYB`, with two source bits. -/
theorem xorbAndbCascade : Obligations.XorbAndbCascade := by
  refine ⟨decode_encode .xorb, decode_encode .andb, fun s r hr hu => ⟨fun ha hb hd => ?_, fun hfit => ?_⟩⟩
  · have hor : ∀ (i : Instr) (op : Bool → Bool → Bool),
        commandOf i = bitWriter checkABD (orBits fun m r k => op (bitA m r k) (bitB m r k)) →
        ∃ m, exec i s = .next (doneState s m 0 0) ∧
          (∀ q, ¬ (startD r ≤ q ∧ q < startD r + r.len.toNat) → gbit m q = gbit s.mem q) ∧
          ∀ k, k < r.len.toNat → gbit m (startD r + k) = (gbit s.mem (startD r + k) ||
            op (bitNow s.mem m (startD r) k (startA r + k)) (bitNow s.mem m (startD r) k (startB r + k))) :=
        fun i op hi => by
      obtain ⟨m, hexec, hframe, hbits⟩ := exec_orBits hi hr hu (checkABD_of_fit hu ha hb hd)
      refine ⟨m, hexec, hframe, fun k hk => ?_⟩
      obtain ⟨now, hnow, hbit⟩ := hbits k hk
      rw [hbit, bitA_eq_gbit, bitB_eq_gbit, hnow, hnow]
    exact ⟨hor .xorb xor rfl, hor .andb and rfl⟩
  · obtain ⟨-, -, -, hfault⟩ := racedCompletion
    obtain ⟨-, hA, hB, hD⟩ := hfault s r hr
    rcases not_and_or.1 hfit with ha | hbd
    · exact ⟨hA .xorb (by decide) ha, hA .andb (by decide) ha⟩
    · rcases not_and_or.1 hbd with hb | hd
      · exact ⟨hB .xorb (by decide) hb, hB .andb (by decide) hb⟩
      · exact ⟨hD .xorb (by decide) hd, hD .andb (by decide) hd⟩

/-- `CMPB` gives the conjunction of the bits' equalities. -/
theorem exec_cmpb {s : State} {r : Regs} (hr : s.snap.regs = r) (hu : Undisturbed s)
    (ha : BitsFit s r.aAddr r.aPos r.len) (hb : BitsFit s r.bAddr r.bPos r.len) :
    exec .cmpb s = .next (doneState s s.mem ((List.range r.len.toNat).all fun k =>
      gbit s.mem (startA r + k) == gbit s.mem (startB r + k)).toNat 0) := by
  subst hr
  simp only [← bitA_eq_gbit, ← bitB_eq_gbit]
  refine exec_of_run_ok (i := .cmpb) (e := ⟨[], _, 0⟩) hu rfl rfl ?_
  change (do checkA _ _; checkB _ _; sense _ _; sense _ _; _) = _
  rw [bind_of_ok (checkA_of_fit ha), bind_of_ok (checkB_of_fit hb), bind_of_ok (sense_undisturbed hu _),
    bind_of_ok (sense_undisturbed hu _)]
  rfl

/-- Settles O26: the conjunction is true if the ranges agree in every bit, and a bit that differs makes it false. -/
theorem cmpbResult : Obligations.CmpbResult := by
  refine ⟨decode_encode .cmpb, fun s r hr hu => ⟨fun ha hb => ⟨fun heq => ?_, fun ⟨k, hk, hne⟩ => ?_⟩, fun hfit => ?_⟩⟩
  · rw [exec_cmpb hr hu ha hb, List.all_eq_true.2 fun k hk => beq_iff_eq.2 (heq k (List.mem_range.1 hk))]
    rfl
  · rw [exec_cmpb hr hu ha hb, List.all_eq_false.2 ⟨k, List.mem_range.2 hk, by simpa using hne⟩]
    rfl
  · obtain ⟨-, -, -, hfault⟩ := racedCompletion
    obtain ⟨-, hA, hB, -⟩ := hfault s r hr
    exact (not_and_or.1 hfit).elim (hA .cmpb (by decide)) (hB .cmpb (by decide))

/-! ## SHLB and SHRB -/

/-- A shift by all of the window's bits or more leaves none (R118). -/
theorem shiftLeft_eq (n k value : Nat) : shiftLeft n k value = value * 2 ^ k % 2 ^ (8 * n) := by
  rw [shiftLeft]
  split
  · next h => exact (Nat.mod_eq_zero_of_dvd (Dvd.dvd.mul_left (Nat.pow_dvd_pow 2 h) value)).symm
  · rfl

/-- A shift by all of the window's bits or more leaves none (R119). -/
theorem shiftRight_eq {n value : Nat} (k : Nat) (hv : value < 2 ^ (8 * n)) : shiftRight n k value = value / 2 ^ k := by
  rw [shiftRight]
  split
  · next h => exact (Nat.div_eq_of_lt (hv.trans_le (Nat.pow_le_pow_right (by decide) h))).symm
  · rfl

theorem be_read_lt (m : Memory) (a n : Nat) : be (m.read a n) < 2 ^ (8 * n) := by
  have hlt := be_lt (m.read a n)
  rwa [Memory.length_read, show 256 = 2 ^ 8 by decide, ← Nat.pow_mul] at hlt

/-- A shift replaces the bytes of its window. -/
theorem exec_shifter {i : Instr} {f : Nat → Nat → Nat → Nat} (hi : commandOf i = shifter f) {s : State} {r : Regs}
    (hr : s.snap.regs = r) (hu : Undisturbed s) (hfit : BytesFit s r.dAddr.toNat r.len.toNat) :
    ∃ m, exec i s = .next (doneState s m 0 0) ∧ Stored s.mem m r.dAddr.toNat
      (bytesBE r.len.toNat (f r.len.toNat r.aux.toNat (be (s.mem.read r.dAddr.toNat r.len.toNat)))) := by
  subst hr
  have hg := guardOf_of_unguarded (i := i) (by rw [hi]; rfl) s.snap.regs
  refine ⟨_, exec_of_run_ok (e := ⟨[(_, _)], 0, 0⟩) hu hg (by rw [hi]; rfl) ?_, stored_put _ _ _⟩
  rw [hi]
  exact bind_of_ok (readBytes_of_fit hg (viewOf_raced hu) hfit)

theorem exec_shifter_busFault {i : Instr} {f : Nat → Nat → Nat → Nat} (hi : commandOf i = shifter f) {s : State}
    {r : Regs} (hr : s.snap.regs = r) (hfit : ¬ BytesFit s r.dAddr.toNat r.len.toNat) :
    exec i s = .next (failedState s .busFault) := by
  subst hr
  obtain ⟨hn, hlt⟩ := not_or.1 hfit
  refine exec_of_run_raise (guardOf_of_unguarded (by rw [hi]; rfl) _) (by rw [hi]; rfl) ?_
  rw [hi]
  exact raise_first (readBytes_of_not_fit hn (Nat.not_le.1 hlt))

/-- Settles O27: a shift of any count is the one that needs no case for a count of the window's bits or more. -/
theorem shiftWindow : Obligations.ShiftWindow := by
  refine ⟨decode_encode .shlb, decode_encode .shrb, ?_⟩
  rintro s r _ _ hr rfl rfl hu
  refine ⟨fun hfit => ⟨?_, ?_⟩, fun hfit => ⟨exec_shifter_busFault rfl hr hfit, exec_shifter_busFault rfl hr hfit⟩⟩
  · rw [← shiftLeft_eq]
    exact exec_shifter rfl hr hu hfit
  · rw [← shiftRight_eq _ (be_read_lt _ _ _)]
    exact exec_shifter rfl hr hu hfit

end Sys2Proof.Machine
end

section
/-! Target values and candidate lists (30_encoding.md R85). -/

namespace Sys2Proof.Machine

/-! ## Target values -/

section
variable {v : View} {d : Desc}

theorem targetValue_of_targetIs (hr : v.raced = []) {t : Bytes} (h : targetIs v d t = true) :
    targetValue v d = .ok t ∧ t.length = nb d.bits := by
  simp only [targetIs, Bool.and_eq_true, beq_iff_eq] at h
  obtain ⟨⟨hlen, hread⟩, rfl⟩ := h
  exact ⟨(if_neg (not_not.2 hlen)).trans (readBytes_of_readable hr hread), (Memory.length_read _ _ _).trans hlen⟩

theorem targetValue_of_length_ne (h : d.tlen ≠ (d.bits + 7) / 8) : targetValue v d = raise .ruleFormat := if_pos h

theorem targetValue_of_not_fit (hlen : d.tlen = (d.bits + 7) / 8)
    (h : ¬ (d.tlen = 0 ∨ d.taddr + d.tlen ≤ v.size)) : targetValue v d = raise .busFault := by
  obtain ⟨hn, hlt⟩ := not_or.1 h
  exact (if_neg (not_not.2 hlen)).trans (readBytes_of_not_fit hn (Nat.not_le.1 hlt))

end

/-! ## Candidate lists -/

/-- Single bytes spell a target in one way. -/
theorem spells_single_iff {ks : List Bytes} {t : Bytes} : spells .single ks t = true ↔ ks = t.map fun b => [b] := by
  simp only [spells, Bool.and_eq_true, List.all_eq_true, beq_iff_eq]
  constructor
  · rintro ⟨hone, rfl⟩
    induction ks with
    | nil => rfl
    | cons k ks ih =>
      obtain ⟨hk, hks⟩ := List.forall_mem_cons.1 hone
      obtain ⟨b, rfl⟩ := List.length_eq_one_iff.1 hk
      exact congrArg (List.cons [b]) (ih hks)
  · rintro rfl
    exact ⟨by simp, by simp [← List.flatMap_def]⟩

/-- The first length byte tells the first candidate of a list. -/
theorem spells_prefixed_cons_iff {c : Bytes} {ks : List Bytes} {n : Byte} {t : Bytes} :
    spells .prefixed (c :: ks) (n :: t) = true ↔
      n.toNat ≤ t.length ∧ c = t.take n.toNat ∧ spells .prefixed ks (t.drop n.toNat) = true := by
  simp only [spells, Bool.and_eq_true, List.all_cons, decide_eq_true_eq, beq_iff_eq, List.map_cons, List.flatten_cons,
    List.cons_append, List.cons.injEq]
  constructor
  · rintro ⟨⟨hc, hks⟩, rfl, rfl⟩
    have hn : (BitVec.ofNat 8 c.length).toNat = c.length := by simp; omega
    rw [hn, List.take_left, List.drop_left]
    exact ⟨by simp, rfl, hks, rfl⟩
  · rintro ⟨hn, rfl, hks, ht⟩
    have hlen : (t.take n.toNat).length = n.toNat := List.length_take_of_le hn
    refine ⟨⟨by have := n.isLt; omega, hks⟩, by rw [hlen]; simp, ?_⟩
    rw [← ht, List.take_append_drop]

theorem singleCandidates_eq_ok {k : Nat} {t : Bytes} {ks : List Bytes} :
    singleCandidates k t = .ok ks ↔ ks.length = k ∧ spells .single ks t = true := by
  rw [spells_single_iff, singleCandidates]
  split
  · next hne => simp only [raise_ne_ok, false_iff]; rintro ⟨hk, rfl⟩; exact hne (by simpa using hk)
  · next heq =>
    rw [Except.ok.injEq]
    constructor
    · rintro rfl; exact ⟨by simpa using heq, rfl⟩
    · rintro ⟨-, rfl⟩; rfl

theorem prefixedCandidates_eq_ok {k : Nat} {t : Bytes} {ks : List Bytes} :
    prefixedCandidates k t = .ok ks ↔ ks.length = k ∧ spells .prefixed ks t = true := by
  induction k generalizing t ks with
  | zero =>
    cases t <;> cases ks <;> simp [prefixedCandidates, spells]
  | succ k ih =>
    cases t with
    | nil => cases ks <;> simp [prefixedCandidates, spells]
    | cons n t =>
      rw [prefixedCandidates]
      cases ks with
      | nil => split <;> simp [bind_eq_ok, pure, Except.pure]
      | cons c ks =>
        rw [spells_prefixed_cons_iff, List.length_cons, Nat.succ_inj]
        split
        · next hlt => simp [Nat.not_le.2 hlt]
        · next hle =>
          simp only [bind_eq_ok, ih, pure, Except.pure, Except.ok.injEq, List.cons.injEq]
          constructor
          · rintro ⟨_, ⟨hk, hks⟩, rfl, rfl⟩; exact ⟨hk, Nat.not_lt.1 hle, rfl, hks⟩
          · rintro ⟨hk, -, rfl, hks⟩; exact ⟨ks, ⟨hk, hks⟩, rfl, rfl⟩

/-- The candidates of a form that a target spells. -/
def candidateList : Form → Nat → Bytes → Comp (List Bytes)
  | .single => singleCandidates
  | .prefixed => prefixedCandidates

theorem candidateList_eq_ok {form : Form} {k : Nat} {t : Bytes} {ks : List Bytes} :
    candidateList form k t = .ok ks ↔ ks.length = k ∧ spells form ks t = true := by
  cases form with
  | single => exact singleCandidates_eq_ok
  | prefixed => exact prefixedCandidates_eq_ok

theorem prefixedCandidates_ok_or_raise : ∀ (k : Nat) (t : Bytes),
    (∃ ks, prefixedCandidates k t = .ok ks) ∨ prefixedCandidates k t = raise .ruleFormat
  | 0, [] => Or.inl ⟨_, rfl⟩
  | 0, _ :: _ => Or.inr rfl
  | _ + 1, [] => Or.inr rfl
  | k + 1, n :: t => by
    rw [prefixedCandidates]
    split
    · exact Or.inr rfl
    · rcases prefixedCandidates_ok_or_raise k (t.drop n.toNat) with ⟨ks, h⟩ | h
      · exact Or.inl ⟨_, bind_of_ok h⟩
      · exact Or.inr (raise_first h)

/-- A target that spells no list of candidates is a rule error. -/
theorem candidateList_of_not_spelled {form : Form} {k : Nat} {t : Bytes}
    (h : ∀ ks : List Bytes, ks.length = k → spells form ks t = false) :
    candidateList form k t = raise .ruleFormat := by
  have hor : (∃ ks, candidateList form k t = .ok ks) ∨ candidateList form k t = raise .ruleFormat := by
    cases form with
    | single =>
      by_cases hlen : t.length = k
      · exact Or.inl ⟨_, if_neg (not_not.2 hlen)⟩
      · exact Or.inr (if_pos hlen)
    | prefixed => exact prefixedCandidates_ok_or_raise k t
  refine hor.resolve_left fun ⟨ks, hks⟩ => ?_
  obtain ⟨hlen, hspells⟩ := candidateList_eq_ok.1 hks
  simp [h ks hlen] at hspells

section
variable {v : View} {d : Desc}

theorem candidates_eq_candidateList {t : Bytes} (hpar : d.par ≤ 256) (h : readBytes v d.taddr d.tlen = .ok t) :
    candidates v d = candidateList d.form d.par t := by
  rw [candidates, if_neg (Nat.not_lt.2 hpar), bind_of_ok h]
  cases d.form <;> rfl

theorem candidates_of_candidatesAre (hr : v.raced = []) {ks : List Bytes} (h : candidatesAre v d ks = true) :
    candidates v d = .ok ks := by
  simp only [candidatesAre, Bool.and_eq_true, beq_iff_eq, decide_eq_true_eq] at h
  obtain ⟨⟨⟨hpar, hread⟩, hlen⟩, hspells⟩ := h
  rw [candidates_eq_candidateList hpar (readBytes_of_readable hr hread)]
  exact candidateList_eq_ok.2 ⟨hlen, hspells⟩

theorem candidates_of_many (h : 256 < d.par) : candidates v d = raise .ruleFormat := if_pos h

theorem candidates_of_not_fit (hpar : d.par ≤ 256) (h : ¬ (d.tlen = 0 ∨ d.taddr + d.tlen ≤ v.size)) :
    candidates v d = raise .busFault := by
  obtain ⟨hn, hlt⟩ := not_or.1 h
  exact (if_neg (Nat.not_lt.2 hpar)).trans (raise_first (readBytes_of_not_fit hn (Nat.not_le.1 hlt)))

theorem candidates_of_not_spelled {t : Bytes} (hpar : d.par ≤ 256) (hread : readBytes v d.taddr d.tlen = .ok t)
    (h : ∀ ks : List Bytes, ks.length = d.par → spells d.form ks t = false) :
    candidates v d = raise .ruleFormat :=
  (candidates_eq_candidateList hpar hread).trans (candidateList_of_not_spelled h)

end

/-! ## The smallest index of an equal candidate (41_predicates.md R144) -/

theorem indexOfCandidate_of_first {c : Bytes} : ∀ {ks : List Bytes} {k : Nat} (i : Nat), ks[k]? = some c →
    (∀ j, j < k → ks[j]? ≠ some c) → indexOfCandidate c i ks = some (i + k)
  | [], _, _, hk, _ => by cases hk
  | _ :: _, 0, _, hk, _ => if_pos (Option.some.inj hk).symm
  | x :: rest, k + 1, i, hk, hmin => by
    have hx : c ≠ x := fun h => hmin 0 k.succ_pos (congrArg some h.symm)
    have hrest := indexOfCandidate_of_first (ks := rest) (i + 1) hk fun j hj => hmin (j + 1) (Nat.succ_lt_succ hj)
    rw [indexOfCandidate, if_neg hx, hrest, Nat.add_right_comm, Nat.add_assoc]

theorem indexOfCandidate_of_not_mem {c : Bytes} : ∀ {ks : List Bytes} (i : Nat), c ∉ ks →
    indexOfCandidate c i ks = none
  | [], _, _ => rfl
  | _ :: _, i, h => by
    obtain ⟨hx, hrest⟩ := not_or.1 (mt List.mem_cons.2 h)
    exact (if_neg hx).trans (indexOfCandidate_of_not_mem (i + 1) hrest)

end Sys2Proof.Machine
end

section
/-! The matching predicates (41_predicates.md R140 to R145) whose host wrote nothing meanwhile. -/

namespace Sys2Proof.Machine

/-- Command `i`, the command of the predicate `p`, runs on a column `c` and a descriptor `d`, and its host has written
nothing meanwhile (R140). -/
structure PredicateRuns (i : Instr) (p : View → Bytes → Desc → Comp (Bool × Nat)) (s : State) (c : Bytes) (d : Desc) :
    Prop where
  command : commandOf i = predicateCommand p
  undisturbed : Undisturbed s
  field : descAt (viewOf i s) s.snap.regs.bAddr.toNat d = true
  input : inputIs (viewOf i s) s.snap.regs c = true

namespace PredicateRuns

variable {i j : Instr} {p q : View → Bytes → Desc → Comp (Bool × Nat)} {s : State} {c : Bytes} {d : Desc}

/-- A predicate command has no region of its own and leaves no byte free. -/
theorem shape (h : PredicateRuns i p s c d) : guardOf i s.snap.regs = [] ∧ (commandOf i).scratch s.snap.regs = [] :=
  ⟨guardOf_of_unguarded (by rw [h.command]; rfl) _, by rw [h.command]; rfl⟩

/-- The command is its predicate on the column and the descriptor. -/
theorem run_eq (h : PredicateRuns i p s c d) : (commandOf i).run (viewOf i s) s.snap.regs =
    (p (viewOf i s) c d >>= fun x => .ok ⟨[], x.1.toNat, x.2⟩) := by
  have hr := viewOf_raced (i := i) h.undisturbed
  have hc := h.input
  simp only [inputIs, Bool.and_eq_true, beq_iff_eq] at hc
  obtain ⟨hread, rfl⟩ := hc
  rw [h.command]
  exact (bind_of_ok (readDesc_of_descAt hr h.field)).trans (bind_of_ok (readBytes_of_readable hr hread))

theorem exec_of_ok (h : PredicateRuns i p s c d) {b : Bool} {k : Nat} (hp : p (viewOf i s) c d = .ok (b, k)) :
    exec i s = .next (doneState s s.mem b.toNat k) :=
  exec_of_run_ok (e := ⟨[], b.toNat, k⟩) h.undisturbed h.shape.1 h.shape.2 (h.run_eq.trans (bind_of_ok hp))

/-- A predicate that tests `P` gives 1 or 0. -/
theorem exec_of_decide (h : PredicateRuns i p s c d) {P : Prop} [Decidable P]
    (hp : p (viewOf i s) c d = .ok (decide P, 0)) : exec i s = .next (doneState s s.mem (if P then 1 else 0) 0) := by
  rw [h.exec_of_ok hp, Bool.toNat, Bool.cond_decide]

theorem exec_of_raise (h : PredicateRuns i p s c d) {e : Err} (hp : p (viewOf i s) c d = raise e) :
    exec i s = .next (failedState s e) :=
  exec_of_run_raise h.shape.1 h.shape.2 (h.run_eq.trans (raise_first hp))

/-- Commands whose predicates agree complete alike. -/
theorem exec_congr (h : PredicateRuns i p s c d) (h' : PredicateRuns j q s c d)
    (hpq : p (viewOf i s) c d = q (viewOf j s) c d) : exec i s = exec j s := by
  have hrun {e : Stop} (he : p (viewOf i s) c d = .error e) : (commandOf i).compute s = .error e :=
    (compute_eq_run i s (rangesMeet_guardOf_nil h.shape.1)).trans (h.run_eq.trans (bind_eq_error.2 (Or.inl he)))
  cases hp : p (viewOf i s) c d with
  | ok x => rw [h.exec_of_ok hp, h'.exec_of_ok (hpq.symm.trans hp)]
  | error e =>
    cases e with
    | err e => rw [h.exec_of_raise hp, h'.exec_of_raise (hpq.symm.trans hp)]
    | overlap => exact absurd (hrun hp) (compute_ne_overlap h.shape.1)
    | raced => exact absurd (hrun hp) (compute_ne_raced h.undisturbed)

end PredicateRuns

/-! ## MEQ -/

theorem predEqual_of_targetIs {v : View} (hr : v.raced = []) (c : Bytes) {d : Desc} {t : Bytes}
    (h : targetIs v d t = true) : predEqual v c d = .ok (decide (c = t), 0) := by
  obtain ⟨htarget, hlen⟩ := targetValue_of_targetIs hr h
  have hiff : (c.length == nb d.bits && c == t) = decide (c = t) := by
    rw [Bool.eq_iff_iff]
    simp only [Bool.and_eq_true, beq_iff_eq, decide_eq_true_eq, and_iff_right_iff_imp]
    exact fun hc => hc ▸ hlen
  rw [predEqual, bind_of_ok htarget, hiff]
  rfl

/-- Settles O30: a column that is the target has the target's length, which is the field's. -/
theorem meqResult : Obligations.MeqResult := by
  refine ⟨decode_encode .meq, ?_⟩
  rintro s _ d c rfl hu hd hc
  have h : PredicateRuns .meq predEqual s c d := ⟨rfl, hu, hd, hc⟩
  exact ⟨fun t ht => h.exec_of_decide (predEqual_of_targetIs (viewOf_raced hu) c ht),
    fun hlen => h.exec_of_raise (raise_first (targetValue_of_length_ne hlen)),
    fun hlen hfit => h.exec_of_raise (raise_first (targetValue_of_not_fit hlen hfit))⟩

/-! ## MIGN and MDISP -/

/-- The predicate of an operator (R145). -/
def Mo.predicate : Mo → View → Bytes → Desc → Comp (Bool × Nat)
  | .equal => predEqual
  | .ignore => predIgnore
  | .msb => predMsb
  | .map => predMap

theorem predDispatch_of_mo {v : View} {c : Bytes} {d : Desc} {m : Mo} (h : d.mo = m) :
    predDispatch v c d = m.predicate v c d := by
  rw [predDispatch, h]
  cases m <;> rfl

/-- Settles O31: `MDISP` runs the predicate of the descriptor's operator, and so does that operator's command. -/
theorem mignMdispResult : Obligations.MignMdispResult := by
  refine ⟨decode_encode .mign, decode_encode .mdisp, ?_⟩
  rintro s _ d c rfl hu hd hc
  have hmign : PredicateRuns .mign predIgnore s c d := ⟨rfl, hu, hd, hc⟩
  have hmdisp : PredicateRuns .mdisp predDispatch s c d := ⟨rfl, hu, hd, hc⟩
  have hone : exec .mign s = .next (doneState s s.mem 1 0) := hmign.exec_of_ok (b := true) rfl
  refine ⟨hone, fun hmo => ?_, fun t ht => ?_⟩
  · exact (hmdisp.exec_congr hmign (predDispatch_of_mo hmo)).trans hone
  · rw [← ht]
    cases hmo : d.mo with
    | equal => exact hmdisp.exec_congr (j := .meq) ⟨rfl, hu, hd, hc⟩ (predDispatch_of_mo hmo)
    | ignore => exact hmdisp.exec_congr hmign (predDispatch_of_mo hmo)
    | msb => exact hmdisp.exec_congr (j := .mmsb) ⟨rfl, hu, hd, hc⟩ (predDispatch_of_mo hmo)
    | map => exact hmdisp.exec_congr (j := .mmap) ⟨rfl, hu, hd, hc⟩ (predDispatch_of_mo hmo)

/-! ## MMSB -/

section
variable {v : View} {c : Bytes} {d : Desc}

theorem predMsb_of_par_gt (h : d.bits < d.par) : predMsb v c d = raise .ruleFormat := if_pos h

theorem predMsb_of_par_eq (h : d.par = d.bits) : predMsb v c d = predEqual v c d :=
  (if_neg (Nat.not_lt.2 h.le)).trans (if_pos h)

theorem predMsb_of_target_raise (hpar : d.par < d.bits) {e : Err} (h : targetValue v d = raise e) :
    predMsb v c d = raise e :=
  (if_neg (Nat.not_lt.2 hpar.le)).trans ((if_neg hpar.ne).trans (raise_first h))

/-- Below `L` bits the length of the column and the top bits decide. -/
theorem predMsb_of_targetIs (hr : v.raced = []) (hpar : d.par < d.bits) {t : Bytes} (h : targetIs v d t = true) :
    predMsb v c d = .ok (decide (c.length = (d.bits + 7) / 8 ∧
      be c / 2 ^ (d.bits - d.par) % 2 ^ d.par = be t / 2 ^ (d.bits - d.par) % 2 ^ d.par), 0) := by
  rw [predMsb, if_neg (Nat.not_lt.2 hpar.le), if_neg hpar.ne, bind_of_ok (targetValue_of_targetIs hr h).1,
    Bool.decide_and]
  rfl

end

/-- Settles O32: the three cases of `M` against `L`. -/
theorem mmsbResult : Obligations.MmsbResult := by
  refine ⟨decode_encode .mmsb, ?_⟩
  rintro s _ d c rfl hu hd hc
  have h : PredicateRuns .mmsb predMsb s c d := ⟨rfl, hu, hd, hc⟩
  exact ⟨fun hpar => h.exec_of_raise (predMsb_of_par_gt hpar),
    fun hpar => h.exec_congr (j := .meq) ⟨rfl, hu, hd, hc⟩ (predMsb_of_par_eq hpar),
    fun t hpar ht => h.exec_of_decide (predMsb_of_targetIs (viewOf_raced hu) hpar ht),
    fun hpar hlen => h.exec_of_raise (predMsb_of_target_raise hpar (targetValue_of_length_ne hlen)),
    fun hpar hlen hfit => h.exec_of_raise (predMsb_of_target_raise hpar (targetValue_of_not_fit hlen hfit))⟩

/-! ## MMAP -/

/-- Settles O33: the search for the first equal candidate, after the checks of the list. -/
theorem mmapResult : Obligations.MmapResult := by
  refine ⟨decode_encode .mmap, ?_⟩
  rintro s _ d c rfl hu hd hc
  have h : PredicateRuns .mmap predMap s c d := ⟨rfl, hu, hd, hc⟩
  have hr : (viewOf .mmap s).raced = [] := viewOf_raced hu
  refine ⟨fun ks hks => ⟨fun k hk hmin => h.exec_of_ok (b := true) ?_, fun hno => h.exec_of_ok (b := false) ?_⟩,
    fun hpar => h.exec_of_raise (raise_first (candidates_of_many hpar)),
    fun hpar hfit => h.exec_of_raise (raise_first (candidates_of_not_fit hpar hfit)), fun hpar hfit hno => ?_⟩
  · rw [predMap, bind_of_ok (candidates_of_candidatesAre hr hks), indexOfCandidate_of_first 0 hk hmin, Nat.zero_add]
    rfl
  · rw [predMap, bind_of_ok (candidates_of_candidatesAre hr hks), indexOfCandidate_of_not_mem 0 hno]
    rfl
  · exact h.exec_of_raise (raise_first (candidates_of_not_spelled hpar (readBytes_of_fit rfl hr hfit) hno))

end Sys2Proof.Machine
end

section
/-! The low bits of byte strings (42_compress_actions.md R164, 43_decompress_actions.md R184): a mask on the first byte
takes the integer modulo a power of two. -/

namespace Sys2Proof.Machine

/-- The last bytes of a string are its low digits. -/
theorem be_drop (s : Bytes) (j : Nat) : be (s.drop j) = be s % 256 ^ (s.length - j) := by
  have hs : be s = be (s.take j) * 256 ^ (s.length - j) + be (s.drop j) := by
    rw [← List.length_drop, ← be_append, List.take_append_drop]
  have hlt : be (s.drop j) < 256 ^ (s.length - j) := List.length_drop ▸ be_lt _
  rw [hs, Nat.mul_add_mod_self_right, Nat.mod_eq_of_lt hlt]

@[simp] theorem length_maskFirst (mask : Byte) (s : Bytes) : (maskFirst mask s).length = s.length := by
  cases s <;> rfl

theorem pow_256 (m : Nat) : 256 ^ m = 2 ^ (8 * m) := (pow_mul 2 8 m).symm

theorem pow_256_mul (m n : Nat) : 256 ^ m * 2 ^ n = 2 ^ (8 * m + n) := by rw [pow_256, pow_add]

section
variable {q n : Nat} (h : q + n = 8)
include h

/-- The mask of the low `n` bits of a byte. -/
theorem getLsbD_lowMask (i : Nat) : (0xFF#8 >>> q).getLsbD i = decide (i < n) := by
  have hones : (0xFF#8).getLsbD (q + i) = decide (q + i < 8) := BitVec.getLsbD_allOnes (v := 8)
  rw [BitVec.getLsbD_ushiftRight, hones]
  exact decide_eq_decide.2 (by omega)

theorem toNat_and_lowMask (b : Byte) : (b &&& 0xFF#8 >>> q).toNat = b.toNat % 2 ^ n := by
  refine Nat.eq_of_testBit_eq fun i => ?_
  rw [BitVec.testBit_toNat, BitVec.getLsbD_and, getLsbD_lowMask h, Nat.testBit_mod_two_pow, BitVec.testBit_toNat,
    Bool.and_comm]

/-- A byte whose low `n` bits come from another. -/
theorem toNat_spliceLow (x y : Byte) :
    (x &&& ~~~(0xFF#8 >>> q) ||| y &&& 0xFF#8 >>> q).toNat = 2 ^ n * (x.toNat / 2 ^ n) + y.toNat % 2 ^ n := by
  refine Nat.eq_of_testBit_eq fun i => ?_
  rw [Nat.testBit_two_pow_mul_add _ (Nat.mod_lt _ (Nat.two_pow_pos n)), Nat.testBit_mod_two_pow,
    Nat.testBit_div_two_pow]
  simp only [BitVec.testBit_toNat, BitVec.getLsbD_or, BitVec.getLsbD_and, BitVec.getLsbD_not, getLsbD_lowMask h]
  by_cases hi : i < n
  · simp [hi]
  · have hi8 : x.getLsbD i = true → i < 8 := BitVec.lt_of_getLsbD
    rw [Nat.sub_add_cancel (Nat.not_lt.1 hi)]
    simpa [hi] using hi8

end

/-- The integer of a string modulo a power of two that ends in its first byte. -/
theorem be_cons_mod (y : Byte) (s : Bytes) (n : Nat) :
    be (y :: s) % 2 ^ (8 * s.length + n) = y.toNat % 2 ^ n * 256 ^ s.length + be s := by
  have hpos : 0 < 256 ^ s.length := Nat.pow_pos (by decide)
  rw [← pow_256_mul, Nat.mod_mul, be_cons, Nat.mul_add_mod_self_right, Nat.mod_eq_of_lt (be_lt s),
    Nat.mul_comm y.toNat, Nat.mul_add_div hpos, Nat.div_eq_of_lt (be_lt s), Nat.add_zero, Nat.add_comm, Nat.mul_comm]

theorem be_cons_div (y : Byte) (s : Bytes) (n : Nat) : be (y :: s) / 2 ^ (8 * s.length + n) = y.toNat / 2 ^ n := by
  have hpos : 0 < 256 ^ s.length := Nat.pow_pos (by decide)
  rw [← pow_256_mul, ← Nat.div_div_eq_div_mul, be_cons, Nat.mul_comm y.toNat, Nat.mul_add_div hpos,
    Nat.div_eq_of_lt (be_lt s), Nat.add_zero]

/-- Masking the first byte drops the integer's bits above a position in it. -/
theorem be_maskFirst {q : Nat} (h : q ≤ 8) (s : Bytes) :
    be (maskFirst (0xFF#8 >>> q) s) = be s % 2 ^ (8 * s.length - q) := by
  cases s with
  | nil => rfl
  | cons b t =>
    have hq : q + (8 - q) = 8 := by omega
    have hexp : 8 * (b :: t).length - q = 8 * t.length + (8 - q) := by rw [List.length_cons]; omega
    rw [hexp, be_cons_mod, maskFirst, be_cons, toNat_and_lowMask hq]

/-- ORing a string into zero bytes gives the string. -/
theorem zipWith_or_zeros (s : Bytes) : List.zipWith (· ||| ·) (zeros s.length) s = s := by
  induction s with
  | nil => rfl
  | cons b t ih =>
    rw [List.length_cons, zeros, List.replicate_succ, List.zipWith_cons_cons, BitVec.zero_or]
    exact congrArg _ ih

/-- Taking the low bits of a byte and all bytes after it from another string takes that many low bits of the integer. -/
theorem be_append_splice {q n : Nat} (h : q + n = 8) (p : Bytes) (x y : Byte) {t r : Bytes}
    (hlen : t.length = r.length) :
    be (p ++ (x &&& ~~~(0xFF#8 >>> q) ||| y &&& 0xFF#8 >>> q) :: r) =
      2 ^ (8 * r.length + n) * (be (p ++ x :: t) / 2 ^ (8 * r.length + n)) +
        be (y :: r) % 2 ^ (8 * r.length + n) := by
  have hpow : 256 ^ (r.length + 1) = 2 ^ (8 * r.length + n) * 2 ^ q := by
    rw [pow_256, ← pow_add]
    congr 1
    omega
  have hdiv : be (p ++ x :: t) / 2 ^ (8 * r.length + n) = 2 ^ q * be p + x.toNat / 2 ^ n := by
    rw [be_append, List.length_cons, hlen, hpow, Nat.mul_comm (be p), Nat.mul_assoc,
      Nat.mul_add_div (Nat.two_pow_pos _), ← hlen, be_cons_div]
  rw [hdiv, be_cons_mod, be_append, List.length_cons, hpow, be_cons, toNat_spliceLow h, ← pow_256_mul]
  ring

end Sys2Proof.Machine
end

section
/-! What the actions give where they succeed (42_compress_actions.md R161 to R168, 43_decompress_actions.md R181 to
R188). -/

namespace Sys2Proof.Machine

/-- `if p: raise e` lets through exactly if `p` is false. -/
theorem orRaise_eq_ok {α : Type} {p : Prop} [Decidable p] {e : Err} {x : Comp α} {a : α} :
    (if p then raise e else x) = .ok a ↔ ¬ p ∧ x = .ok a := by
  split <;> simp [*]

/-! ## Targets and candidates (30_encoding.md R85) -/

section
variable {v : View} {c t : Bytes} {ks : List Bytes} {d : Desc}

theorem targetValue_eq_ok :
    targetValue v d = .ok t ↔ d.tlen = nb d.bits ∧ readBytes v d.taddr d.tlen = .ok t := by
  rw [targetValue, orRaise_eq_ok, not_not]

theorem length_of_targetValue (h : targetValue v d = .ok t) : t.length = nb d.bits := by
  obtain ⟨hlen, hread⟩ := targetValue_eq_ok.1 h
  exact (length_of_readBytes hread).trans hlen

/-- A list has at most 256 candidates, so an index fits one byte. -/
theorem length_le_of_candidates (h : candidates v d = .ok ks) : ks.length ≤ 256 := by
  have h' := h
  rw [candidates, orRaise_eq_ok] at h'
  obtain ⟨hpar, h'⟩ := h'
  obtain ⟨t, hread, -⟩ := bind_eq_ok.1 h'
  rw [candidates_eq_candidateList (Nat.not_lt.1 hpar) hread, candidateList_eq_ok] at h
  omega

/-- The index found is that of a candidate equal to the column. -/
theorem indexOfCandidate_eq_some : ∀ {ks : List Bytes} {i k : Nat}, indexOfCandidate c i ks = some k →
    ∃ j, k = i + j ∧ ks[j]? = some c
  | x :: rest, i, k, h => by
    rw [indexOfCandidate] at h
    split at h
    · next hx => exact ⟨0, (Option.some.inj h).symm, congrArg some hx.symm⟩
    · obtain ⟨j, rfl, hj⟩ := indexOfCandidate_eq_some h
      exact ⟨j + 1, by omega, hj⟩

end

/-! ## Compression -/

section
variable {v : View} {iid c out : Bytes} {d : Desc}

theorem cactValue_eq_ok : cactValue c d = .ok out ↔ c.length = nb d.bits ∧ c = out := by
  rw [cactValue, orRaise_eq_ok, not_not, Except.ok.injEq]

theorem cactIndex_eq_ok : cactIndex v c d = .ok out ↔
    ∃ ks, candidates v d = .ok ks ∧ ∃ i, indexOfCandidate c 0 ks = some i ∧ [BitVec.ofNat 8 i] = out := by
  rw [cactIndex, bind_eq_ok]
  refine exists_congr fun ks => and_congr_right fun _ => ?_
  cases indexOfCandidate c 0 ks with
  | none => simp
  | some i => simp [pure, Except.pure]

theorem cactDevIid_eq_ok :
    cactDevIid iid c d = .ok out ↔ d.bits = 64 ∧ c.length = 8 ∧ c = iid ∧ [] = out := by
  rw [cactDevIid, orRaise_eq_ok, orRaise_eq_ok, orRaise_eq_ok, not_not, not_not, not_not, Except.ok.injEq]

end

/-! ## The `L - M` least significant bits (R164, R184)

With `M = L` the first of them is past the last byte, so what the rules say apart of that case follows. -/

/-- The bytes from the one that holds the first LSB bit on (R170). -/
def lsbLength (d : Desc) : Nat := nb d.bits - lsbStart d / 8

/-- The residue of R164. -/
def lsbResidue (d : Desc) (c : Bytes) : Bytes := maskFirst (lsbMask d) (c.drop (lsbStart d / 8))

/-- The target `t` with its low bits from `r` (R184). -/
def lsbMerge (d : Desc) (t r : Bytes) : Bytes :=
  t.take (lsbStart d / 8) ++ List.zipWith (· ||| ·)
    (maskFirst (~~~ lsbMask d) (slice t (lsbStart d / 8) 1) ++ zeros (lsbLength d - 1)) (maskFirst (lsbMask d) r)

section
variable {v : View} {c out t r src val : Bytes} {d : Desc} {k : Nat}

theorem lsbLength_bits (h : d.par ≤ d.bits) : 8 * lsbLength d = d.bits - d.par + lsbStart d % 8 := by
  unfold lsbLength lsbStart nb
  omega

theorem lsbLength_of_par_eq (h : d.par = d.bits) : lsbLength d = 0 := by
  have := lsbLength_bits h.le
  omega

theorem lsbStart_of_par_eq (h : d.par = d.bits) : lsbStart d / 8 = nb d.bits := by
  unfold lsbStart nb
  omega

theorem length_lsbResidue (hlen : c.length = nb d.bits) : (lsbResidue d c).length = lsbLength d := by
  rw [lsbResidue, length_maskFirst, List.length_drop, hlen, lsbLength]

theorem be_lsbResidue (hpar : d.par ≤ d.bits) (hlen : c.length = nb d.bits) :
    be (lsbResidue d c) = be c % 2 ^ (d.bits - d.par) := by
  have hbits := lsbLength_bits hpar
  have hexp : 8 * lsbLength d - lsbStart d % 8 = d.bits - d.par := by omega
  have hdvd : 2 ^ (d.bits - d.par) ∣ 256 ^ lsbLength d := pow_256 _ ▸ pow_dvd_pow 2 (by omega)
  rw [lsbResidue, lsbMask, be_maskFirst (by omega), be_drop, List.length_drop, hlen, ← lsbLength, hexp,
    Nat.mod_mod_of_dvd _ hdvd]

/-- The residue carries the low bits right-aligned, with zeros above them. -/
theorem lsbResidue_eq_bytesBE (hpar : d.par ≤ d.bits) (hlen : c.length = nb d.bits) :
    lsbResidue d c = bytesBE (lsbLength d) (be c % 2 ^ (d.bits - d.par)) := by
  rw [← be_lsbResidue hpar hlen, ← length_lsbResidue hlen, bytesBE_be]

theorem cactLsb_eq_ok :
    cactLsb c d = .ok out ↔ d.par ≤ d.bits ∧ c.length = nb d.bits ∧ lsbResidue d c = out := by
  rw [cactLsb, orRaise_eq_ok, orRaise_eq_ok, not_not, Nat.not_lt]
  refine and_congr_right fun hpar => and_congr_right fun hlen => ?_
  split
  · next heq =>
    have hnil : lsbResidue d c = [] :=
      List.eq_nil_of_length_eq_zero ((length_lsbResidue hlen).trans (lsbLength_of_par_eq heq))
    rw [hnil, Except.ok.injEq]
  · rw [Except.ok.injEq, lsbResidue]

/-- What R184 ORs: the first byte `x` of the target takes its masked bits from the first byte received, and the bytes
received follow. -/
theorem zipWith_fixed_received (mask x y : Byte) (s : Bytes) :
    List.zipWith (· ||| ·) (maskFirst (~~~ mask) [x] ++ zeros s.length) (maskFirst mask (y :: s)) =
      (x &&& ~~~ mask ||| y &&& mask) :: s :=
  congrArg _ (zipWith_or_zeros s)

theorem lsbMerge_of_par_eq (hpar : d.par = d.bits) (ht : t.length = nb d.bits) : lsbMerge d t r = t := by
  have hslice : slice t (nb d.bits) 1 = [] := by rw [slice, ← ht, List.drop_length, List.take_nil]
  rw [lsbMerge, lsbLength_of_par_eq hpar, lsbStart_of_par_eq hpar, hslice, ← ht, List.take_length]
  exact List.append_nil t

/-- Merging replaces the low `L - M` bits, whatever stands above them in what was received. -/
theorem lsbMerge_value (hpar : d.par ≤ d.bits) (ht : t.length = nb d.bits) (hr : r.length = lsbLength d) :
    (lsbMerge d t r).length = nb d.bits ∧ be (lsbMerge d t r) =
      2 ^ (d.bits - d.par) * (be t / 2 ^ (d.bits - d.par)) + be r % 2 ^ (d.bits - d.par) := by
  have hbits := lsbLength_bits hpar
  cases r with
  | nil =>
    have hzero : d.bits - d.par = 0 := by rw [← hr] at hbits; simp at hbits; omega
    rw [lsbMerge_of_par_eq (by omega) ht, hzero, pow_zero, Nat.div_one, Nat.one_mul, Nat.mod_one]
    exact ⟨ht, rfl⟩
  | cons y s =>
    have hlt : lsbStart d / 8 < t.length := by rw [List.length_cons, lsbLength] at hr; omega
    obtain ⟨p, x, t', rfl, hp⟩ : ∃ p x t', t = p ++ x :: t' ∧ p.length = lsbStart d / 8 :=
      ⟨_, _, _, (List.take_append_drop _ t).symm.trans (by rw [List.drop_eq_getElem_cons hlt]),
        List.length_take_of_le hlt.le⟩
    rw [List.length_append, List.length_cons] at ht
    rw [List.length_cons] at hr
    have ht' : t'.length = s.length := by rw [lsbLength] at hr; omega
    have hmerge : lsbMerge d (p ++ x :: t') (y :: s) = p ++ (x &&& ~~~ lsbMask d ||| y &&& lsbMask d) :: s := by
      have hslice : slice (p ++ x :: t') p.length 1 = [x] := by simp [slice]
      rw [lsbMerge, ← hr, Nat.add_sub_cancel, ← hp, List.take_left, hslice, zipWith_fixed_received]
    have hexp : 8 * s.length + (8 - lsbStart d % 8) = d.bits - d.par := by omega
    rw [hmerge, lsbMask, be_append_splice (n := 8 - lsbStart d % 8) (by omega) p x y ht', hexp, List.length_append,
      List.length_cons, ← ht']
    exact ⟨ht, rfl⟩

/-- A column whose bits above the low `L - M` are the target's is merged from its own residue. -/
theorem lsbMerge_lsbResidue (hpar : d.par ≤ d.bits) (hc : c.length = nb d.bits) (ht : t.length = nb d.bits)
    (htop : be c / 2 ^ (d.bits - d.par) = be t / 2 ^ (d.bits - d.par)) : lsbMerge d t (lsbResidue d c) = c := by
  obtain ⟨hlen, hbe⟩ := lsbMerge_value hpar ht (length_lsbResidue hc)
  refine be_injective_of_length (hlen.trans hc.symm) ?_
  rw [hbe, be_lsbResidue hpar hc, Nat.mod_mod, ← htop, Nat.div_add_mod]

theorem dactLsb_eq_ok : dactLsb v src d = .ok (k, val) ↔
    d.par ≤ d.bits ∧ ∃ t, targetValue v d = .ok t ∧ lsbLength d ≤ src.length ∧
      lsbLength d = k ∧ lsbMerge d t (src.take (lsbLength d)) = val := by
  rw [dactLsb, orRaise_eq_ok, Nat.not_lt, bind_eq_ok]
  refine and_congr_right fun hpar => exists_congr fun t => and_congr_right fun ht => ?_
  split
  · next heq =>
    rw [lsbMerge_of_par_eq heq (length_of_targetValue ht), lsbLength_of_par_eq heq]
    simp [pure, Except.pure]
  · dsimp only
    rw [orRaise_eq_ok, Nat.not_lt]
    simp only [pure, Except.pure, Except.ok.injEq, Prod.mk.injEq]
    rfl

end

/-! ## Decompression -/

section
variable {v : View} {iid src val : Bytes} {d : Desc} {k : Nat}

theorem dactOmit_eq_ok : dactOmit v src d = .ok (k, val) ↔ targetValue v d = .ok val ∧ 0 = k := by
  rw [dactOmit, bind_eq_ok]
  simp [pure, Except.pure, and_comm]

theorem dactValue_eq_ok : dactValue src d = .ok (k, val) ↔
    nb d.bits ≤ src.length ∧ nb d.bits = k ∧ src.take (nb d.bits) = val := by
  rw [dactValue, orRaise_eq_ok, Nat.not_lt, Except.ok.injEq, Prod.mk.injEq]

theorem dactIndex_eq_ok : dactIndex v src d = .ok (k, val) ↔
    ∃ ks, candidates v d = .ok ks ∧ ∃ i rest, src = i :: rest ∧ ks[i.toNat]? = some val ∧ 1 = k := by
  rw [dactIndex, bind_eq_ok]
  refine exists_congr fun ks => and_congr_right fun _ => ?_
  cases src with
  | nil => simp
  | cons i rest => cases hi : ks[i.toNat]? <;> simp [hi, pure, Except.pure, and_comm]

theorem dactDevIid_eq_ok : dactDevIid iid src d = .ok (k, val) ↔ d.bits = 64 ∧ 0 = k ∧ iid = val := by
  rw [dactDevIid, orRaise_eq_ok, not_not, Except.ok.injEq, Prod.mk.injEq]

end

end Sys2Proof.Machine
end

section
/-! A field's decompression after its compression (42_compress_actions.md R170, R171, 43_decompress_actions.md R189,
44_rule_selection.md R206). -/

namespace Sys2Proof.Machine

/-! ## Matching predicates (41_predicates.md R141, R143) -/

section
variable {v : View} {c : Bytes} {d : Desc} {x : Nat}

theorem predEqual_eq_true (h : predEqual v c d = .ok (true, x)) : targetValue v d = .ok c := by
  rw [predEqual, bind_eq_ok] at h
  obtain ⟨t, ht, h⟩ := h
  simp only [pure, Except.pure, Except.ok.injEq, Prod.mk.injEq, Bool.and_eq_true, beq_iff_eq] at h
  exact h.1.2 ▸ ht

theorem predMsb_eq_true (h : predMsb v c d = .ok (true, x)) :
    ∃ t, targetValue v d = .ok t ∧ topBits (be c) d.bits d.par = topBits (be t) d.bits d.par := by
  rw [predMsb, orRaise_eq_ok] at h
  obtain ⟨-, h⟩ := h
  split at h
  · exact ⟨c, predEqual_eq_true h, rfl⟩
  · obtain ⟨t, ht, h⟩ := bind_eq_ok.1 h
    simp only [pure, Except.pure, Except.ok.injEq, Prod.mk.injEq, Bool.and_eq_true, beq_iff_eq] at h
    exact ⟨t, ht, h.1.2⟩

/-- The top `m` bits of an integer of at most `l` bits are all that is above its other bits. -/
theorem topBits_of_lt {y l m : Nat} (hm : m ≤ l) (hy : y < 2 ^ l) : topBits y l m = y / 2 ^ (l - m) :=
  Nat.mod_eq_of_lt (Nat.div_lt_of_lt_mul (by rwa [← pow_add, Nat.sub_add_cancel hm]))

/-- A field that send-LSB restores agrees with the target above its low `L - M` bits. -/
theorem top_eq_of_predDispatch (hp : predDispatch v c d = .ok (true, x)) (hpar : d.par ≤ d.bits)
    (hmo : d.mo = .equal ∨ (d.mo = .msb ∧ be c < 2 ^ d.bits ∧ num v d.taddr d.tlen < 2 ^ d.bits)) :
    ∃ t, targetValue v d = .ok t ∧ be c / 2 ^ (d.bits - d.par) = be t / 2 ^ (d.bits - d.par) := by
  rcases hmo with hmo | ⟨hmo, hc, hnum⟩ <;> rw [predDispatch_of_mo hmo] at hp
  · exact ⟨c, predEqual_eq_true hp, rfl⟩
  · obtain ⟨t, ht, htop⟩ := predMsb_eq_true hp
    have hbe : be t = num v d.taddr d.tlen := congrArg be (readBytes_eq_ok.1 (targetValue_eq_ok.1 ht).2).2
    rw [topBits_of_lt hpar hc, topBits_of_lt hpar (hbe ▸ hnum)] at htop
    exact ⟨t, ht, htop⟩

/-- Where omit is allowed (R171) the target is the field. -/
theorem targetValue_of_predDispatch (hp : predDispatch v c d = .ok (true, x))
    (hmo : d.mo = .equal ∨ (d.mo = .msb ∧ d.par = d.bits)) : targetValue v d = .ok c := by
  rcases hmo with hmo | ⟨hmo, hpar⟩ <;> rw [predDispatch_of_mo hmo] at hp
  · exact predEqual_eq_true hp
  · exact predEqual_eq_true ((predMsb_of_par_eq hpar).symm.trans hp)

end

/-! ## The round trip of one field -/

section
variable {v : View} {c out : Bytes} {d : Desc}

theorem dactIndex_cactIndex (h : cactIndex v c d = .ok out) (rest : Bytes) :
    dactIndex v (out ++ rest) d = .ok (out.length, c) := by
  obtain ⟨ks, hks, i, hi, rfl⟩ := cactIndex_eq_ok.1 h
  obtain ⟨j, rfl, hj⟩ := indexOfCandidate_eq_some hi
  have hlt : j < 256 := (List.getElem?_eq_some_iff.1 hj).1.trans_le (length_le_of_candidates hks)
  refine dactIndex_eq_ok.2 ⟨ks, hks, _, rest, rfl, ?_, rfl⟩
  rw [Nat.zero_add, BitVec.toNat_ofNat, Nat.mod_eq_of_lt hlt, hj]

theorem dactLsb_cactLsb (h : cactLsb c d = .ok out) {t : Bytes} (ht : targetValue v d = .ok t)
    (htop : be c / 2 ^ (d.bits - d.par) = be t / 2 ^ (d.bits - d.par)) (rest : Bytes) :
    dactLsb v (out ++ rest) d = .ok (out.length, c) := by
  obtain ⟨hpar, hlen, rfl⟩ := cactLsb_eq_ok.1 h
  have hres := length_lsbResidue hlen
  refine dactLsb_eq_ok.2 ⟨hpar, t, ht, by simp [hres], hres.symm, ?_⟩
  rw [← hres, List.take_left]
  exact lsbMerge_lsbResidue hpar hlen (length_of_targetValue ht) htop

end

/-- Settles O44: action by action, from what the predicate and the compression tell of the field. -/
theorem fieldRoundTrip : Obligations.FieldRoundTrip := by
  intro v iid c out rest d x hp hc homit hlsb hlength hchecksum
  unfold compressField at hc
  unfold decompressField
  cases hcda : d.cda <;> simp only [hcda] at hc ⊢
  · obtain rfl := Except.ok.inj hc
    exact dactOmit_eq_ok.2 ⟨targetValue_of_predDispatch hp (homit hcda), rfl⟩
  case sendValue =>
    obtain ⟨hlen, rfl⟩ := cactValue_eq_ok.1 hc
    exact dactValue_eq_ok.2 ⟨by simp [hlen], hlen.symm, by rw [← hlen, List.take_left]⟩
  case sendIndex => exact dactIndex_cactIndex hc rest
  case sendLsb =>
    obtain ⟨t, ht, htop⟩ := top_eq_of_predDispatch hp (cactLsb_eq_ok.1 hc).1 (hlsb hcda)
    exact dactLsb_cactLsb hc ht htop rest
  case deferLength => exact absurd hcda hlength
  case deferChecksum => exact absurd hcda hchecksum
  case deriveDevIid =>
    obtain ⟨hbits, -, rfl, rfl⟩ := cactDevIid_eq_ok.1 hc
    exact dactDevIid_eq_ok.2 ⟨hbits, rfl, rfl⟩
  case deriveAppIid => exact absurd hc (raise_ne_ok _ _)

/-! ## `ResidueSize` (R170) -/

section
variable {v : View} {iid c out src val : Bytes} {d : Desc} {k : Nat}

theorem residueSize_of_sendLsb (hcda : d.cda = .sendLsb) (hpar : d.par ≤ d.bits) :
    residueSize d = .ok (lsbLength d) := by
  simp only [residueSize, hcda]
  rw [if_neg (Nat.not_lt.2 hpar)]
  split
  · next heq => rw [lsbLength_of_par_eq heq]
  · rfl

theorem residueSize_of_compressField (h : compressField v iid c d = .ok out) : residueSize d = .ok out.length := by
  unfold compressField at h
  cases hcda : d.cda <;> simp only [hcda] at h
  case sendLsb =>
    obtain ⟨hpar, hlen, rfl⟩ := cactLsb_eq_ok.1 h
    rw [length_lsbResidue hlen, residueSize_of_sendLsb hcda hpar]
  all_goals simp only [residueSize, hcda]
  case sendValue =>
    obtain ⟨hlen, rfl⟩ := cactValue_eq_ok.1 h
    rw [hlen]
  case sendIndex =>
    obtain ⟨_, -, _, -, rfl⟩ := cactIndex_eq_ok.1 h
    rfl
  case deriveDevIid =>
    obtain ⟨-, -, -, rfl⟩ := cactDevIid_eq_ok.1 h
    rfl
  case deriveAppIid => exact absurd h (raise_ne_ok _ _)
  all_goals
    obtain rfl := Except.ok.inj h
    rfl

theorem residueSize_of_decompressField (h : decompressField v iid src d = .ok (k, val)) :
    residueSize d = .ok k ∧ k ≤ src.length := by
  unfold decompressField at h
  cases hcda : d.cda <;> simp only [hcda] at h
  case sendLsb =>
    obtain ⟨hpar, _, -, hle, rfl, -⟩ := dactLsb_eq_ok.1 h
    exact ⟨residueSize_of_sendLsb hcda hpar, hle⟩
  all_goals simp only [residueSize, hcda]
  · obtain ⟨-, rfl⟩ := dactOmit_eq_ok.1 h
    exact ⟨rfl, Nat.zero_le _⟩
  case sendValue =>
    obtain ⟨hle, rfl, -⟩ := dactValue_eq_ok.1 h
    exact ⟨rfl, hle⟩
  case sendIndex =>
    obtain ⟨_, -, _, rest, rfl, -, rfl⟩ := dactIndex_eq_ok.1 h
    exact ⟨rfl, Nat.succ_pos _⟩
  case deriveDevIid =>
    obtain ⟨-, rfl, -⟩ := dactDevIid_eq_ok.1 h
    exact ⟨rfl, Nat.zero_le _⟩
  case deriveAppIid => exact absurd h (raise_ne_ok _ _)
  all_goals
    obtain ⟨rfl, -⟩ := Prod.mk.inj (Except.ok.inj h)
    exact ⟨rfl, Nat.zero_le _⟩

/-- A layer takes the residues of its descriptors one after another, and gives a column for each. -/
theorem decompressFields_consumes {fs : List Desc} {cols : List Col}
    (h : decompressFields v iid fs src = .ok (k, cols)) :
    k ≤ src.length ∧ residueSum fs = .ok k ∧ cols.map Col.fid = fs.map Desc.fid := by
  induction fs generalizing src k cols with
  | nil =>
    obtain ⟨rfl, rfl⟩ := Prod.mk.inj (Except.ok.inj h)
    exact ⟨Nat.zero_le _, rfl, rfl⟩
  | cons f fs ih =>
    obtain ⟨⟨k₁, val⟩, hfield, h⟩ := bind_eq_ok.1 h
    obtain ⟨⟨p, rest⟩, hrest, h⟩ := bind_eq_ok.1 h
    obtain ⟨rfl, rfl⟩ := Prod.mk.inj (Except.ok.inj h)
    obtain ⟨hsize, hle⟩ := residueSize_of_decompressField hfield
    obtain ⟨hple, hsum, hfids⟩ := ih hrest
    rw [List.length_drop] at hple
    exact ⟨by omega, bind_eq_ok.2 ⟨k₁, hsize, bind_eq_ok.2 ⟨p, hsum, rfl⟩⟩, congrArg (List.cons f.fid) hfids⟩

end

/-- Settles O43: the size of each action's residue, summed over the descriptors of a layer. -/
theorem residueSizeAgrees : Obligations.ResidueSizeAgrees := by
  refine ⟨fun v iid c out d => residueSize_of_compressField,
    fun v iid src val d k => residueSize_of_decompressField, fun v iid src rule dir k cols h => ?_⟩
  rw [← applicable_eq_applying]
  exact decompressFields_consumes h

end Sys2Proof.Machine
end

section
/-! The action commands (42_compress_actions.md R160, 43_decompress_actions.md R180) whose host wrote nothing meanwhile,
and the compression actions among them (R161 to R168). -/

namespace Sys2Proof.Machine

/-! ## The output -/

/-- A predicate or an action whose computation succeeds completes with its own effect. -/
theorem exec_fieldCommand_ok {i : Instr} (hi : i ∈ fieldCommands) {s : State} {e : Effect} (hu : Undisturbed s)
    (h : (commandOf i).run (viewOf i s) s.snap.regs = .ok e) :
    exec i s = .next (doneState s (storeAll s.mem e.writes) e.result e.result2) := by
  obtain ⟨hmeet, hscratch⟩ := (fieldCommand_shape hi).2 s.snap.regs
  rw [exec_eq_perform, perform_of_ok hu ((compute_eq_run i s hmeet).trans h), hscratch, State.clobber_nil,
    completeOk_eq_doneState]

theorem writeOut_of_cap {v : View} {r : Regs} {out : Bytes} (h : r.outCap.toNat < out.length) :
    writeOut v r out = raise .insufficientBuffer := if_pos h

theorem writeOut_of_not_fit {v : View} {r : Regs} {out : Bytes} (hcap : out.length ≤ r.outCap.toNat)
    (h : ¬ (out.length = 0 ∨ r.dAddr.toNat + out.length ≤ v.size)) : writeOut v r out = raise .busFault := by
  obtain ⟨hn, hlt⟩ := not_or.1 h
  exact (if_neg (Nat.not_lt.2 hcap)).trans (raise_first (if_pos ⟨hn, Nat.not_le.1 hlt⟩))

/-- An action whose computation comes down to writing `out` delivers it. -/
theorem delivers_of_run {i : Instr} (hi : i ∈ fieldCommands) {s : State} (hu : Undisturbed s) {out : Bytes}
    {r1 r2 : Nat} (h : (commandOf i).run (viewOf i s) s.snap.regs =
      (writeOut (viewOf i s) s.snap.regs out >>= fun w => .ok ⟨[w], r1, r2⟩)) :
    Delivers i s s.snap.regs out r1 r2 := by
  refine ⟨fun hroom => ⟨_, exec_fieldCommand_ok (e := ⟨[(_, out)], r1, r2⟩) hi hu ?_, stored_put _ _ _⟩,
    fun hcap => exec_fieldCommand_raise hi ?_, fun hcap hfit => exec_fieldCommand_raise hi ?_⟩
  · exact h.trans (bind_of_ok (writeOut_eq_ok.2 ⟨hroom.1, hroom.2, rfl⟩))
  · exact h.trans (raise_first (writeOut_of_cap hcap))
  · exact h.trans (raise_first (writeOut_of_not_fit hcap hfit))

/-- A command that delivers no bytes completes whatever `OUT_CAP` and `D_ADDR`, memory as before. -/
theorem Delivers.exec_of_nil {i : Instr} {s : State} {r : Regs} {r1 r2 : Nat} (h : Delivers i s r [] r1 r2) :
    ∃ m, exec i s = .next (doneState s m r1 r2) ∧ ∀ x, m.get x = s.mem.get x := by
  obtain ⟨m, hexec, hstored⟩ := h.1 ⟨Nat.zero_le _, Or.inl rfl⟩
  refine ⟨m, hexec, fun x => (hstored x).trans (if_neg ?_)⟩
  rw [List.length_nil]
  omega

/-! ## The compression actions -/

/-- Command `i`, the command of the compression action `act`, runs on a column `c` and a descriptor `d`, and its host has
written nothing meanwhile (R160). -/
structure CompressRuns (i : Instr) (act : View → Regs → Bytes → Desc → Comp Bytes) (s : State) (c : Bytes) (d : Desc) :
    Prop where
  command : commandOf i = compressCommand act
  listed : i ∈ fieldCommands
  undisturbed : Undisturbed s
  field : descAt (viewOf i s) s.snap.regs.bAddr.toNat d = true
  input : inputIs (viewOf i s) s.snap.regs c = true

namespace CompressRuns

variable {i : Instr} {act : View → Regs → Bytes → Desc → Comp Bytes} {s : State} {c : Bytes} {d : Desc}

/-- The command is its action on the column and the descriptor, then the output. -/
theorem run_eq (h : CompressRuns i act s c d) : (commandOf i).run (viewOf i s) s.snap.regs =
    (act (viewOf i s) s.snap.regs c d >>= fun out =>
      writeOut (viewOf i s) s.snap.regs out >>= fun w => .ok ⟨[w], out.length, 0⟩) := by
  have hr := viewOf_raced (i := i) h.undisturbed
  have hc := h.input
  simp only [inputIs, Bool.and_eq_true, beq_iff_eq] at hc
  obtain ⟨hread, rfl⟩ := hc
  rw [h.command]
  exact (bind_of_ok (readDesc_of_descAt hr h.field)).trans (bind_of_ok (readBytes_of_readable hr hread))

theorem delivers_of_ok (h : CompressRuns i act s c d) {out : Bytes}
    (ha : act (viewOf i s) s.snap.regs c d = .ok out) : Delivers i s s.snap.regs out out.length 0 :=
  delivers_of_run h.listed h.undisturbed (h.run_eq.trans (bind_of_ok ha))

theorem exec_of_raise (h : CompressRuns i act s c d) {e : Err} (ha : act (viewOf i s) s.snap.regs c d = raise e) :
    exec i s = .next (failedState s e) :=
  exec_fieldCommand_raise h.listed (h.run_eq.trans (raise_first ha))

end CompressRuns

/-- Settles O34: the three actions give no bytes. -/
theorem omittedResidue : Obligations.OmittedResidue := by
  refine ⟨decode_encode .cOmit, decode_encode .cDlen, decode_encode .cDchk, ?_⟩
  rintro i s _ d c hi rfl hu hd hc
  have hact : ∃ act, commandOf i = compressCommand act ∧ i ∈ fieldCommands ∧ ∀ v r, act v r c d = .ok [] := by
    rcases hi with rfl | rfl | rfl <;> exact ⟨_, rfl, by decide, fun _ _ => rfl⟩
  obtain ⟨act, hcommand, hlisted, hnil⟩ := hact
  have h : CompressRuns i act s c d := ⟨hcommand, hlisted, hu, hd, hc⟩
  exact (h.delivers_of_ok (hnil _ _)).exec_of_nil

/-- Settles O35: a column of the field's length is its own residue. -/
theorem cValResult : Obligations.CValResult := by
  refine ⟨decode_encode .cVal, ?_⟩
  rintro s _ d c rfl hu hd hc
  have h : CompressRuns .cVal (fun _ _ => cactValue) s c d := ⟨rfl, by decide, hu, hd, hc⟩
  exact ⟨fun hlen => h.exec_of_raise (if_pos hlen), fun hlen => h.delivers_of_ok (cactValue_eq_ok.2 ⟨hlen, rfl⟩)⟩

/-- Settles O36: the search for the first equal candidate, after the checks of the list. -/
theorem cMapResult : Obligations.CMapResult := by
  refine ⟨decode_encode .cMap, ?_⟩
  rintro s _ d c rfl hu hd hc
  have h : CompressRuns .cMap (fun v _ => cactIndex v) s c d := ⟨rfl, by decide, hu, hd, hc⟩
  have hr : (viewOf .cMap s).raced = [] := viewOf_raced hu
  refine ⟨fun ks hks => ⟨fun k hk hmin => h.delivers_of_ok ?_, fun hno => h.exec_of_raise ?_⟩,
    fun hpar => h.exec_of_raise (raise_first (candidates_of_many hpar)),
    fun hpar hfit => h.exec_of_raise (raise_first (candidates_of_not_fit hpar hfit)),
    fun hpar hread hno => h.exec_of_raise
      (raise_first (candidates_of_not_spelled hpar (readBytes_of_readable hr hread) hno))⟩
  · have hindex : indexOfCandidate c 0 ks = some k := by rw [indexOfCandidate_of_first 0 hk hmin, Nat.zero_add]
    exact cactIndex_eq_ok.2 ⟨ks, candidates_of_candidatesAre hr hks, k, hindex, rfl⟩
  · rw [cactIndex, bind_of_ok (candidates_of_candidatesAre hr hks), indexOfCandidate_of_not_mem 0 hno]

/-- Settles O37: with `M = L` the residue is the string of no bytes. -/
theorem cLsbResult : Obligations.CLsbResult := by
  refine ⟨decode_encode .cLsb, ?_⟩
  rintro s _ d c n rfl hu hd hc hn
  have h : CompressRuns .cLsb (fun _ _ => cactLsb) s c d := ⟨rfl, by decide, hu, hd, hc⟩
  obtain rfl : n = lsbLength d := hn
  have hdelivers : d.par ≤ d.bits → c.length = nb d.bits → Delivers .cLsb s s.snap.regs
      (bytesBE (lsbLength d) (be c % 2 ^ (d.bits - d.par))) (lsbLength d) 0 := by
    intro hpar hlen
    have hres := h.delivers_of_ok (cactLsb_eq_ok.2 ⟨hpar, hlen, rfl⟩)
    rwa [length_lsbResidue hlen, lsbResidue_eq_bytesBE hpar hlen] at hres
  refine ⟨fun hpar => h.exec_of_raise (if_pos hpar),
    fun hpar hlen => h.exec_of_raise ((if_neg (Nat.not_lt.2 hpar)).trans (if_pos hlen)),
    fun hpar hlen => ?_, fun hpar hlen => hdelivers hpar.le hlen⟩
  have hnil := hdelivers hpar.le hlen
  rw [lsbLength_of_par_eq hpar] at hnil
  exact hnil.exec_of_nil

/-- Settles O38: the checks of R167 one after another, and the action that R168 leaves out. -/
theorem cIidResult : Obligations.CIidResult := by
  refine ⟨decode_encode .cDeviid, decode_encode .cAppiid, ?_, ?_⟩ <;> rintro s _ d c rfl hu hd hc
  · have h : CompressRuns .cDeviid (fun _ r => cactDevIid (nodeIid r)) s c d := ⟨rfl, by decide, hu, hd, hc⟩
    rw [← nodeIid_eq_iidOf]
    refine ⟨fun hbits => h.exec_of_raise (if_pos hbits),
      fun hbits hlen => h.exec_of_raise ((if_neg (not_not.2 hbits)).trans (if_pos hlen)),
      fun hbits hlen hne => h.exec_of_raise
        ((if_neg (not_not.2 hbits)).trans ((if_neg (not_not.2 hlen)).trans (if_pos hne))),
      fun hbits heq => (h.delivers_of_ok (cactDevIid_eq_ok.2 ⟨hbits, ?_, heq, rfl⟩)).exec_of_nil⟩
    simp [heq, nodeIid]
  · have h : CompressRuns .cAppiid (fun _ _ => cactAppIid) s c d := ⟨rfl, by decide, hu, hd, hc⟩
    exact h.exec_of_raise rfl

end Sys2Proof.Machine
end

section
/-! The decompression actions (43_decompress_actions.md R180 to R188), first as functions of the bytes at the cursor,
then as the commands of a host that wrote nothing meanwhile. -/

namespace Sys2Proof.Machine

/-! ## Where the actions stop (R183, R184) -/

section
variable {v : View} {ks : List Bytes} {src t : Bytes} {d : Desc}

theorem dactIndex_of_nil (hks : candidates v d = .ok ks) : dactIndex v [] d = raise .cursorOverrun := bind_of_ok hks

theorem dactIndex_of_length_le (hks : candidates v d = .ok ks) {b : Byte} (h : ks.length ≤ b.toNat) :
    dactIndex v (b :: src) d = raise .indexRange := by
  have hb : ks[b.toNat]? = none := List.getElem?_eq_none h
  rw [dactIndex, bind_of_ok hks]
  dsimp only
  rw [hb]

theorem dactLsb_of_target_raise (hpar : d.par ≤ d.bits) {e : Err} (h : targetValue v d = raise e) :
    dactLsb v src d = raise e :=
  (if_neg (Nat.not_lt.2 hpar)).trans (raise_first h)

theorem dactLsb_of_short (hpar : d.par < d.bits) (ht : targetValue v d = .ok t) (h : src.length < lsbLength d) :
    dactLsb v src d = raise .cursorOverrun :=
  (if_neg (Nat.not_lt.2 hpar.le)).trans ((bind_of_ok ht).trans ((if_neg hpar.ne).trans (if_pos h)))

/-- The merged field as one number: the target's upper bits over the received lower ones (R184). -/
theorem lsbMerge_eq_bytesBE {r : Bytes} (hpar : d.par ≤ d.bits) (ht : t.length = nb d.bits)
    (hr : r.length = lsbLength d) : lsbMerge d t r = bytesBE (nb d.bits)
      (be t / 2 ^ (d.bits - d.par) * 2 ^ (d.bits - d.par) + be r % 2 ^ (d.bits - d.par)) := by
  obtain ⟨hlen, hbe⟩ := lsbMerge_value hpar ht hr
  rw [Nat.mul_comm, ← hbe, ← hlen, bytesBE_be]

end

/-! ## The commands -/

/-- The input that stands in memory is read. -/
theorem readBytes_of_inputIs {v : View} {r : Regs} {c : Bytes} (hr : v.raced = []) (h : inputIs v r c = true) :
    readBytes v r.aAddr.toNat r.len.toNat = .ok c := by
  simp only [inputIs, Bool.and_eq_true, beq_iff_eq] at h
  obtain ⟨hread, rfl⟩ := h
  exact readBytes_of_readable hr hread

/-- Command `i`, the command of the decompression action `act`, runs on the bytes `src` at the cursor and a descriptor
`d`, and its host has written nothing meanwhile (R180). -/
structure DecompressRuns (i : Instr) (act : View → Regs → Bytes → Desc → Comp (Nat × Bytes)) (s : State) (src : Bytes)
    (d : Desc) : Prop where
  command : commandOf i = decompressCommand act
  listed : i ∈ fieldCommands
  undisturbed : Undisturbed s
  field : descAt (viewOf i s) s.snap.regs.bAddr.toNat d = true
  input : inputIs (viewOf i s) s.snap.regs src = true

namespace DecompressRuns

variable {i : Instr} {act : View → Regs → Bytes → Desc → Comp (Nat × Bytes)} {s : State} {src : Bytes} {d : Desc}

/-- The command is its action on the cursor's bytes and the descriptor, then the output. -/
theorem run_eq (h : DecompressRuns i act s src d) : (commandOf i).run (viewOf i s) s.snap.regs =
    (act (viewOf i s) s.snap.regs src d >>= fun x =>
      writeOut (viewOf i s) s.snap.regs x.2 >>= fun w => .ok ⟨[w], x.1, x.2.length⟩) := by
  have hr := viewOf_raced (i := i) h.undisturbed
  rw [h.command]
  exact (bind_of_ok (readDesc_of_descAt hr h.field)).trans (bind_of_ok (readBytes_of_inputIs hr h.input))

theorem delivers_of_ok (h : DecompressRuns i act s src d) {k : Nat} {val : Bytes}
    (ha : act (viewOf i s) s.snap.regs src d = .ok (k, val)) : Delivers i s s.snap.regs val k val.length :=
  delivers_of_run h.listed h.undisturbed (h.run_eq.trans (bind_of_ok ha))

theorem exec_of_raise (h : DecompressRuns i act s src d) {e : Err} (ha : act (viewOf i s) s.snap.regs src d = raise e) :
    exec i s = .next (failedState s e) :=
  exec_fieldCommand_raise h.listed (h.run_eq.trans (raise_first ha))

end DecompressRuns

/-- Settles O39: each of the five actions, whatever the bytes at the cursor. -/
theorem restoredValue : Obligations.RestoredValue := by
  refine ⟨decode_encode .dOmit, decode_encode .dDlen, decode_encode .dDchk, decode_encode .dDeviid,
    decode_encode .dAppiid, ?_⟩
  rintro i s _ d src rfl hu hd hc
  have hr : (viewOf i s).raced = [] := viewOf_raced hu
  have homit : i = .dOmit → DecompressRuns i (fun v _ => dactOmit v) s src d := by
    rintro rfl; exact ⟨rfl, by decide, hu, hd, hc⟩
  have hiid : i = .dDeviid → DecompressRuns i (fun _ r => dactDevIid (nodeIid r)) s src d := by
    rintro rfl; exact ⟨rfl, by decide, hu, hd, hc⟩
  rw [← nodeIid_eq_iidOf]
  refine ⟨fun hi t ht => ?_, fun hi hlen => ?_, fun hi hlen hfit => ?_, fun hi => ?_, fun hi hbits => ?_,
    fun hi hbits => ?_, fun hi => ?_⟩
  · exact (homit hi).delivers_of_ok (dactOmit_eq_ok.2 ⟨(targetValue_of_targetIs hr ht).1, rfl⟩)
  · exact (homit hi).exec_of_raise (raise_first (targetValue_of_length_ne hlen))
  · exact (homit hi).exec_of_raise (raise_first (targetValue_of_not_fit hlen hfit))
  · have hact : ∃ act, commandOf i = decompressCommand act ∧ i ∈ fieldCommands ∧
        ∀ v r, act v r src d = .ok (0, zeros (nb d.bits)) := by
      rcases hi with rfl | rfl <;> exact ⟨_, rfl, by decide, fun _ _ => rfl⟩
    obtain ⟨act, hcommand, hlisted, hzeros⟩ := hact
    have h : DecompressRuns i act s src d := ⟨hcommand, hlisted, hu, hd, hc⟩
    have hdelivers := h.delivers_of_ok (hzeros _ _)
    rwa [length_zeros] at hdelivers
  · exact (hiid hi).delivers_of_ok (dactDevIid_eq_ok.2 ⟨hbits, rfl, rfl⟩)
  · exact (hiid hi).exec_of_raise (if_pos hbits)
  · have h : DecompressRuns i (fun _ _ => dactAppIid) s src d := by
      subst hi; exact ⟨rfl, by decide, hu, hd, hc⟩
    exact h.exec_of_raise rfl

/-- Settles O40: the bytes taken from the cursor are the value. -/
theorem dValResult : Obligations.DValResult := by
  refine ⟨decode_encode .dVal, ?_⟩
  rintro s _ d src n rfl hu hd hc hn
  have h : DecompressRuns .dVal (fun _ _ => dactValue) s src d := ⟨rfl, by decide, hu, hd, hc⟩
  obtain rfl : n = nb d.bits := hn
  refine ⟨fun hlen => h.exec_of_raise (if_pos hlen), fun hlen => ?_⟩
  simpa only [List.length_take_of_le hlen] using h.delivers_of_ok (dactValue_eq_ok.2 ⟨hlen, rfl, rfl⟩)

/-- Settles O41: the candidate at the index, after the checks of the list and then of the cursor. -/
theorem dMapResult : Obligations.DMapResult := by
  refine ⟨decode_encode .dMap, ?_⟩
  rintro s _ d src rfl hu hd hc
  have h : DecompressRuns .dMap (fun v _ => dactIndex v) s src d := ⟨rfl, by decide, hu, hd, hc⟩
  have hr : (viewOf .dMap s).raced = [] := viewOf_raced hu
  refine ⟨fun ks hks => ?_, fun hpar => h.exec_of_raise (raise_first (candidates_of_many hpar)),
    fun hpar hfit => h.exec_of_raise (raise_first (candidates_of_not_fit hpar hfit)),
    fun hpar hread hno => h.exec_of_raise
      (raise_first (candidates_of_not_spelled hpar (readBytes_of_readable hr hread) hno))⟩
  have hlist := candidates_of_candidatesAre hr hks
  refine ⟨?_, ?_, ?_⟩
  · rintro rfl
    exact h.exec_of_raise (dactIndex_of_nil hlist)
  · rintro b rest rfl hb
    exact h.exec_of_raise (dactIndex_of_length_le hlist hb)
  · rintro b rest k rfl hk
    exact h.delivers_of_ok (dactIndex_eq_ok.2 ⟨ks, hlist, b, rest, rfl, hk, rfl⟩)

/-- Settles O42: with `M = L` the merge takes no bytes and is the target. -/
theorem dLsbResult : Obligations.DLsbResult := by
  refine ⟨decode_encode .dLsb, ?_⟩
  rintro s _ d src n k rfl hu hd hc hn hk
  have h : DecompressRuns .dLsb (fun v _ => dactLsb v) s src d := ⟨rfl, by decide, hu, hd, hc⟩
  obtain rfl : n = nb d.bits := hn
  obtain rfl : k = lsbLength d := hk
  refine ⟨fun hpar => h.exec_of_raise (if_pos hpar),
    fun hpar hlen => h.exec_of_raise (dactLsb_of_target_raise hpar (targetValue_of_length_ne hlen)),
    fun hpar hlen hfit => h.exec_of_raise (dactLsb_of_target_raise hpar (targetValue_of_not_fit hlen hfit)),
    fun t ht => ?_⟩
  obtain ⟨htarget, hlen⟩ := targetValue_of_targetIs (viewOf_raced hu) ht
  have hmerge : d.par ≤ d.bits → lsbLength d ≤ src.length →
      Delivers .dLsb s s.snap.regs (lsbMerge d t (src.take (lsbLength d))) (lsbLength d) (nb d.bits) := by
    intro hpar hsrc
    obtain ⟨hlength, -⟩ := lsbMerge_value hpar hlen (List.length_take_of_le hsrc)
    exact hlength ▸ h.delivers_of_ok (dactLsb_eq_ok.2 ⟨hpar, t, htarget, hsrc, rfl, rfl⟩)
  refine ⟨fun hpar => ?_, fun hpar hsrc => h.exec_of_raise (dactLsb_of_short hpar htarget hsrc), fun hpar hsrc => ?_⟩
  · have hzero := lsbLength_of_par_eq hpar
    have hall := hmerge hpar.le (hzero ▸ Nat.zero_le _)
    rwa [lsbMerge_of_par_eq hpar hlen, hzero] at hall
  · rw [← lsbMerge_eq_bytesBE hpar.le hlen (List.length_take_of_le hsrc)]
    exact hmerge hpar.le hsrc

end Sys2Proof.Machine
end

section
/-! The records of memory that the layer commands read, in the words of the statements: rule records, the columns of the
context region, and the device table with its rule lists (30_encoding.md R84 to R92). -/

namespace Sys2Proof.Machine

section
variable {v : View} {a : Nat} {layer : Layer} {e : Err}

/-! ## Descriptors (R84) -/

theorem readDesc_of_descFails (hr : v.raced = []) (h : DescFails v a e) : readDesc v a = raise e := by
  rcases h with ⟨hlt, rfl⟩ | ⟨hread, hill, rfl⟩
  · exact raise_first (readBytes_of_not_fit (by decide) hlt)
  · exact readDesc_of_illegal hr hread hill

/-- Readable descriptors are read, and then those after them. -/
theorem readDescs_append (hr : v.raced = []) {n : Nat} : ∀ {ds : List Desc} {a : Nat}, descsAt v a ds = true →
    readDescs v a (ds.length + n) = (readDescs v (a + 16 * ds.length) n >>= fun rest => .ok (ds ++ rest))
  | [], a, _ => by
    rw [List.length_nil, Nat.zero_add]
    exact (bind_pure _).symm
  | d :: ds, a, h => by
    obtain ⟨hd, hds⟩ := Bool.and_eq_true_iff.1 h
    have haddr : a + 16 * (d :: ds).length = a + 16 + 16 * ds.length := by rw [List.length_cons]; omega
    rw [haddr, List.length_cons, Nat.succ_add, readDescs, bind_of_ok (readDesc_of_descAt hr hd),
      readDescs_append hr hds, bind_assoc]
    rfl

theorem readDescs_of_descsAt (hr : v.raced = []) {ds : List Desc} (h : descsAt v a ds = true) :
    readDescs v a ds.length = .ok ds := by
  rw [← Nat.add_zero ds.length, readDescs_append hr h, readDescs, bind_of_ok rfl, List.append_nil]

/-! ## Rule records (R86, R87) -/

theorem applicable_up (fields : List Desc) :
    applicable fields .up = fields.filter (fun d => d.dir == .up || d.dir == .bi) := by
  refine congrArg (List.filter · fields) (funext fun d => ?_)
  cases hd : d.dir <;> simp [Desc.applies, hd]

theorem applicable_down (fields : List Desc) :
    applicable fields .down = fields.filter (fun d => d.dir == .down || d.dir == .bi) := by
  refine congrArg (List.filter · fields) (funext fun d => ?_)
  cases hd : d.dir <;> simp [Desc.applies, hd]

theorem headerLegal_iff : headerLegal v a layer = true ↔
    num v (a + 1) 1 = layer.number ∧ 1 ≤ num v a 1 ∧ num v a 1 ≤ layer.maxRuleId := by
  cases layer <;> simp [headerLegal, Layer.maxRuleId, and_assoc]

/-- The fields of a readable header. -/
theorem readRule_of_readable (hr : v.raced = []) (h : readable v a 8 = true) : readRule v a layer =
    if num v (a + 1) 1 ≠ layer.number then raise .ruleFormat
    else if num v a 1 < 1 ∨ layer.maxRuleId < num v a 1 then raise .ruleFormat
    else readDescs v (a + 8) (num v (a + 2) 2) >>= fun fields =>
      if num v (a + 4) 2 ≠ (applicable fields .up).length ∨ num v (a + 6) 2 ≠ (applicable fields .down).length then
        raise .ruleFormat
      else .ok ⟨num v a 1, fields⟩ := by
  have field : ∀ {i k : Nat}, i + k ≤ 8 → fieldAt (v.mem.read a 8) i k = num v (a + i) k := fieldAt_read v
  rw [readRule, bind_of_ok (readBytes_of_readable hr h), field (by decide), field (by decide), field (by decide),
    field (by decide), field (by decide)]
  rfl

theorem readRule_of_headerLegal (hr : v.raced = []) (h : readable v a 8 = true)
    (hlegal : headerLegal v a layer = true) :
    readRule v a layer = readDescs v (a + 8) (num v (a + 2) 2) >>= fun fields =>
      if num v (a + 4) 2 ≠ (applicable fields .up).length ∨ num v (a + 6) 2 ≠ (applicable fields .down).length then
        raise .ruleFormat
      else .ok ⟨num v a 1, fields⟩ := by
  obtain ⟨hlayer, hlo, hhi⟩ := headerLegal_iff.1 hlegal
  rw [readRule_of_readable hr h, if_neg (not_not.2 hlayer), if_neg (by omega)]

theorem readRule_of_not_headerLegal (hr : v.raced = []) (h : readable v a 8 = true)
    (hillegal : headerLegal v a layer = false) : readRule v a layer = raise .ruleFormat := by
  rw [readRule_of_readable hr h]
  by_cases hlayer : num v (a + 1) 1 = layer.number
  · have hid : num v a 1 < 1 ∨ layer.maxRuleId < num v a 1 := by
      by_contra hid
      rw [headerLegal_iff.2 ⟨hlayer, by omega, by omega⟩] at hillegal
      exact Bool.noConfusion hillegal
    rw [if_neg (not_not.2 hlayer), if_pos hid]
  · rw [if_pos hlayer]

/-- A rule record that stands in memory is read. -/
theorem readRule_of_ruleAt (hr : v.raced = []) {rule : Rule} (h : ruleAt v a layer rule = true) :
    readRule v a layer = .ok rule := by
  simp only [ruleAt, Bool.and_eq_true, beq_iff_eq, decide_eq_true_eq] at h
  obtain ⟨⟨⟨⟨⟨⟨⟨⟨hread, hid⟩, hlayer⟩, hcount⟩, hup⟩, hdown⟩, hlo⟩, hhi⟩, hfields⟩ := h
  have hmax : rule.ruleId ≤ layer.maxRuleId := by cases layer <;> exact hhi
  rw [readRule_of_headerLegal hr hread (headerLegal_iff.2 ⟨hlayer, by omega, by omega⟩), hcount,
    bind_of_ok (readDescs_of_descsAt hr hfields), hid, applicable_up, applicable_down]
  exact if_neg (by omega)

/-- A rule record that fails R87 raises its error. -/
theorem readRule_of_ruleFails (hr : v.raced = []) (h : RuleFails v a layer e) : readRule v a layer = raise e := by
  rcases h with ⟨hlt, rfl⟩ | ⟨hread, hillegal, rfl⟩ | ⟨hread, hlegal, ds, hds, hfail⟩
  · exact raise_first (readBytes_of_not_fit (by decide) hlt)
  · exact readRule_of_not_headerLegal hr hread hillegal
  · rw [readRule_of_headerLegal hr hread hlegal]
    rcases hfail with ⟨hlt, hdesc⟩ | ⟨hlen, rfl, hcounts⟩
    · obtain ⟨n, hn⟩ := Nat.exists_eq_add_of_lt hlt
      rw [hn, Nat.add_assoc, readDescs_append hr hds]
      exact raise_first (raise_first (raise_first (readDesc_of_descFails hr hdesc)))
    · rw [← hlen, bind_of_ok (readDescs_of_descsAt hr hds)]
      rw [← applicable_up, ← applicable_down] at hcounts
      exact if_pos hcounts

end

/-! ## Columns (R90, R92) -/

section
variable {v : View} {r : Regs} {e : Err}

theorem readEntries_succ (hr : v.raced = []) {a : Nat} (h : readable v a 8 = true) (n : Nat) :
    readEntries v a (n + 1) = (do
      let s ← readBytes v (num v (a + 4) 4) (num v (a + 2) 2)
      let rest ← readEntries v (a + 8) n
      return ⟨num v a 2, s⟩ :: rest) := by
  have field : ∀ {i k : Nat}, i + k ≤ 8 → fieldAt (v.mem.read a 8) i k = num v (a + i) k := fieldAt_read v
  rw [readEntries, bind_of_ok (readBytes_of_readable hr h), field (by decide), field (by decide), field (by decide)]
  rfl

/-- Readable entries are read, and then those after them. -/
theorem readEntries_append (hr : v.raced = []) {n : Nat} : ∀ {cols : List Col} {a : Nat},
    entriesAt v a cols = true → readEntries v a (cols.length + n) =
      (readEntries v (a + 8 * cols.length) n >>= fun rest => .ok (cols ++ rest))
  | [], a, _ => by
    rw [List.length_nil, Nat.zero_add]
    exact (bind_pure _).symm
  | c :: cols, a, h => by
    simp only [entriesAt, Bool.and_eq_true, beq_iff_eq] at h
    obtain ⟨⟨⟨⟨⟨hread, hfid⟩, hlen⟩, hval⟩, hbytes⟩, hrest⟩ := h
    have haddr : a + 8 * (c :: cols).length = a + 8 + 8 * cols.length := by rw [List.length_cons]; omega
    rw [haddr, List.length_cons, Nat.succ_add, readEntries_succ hr hread, hlen,
      bind_of_ok (readBytes_of_readable hr hval), readEntries_append hr hrest, bind_assoc, hfid, hbytes]
    rfl

theorem readEntries_of_entriesAt (hr : v.raced = []) {cols : List Col} {a : Nat} (h : entriesAt v a cols = true) :
    readEntries v a cols.length = .ok cols := by
  rw [← Nat.add_zero cols.length, readEntries_append hr h, readEntries, bind_of_ok rfl, List.append_nil]

theorem readColumns_of_readable (hr : v.raced = []) (h : readable v r.ctxAddr.toNat 2 = true) : readColumns v r =
    if r.ctxSize.toNat < 8 + 8 * num v r.ctxAddr.toNat 2 then raise .ctxOverflow
    else readEntries v (r.ctxAddr.toNat + 8) (num v r.ctxAddr.toNat 2) :=
  bind_of_ok (readNat_of_readable hr h)

/-- Columns that stand in the context region are read. -/
theorem readColumns_of_columnsAre (hr : v.raced = []) {cols : List Col} (h : columnsAre v r cols = true) :
    readColumns v r = .ok cols := by
  simp only [columnsAre, Bool.and_eq_true, beq_iff_eq, decide_eq_true_eq] at h
  obtain ⟨⟨⟨hread, hcount⟩, hsize⟩, hentries⟩ := h
  rw [readColumns_of_readable hr hread, hcount, if_neg (Nat.not_lt.2 hsize)]
  exact readEntries_of_entriesAt hr hentries

/-- Columns that cannot be read raise what R92 says. -/
theorem readColumns_of_columnsFail (hr : v.raced = []) (h : ColumnsFail v r e) : readColumns v r = raise e := by
  rcases h with ⟨hlt, rfl⟩ | ⟨hread, hsize, rfl⟩ | ⟨hread, hsize, rfl, cols, b, hentries, hlen, rfl, hfail⟩
  · exact raise_first (raise_first (readBytes_of_not_fit (by decide) hlt))
  · rw [readColumns_of_readable hr hread, if_pos hsize]
  · obtain ⟨n, hn⟩ := Nat.exists_eq_add_of_lt hlen
    rw [readColumns_of_readable hr hread, if_neg (Nat.not_lt.2 hsize), hn, Nat.add_assoc,
      readEntries_append hr hentries]
    refine raise_first ?_
    rcases hfail with hlt | ⟨hread, hne, hlt⟩
    · exact raise_first (readBytes_of_not_fit (by decide) hlt)
    · rw [readEntries_succ hr hread]
      exact raise_first (readBytes_of_not_fit hne hlt)

end

/-! ## The device table (R88, R89) -/

/-- A value that no step changes is the same after `k` steps. -/
theorem eq_of_steps {α : Type} {f : Nat → α} {k : Nat} (h : ∀ j < k, f j = f (j + 1)) : f 0 = f k := by
  induction k with
  | zero => rfl
  | succ k ih => exact (ih fun j hj => h j (Nat.lt_succ_of_lt hj)).trans (h k k.lt_succ_self)

section
variable {v : View} {r : Regs}

/-- Record `j` of the device table is readable and of another device. -/
def OtherDevice (v : View) (r : Regs) (j : Nat) : Prop :=
  readable v (r.devtabAddr.toNat + 32 * j) 4 = true ∧ num v (r.devtabAddr.toNat + 32 * j) 4 ≠ r.devId.toNat

/-- The lookup passes over the records of other devices. -/
theorem lookupDevice_skip (hr : v.raced = []) {k : Nat} (hk : k ≤ r.devtabN.toNat) (h : ∀ j < k, OtherDevice v r j) :
    lookupDevice v r =
      findDevice v r.devId.toNat (r.devtabAddr.toNat + 32 * k) (r.devtabN.toNat - k) := by
  refine eq_of_steps
    (f := fun j => findDevice v r.devId.toNat (r.devtabAddr.toNat + 32 * j) (r.devtabN.toNat - j)) fun j hj => ?_
  obtain ⟨hread, hne⟩ := h j hj
  rw [show r.devtabN.toNat - j = r.devtabN.toNat - (j + 1) + 1 by omega, findDevice,
    bind_of_ok (readNat_of_readable hr hread), if_neg hne]
  rfl

theorem lookupDevice_of_noDevice (hr : v.raced = []) (h : noDevice v r = true) :
    lookupDevice v r = raise .noDevice := by
  simp only [noDevice, List.all_eq_true, List.mem_range, Bool.and_eq_true, bne_iff_ne] at h
  rw [lookupDevice_skip hr le_rfl h, Nat.sub_self]
  rfl

theorem lookupDevice_of_deviceFault (hr : v.raced = []) {k : Nat} (h : deviceFault v r k = true) :
    lookupDevice v r = raise .busFault := by
  simp only [deviceFault, List.all_eq_true, List.mem_range, Bool.and_eq_true, bne_iff_ne, decide_eq_true_eq] at h
  obtain ⟨⟨hk, hlt⟩, hother⟩ := h
  rw [lookupDevice_skip hr hk.le hother, show r.devtabN.toNat - k = r.devtabN.toNat - (k + 1) + 1 by omega]
  exact raise_first (raise_first (readBytes_of_not_fit (by decide) hlt))

theorem lookupDevice_of_deviceIs (hr : v.raced = []) {k : Nat} (h : deviceIs v r k = true) :
    lookupDevice v r = .ok (r.devtabAddr.toNat + 32 * k) := by
  simp only [deviceIs, List.all_eq_true, List.mem_range, Bool.and_eq_true, beq_iff_eq, decide_eq_true_eq] at h
  obtain ⟨hk, hall⟩ := h
  have hother : ∀ j < k, OtherDevice v r j := fun j hj => by
    obtain ⟨hread, hid⟩ := hall j (by omega)
    exact ⟨hread, by simpa [hj.ne] using hid⟩
  obtain ⟨hread, hid⟩ := hall k k.lt_succ_self
  rw [lookupDevice_skip hr hk.le hother, show r.devtabN.toNat - k = r.devtabN.toNat - (k + 1) + 1 by omega, findDevice,
    bind_of_ok (readNat_of_readable hr hread)]
  exact if_pos (by simpa using hid)

/-- The list at `list` holds the addresses `addrs`, all readable (R88). -/
def Listed (v : View) (list : Nat) (addrs : List Nat) : Prop :=
  ∀ j a : Nat, addrs[j]? = some a → readNat v (list + 4 * j) 4 = .ok a

/-- A layer's list in a device record is read, and each of its entries. -/
theorem ruleList_of_rulesListed (hr : v.raced = []) {dev : Nat} {layer : Layer} {addrs : List Nat}
    (h : rulesListed v r dev layer addrs = true) :
    ∃ list, ruleList v (r.devtabAddr.toNat + 32 * dev) layer = .ok (list, addrs.length) ∧ Listed v list addrs := by
  simp only [rulesListed, List.all_eq_true, List.mem_range, Bool.and_eq_true, beq_iff_eq] at h
  obtain ⟨⟨⟨hlist, hcount⟩, hlen⟩, hall⟩ := h
  refine ⟨num v (r.devtabAddr.toNat + 32 * dev + 4 + 4 * layer.number) 4, ?_, fun j a ha => ?_⟩
  · rw [ruleList, bind_of_ok (readNat_of_readable hr hlist), bind_of_ok (readNat_of_readable hr hcount), hlen]
    rfl
  · obtain ⟨hj, hget⟩ := List.getElem?_eq_some_iff.1 ha
    obtain ⟨hread, hnum⟩ := hall j hj
    rw [readNat_of_readable hr hread, hnum, List.getD_eq_getElem?_getD, ha]
    rfl

end

end Sys2Proof.Machine
end

section
/-! What `DIR` and `AUX` let through (44_rule_selection.md R203, R205, R207, R210). -/

namespace Sys2Proof.Machine

section
variable {r : Regs} {layer : Layer} {dir : PacketDir}

theorem checkDir_of_dirIs (h : dirIs r dir = true) : checkDir r = .ok dir := by
  have hcode : r.dir = match dir with | .up => 1#32 | .down => 2#32 := by
    cases dir <;> exact BitVec.eq_of_toNat_eq (beq_iff_eq.1 h)
  rw [checkDir, hcode]
  cases dir <;> rfl

theorem checkDir_of_illegal (h1 : r.dir.toNat ≠ 1) (h2 : r.dir.toNat ≠ 2) : checkDir r = raise .operand := by
  have hne : r.dir ≠ 1#32 ∧ r.dir ≠ 2#32 := ⟨fun h => h1 (by rw [h]; rfl), fun h => h2 (by rw [h]; rfl)⟩
  rw [checkDir, if_neg hne.1, if_neg hne.2]

theorem checkLayer_of_auxIs (h : auxIs r layer = true) : checkLayer r = .ok layer := by
  have haux : r.aux = BitVec.ofNat 32 layer.number := by
    cases layer <;> exact BitVec.eq_of_toNat_eq (beq_iff_eq.1 h)
  rw [checkLayer, haux]
  cases layer <;> rfl

theorem checkLayer_of_illegal (h : 2 < r.aux.toNat) : checkLayer r = raise .operand := by
  have hne : ∀ n ≤ 2, r.aux ≠ BitVec.ofNat 32 n := fun n hn he => by
    rw [he, BitVec.toNat_ofNat, Nat.mod_eq_of_lt (by omega)] at h
    omega
  rw [checkLayer, if_neg (hne 0 (by decide)), if_neg (hne 1 (by decide)), if_neg (hne 2 (by decide))]

/-- The check of `AUX` lets a layer through or raises `OPERAND`, so an `OPERAND` after it is that of both. -/
theorem operand_after_checkLayer {α : Type} {f : Layer → Comp α} (h : ∀ layer, f layer = raise .operand) :
    (checkLayer r >>= f) = raise .operand := by
  by_cases haux : 2 < r.aux.toNat
  · exact raise_first (checkLayer_of_illegal haux)
  · obtain ⟨layer, hlayer⟩ : ∃ layer, auxIs r layer = true := by
      obtain h0 | h1 | h2 : r.aux.toNat = 0 ∨ r.aux.toNat = 1 ∨ r.aux.toNat = 2 := by omega
      · exact ⟨.ip6, beq_iff_eq.2 h0⟩
      · exact ⟨.udp, beq_iff_eq.2 h1⟩
      · exact ⟨.coap, beq_iff_eq.2 h2⟩
    exact (bind_of_ok (checkLayer_of_auxIs hlayer)).trans (h layer)

end

/-! ## The commands -/

/-- A command whose regions share no byte and that leaves no byte free completes with the error it raises, whatever the
host wrote. -/
theorem exec_of_apart_raise {i : Instr} {s : State} {e : Err} (hm : rangesMeet (regionsOf i s.snap.regs) = false)
    (hs : (commandOf i).scratch s.snap.regs = []) (h : (commandOf i).run (viewOf i s) s.snap.regs = raise e) :
    exec i s = .next (failedState s e) := by
  rw [exec_eq_perform, perform_of_err_precise hs ((compute_eq_run i s hm).trans h), completeError_eq_failedState]

/-- The direction-dependent commands check `DIR` before they read memory. -/
theorem run_of_illegal_dir {i : Instr} (hi : i ∈ [.rsel, .flat6, .flatu, .clayer, .dlayer, .comp, .decomp]) {v : View}
    {r : Regs} (h1 : r.dir.toNat ≠ 1) (h2 : r.dir.toNat ≠ 2) : (commandOf i).run v r = raise .operand := by
  have hdir := checkDir_of_illegal h1 h2
  simp only [List.mem_cons, List.not_mem_nil, or_false] at hi
  rcases hi with rfl | rfl | rfl | rfl | rfl | rfl | rfl
  case inl | inr.inr.inr.inl | inr.inr.inr.inr.inl => exact operand_after_checkLayer fun _ => raise_first hdir
  all_goals exact raise_first hdir

/-- The commands of one layer check `AUX` first. -/
theorem run_of_illegal_aux {i : Instr} (hi : i ∈ [.rsel, .clayer, .dlayer]) {v : View} {r : Regs}
    (h : 2 < r.aux.toNat) : (commandOf i).run v r = raise .operand := by
  have haux := checkLayer_of_illegal h
  simp only [List.mem_cons, List.not_mem_nil, or_false] at hi
  rcases hi with rfl | rfl | rfl <;> exact raise_first haux

/-- Where `RegionsApart`, these commands have no two regions that share a byte, and they leave no byte free. -/
theorem directed_command_shape {i : Instr} {r : Regs}
    (hi : i = .rsel ∨ i = .flat6 ∨ i = .flatu ∨ (i = .clayer ∨ i = .dlayer) ∧ RegionsApart r) :
    rangesMeet (regionsOf i r) = false ∧ (commandOf i).scratch r = [] := by
  rcases hi with rfl | rfl | rfl | ⟨rfl | rfl, h⟩
  · exact ⟨rfl, rfl⟩
  iterate 2 exact ⟨rangesMeet_singleton _, rfl⟩
  iterate 2 exact ⟨(rangesMeet_out_ctx r).2 h, rfl⟩

/-- Settles O50: the checks of `AUX` and `DIR` come before every read, and only the refusal of regions that share a byte
comes before them. -/
theorem directionChecked : Obligations.DirectionChecked := by
  refine ⟨fun r => ⟨fun h => checkDir_of_dirIs (dir := .up) (beq_iff_eq.2 h),
    fun h => checkDir_of_dirIs (dir := .down) (beq_iff_eq.2 h), checkDir_of_illegal⟩, ?_, ?_, ?_, ?_⟩
  · intro i s hi h1 h2
    obtain ⟨hm, hs⟩ := directed_command_shape hi
    have hlisted : i ∈ [.rsel, .flat6, .flatu, .clayer, .dlayer, .comp, .decomp] := by
      rcases hi with rfl | rfl | rfl | ⟨rfl | rfl, -⟩ <;> decide
    exact exec_of_apart_raise hm hs (run_of_illegal_dir hlisted h1 h2)
  · intro i s hi happart h1 h2
    obtain ⟨hm, hlisted⟩ : rangesMeet (regionsOf i s.snap.regs) = false ∧
        i ∈ [.rsel, .flat6, .flatu, .clayer, .dlayer, .comp, .decomp] := by
      rcases hi with rfl | rfl <;> exact ⟨(rangesMeet_out_ctx _).2 happart, by decide⟩
    exact failsWith_of_compute ((compute_eq_run i s hm).trans (run_of_illegal_dir hlisted h1 h2))
  · intro i s hi happart
    exact everyCommandCompletes.2.2.1 i s hi happart
  · intro i s hi haux
    obtain ⟨hm, hs⟩ := directed_command_shape (i := i) (r := s.snap.regs) (by tauto)
    have hlisted : i ∈ [.rsel, .clayer, .dlayer] := by
      rcases hi with rfl | ⟨rfl | rfl, -⟩ <;> decide
    exact exec_of_apart_raise hm hs (run_of_illegal_aux hlisted haux)

end Sys2Proof.Machine
end

section
/-! When a rule matches the columns (44_rule_selection.md R201, R202): the scan of the pairs of applicable descriptors
and columns. -/

namespace Sys2Proof.Machine

/-! ## Two lists side by side -/

section
variable {α β : Type} {P Q : α → β → Prop} {x : α} {y : β} {xs : List α} {ys : List β}

/-- Every pair at one position of two lists has `P`. -/
def AllPairs (P : α → β → Prop) (xs : List α) (ys : List β) : Prop :=
  ∀ (j : Nat) (a : α) (b : β), xs[j]? = some a → ys[j]? = some b → P a b

/-- Some pair has `Q`, and the pairs before it have `P`. -/
def FirstPair (P Q : α → β → Prop) (xs : List α) (ys : List β) : Prop :=
  ∃ (j : Nat) (a : α) (b : β), xs[j]? = some a ∧ ys[j]? = some b ∧
    (∀ (i : Nat) (a' : α) (b' : β), i < j → xs[i]? = some a' → ys[i]? = some b' → P a' b') ∧ Q a b

theorem allPairs_cons : AllPairs P (x :: xs) (y :: ys) ↔ P x y ∧ AllPairs P xs ys := by
  constructor
  · exact fun h => ⟨h 0 x y rfl rfl, fun j => h (j + 1)⟩
  · rintro ⟨hxy, h⟩ j a b ha hb
    cases j with
    | zero => cases ha; cases hb; exact hxy
    | succ j => exact h j a b ha hb

theorem firstPair_cons : FirstPair P Q (x :: xs) (y :: ys) ↔ Q x y ∨ P x y ∧ FirstPair P Q xs ys := by
  constructor
  · rintro ⟨j, a, b, ha, hb, hbefore, hq⟩
    cases j with
    | zero => cases ha; cases hb; exact Or.inl hq
    | succ j =>
      exact Or.inr ⟨hbefore 0 x y j.succ_pos rfl rfl, j, a, b, ha, hb,
        fun i a' b' hi => hbefore (i + 1) a' b' (Nat.succ_lt_succ hi), hq⟩
  · rintro (hq | ⟨hp, j, a, b, ha, hb, hbefore, hq⟩)
    · exact ⟨0, x, y, rfl, rfl, fun i _ _ hi => absurd hi (Nat.not_lt_zero i), hq⟩
    · refine ⟨j + 1, a, b, ha, hb, fun i a' b' hi ha' hb' => ?_, hq⟩
      cases i with
      | zero => cases ha'; cases hb'; exact hp
      | succ i => exact hbefore i a' b' (Nat.lt_of_succ_lt_succ hi) ha' hb'

end

/-! ## The scan -/

/-- A descriptor pairs with a column and its operator matches the value. -/
def FieldMatches (v : View) (f : Desc) (c : Col) : Prop := Paired v f c ∧ ∃ x, predDispatch v c.val f = .ok (true, x)

/-- A descriptor does not pair with a column, or its operator does not match the value. -/
def FieldDiffers (v : View) (f : Desc) (c : Col) : Prop :=
  ¬ Paired v f c ∨ Paired v f c ∧ ∃ x, predDispatch v c.val f = .ok (false, x)

theorem pairs_eq_false_iff {v : View} {f : Desc} {c : Col} : f.pairs v c = false ↔ ¬ Paired v f c := by
  rw [← pairs_iff_paired, Bool.not_eq_true]

section
variable {v : View} {f : Desc} {c : Col} {fs : List Desc} {cs : List Col}

/-- The scan goes on after a pair that matches, and stops at one that differs. -/
theorem fieldsMatch_cons {b : Bool} : fieldsMatch v (f :: fs) (c :: cs) = .ok b ↔
    b = false ∧ FieldDiffers v f c ∨ FieldMatches v f c ∧ fieldsMatch v fs cs = .ok b := by
  rw [fieldsMatch]
  by_cases hp : Paired v f c
  · rw [if_neg (mt pairs_eq_false_iff.1 (not_not.2 hp))]
    simp only [FieldDiffers, FieldMatches, hp, not_true_eq_false, false_or, true_and]
    cases predDispatch v c.val f with
    | error st => simp [bind, Except.bind]
    | ok m =>
      obtain ⟨m, x⟩ := m
      cases m <;> simp [bind, Except.bind, pure, Except.pure, eq_comm]
  · rw [if_pos (pairs_eq_false_iff.2 hp)]
    simp [FieldDiffers, FieldMatches, hp, eq_comm]

theorem fieldsMatch_eq_true (hlen : fs.length = cs.length) :
    fieldsMatch v fs cs = .ok true ↔ AllPairs (FieldMatches v) fs cs := by
  induction fs generalizing cs with
  | nil =>
    obtain rfl : cs = [] := List.length_eq_zero_iff.1 hlen.symm
    simp [fieldsMatch, AllPairs]
  | cons f fs ih =>
    obtain ⟨c, cs, rfl⟩ := List.exists_cons_of_length_eq_add_one hlen.symm
    rw [fieldsMatch_cons, allPairs_cons, ih (Nat.succ.inj hlen)]
    simp

theorem fieldsMatch_eq_false (hlen : fs.length = cs.length) :
    fieldsMatch v fs cs = .ok false ↔ FirstPair (FieldMatches v) (FieldDiffers v) fs cs := by
  induction fs generalizing cs with
  | nil =>
    obtain rfl : cs = [] := List.length_eq_zero_iff.1 hlen.symm
    simp [fieldsMatch, FirstPair]
  | cons f fs ih =>
    obtain ⟨c, cs, rfl⟩ := List.exists_cons_of_length_eq_add_one hlen.symm
    rw [fieldsMatch_cons, firstPair_cons, ih (Nat.succ.inj hlen)]
    simp

end

/-- Settles O45: with equal numbers the scan matches if every pair does, and stops at the first pair that differs. -/
theorem ruleMatching : Obligations.RuleMatching := by
  intro v rule cols dir
  change (_ ↔ (applying rule dir).length = cols.length ∧ AllPairs (FieldMatches v) (applying rule dir) cols) ∧
    (_ ↔ (applying rule dir).length ≠ cols.length ∨ (applying rule dir).length = cols.length ∧
      FirstPair (FieldMatches v) (FieldDiffers v) (applying rule dir) cols)
  rw [ruleMatches, applicable_eq_applying]
  by_cases hlen : (applying rule dir).length = cols.length
  · rw [if_neg (not_not.2 hlen), fieldsMatch_eq_true hlen, fieldsMatch_eq_false hlen]
    simp [hlen]
  · rw [if_pos hlen]
    simp [hlen]

end Sys2Proof.Machine
end

section
/-! Rule selection and the search for a rule id (44_rule_selection.md R202, R203, R208), over a readable rule list. -/

namespace Sys2Proof.Machine

section
variable {v : View} {layer : Layer} {list n a : Nat} {rule : Rule} {addrs : List Nat} {e : Err}

/-! ## The first match (R202) -/

section
variable {cols : List Col} {dir : PacketDir}

/-- The rule at `a` is read and does not match. -/
def RuleDiffers (v : View) (layer : Layer) (cols : List Col) (dir : PacketDir) (a : Nat) : Prop :=
  ∃ other, ruleAt v a layer other = true ∧ ruleMatches v other cols dir = .ok false

theorem selectFrom_of_true (ha : readNat v list 4 = .ok a) (hrule : readRule v a layer = .ok rule)
    (hm : ruleMatches v rule cols dir = .ok true) :
    selectFrom v layer cols dir list (n + 1) = .ok (some (a, rule)) := by
  rw [selectFrom, bind_of_ok ha, bind_of_ok hrule, bind_of_ok hm]
  rfl

theorem selectFrom_of_false (ha : readNat v list 4 = .ok a) (hrule : readRule v a layer = .ok rule)
    (hm : ruleMatches v rule cols dir = .ok false) :
    selectFrom v layer cols dir list (n + 1) = selectFrom v layer cols dir (list + 4) n := by
  rw [selectFrom, bind_of_ok ha, bind_of_ok hrule, bind_of_ok hm]
  rfl

theorem selectFrom_of_match_raise (ha : readNat v list 4 = .ok a) (hrule : readRule v a layer = .ok rule)
    (hm : ruleMatches v rule cols dir = raise e) : selectFrom v layer cols dir list (n + 1) = raise e := by
  rw [selectFrom, bind_of_ok ha, bind_of_ok hrule]
  exact raise_first hm

theorem selectFrom_of_rule_raise (ha : readNat v list 4 = .ok a) (hrule : readRule v a layer = raise e) :
    selectFrom v layer cols dir list (n + 1) = raise e := by
  rw [selectFrom, bind_of_ok ha]
  exact raise_first hrule

/-- The selector passes over the rules that do not match. -/
theorem selectFrom_skip (hr : v.raced = []) (hl : Listed v list addrs) {k : Nat} (hk : k ≤ addrs.length)
    (h : ∀ j b : Nat, j < k → addrs[j]? = some b → RuleDiffers v layer cols dir b) :
    selectFrom v layer cols dir list addrs.length =
      selectFrom v layer cols dir (list + 4 * k) (addrs.length - k) := by
  refine eq_of_steps (f := fun j => selectFrom v layer cols dir (list + 4 * j) (addrs.length - j)) fun j hj => ?_
  have hget : addrs[j]? = some addrs[j] := List.getElem?_eq_getElem (by omega)
  obtain ⟨other, hother, hm⟩ := h j _ hj hget
  rw [show addrs.length - j = addrs.length - (j + 1) + 1 by omega,
    selectFrom_of_false (hl j _ hget) (readRule_of_ruleAt hr hother) hm]
  rfl

/-- The selector comes to the first rule that is not passed over. -/
theorem selectFrom_at (hr : v.raced = []) (hl : Listed v list addrs) {k : Nat} (ha : addrs[k]? = some a)
    (h : ∀ j b : Nat, j < k → addrs[j]? = some b → RuleDiffers v layer cols dir b) :
    ∃ l n, readNat v l 4 = .ok a ∧
      selectFrom v layer cols dir list addrs.length = selectFrom v layer cols dir l (n + 1) := by
  obtain ⟨hk, -⟩ := List.getElem?_eq_some_iff.1 ha
  refine ⟨_, addrs.length - (k + 1), hl k a ha, ?_⟩
  rw [selectFrom_skip hr hl hk.le h, show addrs.length - k = addrs.length - (k + 1) + 1 by omega]

theorem selectFrom_of_none (hr : v.raced = []) (hl : Listed v list addrs)
    (h : ∀ b, b ∈ addrs → RuleDiffers v layer cols dir b) :
    selectFrom v layer cols dir list addrs.length = .ok none := by
  rw [selectFrom_skip hr hl le_rfl fun j b _ hb => h b (List.mem_of_getElem? hb), Nat.sub_self]
  rfl

end

/-! ## The first rule with an id (R208) -/

theorem findRuleFrom_of_ne {id : Nat} (ha : readNat v list 4 = .ok a) (hrule : readRule v a layer = .ok rule)
    (hne : rule.ruleId ≠ id) : findRuleFrom v layer id list (n + 1) = findRuleFrom v layer id (list + 4) n := by
  rw [findRuleFrom, bind_of_ok ha, bind_of_ok hrule, if_neg hne]

/-- The search passes over the rules with other ids. -/
theorem findRuleFrom_skip (hr : v.raced = []) (hl : Listed v list addrs) {id k : Nat} (hk : k ≤ addrs.length)
    (h : ∀ j b : Nat, j < k → addrs[j]? = some b → ∃ other, ruleAt v b layer other = true ∧ other.ruleId ≠ id) :
    findRuleFrom v layer id list addrs.length = findRuleFrom v layer id (list + 4 * k) (addrs.length - k) := by
  refine eq_of_steps (f := fun j => findRuleFrom v layer id (list + 4 * j) (addrs.length - j)) fun j hj => ?_
  have hget : addrs[j]? = some addrs[j] := List.getElem?_eq_getElem (by omega)
  obtain ⟨other, hother, hne⟩ := h j _ hj hget
  rw [show addrs.length - j = addrs.length - (j + 1) + 1 by omega,
    findRuleFrom_of_ne (hl j _ hget) (readRule_of_ruleAt hr hother) hne]
  rfl

end

/-- Settles O47: the search passes over the rules with other ids, to the first with the id or to the end. -/
theorem findRuleFirst : Obligations.FindRuleFirst := by
  intro v r dev layer addrs id hr hlisted
  obtain ⟨list, hlist, hl⟩ := ruleList_of_rulesListed hr hlisted
  have hfind : findRule v (r.devtabAddr.toNat + 32 * dev) layer id = findRuleFrom v layer id list addrs.length :=
    bind_of_ok hlist
  refine ⟨fun k a rule ha hrule hid hbefore => ?_, fun hother => ?_⟩
  · obtain ⟨hk, -⟩ := List.getElem?_eq_some_iff.1 ha
    rw [hfind, findRuleFrom_skip hr hl hk.le hbefore, show addrs.length - k = addrs.length - (k + 1) + 1 by omega,
      findRuleFrom, bind_of_ok (hl k a ha), bind_of_ok (readRule_of_ruleAt hr hrule)]
    exact if_pos hid
  · rw [hfind, findRuleFrom_skip hr hl le_rfl fun j b _ hb => hother b (List.mem_of_getElem? hb), Nat.sub_self]
    rfl

/-! ## RSEL (R203) -/

/-- What `RSEL` reports of the selector's answer. -/
def selectionEffect : Option (Nat × Rule) → Effect
  | none => ⟨[], 0, 0⟩
  | some (a, rule) => ⟨[], rule.ruleId, a⟩

section
variable {v : View} {r : Regs} {layer : Layer} {dir : PacketDir}

/-- With a legal `AUX` and `DIR`, `RSEL` looks up the device. -/
theorem run_rsel (hl : auxIs r layer = true) (hd : dirIs r dir = true) : cmdRsel.run v r = (do
    let dev ← lookupDevice v r
    let cols ← readColumns v r
    let found ← selectRule v dev layer cols dir
    return selectionEffect found) := by
  refine (bind_of_ok (checkLayer_of_auxIs hl)).trans ((bind_of_ok (checkDir_of_dirIs hd)).trans ?_)
  refine bind_congr fun dev => bind_congr fun cols => bind_congr fun found => ?_
  cases found <;> rfl

/-- With a readable device record, columns and rule list, `RSEL` is the scan of the list. -/
theorem run_rsel_of_listed (hr : v.raced = []) (hl : auxIs r layer = true) (hd : dirIs r dir = true) {dev : Nat}
    {cols : List Col} {addrs : List Nat} (hdev : deviceIs v r dev = true) (hcols : columnsAre v r cols = true)
    (hlisted : rulesListed v r dev layer addrs = true) : ∃ list, Listed v list addrs ∧ cmdRsel.run v r =
      (selectFrom v layer cols dir list addrs.length >>= fun found => .ok (selectionEffect found)) := by
  obtain ⟨list, hlist, hl'⟩ := ruleList_of_rulesListed hr hlisted
  refine ⟨list, hl', ?_⟩
  rw [run_rsel hl hd, bind_of_ok (lookupDevice_of_deviceIs hr hdev), bind_of_ok (readColumns_of_columnsAre hr hcols),
    selectRule, bind_of_ok hlist]
  rfl

end

/-- `RSEL` has no region and leaves no byte free, so a raise of its computation is its completion. -/
theorem exec_rsel_of_raise {s : State} {e : Err} (h : cmdRsel.run (viewOf .rsel s) s.snap.regs = raise e) :
    exec .rsel s = .next (failedState s e) := exec_of_run_raise rfl rfl h

theorem exec_rsel_of_ok {s : State} {found : Option (Nat × Rule)} (hu : Undisturbed s)
    (h : cmdRsel.run (viewOf .rsel s) s.snap.regs = .ok (selectionEffect found)) :
    exec .rsel s = .next (doneState s s.mem (selectionEffect found).result (selectionEffect found).result2) := by
  have hw : (selectionEffect found).writes = [] := by cases found <;> rfl
  have hexec := exec_of_run_ok (i := .rsel) hu rfl rfl h
  rwa [hw] at hexec

/-- Settles O46: the lookup, the columns, and then the scan of the list, each with the errors it raises. -/
theorem rselFirstMatch : Obligations.RselFirstMatch := by
  rintro s r v layer dir rfl rfl hu hl hd
  have hr : (viewOf .rsel s).raced = [] := viewOf_raced hu
  refine ⟨fun hno => exec_rsel_of_raise ?_, fun k hfault => exec_rsel_of_raise ?_,
    fun dev e hdev hfail => exec_rsel_of_raise ?_, fun dev cols addrs hdev hcols hlisted => ?_⟩
  · rw [run_rsel hl hd]
    exact raise_first (lookupDevice_of_noDevice hr hno)
  · rw [run_rsel hl hd]
    exact raise_first (lookupDevice_of_deviceFault hr hfault)
  · rw [run_rsel hl hd, bind_of_ok (lookupDevice_of_deviceIs hr hdev)]
    exact raise_first (readColumns_of_columnsFail hr hfail)
  obtain ⟨list, hlist, hrun⟩ := run_rsel_of_listed hr hl hd hdev hcols hlisted
  refine ⟨fun k a ha hbefore => ?_, fun hnone => ?_⟩
  · obtain ⟨l, n, hread, hscan⟩ := selectFrom_at hr hlist ha hbefore
    rw [hscan] at hrun
    refine ⟨fun rule hrule hm => ?_, fun rule e hrule hm => ?_, fun e hfail => ?_⟩
    · exact exec_rsel_of_ok (found := some (a, rule)) hu
        (hrun.trans (bind_of_ok (selectFrom_of_true hread (readRule_of_ruleAt hr hrule) hm)))
    · exact exec_rsel_of_raise
        (hrun.trans (raise_first (selectFrom_of_match_raise hread (readRule_of_ruleAt hr hrule) hm)))
    · exact exec_rsel_of_raise
        (hrun.trans (raise_first (selectFrom_of_rule_raise hread (readRule_of_ruleFails hr hfail))))
  · exact exec_rsel_of_ok (found := none) hu (hrun.trans (bind_of_ok (selectFrom_of_none hr hlist hnone)))

end Sys2Proof.Machine
end

section
/-! Compression of one layer (44_rule_selection.md R204, R205). -/

namespace Sys2Proof.Machine

/-! ## Completions of commands whose regions share no byte -/

section
variable {i : Instr} {s : State} (hu : Undisturbed s) (hm : rangesMeet (regionsOf i s.snap.regs) = false)
  (hs : (commandOf i).scratch s.snap.regs = [])
include hu hm hs

/-- A command whose regions share no byte and that leaves no byte free completes with its own effect. -/
theorem exec_of_apart_ok {e : Effect} (h : (commandOf i).run (viewOf i s) s.snap.regs = .ok e) :
    exec i s = .next (doneState s (storeAll s.mem e.writes) e.result e.result2) := by
  rw [exec_eq_perform, perform_of_ok hu ((compute_eq_run i s hm).trans h), hs, State.clobber_nil,
    completeOk_eq_doneState]

/-- Such a command whose computation comes down to writing `out` delivers it. -/
theorem delivers_of_apart_run {out : Bytes} {r1 r2 : Nat} (h : (commandOf i).run (viewOf i s) s.snap.regs =
      (writeOut (viewOf i s) s.snap.regs out >>= fun w => .ok ⟨[w], r1, r2⟩)) :
    Delivers i s s.snap.regs out r1 r2 := by
  refine ⟨fun hroom => ?_, fun hcap => ?_, fun hcap hfit => ?_⟩
  · have hw : writeOut (viewOf i s) s.snap.regs out = .ok (s.snap.regs.dAddr.toNat, out) :=
      writeOut_eq_ok.2 ⟨hroom.1, hroom.2, rfl⟩
    exact ⟨_, exec_of_apart_ok hu hm hs (h.trans (bind_of_ok hw)), stored_put _ _ _⟩
  · exact exec_of_apart_raise hm hs (h.trans (raise_first (writeOut_of_cap hcap)))
  · exact exec_of_apart_raise hm hs (h.trans (raise_first (writeOut_of_not_fit hcap hfit)))

end

/-! ## The actions of a layer (R204) -/

section
variable {v : View} {iid : Bytes}

/-- A descriptor pairs with a column and its action gives a residue. -/
def FieldCompresses (v : View) (iid : Bytes) (f : Desc) (c : Col) : Prop :=
  Paired v f c ∧ ∃ out, compressField v iid c.val f = .ok out

/-- A descriptor that does not pair with a column, or whose action fails, raises `e`. -/
def FieldFails (v : View) (iid : Bytes) (e : Err) (f : Desc) (c : Col) : Prop :=
  ¬ Paired v f c ∧ e = .noMatch ∨ Paired v f c ∧ compressField v iid c.val f = .error (.err e)

theorem compressFields_cons_of_paired {f : Desc} {c : Col} {fs : List Desc} {cs : List Col} {out : Bytes}
    (hp : Paired v f c) (h : compressField v iid c.val f = .ok out) :
    compressFields v iid (f :: fs) (c :: cs) = (compressFields v iid fs cs >>= fun rest => .ok (out ++ rest)) := by
  rw [compressFields, if_neg (mt pairs_eq_false_iff.1 (not_not.2 hp)), bind_of_ok h]
  rfl

/-- The first field that does not pair or fails gives the error. -/
theorem compressFields_of_first {e : Err} {fs : List Desc} {cs : List Col} (hlen : fs.length = cs.length)
    (h : FirstPair (FieldCompresses v iid) (FieldFails v iid e) fs cs) : compressFields v iid fs cs = raise e := by
  induction fs generalizing cs with
  | nil =>
    obtain ⟨j, f, -, hf, -⟩ := h
    cases hf
  | cons f fs ih =>
    obtain ⟨c, cs, rfl⟩ := List.exists_cons_of_length_eq_add_one hlen.symm
    rcases firstPair_cons.1 h with (⟨hp, rfl⟩ | ⟨hp, hfail⟩) | ⟨⟨hp, out, hout⟩, hrest⟩
    · exact if_pos (pairs_eq_false_iff.2 hp)
    · rw [compressFields, if_neg (mt pairs_eq_false_iff.1 (not_not.2 hp))]
      exact raise_first hfail
    · rw [compressFields_cons_of_paired hp hout]
      exact raise_first (ih (Nat.succ.inj hlen) hrest)

/-- The residues stand one after another in rule order. -/
theorem compressFields_of_residues {fs : List Desc} {cs : List Col} {outs : List Bytes} (hlen : fs.length = cs.length)
    (houts : outs.length = cs.length)
    (h : ∀ (j : Nat) (f : Desc) (c : Col) (out : Bytes), fs[j]? = some f → cs[j]? = some c → outs[j]? = some out →
      Paired v f c ∧ compressField v iid c.val f = .ok out) : compressFields v iid fs cs = .ok outs.flatten := by
  induction fs generalizing cs outs with
  | nil =>
    obtain rfl : cs = [] := List.length_eq_zero_iff.1 hlen.symm
    obtain rfl : outs = [] := List.length_eq_zero_iff.1 houts
    rfl
  | cons f fs ih =>
    obtain ⟨c, cs, rfl⟩ := List.exists_cons_of_length_eq_add_one hlen.symm
    obtain ⟨out, outs, rfl⟩ := List.exists_cons_of_length_eq_add_one houts
    obtain ⟨hp, hout⟩ := h 0 f c out rfl rfl rfl
    rw [compressFields_cons_of_paired hp hout,
      bind_of_ok (ih (Nat.succ.inj hlen) (Nat.succ.inj houts) fun j => h (j + 1)), List.flatten_cons]

theorem compressLayer_of_length_ne {rule : Rule} {cols : List Col} {dir : PacketDir}
    (h : (applying rule dir).length ≠ cols.length) : compressLayer v iid rule cols dir = raise .noMatch := by
  rw [← applicable_eq_applying] at h
  exact if_pos h

theorem compressLayer_of_length_eq {rule : Rule} {cols : List Col} {dir : PacketDir}
    (h : (applying rule dir).length = cols.length) :
    compressLayer v iid rule cols dir = compressFields v iid (applying rule dir) cols := by
  rw [compressLayer, applicable_eq_applying, if_neg (not_not.2 h)]

end

/-! ## CLAYER (R205) -/

/-- With a legal `AUX` and `DIR`, `CLAYER` reads the rule. -/
theorem run_clayer {v : View} {r : Regs} {layer : Layer} {dir : PacketDir} (hl : auxIs r layer = true)
    (hd : dirIs r dir = true) : cmdClayer.run v r = (do
    let rule ← readRule v r.bAddr.toNat layer
    let cols ← readColumns v r
    let res ← compressLayer v (iidOf r) rule cols dir
    let w ← writeOut v r res
    return ⟨[w], res.length, 0⟩) := by
  rw [← nodeIid_eq_iidOf]
  exact (bind_of_ok (checkLayer_of_auxIs hl)).trans (bind_of_ok (checkDir_of_dirIs hd))

/-- Settles O48: the rule, the columns and the fields in rule order, each with the errors it raises, then the output. -/
theorem clayerResult : Obligations.ClayerResult := by
  rintro s r v layer dir rfl rfl hu happart hl hd
  have hr : (viewOf .clayer s).raced = [] := viewOf_raced hu
  have hm : rangesMeet (regionsOf .clayer s.snap.regs) = false := (rangesMeet_out_ctx _).2 happart
  have hraise {e : Err} (h : cmdClayer.run (viewOf .clayer s) s.snap.regs = raise e) :
      exec .clayer s = .next (failedState s e) := exec_of_apart_raise hm rfl h
  refine ⟨fun e hfail => hraise ?_, fun rule e hrule hfail => hraise ?_, fun rule cols hrule hcols => ?_⟩
  · rw [run_clayer hl hd]
    exact raise_first (readRule_of_ruleFails hr hfail)
  · rw [run_clayer hl hd, bind_of_ok (readRule_of_ruleAt hr hrule)]
    exact raise_first (readColumns_of_columnsFail hr hfail)
  have hrun : cmdClayer.run (viewOf .clayer s) s.snap.regs =
      (compressLayer (viewOf .clayer s) (iidOf s.snap.regs) rule cols dir >>= fun res =>
        writeOut (viewOf .clayer s) s.snap.regs res >>= fun w => .ok ⟨[w], res.length, 0⟩) := by
    rw [run_clayer hl hd, bind_of_ok (readRule_of_ruleAt hr hrule), bind_of_ok (readColumns_of_columnsAre hr hcols)]
    rfl
  refine ⟨fun hne => hraise ?_, fun j f c e hlen hf hc hbefore hfail => hraise ?_, fun outs hlen houts hfields => ?_⟩
  · exact hrun.trans (raise_first (compressLayer_of_length_ne hne))
  · have hfirst := compressFields_of_first (e := e) hlen ⟨j, f, c, hf, hc, hbefore, hfail⟩
    exact hrun.trans (raise_first ((compressLayer_of_length_eq hlen).trans hfirst))
  · have hres := (compressLayer_of_length_eq hlen).trans (compressFields_of_residues hlen houts hfields)
    exact delivers_of_apart_run hu hm rfl (hrun.trans (bind_of_ok hres))

end Sys2Proof.Machine
end

section
/-! The header that columns assemble to (45_flatten.md R233 to R236): `Assemble` gives it exactly for the columns of a
header of the layer. -/

namespace Sys2Proof.Machine

/-! ## CoAP headers on the wire (R236) -/

theorem nib_eq_spellNibble (x : Nat) : nib x = spellNibble x := by
  have hone : [BitVec.ofNat 8 (x - 13)] = bytesBE 1 (x - 13) := by simp [bytesBE]
  rw [nib, spellNibble, hone]
  exact if_congr (by omega) rfl (if_congr (by omega) rfl rfl)

theorem encodeOptions_eq_spellOptions : ∀ (prev : Nat) (opts : List (Nat × Bytes)),
    encodeOptions prev opts = spellOptions prev opts
  | _, [] => rfl
  | prev, (n, val) :: rest => by
    simp only [encodeOptions, spellOptions, spellOption, nib_eq_spellNibble, encodeOptions_eq_spellOptions n rest,
      List.cons_append, List.append_assoc]

/-- The reference codec spells a header as R227 and R228 say. -/
theorem refEncode_eq_spellHeader (h : CoapHeader) : refEncode h = spellHeader h := by
  simp only [refEncode, spellHeader, encodeOptions_eq_spellOptions, List.cons_append, List.nil_append,
    List.append_assoc]

/-! ## IPv6 and UDP (R233, R234) -/

theorem be_lt_of_length {s : Bytes} {n : Nat} (h : s.length = n) : be s < 256 ^ n := h ▸ be_lt s

section
variable {cols : List Col} {dir : PacketDir}

/-- An IPv6 header is its fields as one number: each value but the first three fills its place. -/
theorem assemble6_eq_assembled (v : View)
    (hfids : cols.map Col.fid = [0x01, 0x02, 0x03, 0x04, 0x05, 0x06, 0x07, 0x08, 0x09, 0x0A])
    (hlens : cols.map (fun c => c.val.length) = [1, 1, 3, 2, 1, 1, 8, 8, 8, 8]) :
    assemble6 cols dir = .ok (assembled v .ip6 cols dir) := by
  have hvals : (cols.map Col.val).map List.length = [1, 1, 3, 2, 1, 1, 8, 8, 8, 8] := (List.map_map ..).trans hlens
  rw [assemble6, if_neg (not_or.2 ⟨not_not.2 hfids, not_not.2 hlens⟩)]
  simp only [assembled]
  generalize cols.map Col.val = vals at hvals
  simp only [List.map_eq_cons_iff, List.map_eq_nil_iff] at hvals
  obtain ⟨ver, _, rfl, -, tc, _, rfl, -, fl, _, rfl, -, len, _, rfl, hlen, nh, _, rfl, hnh, hop, _, rfl, hhop,
    devPre, _, rfl, hdevPre, devIid, _, rfl, hdevIid, appPre, _, rfl, happPre, appIid, _, rfl, happIid, rfl⟩ := hvals
  have blen := be_lt_of_length hlen
  have bnh := be_lt_of_length hnh
  have bhop := be_lt_of_length hhop
  have bdevPre := be_lt_of_length hdevPre
  have bdevIid := be_lt_of_length hdevIid
  have bappPre := be_lt_of_length happPre
  have bappIid := be_lt_of_length happIid
  refine congrArg Except.ok (be_injective_of_length ?_ ?_) <;> cases dir <;>
    simp only [orient, List.length_append, length_bytesBE, be_append, be_bytesBE, hlen, hnh, hhop, hdevPre, hdevIid,
      happPre, happIid, List.getD_cons_zero, List.getD_cons_succ]
  iterate 2 omega

/-- A UDP header is its fields as one number: each value fills its place. -/
theorem assembleU_eq_assembled (v : View) (hfids : cols.map Col.fid = [0x11, 0x12, 0x13, 0x14])
    (hlens : cols.map (fun c => c.val.length) = [2, 2, 2, 2]) :
    assembleU cols dir = .ok (assembled v .udp cols dir) := by
  have hvals : (cols.map Col.val).map List.length = [2, 2, 2, 2] := (List.map_map ..).trans hlens
  rw [assembleU, if_neg (not_or.2 ⟨not_not.2 hfids, not_not.2 hlens⟩)]
  simp only [assembled]
  generalize cols.map Col.val = vals at hvals
  simp only [List.map_eq_cons_iff, List.map_eq_nil_iff] at hvals
  obtain ⟨dev, _, rfl, hdev, app, _, rfl, happ, len, _, rfl, hlen, cksum, _, rfl, hcksum, rfl⟩ := hvals
  have bdev := be_lt_of_length hdev
  have bapp := be_lt_of_length happ
  have blen := be_lt_of_length hlen
  have bcksum := be_lt_of_length hcksum
  refine congrArg Except.ok (be_injective_of_length ?_ ?_) <;> cases dir <;>
    simp only [orient, List.length_append, length_bytesBE, be_append, be_bytesBE, hdev, happ, hlen, hcksum,
      List.getD_cons_zero, List.getD_cons_succ]
  iterate 2 omega

end

/-! ## CoAP (R235) -/

/-- The option columns after option number `prev`: known numbers that never decrease. -/
def OptionColumns (table : List Nat) (prev : Nat) (cols : List Col) : Prop :=
  (∀ c ∈ cols, 0x100 ≤ c.fid ∧ table.contains (c.fid - 0x100) = true ∧ prev ≤ c.fid - 0x100) ∧
    (cols.map Col.fid).Pairwise (· ≤ ·)

theorem optionColumns_cons {table : List Nat} {prev : Nat} {c : Col} {cols : List Col} :
    OptionColumns table prev (c :: cols) ↔
      (0x100 ≤ c.fid ∧ table.contains (c.fid - 0x100) = true ∧ prev ≤ c.fid - 0x100) ∧
        OptionColumns table (c.fid - 0x100) cols := by
  simp only [OptionColumns, List.forall_mem_cons, List.map_cons, List.pairwise_cons, List.forall_mem_map]
  constructor
  · rintro ⟨⟨hc, hcols⟩, hle, hsorted⟩
    exact ⟨hc, fun d hd => ⟨(hcols d hd).1, (hcols d hd).2.1, by have := hle d hd; omega⟩, hsorted⟩
  · rintro ⟨hc, hcols, hsorted⟩
    refine ⟨⟨hc, fun d hd => ?_⟩, fun d hd => ?_, hsorted⟩ <;> obtain ⟨hlo, htable, hprev⟩ := hcols d hd
    · exact ⟨hlo, htable, by omega⟩
    · omega

theorem columnOptions_of_legal {table : List Nat} {cols : List Col} {prev : Nat} (h : OptionColumns table prev cols) :
    columnOptions table prev cols = .ok (cols.map fun c => (c.fid - 0x100, c.val)) := by
  induction cols generalizing prev with
  | nil => rfl
  | cons c cols ih =>
    obtain ⟨hc, hcols⟩ := optionColumns_cons.1 h
    rw [columnOptions, if_pos hc, bind_of_ok (ih hcols)]
    rfl

theorem columnOptions_of_illegal {table : List Nat} {cols : List Col} {prev : Nat}
    (h : ¬ OptionColumns table prev cols) : columnOptions table prev cols = raise .ruleFormat := by
  induction cols generalizing prev with
  | nil => exact absurd ⟨List.forall_mem_nil _, List.Pairwise.nil⟩ h
  | cons c cols ih =>
    rw [columnOptions]
    split
    · next hc => exact raise_first (ih fun hcols => h (optionColumns_cons.2 ⟨hc, hcols⟩))
    · rfl

/-- Whether the columns after the token end in a marker column. -/
def marked (rest : List Col) : Bool := (rest.map Col.fid).getLast? == some 0x27

/-- The columns after the token but for a marker column. -/
def optionsOf (rest : List Col) : List Col := if marked rest then rest.dropLast else rest

theorem splitMarker_eq (rest : List Col) : splitMarker rest =
    if (!marked rest || (rest.map Col.val).getLast? == some [0xFF#8]) = true then .ok (optionsOf rest, marked rest)
    else raise .ruleFormat := by
  unfold splitMarker optionsOf marked
  rw [List.getLast?_map, List.getLast?_map]
  cases rest.getLast? with
  | none => rfl
  | some c =>
    by_cases hfid : c.fid = 0x27
    · by_cases hval : c.val = [0xFF#8] <;> simp [hfid, hval]
    · simp [hfid]

theorem assembles_coap (table : List Nat) (cols : List Col) : assembles table .coap cols =
    ((cols.take 6).map Col.fid == [0x21, 0x22, 0x23, 0x24, 0x25, 0x26] &&
    (cols.take 6).map (fun c => c.val.length) == [1, 1, 1, 1, 2, be ((cols.map Col.val).getD 2 []) % 16] &&
    be ((cols.map Col.val).getD 2 []) % 16 ≤ 8 &&
    (!marked (cols.drop 6) || ((cols.drop 6).map Col.val).getLast? == some [0xFF#8]) &&
    (optionsOf (cols.drop 6)).all (fun c => 0x100 ≤ c.fid && table.contains (c.fid - 0x100)) &&
    decide (((optionsOf (cols.drop 6)).map Col.fid).Pairwise (· ≤ ·))) := rfl

section
variable {ver typ tkl code mid token : Col} {rest : List Col}

/-- The columns of a CoAP header, check by check of R235. -/
theorem assembles_coap_cons {table : List Nat} :
    assembles table .coap (ver :: typ :: tkl :: code :: mid :: token :: rest) = true ↔
      [ver, typ, tkl, code, mid, token].map Col.fid = [0x21, 0x22, 0x23, 0x24, 0x25, 0x26] ∧
      [ver, typ, tkl, code, mid].map (fun c => c.val.length) = [1, 1, 1, 1, 2] ∧
      (token.val.length = be tkl.val % 16 ∧ be tkl.val % 16 ≤ 8) ∧
      (!marked rest || (rest.map Col.val).getLast? == some [0xFF#8]) = true ∧
      OptionColumns table 0 (optionsOf rest) := by
  have hopt : OptionColumns table 0 (optionsOf rest) ↔
      (optionsOf rest).all (fun c => 0x100 ≤ c.fid && table.contains (c.fid - 0x100)) = true ∧
        ((optionsOf rest).map Col.fid).Pairwise (· ≤ ·) := by
    simp only [OptionColumns, Nat.zero_le, and_true, List.all_eq_true, Bool.and_eq_true, decide_eq_true_eq]
  rw [hopt]
  simp only [assembles_coap, List.take_succ_cons, List.take_zero, List.drop_succ_cons, List.drop_zero, List.map_cons,
    List.map_nil, List.getD_cons_succ, List.getD_cons_zero, Bool.and_eq_true, beq_iff_eq, decide_eq_true_eq,
    List.cons.injEq, and_true, and_assoc]

/-- The header of CoAP columns is what the codec makes of their values. -/
theorem assembled_coap_cons (v : View) (dir : PacketDir) (hcode : code.val.length = 1) :
    assembled v .coap (ver :: typ :: tkl :: code :: mid :: token :: rest) dir =
      coapEncode v
        { ver := be ver.val % 4, typ := be typ.val % 4, tkl := be tkl.val % 16, code := code.val.headD 0,
          mid := mid.val, token := token.val, opts := (optionsOf rest).map fun c => (c.fid - 0x100, c.val),
          marker := marked rest } := by
  obtain ⟨b, hb⟩ := List.length_eq_one_iff.1 hcode
  have hbyte : BitVec.ofNat 8 (be code.val) = code.val.headD 0 := by simp [hb, be]
  unfold coapEncode
  rw [refEncode_eq_spellHeader, ← hbyte]
  rfl

theorem assembleC_cons (v : View) : assembleC v (ver :: typ :: tkl :: code :: mid :: token :: rest) =
    if [ver, typ, tkl, code, mid, token].map Col.fid ≠ [0x21, 0x22, 0x23, 0x24, 0x25, 0x26] then raise .ruleFormat
    else if [ver, typ, tkl, code, mid].map (fun c => c.val.length) ≠ [1, 1, 1, 1, 2] then raise .ruleFormat
    else if token.val.length ≠ be tkl.val % 16 ∨ 8 < be tkl.val % 16 then raise .ruleFormat
    else do
      let (options, marker) ← splitMarker rest
      let opts ← columnOptions v.table 0 options
      return coapEncode v
        { ver := be ver.val % 4, typ := be typ.val % 4, tkl := be tkl.val % 16, code := code.val.headD 0,
          mid := mid.val, token := token.val, opts := opts, marker := marker } := rfl

end

/-- The columns of a CoAP header are at least the six before the options. -/
theorem exists_of_assembles_coap {table : List Nat} {cols : List Col} (h : assembles table .coap cols = true) :
    ∃ ver typ tkl code mid token rest, cols = ver :: typ :: tkl :: code :: mid :: token :: rest := by
  simp only [assembles_coap, Bool.and_eq_true, beq_iff_eq] at h
  obtain ⟨⟨⟨⟨⟨hfids, -⟩, -⟩, -⟩, -⟩, -⟩ := h
  simp only [List.map_eq_cons_iff, List.map_eq_nil_iff] at hfids
  obtain ⟨ver, _, htake, -, typ, _, rfl, -, tkl, _, rfl, -, code, _, rfl, -, mid, _, rfl, -, token, _, rfl, -, rfl⟩ :=
    hfids
  exact ⟨ver, typ, tkl, code, mid, token, cols.drop 6, by rw [← List.take_append_drop 6 cols, htake]; rfl⟩

theorem assembleC_eq_assembled {v : View} {cols : List Col} (dir : PacketDir)
    (h : assembles v.table .coap cols = true) : assembleC v cols = .ok (assembled v .coap cols dir) := by
  obtain ⟨ver, typ, tkl, code, mid, token, rest, rfl⟩ := exists_of_assembles_coap h
  obtain ⟨hfids, hlens, ⟨htoken, htkl⟩, hmarker, hopts⟩ := assembles_coap_cons.1 h
  obtain ⟨-, -, -, hcode, -⟩ : _ ∧ _ ∧ _ ∧ code.val.length = 1 ∧ _ := by simpa using hlens
  rw [assembleC_cons, if_neg (not_not.2 hfids), if_neg (not_not.2 hlens), if_neg (by omega), splitMarker_eq,
    if_pos hmarker, assembled_coap_cons v dir hcode]
  exact bind_of_ok (columnOptions_of_legal hopts)

theorem assembleC_of_not_assembles {v : View} {cols : List Col} (h : assembles v.table .coap cols = false) :
    assembleC v cols = raise .ruleFormat := by
  unfold assembleC
  split
  · next ver typ tkl code mid token rest =>
    have hcheck := mt assembles_coap_cons.2 (Bool.not_eq_true _ ▸ h)
    by_cases hfids : [ver, typ, tkl, code, mid, token].map Col.fid ≠ [0x21, 0x22, 0x23, 0x24, 0x25, 0x26]
    · exact if_pos hfids
    by_cases hlens : [ver, typ, tkl, code, mid].map (fun c => c.val.length) ≠ [1, 1, 1, 1, 2]
    · rw [if_neg hfids, if_pos hlens]
    by_cases htoken : token.val.length ≠ be tkl.val % 16 ∨ 8 < be tkl.val % 16
    · rw [if_neg hfids, if_neg hlens, if_pos htoken]
    rw [if_neg hfids, if_neg hlens, if_neg htoken, splitMarker_eq]
    split
    · next hmarker =>
      refine (bind_of_ok rfl).trans (raise_first (columnOptions_of_illegal fun hopts => hcheck ?_))
      exact ⟨not_not.1 hfids, not_not.1 hlens, ⟨by omega, by omega⟩, hmarker, hopts⟩
    · rfl
  · rfl

/-! ## Every layer -/

/-- Columns of a header of the layer assemble to it. -/
theorem assemble_of_assembles {v : View} {layer : Layer} {cols : List Col} (dir : PacketDir)
    (h : assembles v.table layer cols = true) : assemble v layer cols dir = .ok (assembled v layer cols dir) := by
  cases layer with
  | ip6 =>
    obtain ⟨hf, hl⟩ := Bool.and_eq_true_iff.1 h
    exact assemble6_eq_assembled v (beq_iff_eq.1 hf) (beq_iff_eq.1 hl)
  | udp =>
    obtain ⟨hf, hl⟩ := Bool.and_eq_true_iff.1 h
    exact assembleU_eq_assembled v (beq_iff_eq.1 hf) (beq_iff_eq.1 hl)
  | coap => exact assembleC_eq_assembled dir h

/-- Other columns assemble to no header. -/
theorem assemble_of_not_assembles {v : View} {layer : Layer} {cols : List Col} (dir : PacketDir)
    (h : assembles v.table layer cols = false) : assemble v layer cols dir = raise .ruleFormat := by
  cases layer with
  | ip6 => exact if_pos ((Bool.and_eq_false_iff.1 h).imp beq_eq_false_iff_ne.1 beq_eq_false_iff_ne.1)
  | udp => exact if_pos ((Bool.and_eq_false_iff.1 h).imp beq_eq_false_iff_ne.1 beq_eq_false_iff_ne.1)
  | coap => exact assembleC_of_not_assembles h

end Sys2Proof.Machine
end

section
/-! Column arrays as the statements describe them (30_encoding.md R83, R90, R91). -/

namespace Sys2Proof.Machine

/-! ## A column array in memory -/

section
variable {m : Memory} {c : Col}

theorem valuesBefore_cons (cols : List Col) (k : Nat) :
    valuesBefore (c :: cols) (k + 1) = c.val.length + valuesBefore cols k := by
  simp [valuesBefore]

/-- Each entry holds the address at which its value stands packed. -/
theorem read_entry : ∀ {cols : List Col} {k e a : Nat}, m.read e (8 * cols.length) = colEntries a cols →
    cols[k]? = some c → m.read (e + 8 * k) 8 = colEntry (a + valuesBefore cols k) c
  | d :: cols, k, e, a, h, hc => by
    rw [List.length_cons, Nat.mul_succ, Nat.add_comm, colEntries_cons] at h
    obtain ⟨hentry, hentries⟩ := Memory.read_eq_append (length_colEntry a d) h
    cases k with
    | zero =>
      obtain rfl : d = c := Option.some.inj hc
      exact hentry
    | succ k => rw [valuesBefore_cons, ← Nat.add_assoc, ← read_entry hentries hc, Nat.mul_succ, Nat.add_right_comm,
        Nat.add_assoc e]

/-- The values stand one after another. -/
theorem read_value : ∀ {cols : List Col} {k a : Nat}, m.read a (valuesLen cols) = colValues cols →
    cols[k]? = some c → m.read (a + valuesBefore cols k) c.val.length = c.val
  | d :: cols, k, a, h, hc => by
    obtain ⟨hvalue, hvalues⟩ := Memory.read_eq_append rfl h
    cases k with
    | zero =>
      obtain rfl : d = c := Option.some.inj hc
      exact hvalue
    | succ k => rw [valuesBefore_cons, ← Nat.add_assoc, read_value hvalues hc]

theorem be_read_of_read {s : Bytes} {a n : Nat} (h : m.read a n = s) {i k : Nat} (hik : i + k ≤ n) :
    be (m.read (a + i) k) = fieldAt s i k := by
  rw [← h, fieldAt, slice_read m hik]

/-- What `WriteColumns` stores is the column array of R90. -/
theorem holdsColumns_of_colImage {base : Nat} {cols : List Col} (h : m.read base (ctxNeed cols) = colImage base cols) :
    HoldsColumns m base cols := by
  obtain ⟨hheader, hentries, hvalues⟩ := read_of_colImage h
  refine ⟨?_, ?_, ?_, fun k c hc => ?_⟩
  · exact (be_read_of_read hheader (i := 0) (by decide)).trans (fieldAt_colHeader cols)
  · exact (be_read_of_read hheader (by decide)).trans (be_bytesBE 2 0)
  · rw [be_read_of_read hheader (by decide), ← ctxNeed_eq_bytesUsed]
    exact be_bytesBE 4 (ctxNeed cols)
  · have hentry := read_entry hentries hc
    obtain ⟨hfid, hlen, haddr⟩ := fieldAt_colEntry (base + 8 + 8 * cols.length + valuesBefore cols k) c
    refine ⟨(be_read_of_read hentry (i := 0) (by decide)).trans hfid, ?_, ?_, read_value hvalues hc⟩
    · rw [← hlen, ← be_read_of_read hentry (by decide), show base + 10 + 8 * k = base + 8 + 8 * k + 2 by omega]
    · rw [← haddr, ← be_read_of_read hentry (by decide), show base + 12 + 8 * k = base + 8 + 8 * k + 4 by omega]

end

/-! ## Values without their pad bits (R83, log 28) -/

theorem clearPad_eq_unpadded (d : Desc) (val : Bytes) : clearPad d val = unpadded d val := by
  unfold clearPad unpadded
  refine if_ctx_congr Iff.rfl (fun hlen => ?_) fun _ => rfl
  have hpad : 8 * nb d.bits - d.bits ≤ 8 ∧ 8 * val.length - (8 * nb d.bits - d.bits) = d.bits := by
    rw [hlen, nb]
    omega
  rw [← bytesBE_be (maskFirst _ val), length_maskFirst, be_maskFirst hpad.1, hpad.2]

section
variable {fs : List Desc} {cols wcols : List Col}

/-- The columns that `DLAYER` writes are told by their ids and values. -/
theorem eq_writtenColumns (hlen : fs.length = cols.length) (hfids : wcols.map Col.fid = cols.map Col.fid)
    (hvals : wcols.map Col.val = List.zipWith unpadded fs (cols.map Col.val)) : wcols = writtenColumns fs cols := by
  induction fs generalizing cols wcols with
  | nil =>
    obtain rfl : wcols = [] := by simpa using hvals
    rfl
  | cons f fs ih =>
    obtain ⟨c, cols, rfl⟩ := List.exists_cons_of_length_eq_add_one hlen.symm
    obtain ⟨⟨fid, val⟩, wcols, rfl, hfid, hfids⟩ := List.map_eq_cons_iff.1 hfids
    obtain ⟨hval, hvals⟩ := List.cons.inj hvals
    rw [ih (Nat.succ.inj hlen) hfids hvals]
    refine congrArg (List.cons · _) (Col.mk.injEq .. ▸ ⟨hfid, hval.trans (clearPad_eq_unpadded f c.val).symm⟩)

/-- Clearing pad bits changes no length. -/
theorem ctxNeed_writtenColumns (hlen : fs.length = cols.length) : ctxNeed (writtenColumns fs cols) = ctxNeed cols := by
  have hcount : (writtenColumns fs cols).length = cols.length := by simp [writtenColumns, hlen]
  have hvalues : valuesLen (writtenColumns fs cols) = valuesLen cols := by
    clear hcount
    induction fs generalizing cols with
    | nil =>
      obtain rfl : cols = [] := List.length_eq_zero_iff.1 hlen.symm
      rfl
    | cons f fs ih =>
      obtain ⟨c, cols, rfl⟩ := List.exists_cons_of_length_eq_add_one hlen.symm
      exact congrArg₂ (· + ·) (length_clearPad f c.val) (ih (Nat.succ.inj hlen))
  rw [ctxNeed, ctxNeed, hcount, hvalues]

end

theorem writeColumns_of_not_fit {v : View} {r : Regs} {cols : List Col} (hsize : ctxNeed cols ≤ r.ctxSize.toNat)
    (h : ¬ (ctxNeed cols = 0 ∨ r.ctxAddr.toNat + ctxNeed cols ≤ v.size)) : writeColumns v r cols = raise .busFault := by
  obtain ⟨hn, hlt⟩ := not_or.1 h
  exact (if_neg (Nat.not_lt.2 hsize)).trans (raise_first (if_pos ⟨hn, Nat.not_le.1 hlt⟩))

end Sys2Proof.Machine
end

section
/-! Decompression of one layer (44_rule_selection.md R206, R207). -/

namespace Sys2Proof.Machine

/-! ## The cursor (R206) -/

section
variable {v : View} {iid : Bytes}

/-- The first of the descriptors `fs` give the columns `cols`, taking the numbers `ks` of bytes one after another. -/
structure FieldsDecompress (v : View) (iid : Bytes) (fs : List Desc) (src : Bytes) (cols : List Col) (ks : List Nat) :
    Prop where
  count : ks.length = cols.length
  fids : cols.map Col.fid = (fs.take cols.length).map Desc.fid
  values : ∀ (j : Nat) (f : Desc) (c : Col) (k : Nat), fs[j]? = some f → cols[j]? = some c → ks[j]? = some k →
    decompressField v iid (src.drop (ks.take j).sum) f = .ok (k, c.val)

variable {fs : List Desc} {src : Bytes} {cols : List Col} {ks : List Nat}

/-- The actions go on where those before them have left the cursor. -/
theorem decompressFields_append (h : FieldsDecompress v iid fs src cols ks) : decompressFields v iid fs src =
    (decompressFields v iid (fs.drop cols.length) (src.drop ks.sum) >>= fun x => .ok (ks.sum + x.1, cols ++ x.2)) := by
  obtain ⟨hcount, hfids, hvalues⟩ := h
  induction cols generalizing fs src ks with
  | nil =>
    obtain rfl : ks = [] := List.length_eq_zero_iff.1 hcount
    simp only [List.sum_nil, Nat.zero_add, List.nil_append]
    exact (bind_pure _).symm
  | cons c cols ih =>
    obtain ⟨k, ks, rfl⟩ := List.exists_cons_of_length_eq_add_one hcount
    cases fs with
    | nil => cases hfids
    | cons f fs =>
      obtain ⟨hfid, hfids⟩ := List.cons.inj hfids
      have hrest := ih (src := src.drop k) (Nat.succ.inj hcount) hfids fun j f' c' k' hf hc hk => by
        rw [List.drop_drop]
        exact hvalues (j + 1) f' c' k' hf hc hk
      have hfirst : decompressField v iid src f = .ok (k, c.val) := hvalues 0 f c k rfl rfl rfl
      rw [decompressFields, bind_of_ok hfirst]
      dsimp only
      rw [hrest, List.drop_drop, bind_assoc, ← hfid, List.sum_cons, List.length_cons, List.drop_succ_cons]
      refine bind_congr fun x => ?_
      rw [bind_of_ok rfl, Nat.add_assoc]
      rfl

/-- The first action that fails gives the error. -/
theorem decompressFields_of_raise (h : FieldsDecompress v iid fs src cols ks) {f : Desc} {e : Err}
    (hf : fs[cols.length]? = some f) (hfail : decompressField v iid (src.drop ks.sum) f = raise e) :
    decompressFields v iid fs src = raise e := by
  obtain ⟨hlt, rfl⟩ := List.getElem?_eq_some_iff.1 hf
  rw [decompressFields_append h, List.drop_eq_getElem_cons hlt]
  exact raise_first (raise_first hfail)

theorem decompressFields_of_all (h : FieldsDecompress v iid fs src cols ks) (hlen : fs.length = cols.length) :
    decompressFields v iid fs src = .ok (ks.sum, cols) := by
  rw [decompressFields_append h, List.drop_of_length_le hlen.le, decompressFields, bind_of_ok rfl, Nat.add_zero,
    List.append_nil]

end

/-! ## DLAYER (R207) -/

section
variable {v : View} {r : Regs} {layer : Layer} {dir : PacketDir}

/-- What `DLAYER` does once the fields are decompressed: `k` bytes taken and the columns `cols`. -/
def rebuildLayer (v : View) (r : Regs) (layer : Layer) (dir : PacketDir) (fs : List Desc) (k : Nat) (cols : List Col) :
    Comp Effect := do
  let h ← assemble v layer cols dir
  if r.ctxSize.toNat < ctxNeed cols then raise .ctxOverflow
  else do
    let out ← writeOut v r h
    let ctx ← writeColumns v r (writtenColumns fs cols)
    return ⟨[ctx, out], k, h.length⟩

/-- With a legal `AUX` and `DIR`, `DLAYER` reads the rule. -/
theorem run_dlayer (hl : auxIs r layer = true) (hd : dirIs r dir = true) : cmdDlayer.run v r = (do
    let rule ← readRule v r.bAddr.toNat layer
    let src ← readBytes v r.aAddr.toNat r.len.toNat
    let x ← decompressFields v (iidOf r) (applying rule dir) src
    rebuildLayer v r layer dir (applying rule dir) x.1 x.2) := by
  simp only [← nodeIid_eq_iidOf, ← applicable_eq_applying]
  exact (bind_of_ok (checkLayer_of_auxIs hl)).trans (bind_of_ok (checkDir_of_dirIs hd))

/-- With a readable rule and input whose fields decompress, `DLAYER` rebuilds the layer. -/
theorem run_dlayer_of_decompressed (hr : v.raced = []) (hl : auxIs r layer = true) (hd : dirIs r dir = true)
    {rule : Rule} {src : Bytes} (hrule : ruleAt v r.bAddr.toNat layer rule = true) (hsrc : inputIs v r src = true)
    {k : Nat} {cols : List Col} (hfields : decompressFields v (iidOf r) (applying rule dir) src = .ok (k, cols)) :
    cmdDlayer.run v r = rebuildLayer v r layer dir (applying rule dir) k cols := by
  rw [run_dlayer hl hd, bind_of_ok (readRule_of_ruleAt hr hrule), bind_of_ok (readBytes_of_inputIs hr hsrc),
    bind_of_ok hfields]

section
variable {h : Bytes} {fs : List Desc} {k : Nat} {cols : List Col} (hh : assemble v layer cols dir = .ok h)
  (hlen : fs.length = cols.length)
include hh

theorem rebuildLayer_of_ctxSize (hsize : r.ctxSize.toNat < ctxNeed cols) :
    rebuildLayer v r layer dir fs k cols = raise .ctxOverflow := by
  rw [rebuildLayer, bind_of_ok hh, if_pos hsize]

theorem rebuildLayer_of_outCap (hsize : ctxNeed cols ≤ r.ctxSize.toNat) (hcap : r.outCap.toNat < h.length) :
    rebuildLayer v r layer dir fs k cols = raise .insufficientBuffer := by
  rw [rebuildLayer, bind_of_ok hh, if_neg (Nat.not_lt.2 hsize)]
  exact raise_first (writeOut_of_cap hcap)

include hlen

/-- Of the two ranges, one is out of memory. -/
theorem rebuildLayer_of_not_fit (hsize : ctxNeed cols ≤ r.ctxSize.toNat) (hcap : h.length ≤ r.outCap.toNat)
    (hfit : ¬ ((h.length = 0 ∨ r.dAddr.toNat + h.length ≤ v.size) ∧
      (ctxNeed cols = 0 ∨ r.ctxAddr.toNat + ctxNeed cols ≤ v.size))) :
    rebuildLayer v r layer dir fs k cols = raise .busFault := by
  rw [rebuildLayer, bind_of_ok hh, if_neg (Nat.not_lt.2 hsize)]
  by_cases hout : h.length = 0 ∨ r.dAddr.toNat + h.length ≤ v.size
  · rw [bind_of_ok (writeOut_eq_ok.2 ⟨hcap, hout, rfl⟩)]
    rw [← ctxNeed_writtenColumns hlen] at hsize hfit
    exact raise_first (writeColumns_of_not_fit hsize fun hctx => hfit ⟨hout, hctx⟩)
  · exact raise_first (writeOut_of_not_fit hcap hout)

theorem rebuildLayer_of_fit (hsize : ctxNeed cols ≤ r.ctxSize.toNat) (hcap : h.length ≤ r.outCap.toNat)
    (hout : h.length = 0 ∨ r.dAddr.toNat + h.length ≤ v.size)
    (hctx : ctxNeed cols = 0 ∨ r.ctxAddr.toNat + ctxNeed cols ≤ v.size) :
    rebuildLayer v r layer dir fs k cols = .ok ⟨[(r.ctxAddr.toNat, colImage r.ctxAddr.toNat (writtenColumns fs cols)),
      (r.dAddr.toNat, h)], k, h.length⟩ := by
  rw [rebuildLayer, bind_of_ok hh, if_neg (Nat.not_lt.2 hsize), bind_of_ok (writeOut_eq_ok.2 ⟨hcap, hout, rfl⟩)]
  rw [← ctxNeed_writtenColumns hlen] at hsize hctx
  rw [bind_of_ok (writeColumns_eq_ok.2 ⟨hsize, hctx, rfl⟩)]
  rfl

end

end

/-- Columns and then a header stored in regions that share no byte both read back, and nothing else changes. -/
theorem storeAll_columns_header (m : Memory) {r : Regs} {cols : List Col} {h : Bytes} (happart : RegionsApart r)
    (hsize : ctxNeed cols ≤ r.ctxSize.toNat) (hcap : h.length ≤ r.outCap.toNat) {m' : Memory}
    (hm : m' = storeAll m [(r.ctxAddr.toNat, colImage r.ctxAddr.toNat cols), (r.dAddr.toNat, h)]) :
    m'.read r.dAddr.toNat h.length = h ∧ HoldsColumns m' r.ctxAddr.toNat cols ∧
      ∀ x, ¬ (r.dAddr.toNat ≤ x ∧ x < r.dAddr.toNat + h.length) →
        ¬ (r.ctxAddr.toNat ≤ x ∧ x < r.ctxAddr.toNat + ctxNeed cols) → m'.get x = m.get x := by
  have himage := length_colImage r.ctxAddr.toNat cols
  subst hm
  simp only [storeAll]
  refine ⟨Memory.read_put _ _ _, holdsColumns_of_colImage ?_, fun x hout hctx => ?_⟩
  · rw [← himage]
    refine (Memory.read_congr fun j hj => Memory.get_put_of_not_mem _ _ _ _ ?_).trans (Memory.read_put m _ _)
    rw [himage] at hj
    unfold RegionsApart at happart
    omega
  · rw [Memory.get_put_of_not_mem _ _ _ _ hout, Memory.get_put_of_not_mem _ _ _ _ (by rwa [himage])]

/-- Settles O49: the rule, the input and the fields along the cursor, each with the errors it raises, then the header
and the checks of the two regions. -/
theorem dlayerResult : Obligations.DlayerResult := by
  rintro s r v layer dir rfl rfl hu happart hl hd
  have hr : (viewOf .dlayer s).raced = [] := viewOf_raced hu
  have hm : rangesMeet (regionsOf .dlayer s.snap.regs) = false := (rangesMeet_out_ctx _).2 happart
  have hraise {e : Err} (h : cmdDlayer.run (viewOf .dlayer s) s.snap.regs = raise e) :
      exec .dlayer s = .next (failedState s e) := exec_of_apart_raise hm rfl h
  refine ⟨fun e hfail => hraise ?_, fun rule hrule hfit => hraise ?_,
    fun rule src cols ks hrule hsrc hcount hfids hvalues => ?_⟩
  · rw [run_dlayer hl hd]
    exact raise_first (readRule_of_ruleFails hr hfail)
  · obtain ⟨hn, hlt⟩ := not_or.1 hfit
    rw [run_dlayer hl hd, bind_of_ok (readRule_of_ruleAt hr hrule)]
    exact raise_first (readBytes_of_not_fit hn (Nat.not_le.1 hlt))
  have hfields : FieldsDecompress (viewOf .dlayer s) (iidOf s.snap.regs) (applying rule dir) src cols ks :=
    ⟨hcount, hfids, hvalues⟩
  have hrun (hlen : (applying rule dir).length = cols.length) : cmdDlayer.run (viewOf .dlayer s) s.snap.regs =
      rebuildLayer (viewOf .dlayer s) s.snap.regs layer dir (applying rule dir) ks.sum cols :=
    run_dlayer_of_decompressed hr hl hd hrule hsrc (decompressFields_of_all hfields hlen)
  refine ⟨fun f e hf hfail => hraise ?_, fun hlen hill => hraise ?_, fun hlen hlegal => ?_⟩
  · rw [run_dlayer hl hd, bind_of_ok (readRule_of_ruleAt hr hrule), bind_of_ok (readBytes_of_inputIs hr hsrc)]
    exact raise_first (decompressFields_of_raise hfields hf hfail)
  · exact (hrun hlen).trans (raise_first (assemble_of_not_assembles dir hill))
  have hh := assemble_of_assembles dir hlegal
  rw [← ctxNeed_eq_bytesUsed]
  refine ⟨_, rfl, hh, fun hsize => hraise ?_, fun hsize hcap => hraise ?_, fun hsize hcap hfit => hraise ?_,
    fun wcols hwfids hwvals hsize hctx hroom => ?_⟩
  · exact (hrun hlen).trans (rebuildLayer_of_ctxSize hh hsize)
  · exact (hrun hlen).trans (rebuildLayer_of_outCap hh hsize hcap)
  · exact (hrun hlen).trans (rebuildLayer_of_not_fit hh hlen hsize hcap hfit)
  · obtain rfl := eq_writtenColumns hlen hwfids hwvals
    have hneed := ctxNeed_writtenColumns hlen
    refine ⟨_, exec_of_apart_ok hu hm rfl ((hrun hlen).trans
      (rebuildLayer_of_fit hh hlen hsize hroom.1 hroom.2 hctx)), ?_⟩
    rw [← hneed]
    exact storeAll_columns_header s.mem happart (hneed.le.trans hsize) hroom.1 rfl

end Sys2Proof.Machine
end

section
/-! The reference codec accepts exactly the headers that R227 and R228 spell (45_flatten.md R226 to R228). -/

namespace Sys2Proof.Machine

/-! ## Nibbles (R228) -/

/-- The nibble that spells a number is never the reserved 15. -/
theorem spellNibble_fst_le (x : Nat) : (spellNibble x).1 ≤ 14 := by
  unfold spellNibble
  split
  · omega
  · split <;> simp

/-- It asks for as many extension bytes as follow it. -/
theorem length_spellNibble (n : Nat) : (spellNibble n).2.length = extensionBytes (spellNibble n).1 := by
  unfold spellNibble
  split
  · exact ((if_neg (by omega)).trans (if_neg (by omega))).symm
  · split <;> rfl

/-- A nibble other than 15 and its extension bytes read as the number that they spell. -/
theorem extendNibble_spellNibble {n : Nat} (hn : n ≤ 65804) (tail : Bytes) :
    extendNibble (spellNibble n).1 ((spellNibble n).2 ++ tail) = some (n, tail) := by
  unfold spellNibble
  split
  · exact (if_neg (by omega)).trans (if_neg (by omega))
  · split
    · have hbyte : be (bytesBE 1 (n - 13)) + 13 = n := by rw [be_bytesBE]; omega
      exact congrArg (fun k => some (k, tail)) (by simpa [be, bytesBE] using hbyte)
    · have hbytes : be (bytesBE 2 (n - 269)) + 269 = n := by rw [be_bytesBE]; omega
      exact congrArg (fun k => some (k, tail)) hbytes

/-- A number that is read from a nibble other than 15 is spelled by that nibble and the bytes taken after it. -/
theorem spellNibble_of_extendNibble {x n : Nat} {rest tail : Bytes} (hx : x ≤ 14)
    (h : extendNibble x rest = some (n, tail)) :
    (spellNibble n).1 = x ∧ rest = (spellNibble n).2 ++ tail ∧ n ≤ 65804 := by
  unfold extendNibble at h
  split at h
  · split at h
    · next b r =>
      cases h
      have hbyte : bytesBE 1 b.toNat = [b] := by simp [bytesBE]
      have hb := b.isLt
      rw [spellNibble, if_neg (by omega), if_pos (by omega), Nat.add_sub_cancel, hbyte]
      exact ⟨by omega, rfl, by omega⟩
    · cases h
  · split at h
    · split at h
      · next b0 b1 r =>
        cases h
        have hb : be [b0, b1] < 256 ^ 2 := be_lt [b0, b1]
        have hbytes : bytesBE 2 (be [b0, b1]) = [b0, b1] := bytesBE_be [b0, b1]
        rw [spellNibble, if_neg (by omega), if_neg (by omega), Nat.add_sub_cancel, hbytes]
        exact ⟨by omega, rfl, by omega⟩
      · cases h
    · cases h
      rw [spellNibble, if_pos (by omega)]
      exact ⟨rfl, rfl, by omega⟩

/-! ## One option (R228) -/

/-- The bytes before an option's value are a byte of two nibbles other than 15 and the extension bytes of each. -/
theorem eq_spellOption_append_iff {b : Byte} {rest tail : Bytes} {d n : Nat} :
    b :: rest = spellOption d n ++ tail ↔ b.toNat / 16 = (spellNibble d).1 ∧ b.toNat % 16 = (spellNibble n).1 ∧
      rest = (spellNibble d).2 ++ ((spellNibble n).2 ++ tail) := by
  have hd := spellNibble_fst_le d
  have hn := spellNibble_fst_le n
  have hb := b.isLt
  rw [spellOption, List.cons_append, List.cons.injEq, List.append_assoc, ← and_assoc]
  refine and_congr_left fun _ => ⟨?_, fun h => BitVec.eq_of_toNat_eq ?_⟩
  · rintro rfl
    rw [BitVec.toNat_ofNat]
    omega
  · rw [BitVec.toNat_ofNat]
    omega

section
variable {table : List Nat} {fuel prev : Nat} {b : Byte} {rest : Bytes}

@[simp] theorem parseOptions_nil : parseOptions table fuel prev [] = some ([], false, []) := by
  cases fuel <;> rfl

theorem ne_marker_of_nibble (h : b.toNat / 16 ≤ 14) : b ≠ 0xFF#8 := by
  rintro rfl
  exact absurd h (by decide)

/-- An option spelled on the wire is checked and taken, and the chain goes on after its value. -/
theorem parseOptions_spellOption {d n : Nat} (hd : d ≤ 65804) (hn : n ≤ 65804) (tail : Bytes) :
    parseOptions table (fuel + 1) prev (spellOption d n ++ tail) =
      if tail.length < n ∨ 0xFFFF < n then none
      else if table.contains (prev + d) then
        (parseOptions table fuel (prev + d) (tail.drop n)).map
          fun x => ((prev + d, tail.take n) :: x.1, x.2.1, x.2.2)
      else none := by
  obtain ⟨b, rest, hb⟩ : ∃ b rest, b :: rest = spellOption d n ++ tail := ⟨_, _, rfl⟩
  obtain ⟨hhi, hlo, hrest⟩ := eq_spellOption_append_iff.1 hb
  have hd15 := spellNibble_fst_le d
  have hn15 := spellNibble_fst_le n
  rw [← hb, parseOptions, if_neg (ne_marker_of_nibble (hhi ▸ hd15)), if_neg (by omega), hhi, hlo, hrest,
    extendNibble_spellNibble hd]
  dsimp only
  rw [extendNibble_spellNibble hn]
  dsimp only
  cases parseOptions table fuel (prev + d) (tail.drop n) <;> rfl

/-- A chain that is not refused goes on with a marker or with an option spelled as R228 says. -/
theorem spellOption_of_parseOptions (hff : b ≠ 0xFF#8) (h : parseOptions table fuel prev (b :: rest) ≠ none) :
    ∃ d n tail, b :: rest = spellOption d n ++ tail ∧ d ≤ 65804 ∧ n ≤ 65804 := by
  cases fuel with
  | zero => exact absurd rfl h
  | succ fuel =>
    rw [parseOptions, if_neg hff] at h
    have hb := b.isLt
    obtain ⟨h15, h⟩ := ite_ne_left_iff.1 h
    split at h
    · exact absurd rfl h
    · next d rest1 hd =>
      split at h
      · exact absurd rfl h
      · next n tail hn =>
        obtain ⟨hhi, rfl, hdle⟩ := spellNibble_of_extendNibble (by omega) hd
        obtain ⟨hlo, rfl, hnle⟩ := spellNibble_of_extendNibble (by omega) hn
        exact ⟨d, n, tail, eq_spellOption_append_iff.2 ⟨hhi.symm, hlo.symm, rfl⟩, hdle, hnle⟩

/-! ## Option chains (R228) -/

/-- The last option number of a chain after option number `prev`. -/
abbrev lastOption (prev : Nat) (opts : List (Nat × Bytes)) : Nat := (opts.map Prod.fst).getLastD prev

theorem lastOption_cons (o : Nat × Bytes) (opts : List (Nat × Bytes)) :
    lastOption prev (o :: opts) = lastOption o.1 opts := List.getLastD_cons ..

theorem optionsLegal_cons {o : Nat × Bytes} {opts : List (Nat × Bytes)} : optionsLegal table prev (o :: opts) = true ↔
    (prev ≤ o.1 ∧ o.1 - prev ≤ 65804 ∧ table.contains o.1 = true ∧ o.2.length ≤ 0xFFFF) ∧
      optionsLegal table o.1 opts = true := by
  simp only [optionsLegal, Bool.and_eq_true, decide_eq_true_eq, and_assoc]

/-- Legal options are taken one by one, and the chain goes on after them. -/
theorem parseOptions_spellOptions {opts : List (Nat × Bytes)} (h : optionsLegal table prev opts = true) (tail : Bytes) :
    parseOptions table (fuel + opts.length) prev (spellOptions prev opts ++ tail) =
      (parseOptions table fuel (lastOption prev opts) tail).map fun x => (opts ++ x.1, x.2.1, x.2.2) := by
  induction opts generalizing prev with
  | nil => exact (Option.map_id' ..).symm
  | cons o opts ih =>
    obtain ⟨n, val⟩ := o
    obtain ⟨⟨hle, hd, htable, hval⟩, hlegal⟩ := optionsLegal_cons.1 h
    dsimp only at hle hd htable hval hlegal
    rw [spellOptions, List.append_assoc, List.append_assoc, List.length_cons, ← Nat.add_assoc,
      parseOptions_spellOption hd (by omega), if_neg (by rw [List.length_append]; omega), Nat.add_sub_cancel' hle,
      if_pos htable, List.drop_left, List.take_left, ih hlegal, Option.map_map, lastOption_cons]
    rfl

/-- The bytes of a marker, where there is one (R228). -/
abbrev markerBytes (marker : Bool) : Bytes := if marker then [0xFF#8] else []

/-- An accepted chain is legal options, then a marker and a payload or neither. -/
theorem spellOptions_of_parseOptions {s : Bytes} {opts : List (Nat × Bytes)} {marker : Bool} {payload : Bytes}
    (h : parseOptions table fuel prev s = some (opts, marker, payload)) :
    s = spellOptions prev opts ++ (markerBytes marker ++ payload) ∧ optionsLegal table prev opts = true ∧
      (marker = true ↔ payload ≠ []) := by
  induction fuel generalizing prev s opts with
  | zero =>
    cases s with
    | nil => cases h; exact ⟨rfl, rfl, iff_of_false nofun (not_not.2 rfl)⟩
    | cons b rest => cases h
  | succ fuel ih =>
    cases s with
    | nil => cases h; exact ⟨rfl, rfl, iff_of_false nofun (not_not.2 rfl)⟩
    | cons b rest =>
      by_cases hff : b = 0xFF#8
      · rw [parseOptions, if_pos hff] at h
        obtain ⟨hne, h⟩ := Option.ite_none_left_eq_some.1 h
        cases h
        exact ⟨congrArg (List.cons · _) hff, rfl, iff_of_true rfl hne⟩
      · obtain ⟨d, n, tail, hspell, hd, hn⟩ := spellOption_of_parseOptions hff (h ▸ Option.some_ne_none _)
        rw [hspell, parseOptions_spellOption hd hn] at h
        obtain ⟨hlen, h⟩ := Option.ite_none_left_eq_some.1 h
        obtain ⟨htable, h⟩ := Option.ite_none_right_eq_some.1 h
        obtain ⟨⟨opts, marker, payload⟩, hrest, hx⟩ := Option.map_eq_some_iff.1 h
        cases hx
        obtain ⟨hdrop, hlegal, hmarker⟩ := ih hrest
        have hval : (tail.take n).length = n := List.length_take_of_le (by omega)
        refine ⟨?_, optionsLegal_cons.2 ⟨⟨?_, ?_, htable, ?_⟩, hlegal⟩, hmarker⟩
        · rw [hspell, spellOptions, Nat.add_sub_cancel_left, hval, List.append_assoc, List.append_assoc, ← hdrop,
            List.take_append_drop]
        all_goals dsimp only; omega

/-- A marker with a payload after it, or the end of the message, ends a chain. -/
theorem parseOptions_markerBytes {marker : Bool} {payload : Bytes} (h : marker = true ↔ payload ≠ [])
    (hfuel : (markerBytes marker ++ payload).length ≤ fuel) :
    parseOptions table fuel prev (markerBytes marker ++ payload) = some ([], marker, payload) := by
  cases marker with
  | false =>
    obtain rfl : payload = [] := not_not.1 (mt h.2 nofun)
    exact parseOptions_nil
  | true =>
    cases fuel with
    | zero => cases hfuel
    | succ fuel => exact (if_pos rfl).trans (if_neg (h.1 rfl))

theorem length_le_length_spellOptions (opts : List (Nat × Bytes)) : opts.length ≤ (spellOptions prev opts).length := by
  induction opts generalizing prev with
  | nil => exact Nat.le_refl 0
  | cons o opts ih =>
    have hrest := ih (prev := o.1)
    simp only [spellOptions, spellOption, List.length_append, List.length_cons]
    omega

end

/-! ## Messages (R227) -/

section
variable {table : List Nat}

theorem headerAllowed_iff {h : CoapHeader} : headerAllowed table h = true ↔
    h.ver = 1 ∧ h.typ < 4 ∧ h.tkl ≤ 8 ∧ h.token.length = h.tkl ∧ h.mid.length = 2 ∧
      optionsLegal table 0 h.opts = true := by
  simp only [headerAllowed, Bool.and_eq_true, beq_iff_eq, decide_eq_true_eq, and_assoc]

theorem refParse_cons (b code m2 m3 : Byte) (rest : Bytes) : refParse table (b :: code :: m2 :: m3 :: rest) =
    if b.toNat / 64 ≠ 1 then none
    else if 8 < b.toNat % 16 then none
    else if rest.length < b.toNat % 16 then none
    else (parseOptions table rest.length 0 (rest.drop (b.toNat % 16))).map fun x =>
      ⟨⟨b.toNat / 64, b.toNat / 16 % 4, b.toNat % 16, code, [m2, m3], rest.take (b.toNat % 16), x.1, x.2.1⟩,
        rest.length + 4 - x.2.2.length⟩ := by
  rw [refParse]
  cases parseOptions table rest.length 0 (rest.drop (b.toNat % 16)) <;> rfl

/-- An allowed header without its marker is taken, and what follows it is the rest of its option chain. -/
theorem refParse_spellHeader {h : CoapHeader} (hallowed : headerAllowed table h = true) (hmarker : h.marker = false)
    (tail : Bytes) : ∃ fuel, tail.length ≤ fuel ∧ refParse table (spellHeader h ++ tail) =
      (parseOptions table fuel (lastOption 0 h.opts) tail).map fun x =>
        ⟨{ h with opts := h.opts ++ x.1, marker := x.2.1 }, (spellHeader h).length + tail.length - x.2.2.length⟩ := by
  obtain ⟨ver, typ, tkl, code, mid, token, opts, marker⟩ := h
  obtain ⟨hver, htyp, htkl, htoken, hmid, hopts⟩ := headerAllowed_iff.1 hallowed
  dsimp only at hver htyp htkl htoken hmid hopts hmarker
  subst hver htoken hmarker
  obtain ⟨m2, m3, rfl⟩ := List.length_eq_two.1 hmid
  obtain ⟨b, hb⟩ : ∃ b, b = BitVec.ofNat 8 (1 * 64 + typ * 16 + token.length) := ⟨_, rfl⟩
  have hb' : b.toNat = 64 + typ * 16 + token.length := by rw [hb, BitVec.toNat_ofNat]; omega
  have hle := length_le_length_spellOptions (prev := 0) opts
  have hspell : spellHeader ⟨1, typ, token.length, code, [m2, m3], token, opts, false⟩ =
      b :: code :: m2 :: m3 :: (token ++ spellOptions 0 opts) := by simp [spellHeader, hb]
  obtain ⟨fuel, hfuel, hlen⟩ : ∃ fuel, tail.length ≤ fuel ∧
      (token ++ (spellOptions 0 opts ++ tail)).length = fuel + opts.length :=
    ⟨token.length + (spellOptions 0 opts ++ tail).length - opts.length, by simp; omega, by simp; omega⟩
  refine ⟨fuel, hfuel, ?_⟩
  rw [hspell]
  simp only [List.cons_append, List.append_assoc]
  rw [refParse_cons, if_neg (by omega), if_neg (by omega), if_neg (by simp; omega),
    show b.toNat % 16 = token.length by omega, show b.toNat / 64 = 1 by omega, show b.toNat / 16 % 4 = typ by omega,
    List.drop_left, List.take_left, hlen, parseOptions_spellOptions hopts, Option.map_map]
  refine congrArg (Option.map · _) (funext fun x => congrArg (CoapMessage.mk _) (congrArg (· - _) ?_))
  simp only [List.length_cons, List.length_append] at hlen ⊢
  omega

/-- A message is refused where its option chain is, after any allowed header. -/
theorem refParse_of_refused {h : CoapHeader} (hallowed : headerAllowed table h = true) (hmarker : h.marker = false)
    {tail : Bytes} (hrefused : ∀ fuel, parseOptions table fuel (lastOption 0 h.opts) tail = none) :
    refParse table (spellHeader h ++ tail) = none := by
  obtain ⟨fuel, -, hparse⟩ := refParse_spellHeader hallowed hmarker tail
  rw [hparse, hrefused]
  rfl

/-- The marker stands last on the wire. -/
theorem spellHeader_eq_append (h : CoapHeader) :
    spellHeader h = spellHeader { h with marker := false } ++ markerBytes h.marker := by
  simp [spellHeader]

/-- What the reference codec accepts is the spelling of an allowed header, and a payload exactly after a marker. -/
theorem spellHeader_of_refParse {m : Bytes} {p : CoapMessage} (h : refParse table m = some p) :
    ∃ payload, m = spellHeader p.header ++ payload ∧ headerAllowed table p.header = true ∧
      p.hlen = (spellHeader p.header).length ∧ (p.header.marker = true ↔ payload ≠ []) := by
  obtain ⟨b, code, m2, m3, rest, rfl⟩ : ∃ b code m2 m3 rest, m = b :: code :: m2 :: m3 :: rest := by
    unfold refParse at h
    split at h
    · exact ⟨_, _, _, _, _, rfl⟩
    · cases h
  rw [refParse_cons] at h
  obtain ⟨hver, h⟩ := Option.ite_none_left_eq_some.1 h
  obtain ⟨htkl, h⟩ := Option.ite_none_left_eq_some.1 h
  obtain ⟨htoken, h⟩ := Option.ite_none_left_eq_some.1 h
  obtain ⟨⟨opts, marker, payload⟩, hchain, rfl⟩ := Option.map_eq_some_iff.1 h
  obtain ⟨hdrop, hopts, hmarker⟩ := spellOptions_of_parseOptions hchain
  have hb := b.isLt
  have hfirst : BitVec.ofNat 8 (b.toNat / 64 * 64 + b.toNat / 16 % 4 * 16 + b.toNat % 16) = b :=
    BitVec.eq_of_toNat_eq (by rw [BitVec.toNat_ofNat]; omega)
  have hspell : b :: code :: m2 :: m3 :: rest = spellHeader ⟨b.toNat / 64, b.toNat / 16 % 4, b.toNat % 16, code,
      [m2, m3], rest.take (b.toNat % 16), opts, marker⟩ ++ payload := by
    rw [spellHeader]
    simp only [hfirst, List.cons_append, List.nil_append, List.append_assoc, ← hdrop, List.take_append_drop]
  refine ⟨payload, hspell, headerAllowed_iff.2 ⟨?_, ?_, ?_, ?_, rfl, hopts⟩, ?_, hmarker⟩
  · exact not_not.1 hver
  · exact Nat.mod_lt _ (by decide)
  · exact Nat.not_lt.1 htkl
  · exact List.length_take_of_le (Nat.not_lt.1 htoken)
  · have hlen := congrArg List.length hspell
    simp only [List.length_append, List.length_cons] at hlen ⊢
    omega

/-- The reference codec accepts the spelling of an allowed header with a payload exactly after a marker. -/
theorem refParse_of_spellHeader {h : CoapHeader} {payload : Bytes} (hallowed : headerAllowed table h = true)
    (hmarker : h.marker = true ↔ payload ≠ []) :
    refParse table (spellHeader h ++ payload) = some ⟨h, (spellHeader h).length⟩ := by
  obtain ⟨fuel, hfuel, hparse⟩ := refParse_spellHeader (h := { h with marker := false }) hallowed rfl
    (markerBytes h.marker ++ payload)
  have hsize : (spellHeader { h with marker := false }).length + (markerBytes h.marker ++ payload).length -
      payload.length = (spellHeader h).length := by
    rw [spellHeader_eq_append h]
    simp only [List.length_append]
    omega
  rw [← hsize, spellHeader_eq_append, List.append_assoc, hparse, parseOptions_markerBytes hmarker hfuel,
    Option.map_some, List.append_nil]

/-- The reference codec accepts exactly what R227 and R228 spell (R226). -/
theorem refParse_eq_some_iff {m : Bytes} {p : CoapMessage} : refParse table m = some p ↔
    ∃ payload, m = spellHeader p.header ++ payload ∧ headerAllowed table p.header = true ∧
      p.hlen = (spellHeader p.header).length ∧ (p.header.marker = true ↔ payload ≠ []) := by
  refine ⟨spellHeader_of_refParse, ?_⟩
  obtain ⟨h, hlen⟩ := p
  rintro ⟨payload, rfl, hallowed, hhlen, hmarker⟩
  obtain rfl : hlen = (spellHeader h).length := hhlen
  exact refParse_of_spellHeader hallowed hmarker

/-! ## Messages that are refused (R227, R228) -/

theorem refParse_of_short {m : Bytes} (h : m.length < 4) : refParse table m = none := by
  match m with
  | [] | [_] | [_, _] | [_, _, _] => rfl
  | _ :: _ :: _ :: _ :: rest =>
    simp only [List.length_cons] at h
    omega

/-- A version other than 1, a TKL above 8, or a token that ends after the message. -/
theorem refParse_of_first_byte {b : Byte} {rest : Bytes}
    (h : b.toNat / 64 ≠ 1 ∨ 8 < b.toNat % 16 ∨ rest.length < 3 + b.toNat % 16) : refParse table (b :: rest) = none := by
  match rest with
  | [] | [_] | [_, _] => rfl
  | code :: m2 :: m3 :: rest =>
    rw [refParse_cons]
    split
    · rfl
    · split
      · rfl
      · simp only [List.length_cons] at h
        exact if_pos (by omega)

section
variable {prev : Nat}

/-- A nibble of 15, extension bytes that are missing, or a marker with nothing after it. -/
theorem parseOptions_of_first_byte {b : Byte} {rest : Bytes}
    (h : b ≠ 0xFF#8 ∧ (b.toNat / 16 = 15 ∨ b.toNat % 16 = 15 ∨
        rest.length < extensionBytes (b.toNat / 16) + extensionBytes (b.toNat % 16)) ∨ b = 0xFF#8 ∧ rest = [])
    (fuel : Nat) : parseOptions table fuel prev (b :: rest) = none := by
  rcases h with ⟨hff, h⟩ | ⟨rfl, rfl⟩
  · by_contra hne
    obtain ⟨d, n, tail, hspell, -, -⟩ := spellOption_of_parseOptions hff hne
    obtain ⟨hhi, hlo, rfl⟩ := eq_spellOption_append_iff.1 hspell
    have hd := spellNibble_fst_le d
    have hn := spellNibble_fst_le n
    rw [hhi, hlo, List.length_append, List.length_append, length_spellNibble, length_spellNibble] at h
    omega
  · cases fuel <;> rfl

/-- A value that ends after the message or is too long, or an option outside the table. -/
theorem parseOptions_of_value {d n : Nat} {tail : Bytes} (hd : d ≤ 65804) (hn : n ≤ 65804)
    (h : tail.length < n ∨ 0xFFFF < n ∨ prev + d ∉ table) (fuel : Nat) :
    parseOptions table fuel prev (spellOption d n ++ tail) = none := by
  cases fuel with
  | zero => rfl
  | succ fuel =>
    rw [parseOptions_spellOption hd hn]
    split
    · rfl
    · next hlen => exact if_neg (by simp only [List.contains_iff_mem]; tauto)

end

end

end Sys2Proof.Machine
end

section
/-! The numbers of a flattened header (45_flatten.md R221 to R223, R231), and the header that they assemble to
(R237). -/

namespace Sys2Proof.Machine

/-! ## Fields of a header -/

/-- The integer of a part of a byte string is those of its digits. -/
theorem be_slice {s : Bytes} {i n : Nat} (h : i + n ≤ s.length) :
    be (slice s i n) = be s / 256 ^ (s.length - (i + n)) % 256 ^ n := by
  have hsplit : be (slice s i n) * 256 ^ (s.length - (i + n)) + be (s.drop (i + n)) =
      be s % (256 ^ (s.length - (i + n)) * 256 ^ n) := by
    rw [← List.length_drop, ← List.drop_drop, ← be_append, slice, List.take_append_drop, be_drop, ← pow_add]
    congr 2
    simp only [List.length_drop]
    omega
  have hlt : be (s.drop (i + n)) < 256 ^ (s.length - (i + n)) := List.length_drop ▸ be_lt _
  rw [← Nat.mod_mul_right_div_self, ← hsplit, Nat.mul_comm, Nat.mul_add_div (by positivity), Nat.div_eq_of_lt hlt,
    Nat.add_zero]

theorem slice_slice {s : Bytes} {i n j k : Nat} (h : j + k ≤ n) : slice (slice s i n) j k = slice s (i + j) k := by
  simp only [slice, List.drop_take, List.take_take, List.drop_drop, Nat.min_eq_left (show k ≤ n - j by omega)]

/-! ## IPv6 and UDP (R222, R223) -/

section
variable {h : Bytes} {dir : PacketDir}

theorem fids_flatten6 :
    (flatten6 h dir).map Col.fid = [0x01, 0x02, 0x03, 0x04, 0x05, 0x06, 0x07, 0x08, 0x09, 0x0A] := by
  cases dir <;> rfl

theorem lengths_flatten6 (hlen : h.length = 40) :
    (flatten6 h dir).map (fun c => c.val.length) = [1, 1, 3, 2, 1, 1, 8, 8, 8, 8] := by
  cases dir <;> simp [flatten6, orient, slice, hlen]

/-- Every field of an IPv6 header by its bits; the Dev end is the source for UP and the destination for DOWN. -/
theorem numbers_flatten6 (hlen : h.length = 40) {x src dst : Nat} (hx : x = be h)
    (hsrc : src = x / 2 ^ 128 % 2 ^ 128) (hdst : dst = x % 2 ^ 128) :
    (flatten6 h dir).map (fun c => be c.val) =
      [x / 2 ^ 316, x / 2 ^ 308 % 2 ^ 8, x / 2 ^ 288 % 2 ^ 20, x / 2 ^ 272 % 2 ^ 16, x / 2 ^ 264 % 2 ^ 8,
       x / 2 ^ 256 % 2 ^ 8] ++
      (match dir with
        | .up => [src / 2 ^ 64, src % 2 ^ 64, dst / 2 ^ 64, dst % 2 ^ 64]
        | .down => [dst / 2 ^ 64, dst % 2 ^ 64, src / 2 ^ 64, src % 2 ^ 64]) := by
  have hlt : x < 256 ^ 40 := hx ▸ be_lt_of_length hlen
  have hpart {i n : Nat} (hin : i + n ≤ 40) : be (slice h i n) = x / 256 ^ (40 - (i + n)) % 256 ^ n := by
    rw [be_slice (hlen ▸ hin), hlen, hx]
  cases dir <;>
    simp only [flatten6, orient, fieldAt, be_bytesBE, slice_slice, hpart, hsrc, hdst, Nat.reduceAdd, Nat.reduceSub,
      Nat.reduceLeDiff, List.map_cons, List.map_nil, List.cons_append, List.nil_append, List.cons.injEq, and_true]
  iterate 2 omega

/-- The integer of the `k`-th value, from the list of all of them. -/
theorem be_getD_val (cols : List Col) (k : Nat) :
    be ((cols.map Col.val).getD k []) = (cols.map fun c => be c.val).getD k 0 := by
  rw [← be_nil, ← List.getD_map (f := be), List.map_map]
  rfl

/-- The columns of an IPv6 header assemble to it, read in the direction in which they were written (R237). -/
theorem assemble6_flatten6 (hlen : h.length = 40) : assemble6 (flatten6 h dir) dir = .ok h := by
  have hlt : be h < 256 ^ 40 := be_lt_of_length hlen
  rw [assemble6_eq_assembled (viewOf .flat6 State.reset) fids_flatten6 (lengths_flatten6 hlen)]
  refine congrArg Except.ok (Eq.trans (congrArg (bytesBE 40) ?_) (hlen ▸ bytesBE_be h))
  simp only [be_getD_val, numbers_flatten6 hlen rfl rfl rfl]
  cases dir <;> simp only [List.cons_append, List.nil_append, List.getD_cons_succ, List.getD_cons_zero]
  iterate 2 omega

theorem fids_flattenU : (flattenU h dir).map Col.fid = [0x11, 0x12, 0x13, 0x14] := by
  cases dir <;> rfl

theorem lengths_flattenU (hlen : h.length = 8) : (flattenU h dir).map (fun c => c.val.length) = [2, 2, 2, 2] := by
  cases dir <;> simp [flattenU, orient, slice, hlen]

/-- Every field of a UDP header by its bits; the Dev port is the source for UP and the destination for DOWN. -/
theorem numbers_flattenU (hlen : h.length = 8) {x : Nat} (hx : x = be h) :
    (flattenU h dir).map (fun c => be c.val) =
      (match dir with
        | .up => [x / 2 ^ 48, x / 2 ^ 32 % 2 ^ 16]
        | .down => [x / 2 ^ 32 % 2 ^ 16, x / 2 ^ 48]) ++ [x / 2 ^ 16 % 2 ^ 16, x % 2 ^ 16] := by
  have hlt : x < 256 ^ 8 := hx ▸ be_lt_of_length hlen
  have hpart {i n : Nat} (hin : i + n ≤ 8) : be (slice h i n) = x / 256 ^ (8 - (i + n)) % 256 ^ n := by
    rw [be_slice (hlen ▸ hin), hlen, hx]
  cases dir <;>
    simp only [flattenU, orient, hpart, Nat.reduceAdd, Nat.reduceSub, Nat.reduceLeDiff, List.map_cons, List.map_nil,
      List.cons_append, List.nil_append, List.cons.injEq, and_true]
  iterate 2 omega

/-- The columns of a UDP header assemble to it (R237). -/
theorem assembleU_flattenU (hlen : h.length = 8) : assembleU (flattenU h dir) dir = .ok h := by
  have hlt : be h < 256 ^ 8 := be_lt_of_length hlen
  rw [assembleU_eq_assembled (viewOf .flatu State.reset) fids_flattenU (lengths_flattenU hlen)]
  refine congrArg Except.ok (Eq.trans (congrArg (bytesBE 8) ?_) (hlen ▸ bytesBE_be h))
  simp only [be_getD_val, numbers_flattenU hlen rfl]
  cases dir <;> simp only [List.cons_append, List.nil_append, List.getD_cons_succ, List.getD_cons_zero]
  iterate 2 omega

end

/-! ## CoAP (R231) -/

/-- The column of an option (R231). -/
def optionColumn (o : Nat × Bytes) : Col := ⟨0x100 + o.1, o.2⟩

/-- The columns of a CoAP header after the token (R231). -/
def columnsAfterToken (h : CoapHeader) : List Col :=
  h.opts.map optionColumn ++ if h.marker then [⟨0x27, [0xFF#8]⟩] else []

theorem flattenC_eq (h : CoapHeader) : flattenC h =
    ⟨0x21, bytesBE 1 h.ver⟩ :: ⟨0x22, bytesBE 1 h.typ⟩ :: ⟨0x23, bytesBE 1 h.tkl⟩ :: ⟨0x24, [h.code]⟩ ::
      ⟨0x25, h.mid⟩ :: ⟨0x26, h.token⟩ :: columnsAfterToken h := rfl

/-- The id of an option's column is not that of a marker, so a marker column is found exactly where there is one. -/
theorem marked_columnsAfterToken (h : CoapHeader) : marked (columnsAfterToken h) = h.marker := by
  unfold marked columnsAfterToken
  cases h.marker with
  | true => simp
  | false =>
    rw [if_neg Bool.false_ne_true, List.append_nil, ← Bool.not_eq_true, beq_iff_eq]
    intro hlast
    have hmem := List.mem_of_getLast? hlast
    simp only [List.map_map, List.mem_map, Function.comp, optionColumn] at hmem
    obtain ⟨o, -, ho⟩ := hmem
    omega

theorem optionsOf_columnsAfterToken (h : CoapHeader) : optionsOf (columnsAfterToken h) = h.opts.map optionColumn := by
  rw [optionsOf, marked_columnsAfterToken, columnsAfterToken]
  cases h.marker <;> simp

theorem optionColumns_of_optionsLegal {table : List Nat} {prev : Nat} {opts : List (Nat × Bytes)}
    (h : optionsLegal table prev opts = true) : OptionColumns table prev (opts.map optionColumn) := by
  induction opts generalizing prev with
  | nil => exact ⟨List.forall_mem_nil _, List.Pairwise.nil⟩
  | cons o opts ih =>
    obtain ⟨⟨hle, -, htable, -⟩, hopts⟩ := optionsLegal_cons.1 h
    rw [List.map_cons, optionColumns_cons, optionColumn, Nat.add_sub_cancel_left]
    exact ⟨⟨Nat.le_add_right .., htable, hle⟩, ih hopts⟩

/-- The columns of an allowed CoAP header assemble to what the codec makes of it (R235). -/
theorem assembleC_flattenC {v : View} {h : CoapHeader} (hallowed : headerAllowed v.table h = true) :
    assembleC v (flattenC h) = .ok (coapEncode v h) := by
  obtain ⟨hver, htyp, htkl, htoken, hmid, hopts⟩ := headerAllowed_iff.1 hallowed
  have hbver : be (bytesBE 1 h.ver) % 4 = h.ver := by rw [be_bytesBE]; omega
  have hbtyp : be (bytesBE 1 h.typ) % 4 = h.typ := by rw [be_bytesBE]; omega
  have hbtkl : be (bytesBE 1 h.tkl) % 16 = h.tkl := by rw [be_bytesBE]; omega
  have hrest : (!marked (columnsAfterToken h) ||
      ((columnsAfterToken h).map Col.val).getLast? == some [0xFF#8]) = true := by
    rw [marked_columnsAfterToken, columnsAfterToken]
    cases h.marker <;> simp
  have hback : (h.opts.map optionColumn).map (fun c => (c.fid - 0x100, c.val)) = h.opts := by
    simp [optionColumn, Function.comp_def]
  rw [flattenC_eq, assembleC_eq_assembled .up, assembled_coap_cons v .up rfl]
  · rw [hbver, hbtyp, hbtkl, optionsOf_columnsAfterToken, marked_columnsAfterToken, hback]
    rfl
  · refine assembles_coap_cons.2 ⟨rfl, ?_, ?_, hrest, ?_⟩
    · simp [hmid]
    · rw [hbtkl]
      exact ⟨htoken, htkl⟩
    · rw [optionsOf_columnsAfterToken]
      exact optionColumns_of_optionsLegal hopts

/-- Settles O53: the columns of a header give its numbers back, those of a message the spelling of its header. -/
theorem assembleInvertsFlatten : Obligations.AssembleInvertsFlatten := by
  refine ⟨fun h dir => assemble6_flatten6, fun h dir => assembleU_flattenU, fun v m p hcodec hparse => ?_,
    fun v layer cols dir => ⟨assemble_of_assembles dir, assemble_of_not_assembles dir⟩⟩
  rw [coapParse, hcodec] at hparse
  obtain ⟨payload, rfl, hallowed, hlen, -⟩ := spellHeader_of_refParse hparse
  rw [assembleC_flattenC hallowed, coapEncode, hcodec, hlen, List.take_left, List.length_append]
  exact ⟨congrArg Except.ok (refEncode_eq_spellHeader p.header), Nat.le_add_right ..⟩

end Sys2Proof.Machine
end

section
/-! The flatteners (45_flatten.md R224, R225, R232) whose host wrote nothing meanwhile. -/

namespace Sys2Proof.Machine

/-- A flattener whose result is the columns `cols` writes them into the context region and gives `r1` and `r2`; more
than `CTX_SIZE` is `CTX_OVERFLOW`, a region out of memory `BUS_FAULT` (30_encoding.md R91). -/
def WritesColumns (i : Instr) (s : State) (cols : List Col) (r1 r2 : Nat) : Prop :=
  (s.snap.regs.ctxSize.toNat < bytesUsed cols → exec i s = .next (failedState s .ctxOverflow)) ∧
  (bytesUsed cols ≤ s.snap.regs.ctxSize.toNat → ¬ BytesFit s s.snap.regs.ctxAddr.toNat (bytesUsed cols) →
    exec i s = .next (failedState s .busFault)) ∧
  (bytesUsed cols ≤ s.snap.regs.ctxSize.toNat → BytesFit s s.snap.regs.ctxAddr.toNat (bytesUsed cols) →
    ∃ m, exec i s = .next (doneState s m r1 r2) ∧ HoldsColumns m s.snap.regs.ctxAddr.toNat cols ∧
      ∀ a, ¬ (s.snap.regs.ctxAddr.toNat ≤ a ∧ a < s.snap.regs.ctxAddr.toNat + bytesUsed cols) →
        m.get a = s.mem.get a)

section
variable {i : Instr} {s : State} (hi : i ∈ [.flat6, .flatu, .flatc])
include hi

/-- A flattener has the context region alone, and leaves no byte free. -/
theorem flattener_shape (r : Regs) : rangesMeet (regionsOf i r) = false ∧ (commandOf i).scratch r = [] := by
  simp only [List.mem_cons, List.not_mem_nil, or_false] at hi
  rcases hi with rfl | rfl | rfl <;> exact ⟨rangesMeet_singleton _, rfl⟩

theorem exec_flattener_of_raise {e : Err} (h : (commandOf i).run (viewOf i s) s.snap.regs = raise e) :
    exec i s = .next (failedState s e) :=
  exec_of_apart_raise (flattener_shape hi _).1 (flattener_shape hi _).2 h

/-- A flattener whose computation comes down to writing the columns `cols` writes them. -/
theorem writesColumns_of_run (hu : Undisturbed s) {cols : List Col} {r1 r2 : Nat}
    (h : (commandOf i).run (viewOf i s) s.snap.regs =
      (writeColumns (viewOf i s) s.snap.regs cols >>= fun w => .ok ⟨[w], r1, r2⟩)) : WritesColumns i s cols r1 r2 := by
  obtain ⟨hm, hs⟩ := flattener_shape hi s.snap.regs
  have himage := length_colImage s.snap.regs.ctxAddr.toNat cols
  unfold WritesColumns
  rw [← ctxNeed_eq_bytesUsed]
  refine ⟨fun hsize => ?_, fun hsize hfit => ?_, fun hsize hfit => ?_⟩
  · exact exec_flattener_of_raise hi (h.trans (raise_first (if_pos hsize)))
  · exact exec_flattener_of_raise hi (h.trans (raise_first (writeColumns_of_not_fit hsize hfit)))
  · refine ⟨_, exec_of_apart_ok hu hm hs (h.trans (bind_of_ok (writeColumns_eq_ok.2 ⟨hsize, hfit, rfl⟩))),
      holdsColumns_of_colImage (himage ▸ Memory.read_put _ _ _), fun a ha => ?_⟩
    exact Memory.get_put_of_not_mem _ _ _ _ (by rwa [himage])

end

/-! ## FLAT6 and FLATU (R224, R225) -/

section
variable {s : State} {r : Regs} {dir : PacketDir} {n : Nat} {f : Bytes → PacketDir → List Col}

/-- With a legal `DIR`, `FLAT6` and `FLATU` read the header. -/
theorem run_flattenCommand (hd : dirIs r dir = true) (v : View) : (flattenCommand n f).run v r = (do
    let h ← readBytes v r.aAddr.toNat n
    let w ← writeColumns v r (f h dir)
    return ⟨[w], (f h dir).length, ctxNeed (f h dir)⟩) := bind_of_ok (checkDir_of_dirIs hd)

section
variable {i : Instr} (hi : i ∈ [.flat6, .flatu, .flatc]) (hcmd : commandOf i = flattenCommand n f)
include hi hcmd

theorem exec_flattenCommand_busFault (hd : dirIs s.snap.regs dir = true)
    (hfit : ¬ BytesFit s s.snap.regs.aAddr.toNat n) :
    exec i s = .next (failedState s .busFault) := by
  obtain ⟨hn, hlt⟩ := not_or.1 hfit
  refine exec_flattener_of_raise hi ?_
  rw [hcmd, run_flattenCommand hd]
  exact raise_first (readBytes_of_not_fit hn (Nat.not_le.1 hlt))

/-- Of a readable header they write its columns. -/
theorem writesColumns_flattenCommand (hu : Undisturbed s) (hd : dirIs s.snap.regs dir = true)
    (hread : readable (viewOf i s) s.snap.regs.aAddr.toNat n = true) {cols : List Col}
    (hcols : cols = f (s.mem.read s.snap.regs.aAddr.toNat n) dir) :
    WritesColumns i s cols cols.length (bytesUsed cols) := by
  refine writesColumns_of_run hi hu ?_
  rw [hcmd, run_flattenCommand hd, bind_of_ok (readBytes_of_readable (viewOf_raced hu) hread), hcols,
    ← ctxNeed_eq_bytesUsed]
  rfl

end

end

theorem bytesUsed_flatten6 {h : Bytes} (dir : PacketDir) (hlen : h.length = 40) : bytesUsed (flatten6 h dir) = 129 := by
  rw [bytesUsed, lengths_flatten6 hlen]
  rfl

theorem bytesUsed_flattenU {h : Bytes} (dir : PacketDir) (hlen : h.length = 8) : bytesUsed (flattenU h dir) = 48 := by
  rw [bytesUsed, lengths_flattenU hlen]
  rfl

/-- Settles O51: the columns of `Flatten6` and `FlattenU`, written where they fit. -/
theorem flattenResult : Obligations.FlattenResult := by
  refine ⟨decode_encode .flat6, decode_encode .flatu, ?_, ?_, ?_⟩
  · rintro s r dir rfl hu hd
    exact ⟨exec_flattenCommand_busFault (f := flatten6) (by decide) rfl hd,
      exec_flattenCommand_busFault (f := flattenU) (by decide) rfl hd⟩
  · rintro s r dir x src dst rfl hu hd hread hx hsrc hdst
    have hlen : (s.mem.read s.snap.regs.aAddr.toNat 40).length = 40 := Memory.length_read ..
    have hw := writesColumns_flattenCommand (i := .flat6) (by decide) rfl hu hd hread rfl
    rw [WritesColumns, bytesUsed_flatten6 dir hlen] at hw
    obtain ⟨hover, hfault, hdone⟩ := hw
    refine ⟨hover, hfault, fun hsize hfit => ?_⟩
    obtain ⟨m, hexec, hholds, hframe⟩ := hdone hsize hfit
    exact ⟨m, _, hexec, hholds, fids_flatten6, lengths_flatten6 hlen, numbers_flatten6 hlen hx hsrc hdst, hframe⟩
  · rintro s r dir x rfl hu hd hread hx
    have hlen : (s.mem.read s.snap.regs.aAddr.toNat 8).length = 8 := Memory.length_read ..
    have hw := writesColumns_flattenCommand (i := .flatu) (by decide) rfl hu hd hread rfl
    rw [WritesColumns, bytesUsed_flattenU dir hlen] at hw
    obtain ⟨hover, hfault, hdone⟩ := hw
    refine ⟨hover, hfault, fun hsize hfit => ?_⟩
    obtain ⟨m, hexec, hholds, hframe⟩ := hdone hsize hfit
    exact ⟨m, _, hexec, hholds, fids_flattenU, lengths_flattenU hlen, numbers_flattenU hlen hx, hframe⟩

/-! ## FLATC (R232) -/

section
variable {v : View} {r : Regs} {m : Bytes} (hr : v.raced = []) (hm : inputIs v r m = true)
include hr hm

theorem run_flatc_of_refused (hparse : coapParse v m = none) : cmdFlatc.run v r = raise .invalidPacket :=
  (bind_of_ok (readBytes_of_inputIs hr hm)).trans (by rw [hparse])

theorem run_flatc_of_parsed {p : CoapMessage} (hparse : coapParse v m = some p) : cmdFlatc.run v r =
    (writeColumns v r (flattenC p.header) >>= fun w => .ok ⟨[w], (flattenC p.header).length, p.hlen⟩) :=
  (bind_of_ok (readBytes_of_inputIs hr hm)).trans (by rw [hparse]; rfl)

end

/-- Settles O52: what the codec accepts is written; and what the reference codec accepts. -/
theorem flatcResult : Obligations.FlatcResult := by
  refine ⟨decode_encode .flatc, ?_, ?_, fun v hcodec => ?_⟩
  · rintro s r rfl hu hfit
    obtain ⟨hn, hlt⟩ := not_or.1 hfit
    exact exec_flattener_of_raise (by decide) (raise_first (readBytes_of_not_fit hn (Nat.not_le.1 hlt)))
  · rintro s r m rfl hu hm
    refine ⟨fun hparse => ?_, fun p cols hparse hcols => ?_⟩
    · exact exec_flattener_of_raise (by decide) (run_flatc_of_refused (viewOf_raced hu) hm hparse)
    · obtain rfl : cols = flattenC p.header := hcols.trans (List.append_assoc ..)
      exact writesColumns_of_run (by decide) hu (run_flatc_of_parsed (viewOf_raced hu) hm hparse)
  · simp only [coapParse, hcodec]
    refine ⟨fun m p => refParse_eq_some_iff, fun m => refParse_of_short, fun b rest => refParse_of_first_byte,
      fun b code m2 m3 hver htkl => ?_, fun h b rest hallowed hmarker hbad => ?_,
      fun h d n rest hallowed hmarker hd hn hbad => ?_⟩
    · rw [refParse_cons, hver, htkl]
      rfl
    · exact refParse_of_refused hallowed hmarker (parseOptions_of_first_byte hbad)
    · rw [List.append_assoc]
      exact refParse_of_refused hallowed hmarker (parseOptions_of_value hd hn hbad)

end Sys2Proof.Machine
end

section
/-! What `COMP` and `DECOMP` do with one layer, in the words of the statements (46_pipeline.md R252 to R255). -/

namespace Sys2Proof.Machine

/-! ## One layer of `COMP` (R252, R253) -/

/-- The errors that are caught are the three of R252. -/
theorem recoverable_iff {e : Err} : e.recoverable = true ↔ e = .fieldLength ∨ e = .noMatch ∨ e = .unsupported := by
  cases e <;> simp [Err.recoverable]

/-- What `COMP` makes of what the actions of the rule `id` give: the residue, or verbatim for the errors it catches. -/
def keptOrVerbatim (id : Nat) : Comp Bytes → Comp (Option (Nat × Bytes))
  | .ok res => .ok (some (id, res))
  | .error (.err e) => if e.recoverable then .ok none else raise e
  | .error stop => .error stop

theorem keptOrVerbatim_eq_ok {id : Nat} {x : Comp Bytes} {o : Option (Nat × Bytes)} :
    keptOrVerbatim id x = .ok o ↔
      (∃ res, x = .ok res ∧ some (id, res) = o) ∨ ∃ e, x = raise e ∧ e.recoverable = true ∧ none = o := by
  cases x with
  | ok res => simp [keptOrVerbatim, raise]
  | error st =>
    cases st with
    | err e => cases he : e.recoverable <;> simp [keptOrVerbatim, raise, he]
    | overlap => simp [keptOrVerbatim, raise]
    | raced => simp [keptOrVerbatim, raise]

section
variable {v : View} {r : Regs} {dev : Nat} {layer : Layer} {cols : List Col} {dir : PacketDir} {e : Err}

theorem packLayer_of_ctxSize (h : r.ctxSize.toNat < bytesUsed cols) :
    packLayer v r dev layer cols dir = raise .ctxOverflow :=
  if_pos (by rwa [ctxNeed_eq_bytesUsed])

section
variable (hsize : bytesUsed cols ≤ r.ctxSize.toNat)
include hsize

theorem packLayer_of_fit : packLayer v r dev layer cols dir = selectRule v dev layer cols dir >>= fun found =>
    match found with
    | none => .ok none
    | some (_, rule) => keptOrVerbatim rule.ruleId (compressLayer v (iidOf r) rule cols dir) := by
  rw [← ctxNeed_eq_bytesUsed] at hsize
  rw [← nodeIid_eq_iidOf, packLayer, if_neg (Nat.not_lt.2 hsize)]
  refine bind_congr fun found => ?_
  rcases found with _ | ⟨a, rule⟩
  · rfl
  · dsimp only
    cases compressLayer v (nodeIid r) rule cols dir with
    | ok res => rfl
    | error st => cases st <;> rfl

theorem packLayer_of_no_rule (h : selectRule v dev layer cols dir = .ok none) :
    packLayer v r dev layer cols dir = .ok none := by
  rw [packLayer_of_fit hsize, bind_of_ok h]

theorem packLayer_of_rule {a : Nat} {rule : Rule} (h : selectRule v dev layer cols dir = .ok (some (a, rule))) :
    packLayer v r dev layer cols dir = keptOrVerbatim rule.ruleId (compressLayer v (iidOf r) rule cols dir) := by
  rw [packLayer_of_fit hsize, bind_of_ok h]

end

/-- A layer of `COMP` ends in the outcomes that the statements name. -/
theorem packLayer_eq_ok {o : Option (Nat × Bytes)} :
    packLayer v r dev layer cols dir = .ok o ↔ LayerPacked v r dev layer cols dir o := by
  unfold LayerPacked
  by_cases hsize : bytesUsed cols ≤ r.ctxSize.toNat
  · simp only [hsize, true_and]
    cases hsel : selectRule v dev layer cols dir with
    | error st =>
      rw [packLayer_of_fit hsize, hsel]
      cases o <;> simp [bind, Except.bind]
    | ok found =>
      rcases found with _ | ⟨a, rule⟩
      · rw [packLayer_of_no_rule hsize hsel]
        cases o <;> simp
      · rw [packLayer_of_rule hsize hsel, keptOrVerbatim_eq_ok]
        rcases o with _ | ⟨id, res⟩
        · simp [raise, recoverable_iff]
        · simp [and_left_comm, and_comm]
  · rw [packLayer_of_ctxSize (Nat.not_le.1 hsize)]
    simp [hsize]

/-- And it raises the errors that they name. -/
theorem packLayer_of_layerFails (h : LayerFails v r dev layer cols dir e) :
    packLayer v r dev layer cols dir = raise e := by
  rcases h with ⟨hsize, rfl⟩ | ⟨hsize, hsel | ⟨a, rule, hsel, hres, hlen, hmatch, hsup⟩⟩
  · exact packLayer_of_ctxSize hsize
  · rw [packLayer_of_fit hsize]
    exact raise_first hsel
  · rw [packLayer_of_rule hsize hsel, hres]
    exact if_neg (by simp [recoverable_iff, hlen, hmatch, hsup])

end

/-! ## One layer of `DECOMP` (R255) -/

section
variable {v : View} {r : Regs} {dev id : Nat} {layer : Layer} {rule : Option Rule} {src : Bytes} {dir : PacketDir}
  {e : Err}

theorem namedRule_of_layerNamed (h : LayerNamed v dev layer id rule) : namedRule v dev layer id = .ok rule := by
  cases rule with
  | none => exact if_pos h
  | some rl =>
    rw [namedRule, if_neg h.1, bind_of_ok h.2]
    rfl

theorem namedRule_of_nameFails (h : NameFails v dev layer id e) : namedRule v dev layer id = raise e := by
  rw [namedRule, if_neg h.1]
  exact raise_first h.2

theorem partSize_of_partSized {verbatim n : Nat} (h : PartSized verbatim rule dir n) :
    partSize verbatim rule dir = .ok n := by
  cases rule with
  | none => exact congrArg _ (Eq.symm h)
  | some rl =>
    rw [PartSized, ← applicable_eq_applying] at h
    exact h

theorem partSize_of_sizeFails {verbatim : Nat} (h : SizeFails rule dir e) : partSize verbatim rule dir = raise e := by
  obtain ⟨rl, rfl, h⟩ := h
  rw [← applicable_eq_applying] at h
  exact h

theorem unpackLayer_of_layerUnpacked {k : Nat} {h : Bytes} (hu : LayerUnpacked v r layer rule src dir k h) :
    unpackLayer v r layer rule src dir = .ok (k, h) := by
  cases rule with
  | none =>
    obtain ⟨rfl, rfl⟩ := hu
    rfl
  | some rl =>
    obtain ⟨cols, hcols, hsize, hh⟩ := hu
    rw [← nodeIid_eq_iidOf] at hcols
    rw [← ctxNeed_eq_bytesUsed] at hsize
    rw [unpackLayer, bind_of_ok hcols]
    dsimp only
    rw [if_neg (Nat.not_lt.2 hsize), bind_of_ok hh]
    rfl

theorem unpackLayer_of_unpackFails (hu : UnpackFails v r layer rule src dir e) :
    unpackLayer v r layer rule src dir = raise e := by
  obtain ⟨rl, rfl, hu⟩ := hu
  simp only [← nodeIid_eq_iidOf, ← ctxNeed_eq_bytesUsed] at hu
  rcases hu with hcols | ⟨k, cols, hcols, ⟨hsize, rfl⟩ | ⟨hsize, hh⟩⟩
  · exact raise_first hcols
  · exact (bind_of_ok hcols).trans (if_pos hsize)
  · refine (bind_of_ok hcols).trans ((if_neg (Nat.not_lt.2 hsize)).trans (raise_first hh))

end
end Sys2Proof.Machine
end

section
/-! The rules that `Select` and `FindRule` find in one rule list (44_rule_selection.md R202, R208). -/

namespace Sys2Proof.Machine

section
variable {v : View} {layer : Layer} {list : Nat}

theorem listed_cons {a : Nat} {addrs : List Nat} (h : Listed v list (a :: addrs)) :
    readNat v list 4 = .ok a ∧ Listed v (list + 4) addrs := by
  refine ⟨h 0 a rfl, fun j b hb => ?_⟩
  rw [Nat.add_assoc, Nat.add_comm 4, ← Nat.mul_succ]
  exact h (j + 1) b hb

/-- The rule that the selector gives is one of the list, and matches. -/
theorem mem_of_selectFrom (hr : v.raced = []) {cols : List Col} {dir : PacketDir} {x : Nat × Rule}
    {rules : List (Nat × Rule)} (hl : Listed v list (rules.map Prod.fst))
    (hrules : ∀ y ∈ rules, ruleAt v y.1 layer y.2 = true)
    (h : selectFrom v layer cols dir list rules.length = .ok (some x)) :
    x ∈ rules ∧ ruleMatches v x.2 cols dir = .ok true := by
  induction rules generalizing list with
  | nil => cases h
  | cons y rules ih =>
    obtain ⟨ha, hl⟩ := listed_cons hl
    obtain ⟨hy, hrules⟩ := List.forall_mem_cons.1 hrules
    rw [List.length_cons, selectFrom, bind_of_ok ha, bind_of_ok (readRule_of_ruleAt hr hy)] at h
    obtain ⟨m, hm, h⟩ := bind_eq_ok.1 h
    cases m with
    | true =>
      cases h
      exact ⟨List.mem_cons_self, hm⟩
    | false =>
      obtain ⟨hx, hmatch⟩ := ih hl hrules h
      exact ⟨List.mem_cons_of_mem _ hx, hmatch⟩

end

section
variable {v : View} {r : Regs} {k : Nat} {layer : Layer} {rules : List (Nat × Rule)}

/-- The rules of a layer that meet the conditions of R259: listed, readable, of fields that meet them, and no two with
one id. -/
theorem roundTripRules_iff : roundTripRules v r k layer rules = true ↔
    rulesListed v r k layer (rules.map Prod.fst) = true ∧
    (∀ x ∈ rules, ruleAt v x.1 layer x.2 = true ∧ ∀ f ∈ x.2.fields, roundTripField v f = true) ∧
    (rules.map fun x => x.2.ruleId).Nodup := by
  simp only [roundTripRules, Bool.and_eq_true, List.all_eq_true, decide_eq_true_eq, and_assoc]

variable (hr : v.raced = []) (h : roundTripRules v r k layer rules = true)
include hr h

theorem mem_of_selectRule {cols : List Col} {dir : PacketDir} {x : Nat × Rule}
    (hsel : selectRule v (r.devtabAddr.toNat + 32 * k) layer cols dir = .ok (some x)) :
    x ∈ rules ∧ ruleMatches v x.2 cols dir = .ok true := by
  obtain ⟨hlisted, hrules, -⟩ := roundTripRules_iff.1 h
  obtain ⟨list, hlist, hl⟩ := ruleList_of_rulesListed hr hlisted
  rw [selectRule, bind_of_ok hlist, List.length_map] at hsel
  exact mem_of_selectFrom hr hl (fun y hy => (hrules y hy).1) hsel

/-- Each of them is the one that its id finds. -/
theorem findRule_of_mem {x : Nat × Rule} (hx : x ∈ rules) :
    findRule v (r.devtabAddr.toNat + 32 * k) layer x.2.ruleId = .ok x.2 := by
  obtain ⟨hlisted, hrules, hnodup⟩ := roundTripRules_iff.1 h
  obtain ⟨i, hi⟩ := List.mem_iff_getElem?.1 hx
  refine (findRuleFirst v r k layer _ _ hr hlisted).1 i x.1 x.2 (by rw [List.getElem?_map, hi]; rfl) (hrules x hx).1 rfl
    fun j b hj hb => ?_
  rw [List.getElem?_map] at hb
  obtain ⟨y, hy, rfl⟩ := Option.map_eq_some_iff.1 hb
  refine ⟨y.2, (hrules y (List.mem_of_getElem? hy)).1, fun hid => ?_⟩
  have hlt : i < (rules.map fun x => x.2.ruleId).length := by
    rw [List.length_map]
    exact (List.getElem?_eq_some_iff.1 hi).1
  refine List.nodup_iff_getElem?_ne_getElem?.1 hnodup j i hj hlt ?_
  rw [List.getElem?_map, List.getElem?_map, hy, hi, Option.map_some, Option.map_some, hid]

end
end Sys2Proof.Machine
end

section
/-! The columns of a layer after its compression and decompression (44_rule_selection.md R204, R206, 46_pipeline.md
R259). -/

namespace Sys2Proof.Machine

/-- The fields that compression may defer to the patchers (R259): IPv6 LEN, UDP LEN and UDP CKSUM. -/
abbrev Deferrable (fid : Nat) : Prop := fid = 0x04 ∨ fid = 0x13 ∨ fid = 0x14

/-- Decompression gives a column back, or zeros for one that compression deferred. -/
def Restored (c c' : Col) : Prop := c' = c ∨ Deferrable c.fid ∧ c' = ⟨c.fid, zeros 2⟩

/-- A column's integer is within the natural width of its field (30_encoding.md R82). -/
def WithinWidth (c : Col) : Prop := ∀ w, naturalBits c.fid = some w → be c.val < 2 ^ w

/-! ## The conditions of R259 on a field -/

section
variable {v : View} {f : Desc} (hf : roundTripField v f = true)
include hf

/-- A field has its natural width, or whole bytes where its width varies. -/
theorem bits_of_roundTripField :
    (∀ w, naturalBits f.fid = some w → f.bits = w) ∧ (naturalBits f.fid = none → f.bits % 8 = 0) := by
  rw [roundTripField, Bool.and_eq_true] at hf
  obtain ⟨hbits, -⟩ := hf
  refine ⟨fun w hw => ?_, fun hw => ?_⟩ <;> rw [hw] at hbits <;> exact beq_iff_eq.1 hbits

theorem mo_of_roundTripField_omit (h : f.cda = .omit) : f.mo = .equal ∨ f.mo = .msb ∧ f.par = f.bits := by
  simp only [roundTripField, h, Bool.and_eq_true, Bool.or_eq_true, beq_iff_eq] at hf
  exact hf.2

theorem mo_of_roundTripField_sendLsb (h : f.cda = .sendLsb) :
    (f.mo = .equal ∨ f.mo = .msb) ∧ num v f.taddr f.tlen < 2 ^ f.bits := by
  simp only [roundTripField, h, Bool.and_eq_true, Bool.or_eq_true, beq_iff_eq, decide_eq_true_eq] at hf
  exact hf.2

theorem deferrable_of_roundTripField (h : f.cda = .deferLength ∨ f.cda = .deferChecksum) : Deferrable f.fid := by
  rcases h with h | h
  all_goals
    simp only [roundTripField, h, Bool.and_eq_true, Bool.or_eq_true, beq_iff_eq, or_assoc] at hf
    exact hf.2

/-- A value of as many bytes as the field's width takes has no bit above that width. -/
theorem be_lt_of_roundTripField {c : Col} (hfid : f.fid = c.fid) (hc : WithinWidth c)
    (hlen : c.val.length = nb f.bits) : be c.val < 2 ^ f.bits := by
  obtain ⟨hnatural, hwhole⟩ := bits_of_roundTripField hf
  cases hw : naturalBits f.fid with
  | some w =>
    rw [hnatural w hw]
    exact hc w (hfid ▸ hw)
  | none =>
    have hlt := be_lt_of_length hlen
    have h8 := hwhole hw
    rwa [pow_256, show 8 * nb f.bits = f.bits by unfold nb; omega] at hlt

end

/-! ## The columns of a layer -/

section
variable {v : View} {iid : Bytes}

/-- A field that meets the conditions of R259 is restored from its residue, whatever follows it. -/
theorem decompressField_restored {f : Desc} {c : Col} {out : Bytes} (hm : FieldMatches v f c)
    (hout : compressField v iid c.val f = .ok out) (hf : roundTripField v f = true) (hc : WithinWidth c)
    (rest : Bytes) :
    ∃ val, decompressField v iid (out ++ rest) f = .ok (out.length, val) ∧ Restored c ⟨f.fid, val⟩ := by
  obtain ⟨⟨hfid, -⟩, x, hpred⟩ := hm
  by_cases hdefer : f.cda = .deferLength ∨ f.cda = .deferChecksum
  · have hd := deferrable_of_roundTripField hf hdefer
    have hbits : f.bits = 16 := by
      refine (bits_of_roundTripField hf).1 16 ?_
      rcases hd with h | h | h <;> rw [h] <;> rfl
    have hzeros : decompressField v iid (out ++ rest) f = .ok (out.length, zeros (nb f.bits)) := by
      rcases hdefer with h | h <;> simp only [compressField, h] at hout <;> cases hout <;>
        simp only [decompressField, h] <;> rfl
    rw [hbits] at hzeros
    exact ⟨_, hzeros, Or.inr ⟨hfid ▸ hd, by rw [hfid]; rfl⟩⟩
  · obtain ⟨hlength, hchecksum⟩ := not_or.1 hdefer
    refine ⟨c.val, fieldRoundTrip v iid c.val out rest f x hpred hout (mo_of_roundTripField_omit hf) (fun hlsb => ?_)
      hlength hchecksum, Or.inl (by rw [hfid])⟩
    obtain ⟨hmo, hnum⟩ := mo_of_roundTripField_sendLsb hf hlsb
    simp only [compressField, hlsb] at hout
    exact hmo.imp_right fun hmsb =>
      ⟨hmsb, be_lt_of_roundTripField hf hfid hc (cactLsb_eq_ok.1 hout).2.1, hnum⟩

/-- The columns of a layer whose rule meets the conditions are restored from its residues, whatever follows them. -/
theorem decompressFields_restored {fs : List Desc} {cs : List Col} {res : Bytes} (hlen : fs.length = cs.length)
    (hm : AllPairs (FieldMatches v) fs cs) (hres : compressFields v iid fs cs = .ok res)
    (hfs : ∀ f ∈ fs, roundTripField v f = true) (hcs : ∀ c ∈ cs, WithinWidth c) (rest : Bytes) :
    ∃ cols, decompressFields v iid fs (res ++ rest) = .ok (res.length, cols) ∧ List.Forall₂ Restored cs cols := by
  induction fs generalizing cs res with
  | nil =>
    obtain rfl : cs = [] := List.length_eq_zero_iff.1 hlen.symm
    cases hres
    exact ⟨[], rfl, .nil⟩
  | cons f fs ih =>
    obtain ⟨c, cs, rfl⟩ := List.exists_cons_of_length_eq_add_one hlen.symm
    obtain ⟨hfc, hm⟩ := allPairs_cons.1 hm
    obtain ⟨hf, hfs⟩ := List.forall_mem_cons.1 hfs
    obtain ⟨hc, hcs⟩ := List.forall_mem_cons.1 hcs
    rw [compressFields, if_neg (mt pairs_eq_false_iff.1 (not_not.2 hfc.1))] at hres
    obtain ⟨out, hout, hres⟩ := bind_eq_ok.1 hres
    obtain ⟨outs, houts, hres⟩ := bind_eq_ok.1 hres
    cases hres
    obtain ⟨val, hval, hrestored⟩ := decompressField_restored hfc hout hf hc (outs ++ rest)
    obtain ⟨cols, hcols, hall⟩ := ih (Nat.succ.inj hlen) hm houts hfs hcs
    refine ⟨⟨f.fid, val⟩ :: cols, ?_, .cons hrestored hall⟩
    rw [decompressFields, List.append_assoc, bind_of_ok hval]
    dsimp only
    rw [List.drop_left, bind_of_ok hcols, List.length_append]
    rfl

end
end Sys2Proof.Machine
end

section
/-! The columns of a flattened header and what is restored of them: the header, its deferred fields zero
(46_pipeline.md R259). -/

namespace Sys2Proof.Machine

/-! ## Columns within their natural width (30_encoding.md R82) -/

/-- A value of at most the bytes of its field's width is within it. -/
theorem withinWidth_of_length_le {c : Col} {n : Nat} (hw : naturalBits c.fid = some (8 * n)) (h : c.val.length ≤ n) :
    WithinWidth c := fun w hw' => by
  obtain rfl := Option.some.inj (hw.symm.trans hw')
  exact pow_256 n ▸ (be_lt c.val).trans_le (Nat.pow_le_pow_right (by decide) h)

theorem withinWidth_of_lt {fid n k w : Nat} (hw : naturalBits fid = some w) (h : n < 2 ^ w) (hk : w ≤ 8 * k) :
    WithinWidth ⟨fid, bytesBE k n⟩ := fun w' hw' => by
  obtain rfl := Option.some.inj (hw.symm.trans hw')
  have hlt : n < 256 ^ k := h.trans_le (pow_256 k ▸ Nat.pow_le_pow_right (by decide) hk)
  rwa [be_bytesBE, Nat.mod_eq_of_lt hlt]

theorem length_slice_le (s : Bytes) (i n : Nat) : (slice s i n).length ≤ n := List.length_take_le ..

theorem withinWidth_flatten6 (h : Bytes) (dir : PacketDir) : ∀ c ∈ flatten6 h dir, WithinWidth c := by
  simp only [flatten6, List.forall_mem_cons]
  refine ⟨withinWidth_of_lt rfl (Nat.mod_lt _ (by decide)) (by decide),
    withinWidth_of_lt rfl (Nat.mod_lt _ (by decide)) (by decide),
    withinWidth_of_lt rfl (Nat.mod_lt _ (by decide)) (by decide), ?_, ?_, ?_, ?_, ?_, ?_, ?_, List.forall_mem_nil _⟩
  all_goals exact withinWidth_of_length_le rfl (length_slice_le ..)

theorem withinWidth_flattenU (h : Bytes) (dir : PacketDir) : ∀ c ∈ flattenU h dir, WithinWidth c := by
  cases dir <;> simp only [flattenU, orient, List.forall_mem_cons]
  all_goals refine ⟨?_, ?_, ?_, ?_, List.forall_mem_nil _⟩
  all_goals exact withinWidth_of_length_le (n := 2) rfl (length_slice_le ..)

/-- The width of an option's value varies. -/
theorem naturalBits_option (n : Nat) : naturalBits (0x100 + n) = none := by
  unfold naturalBits
  split
  case h_21 => rfl
  all_goals omega

theorem withinWidth_flattenC {table : List Nat} {h : CoapHeader} (hallowed : headerAllowed table h = true) :
    ∀ c ∈ flattenC h, WithinWidth c := by
  obtain ⟨hver, htyp, htkl, -, hmid, -⟩ := headerAllowed_iff.1 hallowed
  simp only [flattenC_eq, columnsAfterToken, List.forall_mem_cons, List.forall_mem_append, List.forall_mem_map]
  refine ⟨withinWidth_of_lt rfl (by omega) (by decide), withinWidth_of_lt rfl htyp (by decide),
    withinWidth_of_lt rfl (by omega) (by decide), withinWidth_of_length_le rfl le_rfl,
    withinWidth_of_length_le rfl hmid.le, fun w hw => (nomatch hw), fun o _ w hw => ?_, fun c hc => ?_⟩
  · rw [optionColumn, naturalBits_option] at hw
    cases hw
  · split at hc
    · obtain rfl := List.mem_singleton.1 hc
      exact withinWidth_of_length_le rfl le_rfl
    · cases hc

/-! ## Byte strings with a part replaced -/

section
variable {buf s t : Bytes} {i k n : Nat} (hfit : i + s.length ≤ buf.length)
include hfit

theorem getElem?_patchAt (j : Nat) :
    (patchAt buf i s)[j]? = if i ≤ j ∧ j < i + s.length then s[j - i]? else buf[j]? := by
  have htake : (buf.take i).length = i := List.length_take_of_le (by omega)
  rw [patchAt, List.append_assoc, List.getElem?_append, htake]
  split
  · rw [if_neg (by omega), List.getElem?_take_of_lt (by omega)]
  · rw [List.getElem?_append]
    split
    · rw [if_pos (by omega)]
    · rw [if_neg (by omega), List.getElem?_drop]
      congr 1
      omega

/-- Bytes beside the replaced part are as before. -/
theorem slice_patchAt_of_disjoint (h : k + n ≤ i ∨ i + s.length ≤ k) : slice (patchAt buf i s) k n = slice buf k n := by
  refine List.ext_getElem? fun j => ?_
  simp only [slice, List.getElem?_take, List.getElem?_drop]
  split
  · rw [getElem?_patchAt hfit, if_neg (by omega)]
  · rfl

theorem slice_patchAt_self : slice (patchAt buf i s) i s.length = s := by
  have htake : (buf.take i).length = i := List.length_take_of_le (by omega)
  rw [slice, patchAt, List.append_assoc, List.drop_left' htake, List.take_left]

theorem patchAt_patchAt (h : t.length = s.length) : patchAt (patchAt buf i s) i t = patchAt buf i t := by
  refine List.ext_getElem? fun j => ?_
  have hfit' : i + t.length ≤ buf.length := h ▸ hfit
  rw [getElem?_patchAt (length_patchAt hfit ▸ hfit'), getElem?_patchAt hfit, getElem?_patchAt hfit', h]
  split <;> rfl

theorem patchAt_append_left (t : Bytes) : patchAt (buf ++ t) i s = patchAt buf i s ++ t := by
  rw [patchAt, patchAt, List.take_append_of_le_length (by omega), List.drop_append_of_le_length hfit,
    List.append_assoc (buf.take i ++ s)]

end

theorem patchAt_append_right (t buf s : Bytes) (i : Nat) :
    patchAt (t ++ buf) (t.length + i) s = t ++ patchAt buf i s := by
  simp only [patchAt, List.take_length_add_append, Nat.add_assoc, List.drop_length_add_append, List.append_assoc]

/-- Bytes replaced by themselves. -/
theorem patchAt_slice (buf : Bytes) {i n : Nat} (h : i + n ≤ buf.length) : patchAt buf i (slice buf i n) = buf := by
  rw [patchAt, length_slice _ _ _ h, slice, List.append_assoc, ← List.drop_drop, List.take_append_drop,
    List.take_append_drop]

/-! ## Headers with deferred fields -/

/-- A buffer whose two bytes at `i` are zero where `b`. -/
def blankIf (b : Bool) (i : Nat) (buf : Bytes) : Bytes := if b then patchAt buf i (zeros 2) else buf

section
variable {buf : Bytes} {i k n : Nat} (hfit : i + 2 ≤ buf.length) (b : Bool)
include hfit

theorem length_blankIf : (blankIf b i buf).length = buf.length := by
  cases b
  · rfl
  · exact length_patchAt hfit

theorem slice_blankIf (h : k + n ≤ i ∨ i + 2 ≤ k) : slice (blankIf b i buf) k n = slice buf k n := by
  cases b
  · rfl
  · exact slice_patchAt_of_disjoint hfit h

theorem slice_blankIf_self : slice (blankIf b i buf) i 2 = if b then zeros 2 else slice buf i 2 := by
  cases b
  · rfl
  · exact slice_patchAt_self hfit

theorem blankIf_append_left (t : Bytes) : blankIf b i (buf ++ t) = blankIf b i buf ++ t := by
  cases b
  · rfl
  · exact patchAt_append_left hfit t

end

theorem blankIf_append_right (b : Bool) (t buf : Bytes) (i : Nat) :
    blankIf b (t.length + i) (t ++ buf) = t ++ blankIf b i buf := by
  cases b
  · rfl
  · exact patchAt_append_right t buf (zeros 2) i

/-! ## The columns restored -/

theorem restored_iff_of_not_deferrable {fid : Nat} {s : Bytes} {c' : Col} (h : ¬ Deferrable fid) :
    Restored ⟨fid, s⟩ c' ↔ c' = ⟨fid, s⟩ := by
  simp only [Restored, h, false_and, or_false]

/-- A column of two bytes is restored, or zero. -/
theorem exists_of_restored {fid : Nat} {s : Bytes} {c' : Col} (h : Restored ⟨fid, s⟩ c') :
    ∃ b : Bool, c' = ⟨fid, if b then zeros 2 else s⟩ := by
  rcases h with rfl | ⟨-, rfl⟩
  · exact ⟨false, rfl⟩
  · exact ⟨true, rfl⟩

section
variable {h : Bytes} {dir : PacketDir} {cols : List Col}

/-- What is restored of the columns of an IPv6 header are those of the header, its LEN zero where it was deferred. -/
theorem eq_flatten6_of_restored (hlen : h.length = 40) (hcols : List.Forall₂ Restored (flatten6 h dir) cols) :
    ∃ b, cols = flatten6 (blankIf b 4 h) dir := by
  have hfit : 4 + 2 ≤ h.length := by omega
  cases dir <;>
    simp (disch := decide) only [flatten6, orient, List.forall₂_cons_left_iff, List.forall₂_nil_left_iff,
      restored_iff_of_not_deferrable, exists_eq_left, exists_and_left] at hcols ⊢
  all_goals
    obtain ⟨_, ⟨_, ⟨_, ⟨c, hc, rfl⟩, rfl⟩, rfl⟩, rfl⟩ := hcols
    obtain ⟨b, rfl⟩ := exists_of_restored hc
    refine ⟨b, ?_⟩
    simp (disch := decide) only [fieldAt, slice_blankIf hfit, slice_blankIf_self hfit]

/-- What is restored of the columns of a UDP header are those of the header, its LEN and CKSUM zero where they were
deferred. -/
theorem eq_flattenU_of_restored (hlen : h.length = 8) (hcols : List.Forall₂ Restored (flattenU h dir) cols) :
    ∃ b b', cols = flattenU (blankIf b 4 (blankIf b' 6 h)) dir := by
  have hfit' : 6 + 2 ≤ h.length := by omega
  have hfit (b : Bool) : 4 + 2 ≤ (blankIf b 6 h).length := by rw [length_blankIf hfit']; omega
  cases dir <;>
    simp (disch := decide) only [flattenU, orient, List.forall₂_cons_left_iff, List.forall₂_nil_left_iff,
      restored_iff_of_not_deferrable, exists_eq_left, exists_and_left] at hcols ⊢
  all_goals
    obtain ⟨_, ⟨_, ⟨c, hc, _, ⟨c', hc', rfl⟩, rfl⟩, rfl⟩, rfl⟩ := hcols
    obtain ⟨b, rfl⟩ := exists_of_restored hc
    obtain ⟨b', rfl⟩ := exists_of_restored hc'
    refine ⟨b, b', ?_⟩
    simp (disch := decide) only [slice_blankIf (hfit _), slice_blankIf_self (hfit _), slice_blankIf hfit',
      slice_blankIf_self hfit']

end

/-- Columns of which none can be deferred are restored as they were. -/
theorem eq_of_restored {cs cols : List Col} (hcols : List.Forall₂ Restored cs cols)
    (hcs : ∀ c ∈ cs, ¬ Deferrable c.fid) : cols = cs := by
  induction hcols with
  | nil => rfl
  | cons h _ ih =>
    obtain ⟨hc, hcs⟩ := List.forall_mem_cons.1 hcs
    rw [ih hcs, (restored_iff_of_not_deferrable hc).1 h]

theorem not_deferrable_flattenC (h : CoapHeader) : ∀ c ∈ flattenC h, ¬ Deferrable c.fid := by
  simp only [flattenC_eq, columnsAfterToken, List.forall_mem_cons, List.forall_mem_append, List.forall_mem_map]
  refine ⟨by decide, by decide, by decide, by decide, by decide, by decide, fun o _ => ?_, fun c hc => ?_⟩
  · unfold Deferrable optionColumn
    dsimp only
    omega
  · split at hc
    · obtain rfl := List.mem_singleton.1 hc
      exact (by decide : ¬ Deferrable 0x27)
    · cases hc

end Sys2Proof.Machine
end

section
/-! Packets of `COMP` and `DECOMP`, layer after layer (46_pipeline.md R253, R255). -/

namespace Sys2Proof.Machine

/-! ## The compressed packet (R253) -/

/-- The CoAP layer of `COMP`: verbatim where the codec does not accept the message (R252). -/
def packCoap (v : View) (r : Regs) (dev : Nat) (tail : Bytes) (dir : PacketDir) : Comp (Option (Nat × Bytes)) :=
  match coapParse v tail with
  | none => .ok none
  | some p => packLayer v r dev .coap (flattenC p.header) dir

/-- The CoAP part of the compressed packet: the residue and the payload, or the message verbatim. -/
def packedCoap (v : View) (tail : Bytes) (o : Option (Nat × Bytes)) : Bytes :=
  match o, coapParse v tail with
  | some (_, res), some p => res ++ tail.drop p.hlen
  | _, _ => tail

/-- What `COMP` gives for the outcomes of the three layers: the id byte and the bytes. -/
def packedPacket (v : View) (r : Regs) (pkt : Bytes) (o2 o1 o0 : Option (Nat × Bytes)) : Nat × Bytes :=
  (packRuleId (r.aux.toNat % 2) (packedId o2) (packedId o1) (packedId o0),
    BitVec.ofNat 8 (packRuleId (r.aux.toNat % 2) (packedId o2) (packedId o1) (packedId o0)) ::
      (packedPart (slice pkt 0 40) o0 ++ packedPart (slice pkt 40 8) o1 ++ packedCoap v (pkt.drop 48) o2))

section
variable {v : View} {r : Regs} {dev : Nat} {pkt : Bytes} {dir : PacketDir}

theorem compressPacket_eq : compressPacket v r dev pkt dir = (do
    let o2 ← packCoap v r dev (pkt.drop 48) dir
    let o1 ← packLayer v r dev .udp (flattenU (slice pkt 40 8) dir) dir
    let o0 ← packLayer v r dev .ip6 (flatten6 (slice pkt 0 40) dir) dir
    return packedPacket v r pkt o2 o1 o0) := by
  unfold packCoap packedPacket packedCoap
  dsimp only [compressPacket]
  cases coapParse v (pkt.drop 48) <;> rfl

end

/-! ## The packet rebuilt (R255) -/

section
variable {v : View} {q : Regs} {dev : Nat} {dir : PacketDir}

/-- A compressed packet of three parts whose sizes are those of the rules that its id byte names is rebuilt part by
part. -/
theorem decompressPacket_of_parts {b0 : Byte} {p0 p1 p2 h0 h1 h2 : Bytes} {rule0 rule1 rule2 : Option Rule}
    {k0 k1 k2 : Nat} (hlen : q.len.toNat = (b0 :: (p0 ++ p1 ++ p2)).length)
    (hname2 : namedRule v dev .coap (ruleIdField b0.toNat .coap) = .ok rule2)
    (hname1 : namedRule v dev .udp (ruleIdField b0.toNat .udp) = .ok rule1)
    (hname0 : namedRule v dev .ip6 (ruleIdField b0.toNat .ip6) = .ok rule0)
    (hsize0 : partSize 40 rule0 dir = .ok p0.length) (hsize1 : partSize 8 rule1 dir = .ok p1.length)
    (hu2 : unpackLayer v q .coap rule2 p2 dir = .ok (k2, h2)) (hu1 : unpackLayer v q .udp rule1 p1 dir = .ok (k1, h1))
    (hu0 : unpackLayer v q .ip6 rule0 p0 dir = .ok (k0, h0)) :
    decompressPacket v q dev (b0 :: (p0 ++ p1 ++ p2)) dir = .ok (h0 ++ h1 ++ h2 ++ p2.drop k2) := by
  have hb0 : fieldAt (b0 :: (p0 ++ p1 ++ p2)) 0 1 = b0.toNat := by simp [fieldAt, slice, be]
  have hp2 : (b0 :: (p0 ++ p1 ++ p2)).drop (1 + p0.length + p1.length) = p2 := by
    rw [Nat.add_assoc, Nat.add_comm, List.drop_succ_cons, ← List.length_append, List.drop_left]
  have hp1 : slice (b0 :: (p0 ++ p1 ++ p2)) (1 + p0.length) p1.length = p1 := by
    rw [slice, Nat.add_comm, List.drop_succ_cons, List.append_assoc, List.drop_left, List.take_left]
  have hp0 : slice (b0 :: (p0 ++ p1 ++ p2)) 1 p0.length = p0 := by
    rw [slice, List.drop_one, List.tail_cons, List.append_assoc, List.take_left]
  have hfit : ¬ q.len.toNat < 1 + p0.length + p1.length := by
    simp only [hlen, List.length_cons, List.length_append]
    omega
  rw [decompressPacket, hb0, bind_of_ok hname2, bind_of_ok hname1, bind_of_ok hname0, bind_of_ok hsize0,
    bind_of_ok hsize1, if_neg hfit, hp2, hp1, hp0, bind_of_ok hu2]
  dsimp only
  rw [bind_of_ok hu1, bind_of_ok hu0]
  rfl

end

/-! ## One layer after the other (R259) -/

/-- The outcome `o` of a layer of `COMP` and the rule that `DECOMP` finds for its id: none for verbatim, else the one
whose residue restores the columns. -/
inductive LayerRestores (v : View) (iid : Bytes) (dev : Nat) (layer : Layer) (dir : PacketDir) (cols : List Col) :
    Option (Nat × Bytes) → Option Rule → Prop
  | verbatim : LayerRestores v iid dev layer dir cols none none
  | residue {res : Bytes} {rule : Rule} (hid : 1 ≤ rule.ruleId ∧ rule.ruleId ≤ layer.maxRuleId)
      (hfind : findRule v dev layer rule.ruleId = .ok rule)
      (hrestored : ∀ rest, ∃ cols', decompressLayer v iid rule (res ++ rest) dir = .ok (res.length, cols') ∧
        List.Forall₂ Restored cols cols') :
      LayerRestores v iid dev layer dir cols (some (rule.ruleId, res)) (some rule)

theorem ruleId_of_ruleAt {v : View} {a : Nat} {layer : Layer} {rule : Rule} (h : ruleAt v a layer rule = true) :
    1 ≤ rule.ruleId ∧ rule.ruleId ≤ layer.maxRuleId := by
  simp only [ruleAt, Bool.and_eq_true, decide_eq_true_eq] at h
  obtain ⟨⟨⟨-, hlo⟩, hhi⟩, -⟩ := h
  exact ⟨hlo, by cases layer <;> exact hhi⟩

/-- With rules that meet the conditions of R259, every outcome of a layer restores its columns. -/
theorem exists_layerRestores {v : View} {r : Regs} {k : Nat} {layer : Layer} {rules : List (Nat × Rule)}
    {cols : List Col} {dir : PacketDir} {o : Option (Nat × Bytes)} (hr : v.raced = [])
    (hrules : roundTripRules v r k layer rules = true) (hcols : ∀ c ∈ cols, WithinWidth c)
    (h : LayerPacked v r (r.devtabAddr.toNat + 32 * k) layer cols dir o) :
    ∃ rule, LayerRestores v (iidOf r) (r.devtabAddr.toNat + 32 * k) layer dir cols o rule := by
  cases o with
  | none => exact ⟨none, .verbatim⟩
  | some x =>
    obtain ⟨id, res⟩ := x
    obtain ⟨-, a, rule, hsel, rfl, hres⟩ := h
    obtain ⟨hmem, hmatch⟩ := mem_of_selectRule hr hrules hsel
    obtain ⟨-, hall, -⟩ := roundTripRules_iff.1 hrules
    obtain ⟨hrule, hfields⟩ := hall _ hmem
    obtain ⟨hlen, hpairs⟩ := (ruleMatching v rule cols dir).1.1 hmatch
    refine ⟨some rule, .residue ?_ (findRule_of_mem hr hrules hmem) fun rest => ?_⟩
    · exact ruleId_of_ruleAt hrule
    · rw [decompressLayer, applicable_eq_applying]
      rw [compressLayer_of_length_eq hlen] at hres
      exact decompressFields_restored hlen hpairs hres (fun f hf => hfields f (List.mem_of_mem_filter hf)) hcols rest

section
variable {v : View} {q : Regs} {dev : Nat} {layer : Layer} {dir : PacketDir} {cols : List Col}
  {o : Option (Nat × Bytes)} {rule : Option Rule}

theorem packedId_le (h : LayerRestores v (iidOf q) dev layer dir cols o rule) : packedId o ≤ layer.maxRuleId := by
  cases h with
  | verbatim => exact Nat.zero_le _
  | residue hid => exact hid.2

theorem namedRule_of_layerRestores (h : LayerRestores v (iidOf q) dev layer dir cols o rule) :
    namedRule v dev layer (packedId o) = .ok rule := by
  cases h with
  | verbatim => rfl
  | residue hid hfind => exact namedRule_of_layerNamed ⟨Nat.pos_iff_ne_zero.1 hid.1, hfind⟩

theorem partSize_of_layerRestores {h : Bytes} {n : Nat} (hlen : h.length = n)
    (hL : LayerRestores v (iidOf q) dev layer dir cols o rule) :
    partSize n rule dir = .ok (packedPart h o).length := by
  cases hL with
  | verbatim => exact congrArg _ hlen.symm
  | residue _ _ hrestored =>
    obtain ⟨cols', hcols', -⟩ := hrestored []
    exact (decompressFields_consumes hcols').2.1

theorem unpackLayer_ip6_restores {h : Bytes} (hlen : h.length = 40)
    (hsize : bytesUsed (flatten6 h dir) ≤ q.ctxSize.toNat)
    (hL : LayerRestores v (iidOf q) dev .ip6 dir (flatten6 h dir) o rule) :
    ∃ k b, unpackLayer v q .ip6 rule (packedPart h o) dir = .ok (k, blankIf b 4 h) := by
  cases hL with
  | verbatim => exact ⟨_, false, rfl⟩
  | residue _ _ hrestored =>
    obtain ⟨cols', hcols', hall⟩ := hrestored []
    obtain ⟨b, rfl⟩ := eq_flatten6_of_restored hlen hall
    have hblank : (blankIf b 4 h).length = 40 := (length_blankIf (by omega) b).trans hlen
    rw [List.append_nil] at hcols'
    refine ⟨_, b, unpackLayer_of_layerUnpacked ⟨_, hcols', ?_, assemble6_flatten6 hblank⟩⟩
    rwa [bytesUsed_flatten6 dir hblank, ← bytesUsed_flatten6 dir hlen]

theorem unpackLayer_udp_restores {h : Bytes} (hlen : h.length = 8)
    (hsize : bytesUsed (flattenU h dir) ≤ q.ctxSize.toNat)
    (hL : LayerRestores v (iidOf q) dev .udp dir (flattenU h dir) o rule) :
    ∃ k b b', unpackLayer v q .udp rule (packedPart h o) dir = .ok (k, blankIf b 4 (blankIf b' 6 h)) := by
  cases hL with
  | verbatim => exact ⟨_, false, false, rfl⟩
  | residue _ _ hrestored =>
    obtain ⟨cols', hcols', hall⟩ := hrestored []
    obtain ⟨b, b', rfl⟩ := eq_flattenU_of_restored hlen hall
    have hblank' : (blankIf b' 6 h).length = 8 := (length_blankIf (by omega) b').trans hlen
    have hblank : (blankIf b 4 (blankIf b' 6 h)).length = 8 := (length_blankIf (by omega) b).trans hblank'
    rw [List.append_nil] at hcols'
    refine ⟨_, b, b', unpackLayer_of_layerUnpacked ⟨_, hcols', ?_, assembleU_flattenU hblank⟩⟩
    rwa [bytesUsed_flattenU dir hblank, ← bytesUsed_flattenU dir hlen]

end

/-- The CoAP part of the compressed packet gives the CoAP message back. -/
theorem unpackLayer_coap_restores {v : View} {r q : Regs} {k : Nat} {dir : PacketDir} {tail : Bytes}
    {o : Option (Nat × Bytes)} {rules : List (Nat × Rule)} (hcodec : v.codec = .reference) (hr : v.raced = [])
    (hrules : roundTripRules v r k .coap rules = true) (hiid : iidOf q = iidOf r) (hctx : q.ctxSize = r.ctxSize)
    (h : packCoap v r (r.devtabAddr.toNat + 32 * k) tail dir = .ok o) :
    ∃ rule cols, LayerRestores v (iidOf q) (r.devtabAddr.toNat + 32 * k) .coap dir cols o rule ∧
    ∃ n hdr, unpackLayer v q .coap rule (packedCoap v tail o) dir = .ok (n, hdr) ∧
      hdr ++ (packedCoap v tail o).drop n = tail := by
  have hverbatim : ∃ n hdr, unpackLayer v q .coap none tail dir = .ok (n, hdr) ∧ hdr ++ tail.drop n = tail :=
    ⟨_, _, rfl, by rw [List.drop_length, List.append_nil]⟩
  unfold packCoap at h
  unfold packedCoap
  cases hp : coapParse v tail with
  | none =>
    rw [hp] at h
    cases h
    exact ⟨none, [], .verbatim, hverbatim⟩
  | some p =>
    rw [hp] at h
    obtain ⟨hassemble, hle⟩ := assembleInvertsFlatten.2.2.1 v tail p hcodec hp
    rw [coapParse, hcodec] at hp
    obtain ⟨-, -, hallowed, -⟩ := spellHeader_of_refParse hp
    have hpacked := packLayer_eq_ok.1 h
    obtain ⟨rule, hL⟩ := exists_layerRestores hr hrules (withinWidth_flattenC hallowed) hpacked
    rw [hiid]
    refine ⟨rule, _, hL, ?_⟩
    cases hL with
    | verbatim => exact hverbatim
    | @residue res rule _ _ hrestored =>
      obtain ⟨cols', hcols', hall⟩ := hrestored (tail.drop p.hlen)
      obtain rfl := eq_of_restored hall (not_deferrable_flattenC _)
      have hunpacked :
          LayerUnpacked v q .coap (some rule) (res ++ tail.drop p.hlen) dir res.length (tail.take p.hlen) :=
        ⟨flattenC p.header, hiid.symm ▸ hcols', hctx.symm ▸ hpacked.1, hassemble⟩
      refine ⟨_, _, unpackLayer_of_layerUnpacked hunpacked, ?_⟩
      dsimp only
      rw [List.drop_left, List.take_append_drop]

end Sys2Proof.Machine
end

section
/-! The patchers as functions of the packet (46_pipeline.md R256 to R258). -/

namespace Sys2Proof.Machine

/-! ## Two-byte fields -/

@[simp] theorem be_zeros (n : Nat) : be (zeros n) = 0 := by
  induction n with
  | zero => rfl
  | succ n ih =>
    rw [zeros, List.replicate_succ, be_cons, BitVec.toNat_zero, Nat.zero_mul, Nat.zero_add]
    exact ih

/-- A string is all zero exactly if its integer is. -/
theorem eq_zeros_iff {s : Bytes} {n : Nat} (h : s.length = n) : s = zeros n ↔ be s = 0 :=
  ⟨fun hs => hs ▸ be_zeros n,
    fun hs => be_injective_of_length (h.trans (length_zeros n).symm) (hs.trans (be_zeros n).symm)⟩

theorem slice_eq_zeros_iff {buf : Bytes} {i : Nat} (hfit : i + 2 ≤ buf.length) :
    slice buf i 2 = [0#8, 0#8] ↔ be (slice buf i 2) = 0 := eq_zeros_iff (length_slice buf i 2 hfit)

/-! ## Lengths (R256) -/

/-- What a length field at `i` is patched to: `n - 40` where it is zero. -/
theorem patchLenAt_of_zero {buf : Bytes} {i : Nat} (hfit : i + 2 ≤ buf.length) (h : be (slice buf i 2) = 0) :
    patchLenAt buf i = (patchAt buf i (bytesBE 2 (buf.length - 40)), true) :=
  if_pos ((slice_eq_zeros_iff hfit).2 h)

theorem patchLenAt_of_nonzero {buf : Bytes} {i : Nat} (hfit : i + 2 ≤ buf.length) (h : be (slice buf i 2) ≠ 0) :
    patchLenAt buf i = (buf, false) :=
  if_neg (mt (slice_eq_zeros_iff hfit).1 h)

theorem checkPatchLength_of_legal {n : Nat} (h48 : 48 ≤ n) (hmax : n - 40 ≤ 0xFFFF) : checkPatchLength n = .ok () :=
  if_neg (by omega)

/-- In a packet of legal length both length fields are patched. -/
theorem patchLen_of_legal {buf : Bytes} (h48 : 48 ≤ buf.length) (hmax : buf.length - 40 ≤ 0xFFFF) :
    patchLen buf = .ok ((patchLenAt (patchLenAt buf 4).1 44).1,
      (patchLenAt buf 4).2.toNat + 2 * (patchLenAt (patchLenAt buf 4).1 44).2.toNat) :=
  bind_of_ok (checkPatchLength_of_legal h48 hmax)

/-! ## The checksum (R257, R258) -/

theorem patchChk_of_nonzero {buf : Bytes} (h48 : 48 ≤ buf.length) (hmax : buf.length - 40 ≤ 0xFFFF)
    (h : be (slice buf 46 2) ≠ 0) : patchChk buf = .ok (buf, 0, fieldAt buf 46 2) :=
  (bind_of_ok (checkPatchLength_of_legal h48 hmax)).trans (if_pos (mt (slice_eq_zeros_iff h48).1 h))

theorem patchChk_of_zero {buf : Bytes} (h48 : 48 ≤ buf.length) (hmax : buf.length - 40 ≤ 0xFFFF)
    (h : be (slice buf 46 2) = 0) : patchChk buf = .ok (patchAt buf 46 (bytesBE 2 (checksum buf)), 1, checksum buf) :=
  (bind_of_ok (checkPatchLength_of_legal h48 hmax)).trans (if_neg (not_not.2 ((slice_eq_zeros_iff h48).2 h)))

/-- The checksum fits its field and is never zero, so a patched field is not patched again. -/
theorem checksum_bounds (buf : Bytes) : 1 ≤ checksum buf ∧ checksum buf ≤ 0xFFFF := by
  unfold checksum
  dsimp only
  split <;> omega

/-! ## Patching what was deferred (R259) -/

/-- A field with its own value is restored. -/
theorem patchAt_blank {buf s : Bytes} {i : Nat} (hfit : i + 2 ≤ buf.length) (hs : s = slice buf i 2) :
    patchAt (patchAt buf i (zeros 2)) i s = buf := by
  rw [hs, patchAt_patchAt hfit (length_slice buf i 2 hfit), patchAt_slice buf hfit]

theorem eq_bytesBE_slice {buf : Bytes} {i n : Nat} (hfit : i + 2 ≤ buf.length) (h : be (slice buf i 2) = n) :
    bytesBE 2 n = slice buf i 2 := by
  have hbytes := bytesBE_be (slice buf i 2)
  rwa [length_slice buf i 2 hfit, h] at hbytes

/-- A length field that holds what `PLEN` computes is patched back to it. -/
theorem patchLenAt_blankIf {buf : Bytes} {i : Nat} (hfit : i + 2 ≤ buf.length) (h40 : 40 < buf.length)
    (h : be (slice buf i 2) = buf.length - 40) (b : Bool) : (patchLenAt (blankIf b i buf) i).1 = buf := by
  cases b with
  | false =>
    refine congrArg Prod.fst (patchLenAt_of_nonzero hfit ?_)
    omega
  | true =>
    have hlen : (blankIf true i buf).length = buf.length := length_blankIf hfit true
    have hzero : be (slice (blankIf true i buf) i 2) = 0 := by rw [slice_blankIf_self hfit]; rfl
    rw [patchLenAt_of_zero (hlen ▸ hfit) hzero, hlen, eq_bytesBE_slice hfit h]
    exact patchAt_blank hfit rfl

/-- So is a checksum field that holds what `PCHK` computes. -/
theorem patchChk_blankIf {buf : Bytes} (h48 : 48 ≤ buf.length) (hmax : buf.length - 40 ≤ 0xFFFF)
    (h : be (slice buf 46 2) = checksum (blankIf true 46 buf)) (b : Bool) :
    ∃ one val, patchChk (blankIf b 46 buf) = .ok (buf, one, val) := by
  cases b with
  | false =>
    have hne : be (slice buf 46 2) ≠ 0 := h ▸ Nat.pos_iff_ne_zero.1 (checksum_bounds _).1
    exact ⟨_, _, patchChk_of_nonzero h48 hmax hne⟩
  | true =>
    have hlen : (blankIf true 46 buf).length = buf.length := length_blankIf h48 true
    have hzero : be (slice (blankIf true 46 buf) 46 2) = 0 := by rw [slice_blankIf_self h48]; rfl
    refine ⟨1, checksum (blankIf true 46 buf), ?_⟩
    rw [patchChk_of_zero (hlen ▸ h48) (hlen ▸ hmax) hzero, eq_bytesBE_slice h48 h]
    exact congrArg (fun x => Except.ok (x, 1, _)) (patchAt_blank h48 rfl)

/-- The patchers restore a packet whose lengths and checksum are those that they compute. -/
theorem patches_of_blanked {pkt : Bytes} (h48 : 48 ≤ pkt.length) (hmax : pkt.length - 40 ≤ 0xFFFF)
    (hlen4 : be (slice pkt 4 2) = pkt.length - 40) (hlen44 : be (slice pkt 44 2) = pkt.length - 40)
    (hchk : be (slice pkt 46 2) = checksum (blankIf true 46 pkt)) (b b' b'' : Bool) :
    ∃ pkt1 mask one val, patchLen (blankIf b 4 (blankIf b' 44 (blankIf b'' 46 pkt))) = .ok (pkt1, mask) ∧
      patchChk pkt1 = .ok (pkt, one, val) := by
  have h1 : (blankIf b'' 46 pkt).length = pkt.length := length_blankIf h48 b''
  have h2 : (blankIf b' 44 (blankIf b'' 46 pkt)).length = pkt.length := (length_blankIf (by omega) b').trans h1
  have h3 : (blankIf b 4 (blankIf b' 44 (blankIf b'' 46 pkt))).length = pkt.length :=
    (length_blankIf (by omega) b).trans h2
  have hfirst : (patchLenAt (blankIf b 4 (blankIf b' 44 (blankIf b'' 46 pkt))) 4).1 =
      blankIf b' 44 (blankIf b'' 46 pkt) := by
    refine patchLenAt_blankIf (by omega) (by omega) ?_ b
    rw [slice_blankIf (by omega) b' (by omega), slice_blankIf h48 b'' (by omega), h2, hlen4]
  have hsecond : (patchLenAt (blankIf b' 44 (blankIf b'' 46 pkt)) 44).1 = blankIf b'' 46 pkt := by
    refine patchLenAt_blankIf (by omega) (by omega) ?_ b'
    rw [slice_blankIf h48 b'' (by omega), h1, hlen44]
  obtain ⟨one, val, hthird⟩ := patchChk_blankIf h48 hmax hchk b''
  refine ⟨_, _, one, val, patchLen_of_legal (by omega) (by omega), ?_⟩
  rw [hfirst, hsecond, hthird]

end Sys2Proof.Machine
end

section
/-! The round trip of a packet (46_pipeline.md R259). -/

namespace Sys2Proof.Machine

/-- A Layered Rule ID gives its sub-fields back (30_encoding.md R80). -/
theorem ruleIdField_packRuleId {frag apl tpl nwl : Nat} (hapl : apl ≤ 7) (htpl : tpl ≤ 3)
    (hnwl : nwl ≤ 3) {b0 : Byte} (hb0 : b0 = BitVec.ofNat 8 (packRuleId frag apl tpl nwl)) :
    ruleIdField b0.toNat .coap = apl ∧ ruleIdField b0.toNat .udp = tpl ∧ ruleIdField b0.toNat .ip6 = nwl := by
  rw [hb0, BitVec.toNat_ofNat]
  simp only [packRuleId, ruleIdField]
  omega

/-- Its two headers and its message are a packet, and so are its parts with deferred fields zero. -/
theorem blanked_packet {pkt : Bytes} (h48 : 48 ≤ pkt.length) (b b' b'' : Bool) :
    blankIf b 4 (slice pkt 0 40) ++ blankIf b' 4 (blankIf b'' 6 (slice pkt 40 8)) ++ pkt.drop 48 =
      blankIf b 4 (blankIf b' 44 (blankIf b'' 46 pkt)) := by
  have hlen0 : (slice pkt 0 40).length = 40 := length_slice _ _ _ (by omega)
  have hlen1 : (slice pkt 40 8).length = 8 := length_slice _ _ _ (by omega)
  have hsplit : pkt = slice pkt 0 40 ++ (slice pkt 40 8 ++ pkt.drop 48) := by
    rw [slice, slice, List.drop_zero, ← List.drop_drop (i := 8) (j := 40), List.take_append_drop,
      List.take_append_drop]
  generalize slice pkt 0 40 = h0, slice pkt 40 8 = h1, pkt.drop 48 = tail at *
  subst hsplit
  have hright (b : Bool) (i : Nat) (s : Bytes) : blankIf b (40 + i) (h0 ++ s) = h0 ++ blankIf b i s :=
    hlen0 ▸ blankIf_append_right b h0 s i
  have hblank : (blankIf b'' 6 h1).length = 8 := (length_blankIf (by omega) b'').trans hlen1
  rw [hright b'' 6, blankIf_append_left hlen1.ge, hright b' 4, blankIf_append_left (by omega),
    blankIf_append_left (by omega), List.append_assoc]

/-- Settles O60, layer by layer: the rule of each id is the one that compressed, its residue restores the columns but
for what the patchers compute, and the columns assemble to the header. -/
theorem packetRoundTrip : Obligations.PacketRoundTrip := by
  intro v r q dir dk b0 pkt out rules hcodec hr hrules h48 hmax hlen4 hlen44 hchk haux hcomp hlen hctx hnode2 hnode3
  have hiid : iidOf q = iidOf r := by rw [iidOf, iidOf, hnode2, hnode3]
  rw [compressPacket_eq] at hcomp
  obtain ⟨o2, ho2, hcomp⟩ := bind_eq_ok.1 hcomp
  obtain ⟨o1, ho1, hcomp⟩ := bind_eq_ok.1 hcomp
  obtain ⟨o0, ho0, hcomp⟩ := bind_eq_ok.1 hcomp
  obtain ⟨rfl, rfl⟩ := Prod.mk.inj (Except.ok.inj hcomp)
  have hpacked1 := packLayer_eq_ok.1 ho1
  have hpacked0 := packLayer_eq_ok.1 ho0
  have hlen1 : (slice pkt 40 8).length = 8 := length_slice _ _ _ (by omega)
  have hlen0 : (slice pkt 0 40).length = 40 := length_slice _ _ _ (by omega)
  obtain ⟨rule2, cols2, hL2, k2, h2, hu2, htail⟩ :=
    unpackLayer_coap_restores hcodec hr (hrules .coap) hiid hctx ho2
  obtain ⟨rule1, hL1⟩ := exists_layerRestores hr (hrules .udp) (withinWidth_flattenU _ _) hpacked1
  obtain ⟨rule0, hL0⟩ := exists_layerRestores hr (hrules .ip6) (withinWidth_flatten6 _ _) hpacked0
  rw [← hiid] at hL1 hL0
  obtain ⟨k1, b', b'', hu1⟩ := unpackLayer_udp_restores hlen1 (hctx.symm ▸ hpacked1.1) hL1
  obtain ⟨k0, b, hu0⟩ := unpackLayer_ip6_restores hlen0 (hctx.symm ▸ hpacked0.1) hL0
  obtain ⟨hid2, hid1, hid0⟩ := ruleIdField_packRuleId (frag := r.aux.toNat % 2) (packedId_le hL2)
    (packedId_le hL1) (packedId_le hL0) rfl
  obtain ⟨pkt1, mask, one, val, hpatchLen, hpatchChk⟩ := patches_of_blanked h48 hmax hlen4 hlen44 hchk b b' b''
  refine ⟨_, pkt1, mask, one, val, decompressPacket_of_parts hlen ?_ ?_ ?_ (partSize_of_layerRestores hlen0 hL0)
    (partSize_of_layerRestores hlen1 hL1) hu2 hu1 hu0, ?_, hpatchChk⟩
  · rw [hid2]
    exact namedRule_of_layerRestores hL2
  · rw [hid1]
    exact namedRule_of_layerRestores hL1
  · rw [hid0]
    exact namedRule_of_layerRestores hL0
  · rw [List.append_assoc _ h2, htail, blanked_packet h48, hpatchLen]

end Sys2Proof.Machine
end

section
/-! The Layered Rule ID commands (46_pipeline.md R250, R251, 30_encoding.md R80). -/

namespace Sys2Proof.Machine

section
variable {s : State} {nwl tpl apl frag : Nat}

/-- The sub-fields that `RIDPK` takes from `AUX` are its four bytes. -/
theorem run_ridpk (v : View) {r : Regs} (hnwl : nwl < 256) (htpl : tpl < 256) (hapl : apl < 256)
    (haux : r.aux.toNat = frag * 2 ^ 24 + apl * 2 ^ 16 + tpl * 2 ^ 8 + nwl) : cmdRidpk.run v r =
      if 3 < nwl ∨ 3 < tpl ∨ 7 < apl ∨ 1 < frag then raise .operand
      else .ok ⟨[], packRuleId frag apl tpl nwl, 0⟩ := by
  have h0 : r.aux.toNat % 256 = nwl := by omega
  have h1 : r.aux.toNat / 2 ^ 8 % 256 = tpl := by omega
  have h2 : r.aux.toNat / 2 ^ 16 % 256 = apl := by omega
  have h3 : r.aux.toNat / 2 ^ 24 % 256 = frag := by omega
  simp only [cmdRidpk, h0, h1, h2, h3]

theorem exec_ridpk (hu : Undisturbed s) (hnwl : nwl ≤ 3) (htpl : tpl ≤ 3) (hapl : apl ≤ 7) (hfrag : frag ≤ 1)
    (haux : s.snap.regs.aux.toNat = frag * 2 ^ 24 + apl * 2 ^ 16 + tpl * 2 ^ 8 + nwl) :
    exec .ridpk s = .next (doneState s s.mem (frag * 128 + apl * 16 + tpl * 4 + nwl) 0) := by
  refine exec_of_run_ok (e := ⟨[], packRuleId frag apl tpl nwl, 0⟩) hu rfl rfl ?_
  exact (run_ridpk _ (by omega) (by omega) (by omega) haux).trans (if_neg (by omega))

/-- The sub-fields of a byte, each put into a byte of its own. -/
theorem exec_ridunpk (hu : Undisturbed s) (hnwl : nwl ≤ 3) (htpl : tpl ≤ 3) (hapl : apl ≤ 7) (hfrag : frag ≤ 1)
    (haux : s.snap.regs.aux.toNat = frag * 128 + apl * 16 + tpl * 4 + nwl) :
    exec .ridunpk s = .next (doneState s s.mem (nwl + tpl * 2 ^ 8 + apl * 2 ^ 16 + frag * 2 ^ 24) 0) := by
  refine exec_of_run_ok (e := ⟨[], nwl + tpl * 2 ^ 8 + apl * 2 ^ 16 + frag * 2 ^ 24, 0⟩) hu rfl rfl ?_
  have h0 : ruleIdField s.snap.regs.aux.toNat .ip6 = nwl := by rw [ruleIdField]; omega
  have h1 : ruleIdField s.snap.regs.aux.toNat .udp = tpl := by rw [ruleIdField]; omega
  have h2 : ruleIdField s.snap.regs.aux.toNat .coap = apl := by rw [ruleIdField]; omega
  have h3 : s.snap.regs.aux.toNat / 128 = frag := by omega
  refine (if_neg (by omega)).trans ?_
  rw [h0, h1, h2, h3]

end

/-- Completing once more changes no `STATUS` (10_state.md R32). -/
theorem doneStatus_doneStatus (ovr : Bool) :
    (if (if ovr then 0xA#32 else 0x2#32).getLsbD 3 then 0xA#32 else 0x2#32) = if ovr then 0xA#32 else 0x2#32 := by
  cases ovr <;> rfl

/-- A completed state that completes again differs in its results only. -/
theorem doneState_of_completed {s t : State} {m : Memory} {r r2 : Nat} {n : Word} {g : Snapshot} {w : Nat}
    (ht : t = { doneState s m r r2 with snap := g }) (hw : BitVec.ofNat 32 w = n) :
    doneState t t.mem w 0 = { t with result := n, result2 := 0#32 } := by
  subst ht hw
  rw [doneState, doneState, doneStatus_doneStatus]

/-- Settles O55: the sub-fields are the digits of the id and of the word. -/
theorem ruleIdPacking : Obligations.RuleIdPacking := by
  refine ⟨decode_encode .ridpk, decode_encode .ridunpk, ?_, ?_, fun s hu hb => ?_, fun s hu hb => ?_⟩
  · rintro s r nwl tpl apl frag rfl hu hnwl htpl hapl - haux
    refine ⟨fun h0 h1 h2 h3 => exec_ridpk hu h0 h1 h2 h3 haux, fun hwide => exec_of_run_raise rfl rfl ?_⟩
    exact (run_ridpk _ hnwl htpl hapl haux).trans (if_pos hwide)
  · rintro s r nwl tpl apl frag rfl hu hnwl htpl hapl hfrag haux
    exact exec_ridunpk hu hnwl htpl hapl hfrag haux
  · exact exec_of_run_raise rfl rfl (if_pos hb)
  · obtain ⟨b, hb'⟩ : ∃ b, b = s.snap.regs.aux.toNat := ⟨_, rfl⟩
    have hunpack := exec_ridunpk (nwl := b % 4) (tpl := b / 4 % 4) (apl := b / 16 % 8) (frag := b / 128) hu (by omega)
      (by omega) (by omega) (by omega) (by omega)
    refine ⟨_, _, hunpack, rfl, ?_⟩
    rw [exec_ridpk (nwl := b % 4) (tpl := b / 4 % 4) (apl := b / 16 % 8) (frag := b / 128) rfl (by omega) (by omega)
      (by omega) (by omega) ?_]
    · refine congrArg Host.Outcome.next (doneState_of_completed rfl (BitVec.eq_of_toNat_eq ?_))
      rw [BitVec.toNat_ofNat]
      omega
    · change (BitVec.ofNat 32 _).toNat = _
      rw [BitVec.toNat_ofNat]
      omega

end Sys2Proof.Machine
end

section
/-! The patchers on a packet in memory (46_pipeline.md R256 to R258). -/

namespace Sys2Proof.Machine

/-! ## Bytes of memory -/

theorem Memory.drop_read (m : Memory) (a : Nat) {n i : Nat} (h : i ≤ n) :
    (m.read a n).drop i = m.read (a + i) (n - i) := by
  obtain ⟨k, rfl⟩ := Nat.exists_eq_add_of_le h
  rw [Memory.read_append, List.drop_left' (Memory.length_read ..), Nat.add_sub_cancel_left]

/-- A store of what stands there changes no byte. -/
theorem Memory.get_put_same (m : Memory) (a n x : Nat) : (m.put a (m.read a n)).get x = m.get x :=
  (Memory.get_put_read m m a n x).trans (ite_self _)

/-- A store beside the bytes read leaves them. -/
theorem Memory.read_put_of_disjoint (m : Memory) {a b n : Nat} {s : Bytes} (h : b + n ≤ a ∨ a + s.length ≤ b) :
    (m.put a s).read b n = m.read b n :=
  Memory.read_congr fun i hi => Memory.get_put_of_not_mem _ _ _ _ (by omega)

theorem bytesBE_be_read (m : Memory) (a n : Nat) : bytesBE n (be (m.read a n)) = m.read a n := by
  have hbytes := bytesBE_be (m.read a n)
  rwa [Memory.length_read] at hbytes

theorem be_read_put_bytesBE (m : Memory) (a : Nat) {n x : Nat} (h : x < 256 ^ n) :
    be ((m.put a (bytesBE n x)).read a n) = x := by
  have hread := Memory.read_put m a (bytesBE n x)
  rw [length_bytesBE] at hread
  rw [hread, be_bytesBE, Nat.mod_eq_of_lt h]

/-! ## PLEN and PCHK -/

/-- A packet that is out of memory raises `BUS_FAULT`, and one of a length out of limits `OPERAND`. -/
theorem run_patcher_raises {i : Instr} {patch : Bytes → Comp Effect} {v : View} {r : Regs}
    (hrun : (commandOf i).run v r = (readBytes v r.aAddr.toNat r.len.toNat >>= patch))
    (hpatch : ∀ buf, checkPatchLength buf.length = raise .operand → patch buf = raise .operand) (hg : v.guard = [])
    (hr : v.raced = []) :
    (¬ (r.len.toNat = 0 ∨ r.aAddr.toNat + r.len.toNat ≤ v.size) → (commandOf i).run v r = raise .busFault) ∧
    ((r.len.toNat = 0 ∨ r.aAddr.toNat + r.len.toNat ≤ v.size) → (r.len.toNat < 48 ∨ 0xFFFF < r.len.toNat - 40) →
      (commandOf i).run v r = raise .operand) := by
  refine ⟨fun hfit => ?_, fun hfit hlen => ?_⟩ <;> rw [hrun]
  · obtain ⟨hn, hlt⟩ := not_or.1 hfit
    exact raise_first (readBytes_of_not_fit hn (Nat.not_le.1 hlt))
  · rw [bind_of_ok (readBytes_of_fit hg hr hfit)]
    exact hpatch _ (if_pos (by rwa [Memory.length_read]))

/-! ## Lengths (R256) -/

/-- What a length field is patched to, in a packet of `n` bytes: `n - 40` where it is zero. -/
def patchedLength (n x : Nat) : Nat := if x = 0 then n - 40 else x

theorem patchLenAt_eq {buf : Bytes} {i x : Nat} (hfit : i + 2 ≤ buf.length) (hx : be (slice buf i 2) = x) :
    patchLenAt buf i = (patchAt buf i (bytesBE 2 (patchedLength buf.length x)), decide (x = 0)) := by
  unfold patchedLength
  by_cases h : x = 0
  · rw [patchLenAt_of_zero hfit (hx.trans h), if_pos h, decide_eq_true h]
  · rw [patchLenAt_of_nonzero hfit (hx ▸ h), if_neg h, decide_eq_false h, eq_bytesBE_slice hfit hx,
      patchAt_slice buf hfit]

theorem patchedLength_ne_zero {n : Nat} (x : Nat) (h48 : 48 ≤ n) : patchedLength n x ≠ 0 := by
  unfold patchedLength
  split <;> omega

theorem patchedLength_of_ne_zero {n x : Nat} (h : x ≠ 0) : patchedLength n x = x := if_neg h

theorem patchedLength_lt {n x : Nat} (hmax : n - 40 ≤ 0xFFFF) (hx : x < 256 ^ 2) : patchedLength n x < 256 ^ 2 := by
  unfold patchedLength
  split <;> omega

/-- The mask of the patched fields (R256). -/
def lengthMask (x y : Nat) : Nat := (if x = 0 then 1 else 0) + (if y = 0 then 2 else 0)

/-- A packet of legal length has its two length fields patched and nothing else. -/
theorem exists_patchLen {buf : Bytes} {n x y : Nat} (hn : buf.length = n) (h48 : 48 ≤ n) (hmax : n - 40 ≤ 0xFFFF)
    (hx : be (slice buf 4 2) = x) (hy : be (slice buf 44 2) = y) :
    ∃ out, patchLen buf = .ok (out, lengthMask x y) ∧ slice out 4 2 = bytesBE 2 (patchedLength n x) ∧
      slice out 44 2 = bytesBE 2 (patchedLength n y) := by
  subst hn
  have hfit : 4 + 2 ≤ buf.length := by omega
  have hfit4 : 4 + (bytesBE 2 (patchedLength buf.length x)).length ≤ buf.length := by rwa [length_bytesBE]
  have hlen : (patchAt buf 4 (bytesBE 2 (patchedLength buf.length x))).length = buf.length := length_patchAt hfit4
  have hfit44 : 44 + (bytesBE 2 (patchedLength buf.length y)).length ≤
      (patchAt buf 4 (bytesBE 2 (patchedLength buf.length x))).length := by rw [length_bytesBE, hlen]; omega
  have hy' : be (slice (patchAt buf 4 (bytesBE 2 (patchedLength buf.length x))) 44 2) = y := by
    rw [slice_patchAt_of_disjoint hfit4 (by rw [length_bytesBE]; omega), hy]
  refine ⟨patchAt (patchAt buf 4 (bytesBE 2 (patchedLength buf.length x))) 44 (bytesBE 2 (patchedLength buf.length y)),
    ?_, ?_, ?_⟩
  · rw [patchLen_of_legal h48 hmax, patchLenAt_eq hfit hx, patchLenAt_eq (by omega) hy', hlen, lengthMask]
    by_cases h0 : x = 0 <;> by_cases h1 : y = 0 <;> simp [h0, h1]
  · have hself := slice_patchAt_self hfit4
    rw [length_bytesBE] at hself
    rw [slice_patchAt_of_disjoint hfit44 (by omega), hself]
  · have hself := slice_patchAt_self hfit44
    rwa [length_bytesBE] at hself

/-- The memory with the two length fields of the packet at `a` patched, where they held `x` and `y`. -/
def lengthsPatched (m : Memory) (a n x y : Nat) : Memory :=
  (m.put (a + 4) (bytesBE 2 (patchedLength n x))).put (a + 44) (bytesBE 2 (patchedLength n y))

theorem get_lengthsPatched (m : Memory) (a n x y : Nat) {b : Nat} (h4 : b ≠ a + 4) (h5 : b ≠ a + 5) (h44 : b ≠ a + 44)
    (h45 : b ≠ a + 45) : (lengthsPatched m a n x y).get b = m.get b := by
  rw [lengthsPatched, Memory.get_put_of_not_mem _ _ _ _ (by rw [length_bytesBE]; omega),
    Memory.get_put_of_not_mem _ _ _ _ (by rw [length_bytesBE]; omega)]

theorem be_read_lengthsPatched (m : Memory) (a : Nat) {n x y : Nat} (hmax : n - 40 ≤ 0xFFFF) (hx : x < 256 ^ 2)
    (hy : y < 256 ^ 2) :
    be ((lengthsPatched m a n x y).read (a + 4) 2) = patchedLength n x ∧
    be ((lengthsPatched m a n x y).read (a + 44) 2) = patchedLength n y := by
  refine ⟨?_, be_read_put_bytesBE _ _ (patchedLength_lt hmax hy)⟩
  rw [lengthsPatched, Memory.read_put_of_disjoint _ (by omega), be_read_put_bytesBE _ _ (patchedLength_lt hmax hx)]

/-- Fields that are nonzero are stored again as they stand. -/
theorem get_lengthsPatched_of_ne_zero {m : Memory} {a x y : Nat} (n : Nat) (hx : be (m.read (a + 4) 2) = x)
    (hy : be (m.read (a + 44) 2) = y) (hx0 : x ≠ 0) (hy0 : y ≠ 0) (b : Nat) :
    (lengthsPatched m a n x y).get b = m.get b := by
  have h44 : m.read (a + 44) 2 = (m.put (a + 4) (m.read (a + 4) 2)).read (a + 44) 2 :=
    Memory.read_congr fun i _ => (Memory.get_put_same m _ _ _).symm
  rw [lengthsPatched, patchedLength_of_ne_zero hx0, patchedLength_of_ne_zero hy0, ← hx, ← hy, bytesBE_be_read,
    bytesBE_be_read, h44, Memory.get_put_same, Memory.get_put_same]

/-- `PLEN` stores the two length fields. -/
theorem exec_plen {s : State} {a n x y : Nat} (hu : Undisturbed s) (ha : s.snap.regs.aAddr.toNat = a)
    (hn : s.snap.regs.len.toNat = n) (hfit : BytesFit s a n) (h48 : 48 ≤ n) (hmax : n - 40 ≤ 0xFFFF)
    (hx : be (s.mem.read (a + 4) 2) = x) (hy : be (s.mem.read (a + 44) 2) = y) :
    exec .plen s = .next (doneState s (lengthsPatched s.mem a n x y) (lengthMask x y) 0) := by
  have hbuf : (s.mem.read a n).length = n := Memory.length_read ..
  rw [← slice_read s.mem (n := n) (by omega)] at hx hy
  obtain ⟨out, hout, h4, h44⟩ := exists_patchLen hbuf h48 hmax hx hy
  refine exec_of_run_ok (e := ⟨[(a + 4, _), (a + 44, _)], lengthMask x y, 0⟩) hu rfl rfl ?_
  subst ha hn
  rw [← h4, ← h44]
  exact (bind_of_ok (readBytes_of_fit rfl (viewOf_raced hu) hfit)).trans (bind_of_ok hout)

/-- Settles O56: a second `PLEN` finds both fields nonzero and stores what stands there. -/
theorem plenResult : Obligations.PlenResult := by
  refine ⟨decode_encode .plen, ?_⟩
  rintro s _ a n x y rfl ha hn hu hx hy
  obtain ⟨hfault, hoperand⟩ := run_patcher_raises (i := .plen) (v := viewOf .plen s) (r := s.snap.regs) rfl
    (fun buf h => raise_first (raise_first h)) rfl (viewOf_raced hu)
  rw [ha, hn] at hfault hoperand
  refine ⟨fun hfit _ _ => exec_of_run_raise rfl rfl (hfault hfit),
    fun hfit hlen => exec_of_run_raise rfl rfl (hoperand hfit hlen), fun hfit h48 hmax => ?_⟩
  have hx2 : x < 256 ^ 2 := hx ▸ be_read_lt s.mem _ 2
  have hy2 : y < 256 ^ 2 := hy ▸ be_read_lt s.mem _ 2
  have hX0 := patchedLength_ne_zero x h48
  have hY0 := patchedLength_ne_zero y h48
  obtain ⟨h4, h44⟩ := be_read_lengthsPatched s.mem a hmax hx2 hy2
  have hmask : lengthMask (patchedLength n x) (patchedLength n y) = 0 := by
    unfold lengthMask
    rw [if_neg hX0, if_neg hY0]
  have hagain := exec_plen (s := doneState s (lengthsPatched s.mem a n x y) (lengthMask x y) 0) rfl ha hn hfit h48
    hmax h4 h44
  rw [hmask] at hagain
  exact ⟨_, _, exec_plen hu ha hn hfit h48 hmax hx.symm hy.symm, rfl, h4, h44,
    fun b => get_lengthsPatched s.mem a n x y, hagain, rfl, get_lengthsPatched_of_ne_zero n h4 h44 hX0 hY0⟩

end Sys2Proof.Machine
end

section
/-! The checksum patcher (46_pipeline.md R257, R258). -/

namespace Sys2Proof.Machine

/-! ## The Internet checksum -/

/-- The sum of R258 as a sum over the index of the 16-bit word, an odd last byte being followed by a zero. -/
theorem sum16_eq_sum_range (bs : Bytes) : sum16 bs = ((List.range ((bs.length + 1) / 2)).map fun k =>
    (bs.getD (2 * k) 0#8).toNat * 256 + (bs.getD (2 * k + 1) 0#8).toNat).sum := by
  induction bs using sum16.induct with
  | case1 => rfl
  | case2 b => simp [sum16]
  | case3 b0 b1 rest ih =>
    have hlen : ((b0 :: b1 :: rest).length + 1) / 2 = (rest.length + 1) / 2 + 1 := by
      rw [List.length_cons, List.length_cons]
      omega
    rw [sum16, ih, hlen, List.range_succ_eq_map, List.map_cons, List.sum_cons, List.map_map]
    rfl

/-- Folding the carries in keeps the sum modulo `0xFFFF` and brings it below `2^16`. -/
theorem foldCarry_spec {fuel n : Nat} (h : n ≤ fuel) :
    foldCarry fuel n < 2 ^ 16 ∧ foldCarry fuel n % 0xFFFF = n % 0xFFFF := by
  induction fuel generalizing n with
  | zero =>
    rw [foldCarry]
    omega
  | succ fuel ih =>
    rw [foldCarry]
    split
    · exact ⟨‹_›, rfl⟩
    · obtain ⟨hlt, hmod⟩ := ih (n := n % 2 ^ 16 + n / 2 ^ 16) (by omega)
      exact ⟨hlt, by omega⟩

/-- The checksum makes the one's-complement sum a multiple of `0xFFFF`. -/
theorem sum16_add_checksum (buf : Bytes) : (sum16 (checksumData buf) + checksum buf) % 0xFFFF = 0 := by
  obtain ⟨hlt, hmod⟩ := foldCarry_spec (le_refl (sum16 (checksumData buf)))
  unfold checksum
  dsimp only
  split <;> omega

theorem checksumData_read (m : Memory) (a : Nat) {n : Nat} (h48 : 48 ≤ n) :
    checksumData (m.read a n) = m.read (a + 8) 32 ++ [0#8, 0#8] ++ m.read (a + 44) 2 ++ [0#8, 0#8, 0#8, 17#8] ++
      m.read (a + 40) (n - 40) := by
  rw [checksumData, slice_read m (by omega), slice_read m (by omega), slice_read m (by omega),
    Memory.drop_read m a (by omega), ← Memory.read_append]

/-! ## PCHK -/

/-- `PCHK` leaves a nonzero checksum: it stores what stands there. -/
theorem exec_pchk_of_ne_zero {s : State} {a n x : Nat} (hu : Undisturbed s) (ha : s.snap.regs.aAddr.toNat = a)
    (hn : s.snap.regs.len.toNat = n) (hfit : BytesFit s a n) (h48 : 48 ≤ n) (hmax : n - 40 ≤ 0xFFFF)
    (hx : be (s.mem.read (a + 46) 2) = x) (hx0 : x ≠ 0) :
    exec .pchk s = .next (doneState s (s.mem.put (a + 46) (s.mem.read (a + 46) 2)) 0 x) := by
  have hlen : (s.mem.read a n).length = n := Memory.length_read ..
  have hslice : slice (s.mem.read a n) 46 2 = s.mem.read (a + 46) 2 := slice_read s.mem (by omega)
  refine exec_of_run_ok (e := ⟨[(a + 46, _)], 0, x⟩) hu rfl rfl ?_
  subst ha hn hx
  rw [← hslice] at hx0 ⊢
  exact (bind_of_ok (readBytes_of_fit rfl (viewOf_raced hu) hfit)).trans
    (bind_of_ok (patchChk_of_nonzero (hlen.symm ▸ h48) (hlen.symm ▸ hmax) hx0))

/-- `PCHK` stores the checksum in a zero field. -/
theorem exec_pchk_of_zero {s : State} {a n : Nat} (hu : Undisturbed s) (ha : s.snap.regs.aAddr.toNat = a)
    (hn : s.snap.regs.len.toNat = n) (hfit : BytesFit s a n) (h48 : 48 ≤ n) (hmax : n - 40 ≤ 0xFFFF)
    (hx : be (s.mem.read (a + 46) 2) = 0) :
    exec .pchk s = .next (doneState s (s.mem.put (a + 46) (bytesBE 2 (checksum (s.mem.read a n)))) 1
      (checksum (s.mem.read a n))) := by
  have hlen : (s.mem.read a n).length = n := Memory.length_read ..
  rw [← slice_read s.mem (n := n) (by omega)] at hx
  refine exec_of_run_ok (e := ⟨[(a + 46, _)], 1, _⟩) hu rfl rfl ?_
  subst ha hn
  have hfits : 46 + (bytesBE 2 (checksum (s.mem.read s.snap.regs.aAddr.toNat s.snap.regs.len.toNat))).length ≤
      (s.mem.read s.snap.regs.aAddr.toNat s.snap.regs.len.toNat).length := by rwa [length_bytesBE, hlen]
  have hself := slice_patchAt_self hfits
  rw [length_bytesBE] at hself
  rw [← hself]
  exact (bind_of_ok (readBytes_of_fit rfl (viewOf_raced hu) hfit)).trans
    (bind_of_ok (patchChk_of_zero (hlen.symm ▸ h48) (hlen.symm ▸ hmax) hx))

/-- Settles O57: the checksum is never zero, so a second `PCHK` leaves it. -/
theorem pchkResult : Obligations.PchkResult := by
  refine ⟨decode_encode .pchk, ?_⟩
  rintro s _ a n x data rfl ha hn hu hx rfl
  obtain ⟨hfault, hoperand⟩ := run_patcher_raises (i := .pchk) (v := viewOf .pchk s) (r := s.snap.regs) rfl
    (fun buf h => raise_first (raise_first h)) rfl (viewOf_raced hu)
  rw [ha, hn] at hfault hoperand
  refine ⟨fun hfit _ _ => exec_of_run_raise rfl rfl (hfault hfit),
    fun hfit hlen => exec_of_run_raise rfl rfl (hoperand hfit hlen), fun hfit h48 hmax hx0 => ?_,
    fun hfit h48 hmax hx0 => ?_⟩
  · exact ⟨_, exec_pchk_of_ne_zero hu ha hn hfit h48 hmax hx.symm hx0, Memory.get_put_same s.mem _ _⟩
  · obtain ⟨c, hc⟩ : ∃ c, c = checksum (s.mem.read a n) := ⟨_, rfl⟩
    obtain ⟨hpos, hle⟩ : 1 ≤ c ∧ c ≤ 0xFFFF := hc ▸ checksum_bounds _
    have hexec := exec_pchk_of_zero hu ha hn hfit h48 hmax (hx.symm.trans hx0)
    have hsum := sum16_add_checksum (s.mem.read a n)
    rw [checksumData_read s.mem a h48, sum16_eq_sum_range] at hsum
    rw [← hc] at hexec hsum
    have hfield : be ((s.mem.put (a + 46) (bytesBE 2 c)).read (a + 46) 2) = c :=
      be_read_put_bytesBE _ _ (by omega)
    have hagain := exec_pchk_of_ne_zero (s := doneState s (s.mem.put (a + 46) (bytesBE 2 c)) 1 c) rfl ha hn hfit h48
      hmax hfield (by omega)
    exact ⟨_, _, c, hexec, rfl, hpos, hle, hsum, stored_put s.mem _ _, hagain, rfl, Memory.get_put_same _ _ _⟩

end Sys2Proof.Machine
end

section
/-! `COMP` and what it shares with `DECOMP` (46_pipeline.md R252 to R254). -/

namespace Sys2Proof.Machine

/-! ## The two commands over two regions -/

section
variable {i : Instr} {s : State} {r : Regs} {v : View}

/-- With regions apart, what `COMP` and `DECOMP` raise is the error that they complete with. -/
theorem failsWith_of_run (hi : i ∈ [.comp, .decomp]) (hapart : RegionsApart s.snap.regs) {e : Err}
    (h : (commandOf i).run (viewOf i s) s.snap.regs = raise e) : FailsWith (exec i s) s e := by
  refine failsWith_of_compute ((compute_eq_run i s ?_).trans h)
  simp only [List.mem_cons, List.not_mem_nil, or_false] at hi
  rcases hi with rfl | rfl <;> exact (rangesMeet_out_ctx _).2 hapart

/-- With regions apart, a packet that `COMP` or `DECOMP` gives stands at `D_ADDR` and all other bytes of the two regions
are free values (R254). -/
theorem exec_of_run_packet (hi : i ∈ [.comp, .decomp]) (hu : Undisturbed s) (hr : s.snap.regs = r)
    (hapart : RegionsApart r) (hfitD : BytesFit s r.dAddr.toNat r.outCap.toNat)
    (hfitC : BytesFit s r.ctxAddr.toNat r.ctxSize.toNat) {out : Bytes} {b : Nat} (hcap : out.length ≤ r.outCap.toNat)
    (h : (commandOf i).run (viewOf i s) r = .ok ⟨[(r.dAddr.toNat, out)], out.length, b⟩) :
    ∃ t, exec i s = .next t ∧ t = { doneState s t.mem out.length b with freeIdx := t.freeIdx } ∧
      t.mem.read r.dAddr.toNat out.length = out ∧
      (∀ x, (r.dAddr.toNat + out.length ≤ x ∧ x < r.dAddr.toNat + r.outCap.toNat) ∨
        (r.ctxAddr.toNat ≤ x ∧ x < r.ctxAddr.toNat + r.ctxSize.toNat) → HoldsFree s t x) ∧
      (∀ x, ¬ (r.dAddr.toNat ≤ x ∧ x < r.dAddr.toNat + r.outCap.toNat) →
        ¬ (r.ctxAddr.toNat ≤ x ∧ x < r.ctxAddr.toNat + r.ctxSize.toNat) → t.mem.get x = s.mem.get x) := by
  subst hr
  have hcompute : (commandOf i).compute s = .ok ⟨[(s.snap.regs.dAddr.toNat, out)], out.length, b⟩ := by
    refine (compute_eq_run i s ?_).trans h
    simp only [List.mem_cons, List.not_mem_nil, or_false] at hi
    rcases hi with rfl | rfl <;> exact (rangesMeet_out_ctx _).2 hapart
  have hscratch : (commandOf i).scratch s.snap.regs = [outRange s.snap.regs, ctxRange s.snap.regs] := by
    simp only [List.mem_cons, List.not_mem_nil, or_false] at hi
    rcases hi with rfl | rfl <;> rfl
  have hexec := (exec_eq_perform i s).trans (perform_of_ok hu hcompute)
  rw [hscratch, completeOk_eq_doneState] at hexec
  have hfrees : FreesOnly s (s.clobber [outRange s.snap.regs, ctxRange s.snap.regs])
      (inRanges [outRange s.snap.regs, ctxRange s.snap.regs]) :=
    freesOnly_of_clobber le_rfl rfl rfl fun _ => rfl
  have hin : ∀ x, inRanges [outRange s.snap.regs, ctxRange s.snap.regs] x = true ↔
      (s.snap.regs.dAddr.toNat ≤ x ∧ x < s.snap.regs.dAddr.toNat + s.snap.regs.outCap.toNat) ∨
      (s.snap.regs.ctxAddr.toNat ≤ x ∧ x < s.snap.regs.ctxAddr.toNat + s.snap.regs.ctxSize.toNat) := fun x => by
    simp [inRanges, Range.has, outRange, ctxRange]
  refine ⟨_, hexec, by simp [doneState], Memory.read_put _ _ _, fun x hx => ?_, fun x hD hC => ?_⟩
  · have hfree := hfrees x
    rw [if_pos ⟨(hin x).2 (by omega), by omega⟩] at hfree
    obtain ⟨k, hlo, hhi, hk⟩ := hfree
    refine ⟨k, hlo, hhi, (Memory.get_put_of_not_mem _ _ _ _ ?_).trans hk⟩
    unfold RegionsApart at hapart
    omega
  · have hkept := hfrees x
    rw [if_neg fun hx => ((hin x).1 hx.1).elim hD hC] at hkept
    exact (Memory.get_put_of_not_mem _ _ _ _ (by omega)).trans hkept

theorem checkRange_of_fit {a n : Nat} (h : n = 0 ∨ a + n ≤ v.size) : checkRange v a n = .ok () := checkRange_eq_ok.2 h

theorem checkRange_of_not_fit {a n : Nat} (h : ¬ (n = 0 ∨ a + n ≤ v.size)) : checkRange v a n = raise .busFault := by
  obtain ⟨hn, hlt⟩ := not_or.1 h
  exact if_pos ⟨hn, Nat.not_le.1 hlt⟩

theorem checkRegions_of_fit (hD : r.outCap.toNat = 0 ∨ r.dAddr.toNat + r.outCap.toNat ≤ v.size)
    (hC : r.ctxSize.toNat = 0 ∨ r.ctxAddr.toNat + r.ctxSize.toNat ≤ v.size) : checkRegions v r = .ok () :=
  (bind_of_ok (checkRange_of_fit hD)).trans (checkRange_of_fit hC)

theorem writeOut_of_fit {out : Bytes} (hcap : out.length ≤ r.outCap.toNat)
    (hD : r.outCap.toNat = 0 ∨ r.dAddr.toNat + r.outCap.toNat ≤ v.size) :
    writeOut v r out = .ok (r.dAddr.toNat, out) := writeOut_eq_ok.2 ⟨hcap, by omega, rfl⟩

/-- A region or the input out of memory raises `BUS_FAULT` before all that follows. -/
theorem checkRegions_readBytes_of_not_fit {α : Type} (f : Bytes → Comp α)
    (h : ¬ ((r.outCap.toNat = 0 ∨ r.dAddr.toNat + r.outCap.toNat ≤ v.size) ∧
      (r.ctxSize.toNat = 0 ∨ r.ctxAddr.toNat + r.ctxSize.toNat ≤ v.size) ∧
      (r.len.toNat = 0 ∨ r.aAddr.toNat + r.len.toNat ≤ v.size))) :
    (checkRegions v r >>= fun _ => readBytes v r.aAddr.toNat r.len.toNat >>= f) = raise .busFault := by
  by_cases hD : r.outCap.toNat = 0 ∨ r.dAddr.toNat + r.outCap.toNat ≤ v.size
  · by_cases hC : r.ctxSize.toNat = 0 ∨ r.ctxAddr.toNat + r.ctxSize.toNat ≤ v.size
    · obtain ⟨hn, hlt⟩ := not_or.1 fun hA => h ⟨hD, hC, hA⟩
      rw [bind_of_ok (checkRegions_of_fit hD hC)]
      exact raise_first (readBytes_of_not_fit hn (Nat.not_le.1 hlt))
    · exact raise_first ((bind_of_ok (checkRange_of_fit hD)).trans (checkRange_of_not_fit hC))
  · exact raise_first (raise_first (checkRange_of_not_fit hD))

end

/-! ## The packet that is compressed (R252, R253) -/

section
variable {v : View} {r : Regs} {dev : Nat} {tail : Bytes} {dir : PacketDir}

theorem packCoap_of_parsed {p : CoapMessage} (h : coapParse v tail = some p) :
    packCoap v r dev tail dir = packLayer v r dev .coap (flattenC p.header) dir := by
  rw [packCoap, h]

theorem packCoap_of_not_parsed (h : coapParse v tail = none) : packCoap v r dev tail dir = .ok none := by
  rw [packCoap, h]

section
variable {pkt : Bytes} {o1 o2 : Option (Nat × Bytes)} {e : Err}

theorem compressPacket_of_coap_fails {p : CoapMessage} (hp : coapParse v (pkt.drop 48) = some p)
    (h : LayerFails v r dev .coap (flattenC p.header) dir e) : compressPacket v r dev pkt dir = raise e := by
  rw [compressPacket_eq]
  exact raise_first ((packCoap_of_parsed hp).trans (packLayer_of_layerFails h))

theorem compressPacket_of_udp_fails (hcoap : packCoap v r dev (pkt.drop 48) dir = .ok o2)
    (h : LayerFails v r dev .udp (flattenU (slice pkt 40 8) dir) dir e) : compressPacket v r dev pkt dir = raise e := by
  rw [compressPacket_eq, bind_of_ok hcoap]
  exact raise_first (packLayer_of_layerFails h)

theorem compressPacket_of_ip6_fails (hcoap : packCoap v r dev (pkt.drop 48) dir = .ok o2)
    (hudp : LayerPacked v r dev .udp (flattenU (slice pkt 40 8) dir) dir o1)
    (h : LayerFails v r dev .ip6 (flatten6 (slice pkt 0 40) dir) dir e) : compressPacket v r dev pkt dir = raise e := by
  rw [compressPacket_eq, bind_of_ok hcoap, bind_of_ok (packLayer_eq_ok.2 hudp)]
  exact raise_first (packLayer_of_layerFails h)

end

theorem outcomeId_eq_packedId (o : Option (Nat × Bytes)) : outcomeId o = packedId o := by cases o <;> rfl

theorem getD_eq_packedPart (o : Option (Nat × Bytes)) (verbatim : Bytes) :
    (o.map Prod.snd).getD verbatim = packedPart verbatim o := by cases o <;> rfl

/-- `COMP` from the packet on. -/
def compFrom (v : View) (r : Regs) (pkt : Bytes) (dir : PacketDir) : Comp Effect := do
  let dev ← lookupDevice v r
  let (b0, out) ← compressPacket v r dev pkt dir
  let w ← writeOut v r out
  return { writes := [w], result := out.length, result2 := b0 }

theorem run_comp_of_operand (hdir : dirIs r dir = true) (h : 2 ≤ r.aux.toNat ∨ r.len.toNat < 48) :
    cmdComp.run v r = raise .operand := by
  refine (bind_of_ok (checkDir_of_dirIs hdir)).trans ?_
  by_cases haux : r.aux.toNat / 2 = 0
  · exact (if_neg (not_not.2 haux)).trans (if_pos (by omega))
  · exact if_pos haux

theorem run_comp (hdir : dirIs r dir = true) (haux : r.aux.toNat < 2) (h48 : 48 ≤ r.len.toNat) : cmdComp.run v r =
    (checkRegions v r >>= fun _ => readBytes v r.aAddr.toNat r.len.toNat >>= fun pkt => compFrom v r pkt dir) :=
  (bind_of_ok (checkDir_of_dirIs hdir)).trans
    ((if_neg (not_not.2 (Nat.div_eq_of_lt haux))).trans (if_neg (Nat.not_lt.2 h48)))

theorem compFrom_of_raise {pkt : Bytes} {k : Nat} {e : Err} (hr : v.raced = []) (hdev : deviceIs v r k = true)
    (h : compressPacket v r (r.devtabAddr.toNat + 32 * k) pkt dir = raise e) : compFrom v r pkt dir = raise e :=
  (bind_of_ok (lookupDevice_of_deviceIs hr hdev)).trans (raise_first h)

/-- What the outcomes of the three layers give is written. -/
theorem compFrom_of_packed {pkt out : Bytes} {k b0 : Nat} {o2 o1 o0 : Option (Nat × Bytes)} (hr : v.raced = [])
    (hdev : deviceIs v r k = true) (hcoap : packCoap v r (r.devtabAddr.toNat + 32 * k) (pkt.drop 48) dir = .ok o2)
    (hudp : LayerPacked v r (r.devtabAddr.toNat + 32 * k) .udp (flattenU (slice pkt 40 8) dir) dir o1)
    (hip6 : LayerPacked v r (r.devtabAddr.toNat + 32 * k) .ip6 (flatten6 (slice pkt 0 40) dir) dir o0)
    (hout : packedPacket v r pkt o2 o1 o0 = (b0, out)) :
    compFrom v r pkt dir = writeOut v r out >>= fun w => .ok ⟨[w], out.length, b0⟩ := by
  have hpacket : compressPacket v r (r.devtabAddr.toNat + 32 * k) pkt dir = .ok (b0, out) := by
    rw [compressPacket_eq, bind_of_ok hcoap, bind_of_ok (packLayer_eq_ok.2 hudp), bind_of_ok (packLayer_eq_ok.2 hip6),
      hout]
    rfl
  exact (bind_of_ok (lookupDevice_of_deviceIs hr hdev)).trans (bind_of_ok hpacket)

end

/-- Settles O58: `COMP` is the checks of R253 in their order, then its layers, each with its outcome, then the write. -/
theorem compResult : Obligations.CompResult := by
  rintro s r v dir rfl rfl hu hapart hdir
  have hi : Instr.comp ∈ [Instr.comp, .decomp] := List.mem_cons_self
  have hr := viewOf_raced (i := .comp) hu
  refine ⟨fun h => failsWith_of_run hi hapart (run_comp_of_operand hdir h), fun haux h48 hfit => ?_,
    fun pkt tail haux h48 hfitD hfitC hin htail => ?_⟩
  · exact failsWith_of_run hi hapart
      ((run_comp hdir haux h48).trans (checkRegions_readBytes_of_not_fit _ hfit))
  have hrun : (commandOf .comp).run (viewOf .comp s) s.snap.regs = compFrom (viewOf .comp s) s.snap.regs pkt dir :=
    (run_comp hdir haux h48).trans
      ((bind_of_ok (checkRegions_of_fit hfitD hfitC)).trans (bind_of_ok (readBytes_of_inputIs hr hin)))
  have hfails : ∀ {e : Err}, compFrom (viewOf .comp s) s.snap.regs pkt dir = raise e → FailsWith (exec .comp s) s e :=
    fun h => failsWith_of_run hi hapart (hrun.trans h)
  refine ⟨fun h => hfails (raise_first (lookupDevice_of_noDevice hr h)),
    fun k h => hfails (raise_first (lookupDevice_of_deviceFault hr h)), fun dk dev hdev hdk => ?_⟩
  subst hdk htail
  have hlayers : ∀ {e : Err}, compressPacket (viewOf .comp s) s.snap.regs _ pkt dir = raise e →
      FailsWith (exec .comp s) s e := fun h => hfails (compFrom_of_raise hr hdev h)
  refine ⟨fun p e hp he => hlayers (compressPacket_of_coap_fails hp he), fun o2 ho2 => ?_⟩
  have hcoap : packCoap (viewOf .comp s) s.snap.regs (s.snap.regs.devtabAddr.toNat + 32 * dk) (pkt.drop 48) dir =
      .ok o2 := by
    cases hp : coapParse (viewOf .comp s) (pkt.drop 48) with
    | none =>
      rw [hp] at ho2
      exact ho2 ▸ packCoap_of_not_parsed hp
    | some p =>
      rw [hp] at ho2
      exact (packCoap_of_parsed hp).trans (packLayer_eq_ok.2 ho2)
  refine ⟨fun e he => hlayers ?_, fun o1 ho1 => ⟨fun e he => hlayers ?_, fun o0 b0 out ho0 hb0 hout => ?_⟩⟩
  · exact compressPacket_of_udp_fails hcoap he
  · exact compressPacket_of_ip6_fails hcoap ho1 he
  have hpacked : packedPacket (viewOf .comp s) s.snap.regs pkt o2 o1 o0 = (b0, out) := by
    simp only [outcomeId_eq_packedId, getD_eq_packedPart] at hb0 hout
    subst hb0 hout
    rw [packedPacket, packRuleId, Nat.mod_eq_of_lt haux]
    rfl
  have hwrite := compFrom_of_packed hr hdev hcoap ho1 ho0 hpacked
  refine ⟨fun hcap => hfails (hwrite.trans (raise_first (writeOut_of_cap hcap))), fun hcap => ?_⟩
  refine exec_of_run_packet hi hu rfl hapart hfitD hfitC hcap (hrun.trans (hwrite.trans (bind_of_ok ?_)))
  exact writeOut_of_fit hcap hfitD

end Sys2Proof.Machine
end

section
/-! `DECOMP` (46_pipeline.md R254, R255). -/

namespace Sys2Proof.Machine

/-! ## The parts of the compressed packet (R255) -/

/-- The three parts decompressed, CoAP, UDP, IPv6 in this order, and the packet that they make. -/
def unpackParts (v : View) (r : Regs) (src : Bytes) (dir : PacketDir) (rule0 rule1 rule2 : Option Rule)
    (s0 s1 : Nat) : Comp Bytes := do
  let (k, h2) ← unpackLayer v r .coap rule2 (src.drop (1 + s0 + s1)) dir
  let (_, h1) ← unpackLayer v r .udp rule1 (slice src (1 + s0) s1) dir
  let (_, h0) ← unpackLayer v r .ip6 rule0 (slice src 1 s0) dir
  return h0 ++ h1 ++ h2 ++ (src.drop (1 + s0 + s1)).drop k

theorem fieldAt_zero_one (src : Bytes) : fieldAt src 0 1 = (src.headD 0#8).toNat := by
  cases src <;> simp [fieldAt, slice, be]

section
variable {v : View} {r : Regs} {dev b0 : Nat} {src : Bytes} {dir : PacketDir} {rule0 rule1 rule2 : Option Rule}
  {e : Err}

section
variable (hb0 : b0 = (src.headD 0#8).toNat)
include hb0

theorem decompressPacket_of_coap_unnamed (h : NameFails v dev .coap (b0 / 16 % 8) e) :
    decompressPacket v r dev src dir = raise e := by
  subst hb0
  rw [← fieldAt_zero_one] at h
  exact raise_first (namedRule_of_nameFails h)

variable (hname2 : LayerNamed v dev .coap (b0 / 16 % 8) rule2)
include hname2

theorem decompressPacket_of_udp_unnamed (h : NameFails v dev .udp (b0 / 4 % 4) e) :
    decompressPacket v r dev src dir = raise e := by
  subst hb0
  rw [← fieldAt_zero_one] at h hname2
  exact (bind_of_ok (namedRule_of_layerNamed hname2)).trans (raise_first (namedRule_of_nameFails h))

variable (hname1 : LayerNamed v dev .udp (b0 / 4 % 4) rule1)
include hname1

theorem decompressPacket_of_ip6_unnamed (h : NameFails v dev .ip6 (b0 % 4) e) :
    decompressPacket v r dev src dir = raise e := by
  subst hb0
  rw [← fieldAt_zero_one] at h hname2 hname1
  exact (bind_of_ok (namedRule_of_layerNamed hname2)).trans
    ((bind_of_ok (namedRule_of_layerNamed hname1)).trans (raise_first (namedRule_of_nameFails h)))

/-- Once the rules that the id byte names are found, the sizes of the parts follow, then the parts. -/
theorem decompressPacket_of_named (hname0 : LayerNamed v dev .ip6 (b0 % 4) rule0) :
    decompressPacket v r dev src dir = partSize 40 rule0 dir >>= fun s0 => partSize 8 rule1 dir >>= fun s1 =>
      if r.len.toNat < 1 + s0 + s1 then raise .cursorOverrun
      else unpackParts v r src dir rule0 rule1 rule2 s0 s1 := by
  subst hb0
  rw [← fieldAt_zero_one] at hname2 hname1 hname0
  exact (bind_of_ok (namedRule_of_layerNamed hname2)).trans
    ((bind_of_ok (namedRule_of_layerNamed hname1)).trans (bind_of_ok (namedRule_of_layerNamed hname0)))

end

/-! ## Each part -/

section
variable {s0 s1 : Nat}

theorem unpackParts_of_coap_fails (h : UnpackFails v r .coap rule2 (src.drop (1 + s0 + s1)) dir e) :
    unpackParts v r src dir rule0 rule1 rule2 s0 s1 = raise e :=
  raise_first (unpackLayer_of_unpackFails h)

variable {k2 : Nat} {h2 : Bytes} (hu2 : LayerUnpacked v r .coap rule2 (src.drop (1 + s0 + s1)) dir k2 h2)
include hu2

theorem unpackParts_of_udp_fails (h : UnpackFails v r .udp rule1 (slice src (1 + s0) s1) dir e) :
    unpackParts v r src dir rule0 rule1 rule2 s0 s1 = raise e :=
  (bind_of_ok (unpackLayer_of_layerUnpacked hu2)).trans (raise_first (unpackLayer_of_unpackFails h))

variable {k1 : Nat} {h1 : Bytes} (hu1 : LayerUnpacked v r .udp rule1 (slice src (1 + s0) s1) dir k1 h1)
include hu1

theorem unpackParts_of_ip6_fails (h : UnpackFails v r .ip6 rule0 (slice src 1 s0) dir e) :
    unpackParts v r src dir rule0 rule1 rule2 s0 s1 = raise e :=
  (bind_of_ok (unpackLayer_of_layerUnpacked hu2)).trans
    ((bind_of_ok (unpackLayer_of_layerUnpacked hu1)).trans (raise_first (unpackLayer_of_unpackFails h)))

theorem unpackParts_of_unpacked {k0 : Nat} {h0 : Bytes}
    (hu0 : LayerUnpacked v r .ip6 rule0 (slice src 1 s0) dir k0 h0) :
    unpackParts v r src dir rule0 rule1 rule2 s0 s1 = .ok (h0 ++ h1 ++ h2 ++ src.drop (1 + s0 + s1 + k2)) := by
  rw [← List.drop_drop]
  exact (bind_of_ok (unpackLayer_of_layerUnpacked hu2)).trans
    ((bind_of_ok (unpackLayer_of_layerUnpacked hu1)).trans (bind_of_ok (unpackLayer_of_layerUnpacked hu0)))

end

/-! ## The lengths of the headers -/

theorem length_assembled_ip6 (cols : List Col) : (assembled v .ip6 cols dir).length = 40 := length_bytesBE 40 _

theorem length_assembled_udp (cols : List Col) : (assembled v .udp cols dir).length = 8 := length_bytesBE 8 _

/-- A layer's part of the size that goes with its rule is unpacked to the header's length, where the layer's columns
assemble to that length and a verbatim part has it. -/
theorem length_of_layerUnpacked {layer : Layer} {rule : Option Rule} {part h : Bytes} {n k : Nat}
    (hassembled : ∀ cols, (assembled v layer cols dir).length = n) (hsize : PartSized n rule dir part.length)
    (hu : LayerUnpacked v r layer rule part dir k h) : h.length = n := by
  cases rule with
  | none =>
    obtain ⟨-, rfl⟩ := hu
    exact hsize
  | some rl =>
    obtain ⟨cols, -, -, hh⟩ := hu
    cases hassembles : assembles v.table layer cols with
    | true =>
      rw [assemble_of_assembles dir hassembles, Except.ok.injEq] at hh
      exact hh ▸ hassembled cols
    | false =>
      rw [assemble_of_not_assembles dir hassembles] at hh
      exact absurd hh (raise_ne_ok _ _)

end

/-! ## From the parts to the packet -/

/-- `DECOMP` from the input on. -/
def decompFrom (v : View) (r : Regs) (src : Bytes) (dir : PacketDir) : Comp Effect := do
  let dev ← lookupDevice v r
  let out ← decompressPacket v r dev src dir
  if r.outCap.toNat < out.length then raise .insufficientBuffer
  else do
    let (out1, _) ← patchLen out
    let (out2, _, _) ← patchChk out1
    let w ← writeOut v r out2
    return { writes := [w], result := out2.length, result2 := fieldAt src 0 1 }

section
variable {v : View} {r : Regs} {src : Bytes} {dir : PacketDir}

theorem run_decomp_of_empty (hdir : dirIs r dir = true) (h : r.len.toNat = 0) :
    cmdDecomp.run v r = raise .cursorOverrun :=
  (bind_of_ok (checkDir_of_dirIs hdir)).trans (if_pos (by omega))

theorem run_decomp (hdir : dirIs r dir = true) (h : 1 ≤ r.len.toNat) : cmdDecomp.run v r =
    (checkRegions v r >>= fun _ => readBytes v r.aAddr.toNat r.len.toNat >>= fun src => decompFrom v r src dir) :=
  (bind_of_ok (checkDir_of_dirIs hdir)).trans (if_neg (Nat.not_lt.2 h))

end

theorem exists_patchChk {buf : Bytes} (h48 : 48 ≤ buf.length) (hmax : buf.length - 40 ≤ 0xFFFF) :
    ∃ out one val, patchChk buf = .ok (out, one, val) := by
  by_cases h : be (slice buf 46 2) = 0
  · exact ⟨_, _, _, patchChk_of_zero h48 hmax h⟩
  · exact ⟨_, _, _, patchChk_of_nonzero h48 hmax h⟩

/-- A packet of legal length is patched, and keeps its length. -/
theorem exists_patches {buf : Bytes} (h48 : 48 ≤ buf.length) (hmax : buf.length - 40 ≤ 0xFFFF) :
    ∃ (pkt1 pkt : Bytes) (mask one val : Nat), patchLen buf = .ok (pkt1, mask) ∧ patchChk pkt1 = .ok (pkt, one, val) ∧
      pkt.length = buf.length := by
  have hlen := patchLen_of_legal h48 hmax
  have hkeep := length_of_patchLen h48 hlen
  obtain ⟨pkt, one, val, hchk⟩ := exists_patchChk (hkeep.symm ▸ h48) (hkeep.symm ▸ hmax)
  exact ⟨_, pkt, _, one, val, hlen, hchk, (length_of_patchChk (hkeep.symm ▸ h48) hchk).trans hkeep⟩

theorem length_of_inputIs {v : View} {r : Regs} {c : Bytes} (h : inputIs v r c = true) : c.length = r.len.toNat := by
  obtain ⟨-, hc⟩ := Bool.and_eq_true_iff.1 h
  rw [← beq_iff_eq.1 hc, Memory.length_read]

/-! ## The command -/

/-- `DECOMP` runs in state `s` on the input `src`: regions apart, nothing out of memory, nothing written meanwhile. -/
structure DecompRuns (s : State) (r : Regs) (v : View) (dir : PacketDir) (src : Bytes) : Prop where
  regs : s.snap.regs = r
  view : viewOf .decomp s = v
  undisturbed : Undisturbed s
  apart : RegionsApart r
  dir : dirIs r dir = true
  nonempty : 1 ≤ r.len.toNat
  fitD : BytesFit s r.dAddr.toNat r.outCap.toNat
  fitC : BytesFit s r.ctxAddr.toNat r.ctxSize.toNat
  input : inputIs v r src = true

namespace DecompRuns
variable {s : State} {r : Regs} {v : View} {dir : PacketDir} {src : Bytes} (hd : DecompRuns s r v dir src)
include hd

theorem run_eq : (commandOf .decomp).run (viewOf .decomp s) r = decompFrom v r src dir := by
  obtain ⟨rfl, rfl, hu, -, hdir, h1, hfitD, hfitC, hin⟩ := hd
  exact (run_decomp hdir h1).trans ((bind_of_ok (checkRegions_of_fit hfitD hfitC)).trans
    (bind_of_ok (readBytes_of_inputIs (viewOf_raced hu) hin)))

theorem failsWith {e : Err} (h : decompFrom v r src dir = raise e) : FailsWith (exec .decomp s) s e := by
  have hrun := hd.run_eq.trans h
  obtain ⟨rfl, -, -, hapart, -⟩ := hd
  exact failsWith_of_run (List.mem_cons_of_mem _ List.mem_cons_self) hapart hrun

theorem raced : v.raced = [] := by
  obtain ⟨-, rfl, hu, -⟩ := hd
  exact viewOf_raced hu

variable {dk : Nat} (hdev : deviceIs v r dk = true)
include hdev

theorem decompFrom_eq : decompFrom v r src dir = do
    let out ← decompressPacket v r (r.devtabAddr.toNat + 32 * dk) src dir
    if r.outCap.toNat < out.length then raise .insufficientBuffer
    else do
      let (out1, _) ← patchLen out
      let (out2, _, _) ← patchChk out1
      let w ← writeOut v r out2
      return { writes := [w], result := out2.length, result2 := fieldAt src 0 1 } :=
  bind_of_ok (lookupDevice_of_deviceIs hd.raced hdev)

/-- What raises while the packet is rebuilt is the command's error. -/
theorem failsWith_of_packet {e : Err}
    (h : decompressPacket v r (r.devtabAddr.toNat + 32 * dk) src dir = raise e) : FailsWith (exec .decomp s) s e :=
  hd.failsWith ((hd.decompFrom_eq hdev).trans (raise_first h))

variable {out : Bytes} (hout : decompressPacket v r (r.devtabAddr.toNat + 32 * dk) src dir = .ok out)
include hout

theorem failsWith_of_cap (hcap : r.outCap.toNat < out.length) : FailsWith (exec .decomp s) s .insufficientBuffer :=
  hd.failsWith ((hd.decompFrom_eq hdev).trans ((bind_of_ok hout).trans (if_pos hcap)))

theorem failsWith_of_too_long (hcap : out.length ≤ r.outCap.toNat) (h : 0xFFFF < out.length - 40) :
    FailsWith (exec .decomp s) s .operand :=
  hd.failsWith ((hd.decompFrom_eq hdev).trans ((bind_of_ok hout).trans ((if_neg (Nat.not_lt.2 hcap)).trans
    (raise_first (raise_first (if_pos (Or.inr h)))))))

/-- A packet that fits is patched, and the patched packet is what the command writes. -/
theorem decompFrom_of_fit {pkt1 pkt : Bytes} {mask one val : Nat} (hcap : out.length ≤ r.outCap.toNat)
    (hlen : patchLen out = .ok (pkt1, mask)) (hchk : patchChk pkt1 = .ok (pkt, one, val))
    (hkeep : pkt.length = out.length) :
    decompFrom v r src dir = .ok ⟨[(r.dAddr.toNat, pkt)], pkt.length, (src.headD 0#8).toNat⟩ := by
  rw [hd.decompFrom_eq hdev, bind_of_ok hout, if_neg (Nat.not_lt.2 hcap), bind_of_ok hlen]
  refine (bind_of_ok hchk).trans ?_
  rw [fieldAt_zero_one]
  obtain ⟨-, rfl, -, -, -, -, hfitD, -⟩ := hd
  exact bind_of_ok (writeOut_of_fit (hkeep.symm ▸ hcap) hfitD)

end DecompRuns

/-- The parts are unpacked, put together, patched and stored. -/
theorem unpacksParts_of_runs {s : State} {r : Regs} {v : View} {dir : PacketDir} {src : Bytes} {dk b0 s0 s1 : Nat}
    {rule0 rule1 rule2 : Option Rule} (hd : DecompRuns s r v dir src) (hdev : deviceIs v r dk = true)
    (hb0 : b0 = (src.headD 0#8).toNat) (hs0 : PartSized 40 rule0 dir s0) (hs1 : PartSized 8 rule1 dir s1)
    (hfit : 1 + s0 + s1 ≤ src.length)
    (hparts : decompressPacket v r (r.devtabAddr.toNat + 32 * dk) src dir =
      unpackParts v r src dir rule0 rule1 rule2 s0 s1) :
    UnpacksParts s r v dir src b0 rule0 rule1 rule2 s0 s1 := by
  refine ⟨fun e he => hd.failsWith_of_packet hdev (hparts.trans (unpackParts_of_coap_fails he)), fun k2 h2 hu2 =>
    ⟨fun e he => hd.failsWith_of_packet hdev (hparts.trans (unpackParts_of_udp_fails hu2 he)), fun k1 h1 hu1 =>
      ⟨fun e he => hd.failsWith_of_packet hdev (hparts.trans (unpackParts_of_ip6_fails hu2 hu1 he)),
        fun k0 h0 pkt0 hu0 hpkt0 => ?_⟩⟩⟩
  have hout := hparts.trans (unpackParts_of_unpacked hu2 hu1 hu0)
  rw [← hpkt0] at hout
  refine ⟨hd.failsWith_of_cap hdev hout, hd.failsWith_of_too_long hdev hout, fun hcap hmax => ?_⟩
  have hpart0 : (slice src 1 s0).length = s0 := length_slice _ _ _ (by omega)
  have hpart1 : (slice src (1 + s0) s1).length = s1 := length_slice _ _ _ (by omega)
  have h40 : h0.length = 40 := length_of_layerUnpacked length_assembled_ip6 (hpart0.symm ▸ hs0) hu0
  have h8 : h1.length = 8 := length_of_layerUnpacked length_assembled_udp (hpart1.symm ▸ hs1) hu1
  have h48 : 48 ≤ pkt0.length := by
    simp only [hpkt0, List.length_append]
    omega
  obtain ⟨pkt1, pkt, mask, one, val, hlen, hchk, hkeep⟩ := exists_patches h48 hmax
  have hrun := hd.run_eq.trans (hd.decompFrom_of_fit hdev hout hcap hlen hchk hkeep)
  rw [← hb0] at hrun
  obtain ⟨t, hexec, ht, hread, hfree, hframe⟩ := exec_of_run_packet (List.mem_cons_of_mem _ List.mem_cons_self)
    hd.undisturbed hd.regs hd.apart hd.fitD hd.fitC (hkeep.symm ▸ hcap) hrun
  exact ⟨pkt1, pkt, mask, one, val, t, hlen, hchk, hexec, ht, hkeep, hread, hfree, hframe⟩

/-- Settles O59: `DECOMP` is the checks of R255 in their order, then the rules of the id byte, the sizes, the parts. -/
theorem decompResult : Obligations.DecompResult := by
  intro s r v dir hregs hview hu hapart hdir
  refine ⟨fun h0 => ?_, fun h1 hfit => ?_, fun src b0 h1 hfitD hfitC hin hb0 => ?_⟩
  · subst hregs
    exact failsWith_of_run (List.mem_cons_of_mem _ List.mem_cons_self) hapart (run_decomp_of_empty hdir h0)
  · subst hregs
    exact failsWith_of_run (List.mem_cons_of_mem _ List.mem_cons_self) hapart
      ((run_decomp hdir h1).trans (checkRegions_readBytes_of_not_fit _ hfit))
  have hd : DecompRuns s r v dir src := ⟨hregs, hview, hu, hapart, hdir, h1, hfitD, hfitC, hin⟩
  refine ⟨fun h => hd.failsWith (raise_first (lookupDevice_of_noDevice hd.raced h)),
    fun k h => hd.failsWith (raise_first (lookupDevice_of_deviceFault hd.raced h)), fun dk dev hdev hdk => ?_⟩
  subst hdk
  refine ⟨fun e he => hd.failsWith_of_packet hdev (decompressPacket_of_coap_unnamed hb0 he), fun rule2 hname2 =>
    ⟨fun e he => hd.failsWith_of_packet hdev (decompressPacket_of_udp_unnamed hb0 hname2 he), fun rule1 hname1 =>
      ⟨fun e he => hd.failsWith_of_packet hdev (decompressPacket_of_ip6_unnamed hb0 hname2 hname1 he),
        fun rule0 hname0 => ?_⟩⟩⟩
  have hnamed := decompressPacket_of_named (r := r) (dir := dir) hb0 hname2 hname1 hname0
  refine ⟨fun e he => hd.failsWith_of_packet hdev (hnamed.trans (raise_first (partSize_of_sizeFails he))),
    fun s0 hs0 => ?_⟩
  rw [bind_of_ok (partSize_of_partSized hs0)] at hnamed
  refine ⟨fun e he => hd.failsWith_of_packet hdev (hnamed.trans (raise_first (partSize_of_sizeFails he))),
    fun s1 hs1 => ?_⟩
  rw [bind_of_ok (partSize_of_partSized hs1), ← length_of_inputIs hin] at hnamed
  exact ⟨fun hshort => hd.failsWith_of_packet hdev (hnamed.trans (if_pos hshort)), fun hlong =>
    unpacksParts_of_runs hd hdev hb0 hs0 hs1 hlong (hnamed.trans (if_neg (Nat.not_lt.2 hlong)))⟩

end Sys2Proof.Machine
end

section
/-! What a command that completes with an error leaves in memory (60_exceptions.md R282, 46_pipeline.md R254, R255). -/

namespace Sys2Proof.Machine

/-- Only `COMP` and `DECOMP` leave bytes holding any value. -/
theorem scratch_eq_nil {i : Instr} (hc : i ≠ .comp) (hd : i ≠ .decomp) (r : Regs) : (commandOf i).scratch r = [] := by
  cases i
  case comp => exact absurd rfl hc
  case decomp => exact absurd rfl hd
  all_goals rfl

/-- The bytes that `COMP` and `DECOMP` leave holding any value are those of the output range and the context region. -/
theorem inRanges_scratch {i : Instr} (hi : i = .comp ∨ i = .decomp) (r : Regs) (x : Nat) :
    inRanges ((commandOf i).scratch r) x = true ↔
      r.dAddr.toNat ≤ x ∧ x < r.dAddr.toNat + r.outCap.toNat ∨
      r.ctxAddr.toNat ≤ x ∧ x < r.ctxAddr.toNat + r.ctxSize.toNat := by
  have hscratch : (commandOf i).scratch r = [outRange r, ctxRange r] := by rcases hi with rfl | rfl <;> rfl
  rw [hscratch]
  simp [Range.has, outRange, ctxRange]

/-- A command whose host kept its duty and that completes with an error has stored nothing. -/
theorem exec_unraced_of_statusErr {i : Instr} {s t : State} (hu : Undisturbed s) (h : exec i s = .next t)
    (herr : statusErr t.status = true) :
    ∃ e : Err, t = (s.clobber ((commandOf i).scratch s.snap.regs)).completeError e := by
  rcases exec_unraced_cases hu h with ⟨e, -, rfl⟩ | ⟨e, -, ht⟩
  · exact absurd herr (by rw [(succeeds_completeOk _ e).noErr]; decide)
  · exact ⟨e, ht⟩

/-- Settles O19: an error completion only frees bytes, and these are the two regions of `COMP` and `DECOMP`. -/
theorem errorsArePrecise : Obligations.ErrorsArePrecise := by
  refine ⟨fun i s t hc hd hu h herr => ?_, fun i s t hi hu h herr x => ?_⟩
  · obtain ⟨e, rfl⟩ := exec_unraced_of_statusErr hu h herr
    rw [scratch_eq_nil hc hd]
    rfl
  · obtain ⟨e, rfl⟩ := exec_unraced_of_statusErr hu h herr
    have hfrees := freesOnly_of_clobber (W := inRanges ((commandOf i).scratch s.snap.regs))
      (t := (s.clobber ((commandOf i).scratch s.snap.regs)).completeError e) le_rfl rfl rfl (fun _ => rfl) x
    simpa only [inRanges_scratch hi] using hfrees

end Sys2Proof.Machine
end

section
/-! Reset at any time, and what it does to the memory of the command that it abandons (70_reset_and_hazards.md R300,
10_state.md R43). -/

namespace Sys2Proof.Machine

/-! ## The bytes that a completion changes -/

/-- The writes of an effect that fits cover no byte above memory (20_memory.md R50). -/
theorem inRanges_ranges_of_ge {e : Effect} {size x : Nat} (he : e.Fits size) (hx : size ≤ x) :
    inRanges e.ranges x = false := by
  simp only [inRanges, Effect.ranges, List.any_map, List.any_eq_false, Function.comp_apply, Range.has,
    Bool.and_eq_true, decide_eq_true_eq]
  intro w hw hin
  rcases he w hw with hnil | hfit
  · rw [hnil, List.length_nil] at hin
    omega
  · omega

/-- A byte that takes no free value, since it lies in none of the ranges or above memory, is as before. -/
theorem State.clobber_get_of_not_freed {s : State} {rs : List Range} {x : Nat}
    (hx : ¬ (inRanges rs x = true ∧ x < s.params.memSize)) : (s.clobber rs).mem.get x = s.mem.get x := by
  have hfrees := freesOnly_of_clobber (s := s) (t := s.clobber rs) le_rfl rfl rfl (fun _ => rfl) x
  rwa [if_neg hx] at hfrees

/-- A command whose host kept its duty changes no byte but those of memory that it is writing (20_memory.md R60). -/
theorem exec_unraced_get {i : Instr} {s u : State} {x : Nat} (hu : Undisturbed s) (h : exec i s = .next u)
    (hx : ¬ (inRanges ((commandOf i).written s) x = true ∧ x < s.params.memSize)) : u.mem.get x = s.mem.get x := by
  rw [written_of_not_raced (compute_ne_raced hu)] at hx
  rcases exec_unraced_cases hu h with ⟨e, hc, rfl⟩ | ⟨e, hc, rfl⟩ <;>
    simp only [hc, Command.writtenBy] at hx
  · have hfits : e.Fits s.params.memSize := by simpa only [hc, ends_ok] using ends_compute i s
    have hscratch : ¬ (inRanges ((commandOf i).scratch s.snap.regs) x = true ∧ x < s.params.memSize) :=
      fun hin => hx ⟨by simp [hin.1], hin.2⟩
    have hstores : inRanges e.ranges x = false := by
      rcases Nat.lt_or_ge x s.params.memSize with hlt | hge
      · exact Bool.eq_false_iff.2 fun hin => hx ⟨by simp [hin], hlt⟩
      · exact inRanges_ranges_of_ge hfits hge
    calc
      _ = (s.clobber ((commandOf i).scratch s.snap.regs)).mem.get x := storeAll_get x e.writes _ hstores
      _ = s.mem.get x := State.clobber_get_of_not_freed hscratch
  · exact State.clobber_get_of_not_freed hx

/-- A command whose host kept its duty is writing what its completion tells. -/
theorem written_eq_wroteIn {i : Instr} {s u : State} (hu : Undisturbed s) (h : exec i s = .next u) :
    inRanges ((commandOf i).written s) = wroteIn i s.snap.regs u := by
  rw [written_of_not_raced (compute_ne_raced hu)]
  exact funext (writtenBy_eq_wroteIn hu h)

/-- A command other than `COMP` and `DECOMP` that completes with an error is writing nothing (60_exceptions.md R282). -/
theorem written_of_statusErr {i : Instr} {s u : State} (hu : Undisturbed s) (h : exec i s = .next u)
    (herr : statusErr u.status = true) (hcomp : i ≠ .comp) (hdecomp : i ≠ .decomp) : (commandOf i).written s = [] := by
  rw [written_of_not_raced (compute_ne_raced hu)]
  rcases exec_unraced_cases hu h with ⟨e, -, rfl⟩ | ⟨e, hc, -⟩
  · exact absurd herr (by rw [(succeeds_completeOk _ e).noErr]; decide)
  · rw [hc]
    exact scratch_eq_nil hcomp hdecomp _

/-! ## Reset -/

/-- Reset frees the bytes that the running command is writing. -/
theorem freesOnly_hostReset (s : State) : FreesOnly s s.hostReset (inRanges (runningWrites s)) :=
  freesOnly_of_clobber (Nat.le_succ _) rfl rfl fun _ => rfl

theorem hostReset_mem_of_no_writes {s : State} (h : runningWrites s = []) : s.hostReset.mem = s.mem := by
  rw [State.hostReset_mem, h]
  rfl

theorem step_reset {s : State} {rest : List Event} (he : s.events = .reset :: rest) :
    step s = .next (State.hostReset { s with events := rest }) := step_cons he

theorem runningWrites_of_idle {s : State} (hf : s.fsm = .idle) : runningWrites s = [] := by
  rw [runningWrites, hf]

/-- Settles O15: what the running command is writing is what reset frees, and that is told by its completion. -/
theorem resetEvent : Obligations.ResetEvent := by
  intro s rest he
  refine ⟨_, step_reset he, rfl, rfl, rfl, rfl, fun q => by cases q <;> rfl, rfl, rfl, rfl, rfl,
    fun hf => hostReset_mem_of_no_writes (runningWrites_of_idle hf),
    fun e hf hd => hostReset_mem_of_no_writes (runningWrites_of_error hf hd), fun i hf hd => ?_⟩
  have hw : runningWrites s = (commandOf i).written s := runningWrites_of_ok hf hd
  have hfrees : FreesOnly s (State.hostReset { s with events := rest }) (inRanges ((commandOf i).written s)) :=
    hw ▸ freesOnly_hostReset { s with events := rest }
  refine ⟨fun x hx => ?_, fun u hu hexec => ⟨fun x hne => ?_, ?_, fun herr hcomp hdecomp => ?_⟩,
    _, mayBeWriting_written i s, hfrees⟩
  · have hout : ¬ (inRanges ((commandOf i).written s) x = true ∧ x < s.params.memSize) :=
      fun hin => Bool.eq_false_iff.1 hx (written_within_mayWrite i s x hin.1)
    simpa only [if_neg hout] using hfrees x
  · have hin := Classical.not_not.1 (mt (exec_unraced_get hu hexec) hne)
    simpa only [if_pos hin] using hfrees x
  · exact written_eq_wroteIn hu hexec ▸ hfrees
  · exact hostReset_mem_of_no_writes (hw.trans (written_of_statusErr hu hexec herr hcomp hdecomp))

end Sys2Proof.Machine
end
